-- ==== Sys2Proof/Word.lean ====
section
/-! DEFINITION. The word types of Linquepo and their plainest arithmetic (spec/00_scope.md R2, R3). -/

namespace Sys2Proof

/-- A byte of memory. -/
abbrev Byte := BitVec 8

/-- A scalar register, a crumb word or an instruction word: 64 bits (R1, R284). -/
abbrev Word := BitVec 64

/-- One lane of a vector register: 32 bits (R1). -/
abbrev Lane := BitVec 32

/-- Lanes per group (R1). -/
def nLanes : Nat := 32

/-- Bits [hi:lo] of a word, as a number (R2: both ends included). -/
def bits (w : BitVec n) (hi lo : Nat) : Nat := (w.toNat >>> lo) % 2 ^ (hi + 1 - lo)

/-- One bit of a word. -/
def bit (w : BitVec n) (i : Nat) : Bool := w.getLsbD i

/-- A word from a number, wrapping. -/
def w64 (n : Nat) : Word := BitVec.ofNat 64 n

/-- A lane from a number, wrapping. -/
def w32 (n : Nat) : Lane := BitVec.ofNat 32 n

/-- Round `n` up to a multiple of `m`. -/
def roundUp (n m : Nat) : Nat := (n + m - 1) / m * m

/-- The least number of parts of size `m` that hold `n`. -/
def ceilDiv (n m : Nat) : Nat := (n + m - 1) / m

end Sys2Proof
end

