-- ==== Sys2Proof/Syntax.lean ====
section
/-! DEFINITION. The syntax of Linquepo and of the module's steps: register names, operands, and one constructor
of `Instr` for each row of spec/opcode_table.json. The first part are the instructions (R284 to R300), the second
the steps of the other agents and of the outside world, whose operands are what the agent or the world brings. -/

namespace Sys2Proof

/-- Register names of R294. A reserved name has no constructor, so decoding refuses it. -/
inductive Reg where
  | z | ones | lid | gid | gcount | cx | cy | spx | spy | spw | sph | lx | ly | lw | lh | inst | node
  | ic | hp | cf | hz | role
  | wp (i : Fin 4)
  | k (i : Fin 32)
  | s (i : Fin 128)
  | v (i : Fin 768)
  deriving DecidableEq, Repr, Inhabited

namespace Reg

/-- A vector register. -/
def isV : Reg → Bool
  | .v _ => true
  | _ => false

/-- A scalar register s0 to s127. -/
def isS : Reg → Bool
  | .s _ => true
  | _ => false

/-- z or s0 to s127: the names a scalar instruction may write (R322). -/
def isSZ (r : Reg) : Bool := r == .z || r.isS

end Reg

/-- The fields every guarded instruction carries (R287): the switch marker S, the guard value GV, bit GB and
register GR. The all-zero guard reads bit 0 of z and always executes (R292). -/
structure Hd where
  mark : Bool
  gv : Bool
  gb : Fin 32
  gr : Reg
  deriving DecidableEq, Repr, Inhabited

/-- Integer type of class 0 (R325): width code 0 to 3 (64, 32, 16, 8) and the unsigned flag. -/
structure ITy where
  wid : Fin 4
  un : Bool
  deriving DecidableEq, Repr, Inhabited

/-- Condition of CMP (R331) and VCMP (R362). -/
inductive CC where
  | eq | ne | lt | ltu
  deriving DecidableEq, Repr, Inhabited

/-- Condition of FCMP (R367). -/
inductive FCC where
  | eq | lt | le | un
  deriving DecidableEq, Repr, Inhabited

/-- Rounding modes (R234, R297). -/
inductive RM where
  | rne | rtz | rup | rdn
  deriving DecidableEq, Repr, Inhabited

/-- The element types that CVT accepts (R297, R370). -/
inductive Ty where
  | i32 | i8 | i16 | n32 | n8 | n16 | f32 | bf16 | f16 | e4m3 | e5m2 | mk8
  deriving DecidableEq, Repr, Inhabited

/-- Scopes (R252, R297). -/
inductive Scope where
  | grp | core | gang | die | dev | sys
  deriving DecidableEq, Repr, Inhabited

/-- Ordering modes (R297). -/
inductive Order where
  | rlx | acq | rel | ar
  deriving DecidableEq, Repr, Inhabited

/-- H field of SETK (R289). -/
inductive HF where
  | full | hi | lo
  deriving DecidableEq, Repr, Inhabited

/-- A B operand of classes 2 and 3: a register, or a vector register read cross-lane at offset k (R296). -/
inductive BOp where
  | reg (r : Reg)
  | cross (r : Reg) (k : BitVec 6)
  deriving DecidableEq, Repr, Inhabited

/-- Memory address forms (R299): AM 0, AM 1 (extent-relative) and AM 2 (per lane). -/
inductive Addr where
  | imm (a : Reg) (off : BitVec 17)
  | ext (slot : Fin 16) (o : Reg)
  | lane (a : Reg) (b : Reg)
  deriving DecidableEq, Repr, Inhabited

/-- M[2:0] of VST and VSTL (R377): SZ, and UN, which a store has but does not use. -/
structure StoreSize where
  sz : Fin 4
  un : Bool
  deriving DecidableEq, Repr, Inhabited

/-- Atomic operations (R384). -/
inductive AOp where
  | add | sub | and | or | xor | min | max | minu | maxu | exch | fadd | incw | addb
  deriving DecidableEq, Repr, Inhabited

/-- Lane-reduction operations (R373). -/
inductive ROp where
  | add | min | max | and | or | xor
  deriving DecidableEq, Repr, Inhabited

/-- Lane-reduction types (R373). -/
inductive RTy where
  | i32 | n32 | f32
  deriving DecidableEq, Repr, Inhabited

/-- Selector of a control register (R343). -/
structure Xsr where
  num : BitVec 10
  idx : BitVec 4
  word : BitVec 3
  deriving DecidableEq, Repr, Inhabited

/-- Names a task: partition, launch number, node, instance (R66). -/
structure TaskId where
  part : Nat
  launch : Nat
  node : Nat
  inst : Nat
  deriving DecidableEq, Repr, Inhabited

/-- What a port's partner brings to negotiation (R16, R22, R23). -/
inductive PartnerReply where
  | silent
  | failed
  | offer (fast wide interleaved spare : Bool)
  deriving DecidableEq, Repr, Inhabited

/-- Where an SRAM error lies (R188). -/
inductive SramSite where
  | line (pa : Nat)
  | localLine (gang core line : Nat)
  | vreg (group reg : Nat) (lanes : BitVec 32)
  | sreg (group reg : Nat)
  | granule (core row : Nat)
  | bank (core : Nat) (bank : Bool)
  | graph (part handle : Nat)
  deriving DecidableEq, Repr, Inhabited

/-- Events that move a locked TDI to ERROR (R43). -/
inductive TdiCause where
  | pfConfigWrite | partCfgWrite | functionReset | ideFailure
  deriving DecidableEq, Repr, Inhabited

/-- A register of the control window that an access names (R29): function 0 is the PF, n is VF n. -/
structure WinAddr where
  fn : Fin 17
  off : BitVec 16
  deriving DecidableEq, Repr, Inhabited

/-- Every step of spec/opcode_table.json. -/
inductive Instr where
  -- class 0 (R327)
  | add (h : Hd) (t : ITy) (d a b : Reg)
  | sub (h : Hd) (t : ITy) (d a b : Reg)
  | addi (h : Hd) (d a : Reg) (imm : BitVec 17)
  | mul (h : Hd) (t : ITy) (d a b : Reg)
  | mulh (h : Hd) (t : ITy) (d a b : Reg)
  | mulodd (h : Hd) (t : ITy) (d a b : Reg)
  | div (h : Hd) (t : ITy) (d a b : Reg)
  | rem (h : Hd) (t : ITy) (d a b : Reg)
  | and (h : Hd) (t : ITy) (d a b : Reg)
  | or (h : Hd) (t : ITy) (d a b : Reg)
  | xor (h : Hd) (t : ITy) (d a b : Reg)
  | andn (h : Hd) (t : ITy) (d a b : Reg)
  | not (h : Hd) (t : ITy) (d a : Reg)
  | neg (h : Hd) (t : ITy) (d a : Reg)
  | shl (h : Hd) (t : ITy) (d a b : Reg)
  | shr (h : Hd) (t : ITy) (d a b : Reg)
  | sar (h : Hd) (t : ITy) (d a b : Reg)
  | rol (h : Hd) (t : ITy) (d a b : Reg)
  | ror (h : Hd) (t : ITy) (d a b : Reg)
  | clz (h : Hd) (t : ITy) (d a : Reg)
  | ctz (h : Hd) (t : ITy) (d a : Reg)
  | popc (h : Hd) (t : ITy) (d a : Reg)
  | min (h : Hd) (t : ITy) (d a b : Reg)
  | max (h : Hd) (t : ITy) (d a b : Reg)
  | cmp (h : Hd) (cc : CC) (bit : Fin 32) (d a b : Reg)
  | bset (h : Hd) (n : Fin 64) (d a b : Reg)
  | bclr (h : Hd) (n : Fin 64) (d a b : Reg)
  | bflip (h : Hd) (n : Fin 64) (d a b : Reg)
  | bext (h : Hd) (pos lenm : Fin 64) (un : Bool) (d a : Reg)
  | bins (h : Hd) (pos lenm : Fin 64) (d a : Reg)
  | mov (h : Hd) (t : ITy) (d a : Reg)
  | swap (h : Hd) (d a : Reg)
  | sel (h : Hd) (t : ITy) (d a b : Reg)
  | setk (mark : Bool) (d : Reg) (f : HF) (imm : BitVec 32)
  -- class 1 (R337 to R356)
  | br (h : Hd) (off : BitVec 27)
  | call (h : Hd) (d : Reg) (off : BitVec 27)
  | ret (h : Hd) (a : Reg)
  | loop (h : Hd) (d : Reg) (off : BitVec 27)
  | nop (h : Hd)
  | yield (h : Hd)
  | halt (h : Hd)
  | trap (h : Hd) (imm : BitVec 17)
  | commit (h : Hd)
  | revC (h : Hd) (a : Reg)
  | revP (h : Hd) (a : Reg)
  | xsrRd (h : Hd) (x : Xsr) (d a : Reg)
  | xsrWr (h : Hd) (x : Xsr) (a : Reg)
  | regGrow (h : Hd) (d a : Reg)
  | regShrink (h : Hd) (d a : Reg)
  | svcResume (h : Hd) (hlog : BitVec 5) (d a : Reg)
  | svcResumeC (h : Hd) (hlog : BitVec 5) (d a b : Reg)
  | svcResumeP (h : Hd) (hlog : BitVec 5) (d a b : Reg)
  | svcKill (h : Hd) (d a : Reg)
  | svcCommit (h : Hd) (d a : Reg)
  | svcMigrate (h : Hd) (d a b : Reg)
  | svcPurge (h : Hd) (all : Bool) (a b : Reg)
  | qctlRd (h : Hd) (d : Reg)
  | qctlQ (h : Hd) (d : Reg)
  | qctlR (h : Hd) (d : Reg)
  | mboxSendVerify (h : Hd) (a : Reg)
  | mboxSendMeas (h : Hd) (a : Reg)
  | mboxRecv (h : Hd) (d a : Reg)
  | wdogKick (h : Hd) (a : Reg)
  | slotSel (h : Hd) (d a : Reg)
  -- class 2 (R361)
  | vadd (h : Hd) (d a : Reg) (b : BOp)
  | vsub (h : Hd) (d a : Reg) (b : BOp)
  | vaddi (h : Hd) (d a : Reg) (imm : BitVec 17)
  | vmul (h : Hd) (d a : Reg) (b : BOp)
  | vmulh (h : Hd) (un : Bool) (d a : Reg) (b : BOp)
  | vmulodd (h : Hd) (d a : Reg) (b : BOp)
  | vmad (h : Hd) (d a : Reg) (b : BOp)
  | vand (h : Hd) (d a : Reg) (b : BOp)
  | vor (h : Hd) (d a : Reg) (b : BOp)
  | vxor (h : Hd) (d a : Reg) (b : BOp)
  | vandn (h : Hd) (d a : Reg) (b : BOp)
  | vnot (h : Hd) (d a : Reg)
  | vneg (h : Hd) (d a : Reg)
  | vshl (h : Hd) (d a : Reg) (b : BOp)
  | vshr (h : Hd) (d a : Reg) (b : BOp)
  | vsar (h : Hd) (d a : Reg) (b : BOp)
  | vrol (h : Hd) (d a : Reg) (b : BOp)
  | vmin (h : Hd) (un : Bool) (d a : Reg) (b : BOp)
  | vmax (h : Hd) (un : Bool) (d a : Reg) (b : BOp)
  | vabs (h : Hd) (d a : Reg)
  | vcmp (h : Hd) (cc : CC) (bit : Fin 32) (d a : Reg) (b : BOp)
  | vsel (h : Hd) (d a : Reg) (b : BOp)
  | vmov (h : Hd) (d a : Reg)
  | vswap (h : Hd) (d a : Reg)
  | vclz (h : Hd) (d a : Reg)
  | vpopc (h : Hd) (d a : Reg)
  | vbflip (h : Hd) (d a : Reg) (b : BOp)
  | vbext (h : Hd) (un : Bool) (pos lenm : Fin 32) (d a : Reg)
  | vbins (h : Hd) (pos lenm : Fin 32) (d a : Reg)
  | vbcast (h : Hd) (hi : Bool) (d a : Reg)
  -- class 3 (R365)
  | fadd (h : Hd) (rm : RM) (d a : Reg) (b : BOp)
  | fsub (h : Hd) (rm : RM) (d a : Reg) (b : BOp)
  | fmul (h : Hd) (rm : RM) (d a : Reg) (b : BOp)
  | ffma (h : Hd) (rm : RM) (d a : Reg) (b : BOp)
  | fmin (h : Hd) (d a : Reg) (b : BOp)
  | fmax (h : Hd) (d a : Reg) (b : BOp)
  | fcmp (h : Hd) (cc : FCC) (bit : Fin 32) (d a : Reg) (b : BOp)
  | fexp2 (h : Hd) (rm : RM) (d a : Reg)
  | flog2 (h : Hd) (rm : RM) (d a : Reg)
  | frcp (h : Hd) (rm : RM) (d a : Reg)
  | frsq (h : Hd) (rm : RM) (d a : Reg)
  | fsqrt (h : Hd) (rm : RM) (d a : Reg)
  | fdiv (h : Hd) (rm : RM) (d a : Reg) (b : BOp)
  | frint (h : Hd) (rm : RM) (d a : Reg)
  | fscale (h : Hd) (rm : RM) (d a : Reg) (b : BOp)
  | cvt (h : Hd) (rm : RM) (dt st : Ty) (sp dp : Fin 4) (d a : Reg)
  | hadd2 (h : Hd) (rm : RM) (f16 : Bool) (d a : Reg) (b : BOp)
  | hmul2 (h : Hd) (rm : RM) (f16 : Bool) (d a : Reg) (b : BOp)
  | hfma2 (h : Hd) (rm : RM) (f16 : Bool) (d a : Reg) (b : BOp)
  | hmax2 (h : Hd) (f16 : Bool) (d a : Reg) (b : BOp)
  -- class 4 (R372)
  | lperm (h : Hd) (d a b : Reg)
  | lshuf (h : Hd) (m : Fin 32) (d a : Reg)
  | lrot (h : Hd) (n : Fin 32) (d a b : Reg)
  | lbcast (h : Hd) (n : Fin 32) (d a b : Reg)
  | lred (h : Hd) (op : ROp) (ty : RTy) (rm : RM) (d a : Reg)
  | lscan (h : Hd) (op : ROp) (ty : RTy) (rm : RM) (d a : Reg)
  | lbits (h : Hd) (bit : Fin 32) (d a : Reg)
  | lspread (h : Hd) (bit : Fin 32) (d a : Reg)
  -- class 5 (R377)
  | ld (h : Hd) (sz : Fin 4) (un : Bool) (d : Reg) (m : Addr)
  | st (h : Hd) (sz : Fin 4) (d : Reg) (m : Addr)
  | xchg (h : Hd) (sz : Fin 4) (un : Bool) (d : Reg) (m : Addr)
  | vld (h : Hd) (sz : Fin 4) (un : Bool) (d : Reg) (m : Addr)
  | vst (h : Hd) (sz : StoreSize) (d : Reg) (m : Addr)
  | vxchg (h : Hd) (d : Reg) (m : Addr)
  | ldl (h : Hd) (sz : Fin 4) (un : Bool) (d : Reg) (m : Addr)
  | stl (h : Hd) (sz : Fin 4) (d : Reg) (m : Addr)
  | vldl (h : Hd) (sz : Fin 4) (un : Bool) (d : Reg) (m : Addr)
  | vstl (h : Hd) (sz : StoreSize) (d : Reg) (m : Addr)
  | ldd (h : Hd) (sz : Fin 4) (un : Bool) (d : Reg) (m : Addr)
  | gath (h : Hd) (sz : Fin 4) (un : Bool) (d a b : Reg)
  | amo (h : Hd) (op : AOp) (ord : Order) (sc : Scope) (sz : Fin 4) (d a b : Reg)
  | cas (h : Hd) (ord : Order) (sc : Scope) (sz : Fin 4) (d a b : Reg)
  | red (h : Hd) (op : AOp) (rel : Bool) (sc : Scope) (d a b : Reg)
  | stMc (h : Hd) (n : Fin 4) (d a : Reg) (off : BitVec 17)
  | flowPut (h : Hd) (d a : Reg) (off : BitVec 17)
  | flowGet (h : Hd) (d a : Reg) (off : BitVec 17)
  -- class 6 (R393)
  | fence (h : Hd) (ord : Order) (sc : Scope)
  | barInit (h : Hd) (k : Fin 16) (a : Reg)
  | barArv (h : Hd) (k : Fin 16)
  | barWait (h : Hd) (k : Fin 16) (bit : Fin 32) (d : Reg)
  | ringPutClaim (h : Hd) (r : Fin 8) (d : Reg)
  | ringPut (h : Hd) (r : Fin 8) (a : Reg)
  | ringGet (h : Hd) (r : Fin 8) (d : Reg)
  | ringGetDone (h : Hd) (r : Fin 8) (a : Reg)
  | ringPeek (h : Hd) (r : Fin 8) (bit : Fin 32) (d : Reg)
  | stageAdv (h : Hd) (imm : BitVec 17) (a : Reg)
  | wpWait (h : Hd) (w : Fin 4) (imm : BitVec 17) (d : Reg)
  | sbWait (h : Hd) (a : Reg)
  | earlyTrig (h : Hd) (p : Fin 8)
  | detSync (h : Hd)
  | tcBind (h : Hd) (a b : Reg)
  | tcProbe (h : Hd) (bit : Fin 32) (d a b : Reg)
  | tcPf (h : Hd) (self : Bool) (mask : BitVec 8) (d a : Reg)
  | tcSub (h : Hd) (d a b : Reg)
  | tcInv (h : Hd) (discard : Bool) (a : Reg)
  | tcKeep (h : Hd) (i : Fin 8) (a : Reg)
  | cnPut (h : Hd) (node : Bool) (r : Fin 8) (d a : Reg)
  | cnGet (h : Hd) (r : Fin 8) (d a : Reg)
  | cnRef (h : Hd) (r : Fin 8) (d : Reg)
  | cnDrop (h : Hd) (r : Fin 8) (d : Reg)
  | cnRoot (h : Hd) (ref : Bool) (r : Fin 8) (d a : Reg)
  | cnSwap (h : Hd) (r : Fin 8) (d a b : Reg)
  | cnOut (h : Hd) (r : Fin 8) (k : Fin 16) (d a b : Reg)
  -- class 7 (R416)
  | mbLd (h : Hd) (bank : Bool) (kc : Fin 4) (a b : Reg)
  | mma (h : Hd) (bank : Bool) (kc : Fin 4) (nm : Fin 16) (d a b : Reg)
  | mloop (h : Hd) (d a b : Reg)
  | mmaBd (h : Hd) (bank : Bool) (d a b : Reg)
  | accAlloc (h : Hd) (ek : Bool) (d a b : Reg)
  | accGrow (h : Hd) (bit : Fin 32) (d a : Reg)
  | accFree (h : Hd) (a : Reg)
  | accZero (h : Hd) (a : Reg)
  | accRd (h : Hd) (d a b : Reg)
  | accWr (h : Hd) (d a b : Reg)
  | accLd (h : Hd) (a b : Reg)
  | accSt (h : Hd) (dt : Fin 4) (a b : Reg)
  | accRscl (h : Hd) (a b : Reg)
  | mwait (h : Hd) (d : Reg)
  | mstat (h : Hd) (w : Fin 4) (d : Reg)
  -- power, links and errors (01, 07)
  | powerOn (badEdge : Option (Fin 8)) (badStack : Option (Fin 12)) (pcieUp : Bool) (partners : List PartnerReply)
  | peerPortNegotiation (port : Fin 16) (reply : PartnerReply)
  | negotiationRetryTimer (port : Fin 16) (reply : PartnerReply)
  | enterStandby
  | islandFrequencyChange (island : Fin 24) (mhz : Nat)
  | flitReceive (port : Fin 16) (lane : Fin 9) (seq : Nat) (crcOk : Bool)
  | flitAcknowledge (port : Fin 16) (seq : Nat)
  | replayComplete (port : Fin 16)
  | repairDeferTimeout (port : Fin 16)
  | quiesceEnd (port : Fin 16)
  | renegotiate4Lanes (port : Fin 16) (reply : PartnerReply)
  | errorWindowExpiry (cls : Fin 5) (resource : Nat)
  | fabricLaneCrcError (lane : Nat)
  | hbmCorrectedError (pa lane : Nat)
  | hbmUncorrectableError (pa : Nat)
  | rowSparing (stack : Fin 12) (bank row : Nat)
  | laneSpare (stack : Fin 12) (lane : Nat)
  | sramError (site : SramSite) (double : Bool)
  | replayRequest (port : Fin 16) (seq : Nat)
  | powerInputRemoved
  | islandPowerOff (island : Fin 24)
  | islandPowerOn (island : Fin 24)
  | pwrPeakRead
  -- host window (02, 03, 24)
  | trigger (fn : Fin 17) (off : Nat) (split : Bool) (data : List Byte)
  | triggerDequeue (part : Fin 16)
  | gupChunk (fn : Fin 17) (ctl : Word)
  | gupDiscard (fn : Fin 17) (ctl : Word)
  | gupPartialTimeout (fn : Fin 17)
  | gupChunkTakenIn (fn : Fin 17)
  | fqBaseWrite (fn : Fin 17) (val : Word)
  | fqSizeWrite (fn : Fin 17) (val : Word)
  | fqConsWrite (fn : Fin 17) (val : Word)
  | fqCmdResume (fn : Fin 17) (slot : BitVec 16)
  | fqCmdReverseContinue (fn : Fin 17) (slot : BitVec 16)
  | fqCmdReversePark (fn : Fin 17) (slot : BitVec 16)
  | fqCmdCommit (fn : Fin 17) (slot : BitVec 16)
  | fqCmdKill (fn : Fin 17) (slot : BitVec 16)
  | fqCmdRejected (fn : Fin 17) (val : Word)
  | faultQueueWrite (part : Fin 16)
  | parkQueueWrite (part : Fin 16)
  | dpCtlSubmit (vf : Fin 16)
  | policyVerifyComplete (vf : Fin 16)
  | partCfgWrite (part : Fin 16) (word : Fin 8) (val : Word)
  | partitionPrepareDone (part : Fin 16)
  | fwStage (ctl : Word)
  | fwVerify (ctl : Word)
  | fwCommitSvn (ctl : Word)
  | fwCommandComplete
  | fwdResume
  | fwdStop
  | fwdBreakHit (core : Fin 4)
  | registerWrite (w : WinAddr) (eight : Bool) (val : Word)
  -- TDISP and SPDM (02, 12)
  | setTenantKey (part : Fin 16) (key : BitVec 256)
  | setDigestKey (part : Fin 16) (key : BitVec 256)
  | lockInterfaceRequest (part : Fin 16)
  | startInterfaceRequest (part : Fin 16) (nonce : Nat)
  | stopInterfaceRequest (part : Fin 16)
  | tdiErrorEvent (part : Fin 16) (cause : TdiCause)
  | spdmGetVersion
  | spdmGetCapabilities
  | spdmNegotiateAlgorithms
  | spdmGetDigests
  | spdmGetCertificate
  | spdmChallenge
  | getMeasurements (index : Nat)
  | spdmKeyExchange
  | spdmFinish (session : Nat)
  | spdmKeyUpdate (session : Nat)
  | spdmHeartbeat (session : Nat)
  | spdmEndSession (session : Nat)
  | ideKm (session stream : Nat)
  -- dispatch engine (03, 12)
  | taskExtentWalk (t : TaskId)
  | gangPlace
  | ageingStep (t : TaskId)
  | spanReservation (part : Fin 16)
  | preemptRollback (part : Fin 16)
  | preemptSpill (part : Fin 16)
  | gangResume (part : Fin 16)
  | launchComplete (part : Fin 16) (launch : Nat)
  | proofingLaunch (t : TaskId)
  | proofingConflict (t : TaskId)
  | proofingResolve (t : TaskId)
  | copyRelease (gang entry : Nat)
  | subscriptionDelivery (gang index : Nat)
  | issueSwap (out inn : Nat)
  | forcedSwap (inn : Nat)
  | waitSatisfied (group : Nat)
  | splitPhaseResult (group slot : Nat)
  | quotaSwapOut (core : Fin 256)
  | quotaRestore (group : Nat)
  | breakpointHit (group : Nat)
  | detBoundary (part : Fin 16) (launch : Nat)
  | detDecisionPoll (part : Fin 16) (launch : Nat)
  -- memory side (07, 08, 09)
  | writeAcknowledge (group : Nat)
  | flowMessageArrival (flow seq : Nat) (data : List Byte)
  | hostCompletionError (group : Nat) (store : Bool) (lanes : BitVec 32)
  | transientRequestTimeout (agent line : Nat)
  | persistentRequest (agent line : Nat)
  | lineContended (line : Nat)
  | directoryMerge (line : Nat)
  | migrationLineCopy (entry line : Nat) (dmaOk : Bool)
  | migrationSweepLine (entry : Nat) (dmaOk : Bool)
  | hotnessWindow (gang slot misses count : Nat)
  | memorySideCounterReport (stack : Fin 12) (block requester : Nat)
  | scrubPeriodBoundary
  | scrubLineStep (stack : Fin 12)
  | scrubPeriodSet (hours : Nat)
  | cnReclaim (part : Fin 16) (region slot : Nat)
  | cnOutComplete (index : Nat)
  | tcInvSweepComplete (part : Fin 16) (tensor : Nat)
  | matrixQueueExecute (core : Fin 256)
  -- control island (02, 16, 24)
  | zaliusReply (core : Fin 4)
  | firstKickTimeout
  | watchdogPeriodExpiry
  | controlCoreTrap (core : Fin 4)
  deriving DecidableEq, Repr, Inhabited

end Sys2Proof
end

