-- ==== Sys2Proof/WellFormed.lean ====
section
/-! DEFINITION. Which instructions are legal encodings (R289 to R299, R301 and the entries of chapters 16 to 19):
a word that decodes to nothing legal raises ILLEGAL. `Instr.wf` is the one check; the steps of the other agents
carry no encoding and are always well formed. -/

namespace Sys2Proof

namespace Hd

/-- The guard of a scalar or control instruction names no vector register (R292). -/
def scalar (h : Hd) : Bool := !h.gr.isV

end Hd

namespace Reg

/-- A scalar operand: a name below 0x100 (R375). -/
def isScalar (r : Reg) : Bool := !r.isV

/-- A D of classes 2 to 4: a vector register or z (R295, R357). -/
def isVZ (r : Reg) : Bool := r == .z || r.isV

/-- A pair sN, sN+1 with N at most 126 (R375). -/
def isPair : Reg → Bool
  | .s i => i.val < 127
  | _ => false

/-- A vector register below v767 (R377, GATH with SZ 3). -/
def isVPair : Reg → Bool
  | .v i => i.val < 767
  | _ => false

end Reg

namespace BOp

/-- A cross-lane operand names a vector register, with 1 ≤ |k| ≤ 31 (R296). -/
def wf : BOp → Bool
  | .reg _ => true
  | .cross r k => r.isV && k != 0 && k != 0x20

/-- Whether the operand is cross-lane. -/
def isCross : BOp → Bool
  | .reg _ => false
  | .cross _ _ => true

end BOp

namespace Addr

/-- AM 0 or AM 1, with scalar registers (R299). -/
def wfScalar : Addr → Bool
  | .imm a _ => a.isScalar
  | .ext _ o => o.isScalar
  | .lane _ _ => false

/-- AM 0 alone (local memory, R299). -/
def wfImm : Addr → Bool
  | .imm a _ => a.isScalar
  | _ => false

/-- AM 0, 1 or 2 (R299). -/
def wfAny : Addr → Bool
  | .imm a _ => a.isScalar
  | .ext _ o => o.isScalar
  | .lane a b => a.isScalar && b.isV

/-- AM 0 or 2 (VLDL, VSTL). -/
def wfLocal : Addr → Bool
  | .imm a _ => a.isScalar
  | .ext _ _ => false
  | .lane a b => a.isScalar && b.isV

/-- The per-lane form. -/
def isLane : Addr → Bool
  | .lane _ _ => true
  | _ => false

end Addr

namespace Ty

/-- Size in bytes of an element type (R231, R228). -/
def bytes : Ty → Nat
  | .i32 | .n32 | .f32 => 4
  | .i16 | .n16 | .bf16 | .f16 => 2
  | .i8 | .n8 | .e4m3 | .e5m2 | .mk8 => 1

/-- A part that the type allows (R370). -/
def partOk (t : Ty) (p : Fin 4) : Bool := (p.val + 1) * t.bytes ≤ 4

end Ty

namespace AOp

/-- Whether SZ code `sz` is among the sizes of the operation (R384). -/
def sizeOk (o : AOp) (sz : Fin 4) : Bool :=
  match o with
  | .exch => true
  | .fadd => sz.val ≤ 1
  | _ => sz.val ≤ 2

/-- The operations that RED uses (R387). -/
def redOk : AOp → Bool
  | .sub | .incw | .addb => false
  | _ => true

end AOp

namespace Xsr

/-- The registers of R343's table that XSR.RD reads (the debug registers take a selector in A). -/
def readable (x : Xsr) : Bool :=
  match x.num.toNat with
  | 0x001 | 0x002 | 0x003 | 0x004 | 0x005 | 0x006 | 0x008 | 0x020 | 0x030 | 0x042 | 0x043 =>
    x.idx == 0 && x.word == 0
  | 0x010 => x.idx.toNat < 8 && x.word.toNat < 2
  | 0x018 => x.idx.toNat < 8 && x.word.toNat < 4
  | 0x040 => x.idx.toNat < 4 && x.word == 0
  | 0x044 => x.idx == 0 && x.word.toNat < 6
  | 0x045 => x.idx.toNat < 7 && x.word.toNat < 4
  | _ => false

/-- The registers of R343's table that XSR.WR writes. -/
def writable (x : Xsr) : Bool :=
  match x.num.toNat with
  | 0x004 | 0x020 | 0x041 => x.idx == 0 && x.word == 0
  | 0x040 => x.idx.toNat < 4 && x.word == 0
  | _ => false

/-- A register of R345 or R443, whose A operand holds a selector. -/
def isDebug (x : Xsr) : Bool := 0x040 ≤ x.num.toNat && x.num.toNat ≤ 0x045

end Xsr

/-- HLOG of SVC.RESUME: 0, or 12 to 24 (R348). -/
def hlogOk (l : BitVec 5) : Bool := l == 0 || (12 ≤ l.toNat && l.toNat ≤ 24)

/-- A field of R333 lies within the register. -/
def fieldOk (pos lenm width : Nat) : Bool := pos + lenm + 1 ≤ width

/-- Operands of the three-register class-0 instructions (R295, R322). -/
def wfBin (h : Hd) (d a b : Reg) : Bool := h.scalar && d.isSZ && a.isScalar && b.isScalar

/-- Operands of the two-register class-0 and class-1 instructions. -/
def wfUn (h : Hd) (d a : Reg) : Bool := h.scalar && d.isSZ && a.isScalar

/-- Operands of a class-2 or class-3 instruction with a B operand (R295, R296). -/
def wfVBin (d : Reg) (b : BOp) : Bool := d.isVZ && b.wf

/-- The check of R301: every field of a decoded instruction is one its entry allows. -/
def Instr.wf : Instr → Bool
  | .add h _ d a b | .sub h _ d a b | .mul h _ d a b | .mulh h _ d a b | .div h _ d a b | .rem h _ d a b
  | .and h _ d a b | .or h _ d a b | .xor h _ d a b | .andn h _ d a b | .shl h _ d a b | .shr h _ d a b
  | .sar h _ d a b | .rol h _ d a b | .ror h _ d a b | .min h _ d a b | .max h _ d a b | .sel h _ d a b =>
    wfBin h d a b
  | .mulodd h t d a b => wfBin h d a b && t.wid == 0
  | .addi h d a _ => wfUn h d a
  | .not h _ d a | .neg h _ d a | .clz h _ d a | .ctz h _ d a | .popc h _ d a | .mov h _ d a => wfUn h d a
  | .cmp h _ _ d a b => wfBin h d a b
  | .bset h _ d a b | .bclr h _ d a b | .bflip h _ d a b => wfBin h d a b
  | .bext h pos lenm _ d a => wfUn h d a && fieldOk pos lenm 64
  | .bins h pos lenm d a => wfUn h d a && fieldOk pos lenm 64
  | .swap h d a => h.scalar && d.isS && a.isS && h.gr != d && h.gr != a
  | .setk _ d _ _ => d.isSZ
  | .br h _ | .nop h | .yield h | .halt h | .trap h _ | .commit h => h.scalar
  | .call h d _ | .loop h d _ => h.scalar && d.isSZ
  | .ret h a | .revC h a | .revP h a => h.scalar && a.isScalar
  | .xsrRd h x d a => wfUn h d a && x.readable && (x.isDebug || a == .z)
  | .xsrWr h x a => h.scalar && a.isScalar && x.writable
  | .regGrow h d a | .regShrink h d a => wfUn h d a
  | .svcResume h l d a => wfUn h d a && hlogOk l
  | .svcResumeC h l d a b | .svcResumeP h l d a b => wfBin h d a b && hlogOk l
  | .svcKill h d a | .svcCommit h d a => wfUn h d a
  | .svcMigrate h d a b => h.scalar && d.isScalar && a.isScalar && b.isScalar
  | .svcPurge h _ a b => h.scalar && a.isScalar && b.isScalar
  | .qctlRd h d | .qctlQ h d | .qctlR h d => h.scalar && d.isSZ
  | .mboxSendVerify h a | .mboxSendMeas h a | .wdogKick h a => h.scalar && a.isScalar
  | .mboxRecv h d a | .slotSel h d a => wfUn h d a
  | .vadd _ d _ b | .vsub _ d _ b | .vmul _ d _ b | .vmulh _ _ d _ b | .vmulodd _ d _ b | .vmad _ d _ b
  | .vand _ d _ b | .vor _ d _ b | .vxor _ d _ b | .vandn _ d _ b | .vshl _ d _ b | .vshr _ d _ b
  | .vsar _ d _ b | .vrol _ d _ b | .vmin _ _ d _ b | .vmax _ _ d _ b | .vsel _ d _ b | .vbflip _ d _ b =>
    wfVBin d b
  | .vaddi _ d _ _ | .vnot _ d _ | .vneg _ d _ | .vabs _ d _ | .vmov _ d _ | .vclz _ d _ | .vpopc _ d _ => d.isVZ
  | .vcmp _ _ bit d _ b => wfVBin d b && (!b.isCross || bit == 0)
  | .vswap h d a => d.isV && a.isV && h.gr != d && h.gr != a
  | .vbext _ _ pos lenm d _ => d.isVZ && fieldOk pos lenm 32
  | .vbins _ pos lenm d _ => d.isVZ && fieldOk pos lenm 32
  | .vbcast _ _ d a => d.isVZ && a.isScalar
  | .fadd _ _ d _ b | .fsub _ _ d _ b | .fmul _ _ d _ b | .ffma _ _ d _ b | .fdiv _ _ d _ b
  | .fscale _ _ d _ b | .fmin _ d _ b | .fmax _ d _ b => wfVBin d b
  | .fcmp _ _ bit d _ b => wfVBin d b && (!b.isCross || bit == 0)
  | .fexp2 _ _ d _ | .flog2 _ _ d _ | .frcp _ _ d _ | .frsq _ _ d _ | .fsqrt _ _ d _ | .frint _ _ d _ => d.isVZ
  | .cvt _ _ tyD tyS sp dp d _ => d.isVZ && tyS.partOk sp && tyD.partOk dp
  | .hadd2 _ _ f d _ b | .hmul2 _ _ f d _ b | .hfma2 _ _ f d _ b => wfVBin d b && (!b.isCross || !f)
  | .hmax2 _ f d _ b => wfVBin d b && (!b.isCross || !f)
  | .lperm _ d a b => d.isVZ && a.isV && b.isV
  | .lshuf _ _ d a => d.isVZ && a.isV
  | .lrot _ _ d a b | .lbcast _ _ d a b => d.isVZ && a.isV && b.isScalar
  | .lred _ op ty rm d a =>
    (d.isVZ || d.isS) && a.isV && (ty != .f32 || op == .add || op == .min || op == .max)
      && (rm == .rne || (ty == .f32 && op == .add))
  | .lscan _ op ty rm d a =>
    d.isV && a.isV && (ty != .f32 || op == .add || op == .min || op == .max)
      && (rm == .rne || (ty == .f32 && op == .add))
  | .lbits _ _ d a => d.isS && a.isV
  | .lspread _ _ d a => d.isVZ && a.isScalar
  | .ld h sz un d m => h.scalar && d.isSZ && m.wfScalar && (sz != 3 || !un)
  | .st h _ d m => h.scalar && d.isScalar && m.wfScalar
  | .xchg h sz un d m => h.scalar && d.isS && m.wfScalar && (sz != 3 || !un)
  | .vld _ sz un d m | .vst _ ⟨sz, un⟩ d m | .ldd _ sz un d m => d.isV && m.wfAny && (if m.isLane then sz != 3 else sz == 0 && !un)
  | .vxchg _ d m => d.isV && m.wfScalar
  | .ldl h sz un d m => h.scalar && d.isSZ && m.wfImm && (sz != 3 || !un)
  | .stl h _ d m => h.scalar && d.isScalar && m.wfImm
  | .vldl _ sz un d m | .vstl _ ⟨sz, un⟩ d m => d.isV && m.wfLocal && (if m.isLane then sz != 3 else sz == 0 && !un)
  | .gath _ sz un d a b => a.isScalar && b.isV && (if sz == 3 then d.isVPair && !un else d.isV)
  | .amo h op _ _ sz d a b =>
    h.scalar && a.isScalar && op.sizeOk sz && (d == .z || (if sz == 3 || op == .addb then d.isPair else d.isS))
      && (if sz == 3 || op == .addb then b.isPair else b.isScalar)
  | .cas h _ _ sz d a b =>
    h.scalar && a.isScalar && (if sz == 3 then d.isPair && b.isPair else d.isS && b.isScalar)
  | .red _ op _ _ d a b => d.isV && a.isScalar && b.isV && op.redOk
  | .stMc _ n d a _ => d.isV && (match a with | .s i => i.val + n.val ≤ 127 | _ => false)
  | .flowPut _ d a _ => d.isVZ && a.isScalar
  | .flowGet _ d a _ => d.isV && a.isScalar
  | .fence h ord _ => h.scalar && ord != .rlx
  | .barInit h _ a => h.scalar && a.isScalar
  | .barArv h _ | .detSync h => h.scalar
  | .barWait h _ _ d => h.scalar && d.isSZ
  | .ringPutClaim h _ d | .ringGet h _ d => h.scalar && d.isSZ
  | .ringPut h _ a | .ringGetDone h _ a => h.scalar && a.isScalar
  | .ringPeek h _ _ d => h.scalar && d.isSZ
  | .stageAdv h _ a => h.scalar && a.isScalar
  | .wpWait h _ _ d => h.scalar && d.isScalar
  | .sbWait h _ => h.scalar
  | .earlyTrig h p => h.scalar && p != 0
  | .tcBind h a b => h.scalar && a.isV && b.isScalar
  | .tcProbe h _ d a b => h.scalar && d.isSZ && a.isScalar && b.isScalar
  | .tcPf h _ _ d a => h.scalar && d.isScalar && a.isScalar
  | .tcSub h d a b => h.scalar && d.isScalar && a.isScalar && b.isScalar
  | .tcInv h _ a => h.scalar && a.isScalar
  | .tcKeep h _ a => h.scalar && a.isV
  | .cnPut h _ r d a => h.scalar && r != 7 && d.isPair && a.isV
  | .cnGet _ r d a => r != 7 && d.isV && a.isPair
  | .cnRef h r d | .cnDrop h r d => h.scalar && r != 7 && d.isPair
  | .cnRoot h _ r d a => h.scalar && r != 7 && d.isPair && a.isScalar
  | .cnSwap h r d a b => h.scalar && r != 7 && d.isPair && a.isScalar && b.isPair
  | .cnOut h r _ d a b => h.scalar && r != 7 && d.isPair && a.isScalar && b.isScalar
  | .mbLd h _ _ a b => h.scalar && a.isScalar && b.isScalar
  | .mma h _ _ _ d a b | .mloop h d a b | .mmaBd h _ d a b =>
    h.scalar && d.isScalar && a.isScalar && b.isScalar
  | .accAlloc h _ d a b => wfBin h d a b
  | .accGrow h _ d a => wfUn h d a
  | .accFree h a | .accZero h a => h.scalar && a.isScalar
  | .accRd _ d a b | .accWr _ d a b => d.isV && a.isScalar && b.isScalar
  | .accLd h a b => h.scalar && a.isScalar && b.isScalar
  | .accSt h dt a b => h.scalar && dt != 3 && a.isScalar && b.isScalar
  | .accRscl _ a b => a.isScalar && b.isV
  | .mwait h d => h.scalar && d.isSZ
  | .mstat h w d => h.scalar && w != 3 && d.isSZ
  | .powerOn .. | .peerPortNegotiation .. | .negotiationRetryTimer .. | .enterStandby | .islandFrequencyChange ..
  | .flitReceive .. | .flitAcknowledge .. | .replayComplete .. | .repairDeferTimeout .. | .quiesceEnd ..
  | .renegotiate4Lanes .. | .errorWindowExpiry .. | .fabricLaneCrcError .. | .hbmCorrectedError ..
  | .hbmUncorrectableError .. | .rowSparing .. | .laneSpare .. | .sramError .. | .replayRequest ..
  | .powerInputRemoved | .islandPowerOff .. | .islandPowerOn .. | .pwrPeakRead | .trigger .. | .triggerDequeue ..
  | .gupChunk .. | .gupDiscard .. | .gupPartialTimeout .. | .gupChunkTakenIn .. | .fqBaseWrite .. | .fqSizeWrite ..
  | .fqConsWrite .. | .fqCmdResume .. | .fqCmdReverseContinue .. | .fqCmdReversePark .. | .fqCmdCommit ..
  | .fqCmdKill .. | .fqCmdRejected .. | .faultQueueWrite .. | .parkQueueWrite .. | .dpCtlSubmit ..
  | .policyVerifyComplete .. | .partCfgWrite .. | .partitionPrepareDone .. | .fwStage .. | .fwVerify ..
  | .fwCommitSvn .. | .fwCommandComplete | .fwdResume | .fwdStop | .fwdBreakHit .. | .registerWrite ..
  | .setTenantKey .. | .setDigestKey .. | .lockInterfaceRequest .. | .startInterfaceRequest ..
  | .stopInterfaceRequest .. | .tdiErrorEvent .. | .spdmGetVersion | .spdmGetCapabilities
  | .spdmNegotiateAlgorithms | .spdmGetDigests | .spdmGetCertificate | .spdmChallenge | .getMeasurements ..
  | .spdmKeyExchange | .spdmFinish .. | .spdmKeyUpdate .. | .spdmHeartbeat .. | .spdmEndSession .. | .ideKm ..
  | .taskExtentWalk .. | .gangPlace | .ageingStep .. | .spanReservation .. | .preemptRollback .. | .preemptSpill ..
  | .gangResume .. | .launchComplete .. | .proofingLaunch .. | .proofingConflict .. | .proofingResolve ..
  | .copyRelease .. | .subscriptionDelivery .. | .issueSwap .. | .forcedSwap .. | .waitSatisfied ..
  | .splitPhaseResult .. | .quotaSwapOut .. | .quotaRestore .. | .breakpointHit .. | .detBoundary ..
  | .detDecisionPoll .. | .writeAcknowledge .. | .flowMessageArrival .. | .hostCompletionError ..
  | .transientRequestTimeout .. | .persistentRequest .. | .lineContended .. | .directoryMerge ..
  | .migrationLineCopy .. | .migrationSweepLine .. | .hotnessWindow .. | .memorySideCounterReport ..
  | .scrubPeriodBoundary | .scrubLineStep .. | .scrubPeriodSet .. | .cnReclaim .. | .cnOutComplete ..
  | .tcInvSweepComplete .. | .matrixQueueExecute .. | .zaliusReply .. | .firstKickTimeout
  | .watchdogPeriodExpiry | .controlCoreTrap .. => true

/-- A well-formed instruction. -/
abbrev Instr.WellFormed (i : Instr) : Prop := i.wf = true

end Sys2Proof
end

