-- ==== Sys2Proof/Decode.lean ====
section
/-! DEFINITION. Instruction words (R284 to R300): the forms, the field codes, the decoder and, after it, the encoder
written from the same tables. A word is an instruction exactly when its fields name a well-formed instruction whose
encoding is that word, so that every must-be-zero field is checked once (R291, R301). -/

namespace Sys2Proof

/-- The fields of the T form (R287); the I, J and own-field forms read several of them together. -/
structure TForm where
  s : BitVec 1
  op : BitVec 10
  gv : BitVec 1
  gb : BitVec 5
  gr : BitVec 10
  d : BitVec 10
  a : BitVec 10
  b : BitVec 10
  m : BitVec 7
  deriving DecidableEq, Repr

namespace TForm

/-- The word of the fields, from bit 63 down. -/
def toWord (f : TForm) : Word :=
  f.s ++ f.op ++ f.gv ++ f.gb ++ f.gr ++ f.d ++ f.a ++ f.b ++ f.m

/-- The fields of a word. -/
def ofWord (w : Word) : TForm where
  s := w.extractLsb' 63 1
  op := w.extractLsb' 53 10
  gv := w.extractLsb' 52 1
  gb := w.extractLsb' 47 5
  gr := w.extractLsb' 37 10
  d := w.extractLsb' 27 10
  a := w.extractLsb' 17 10
  b := w.extractLsb' 7 10
  m := w.extractLsb' 0 7

/-- IMM of the I form, bits [16:0] (R288); also the own fields of R333, R363, R370 and R393. -/
def imm (f : TForm) : BitVec 17 := f.b ++ f.m

/-- OFF of the J form, bits [26:0] (R290). -/
def off (f : TForm) : BitVec 27 := f.a ++ f.b ++ f.m

end TForm

/-- The fields of the K form (R289). -/
structure KForm where
  s : BitVec 1
  op : BitVec 10
  d : BitVec 10
  h : BitVec 2
  zero : BitVec 9
  imm : BitVec 32
  deriving DecidableEq, Repr

namespace KForm

def toWord (f : KForm) : Word := f.s ++ f.op ++ f.d ++ f.h ++ f.zero ++ f.imm

def ofWord (w : Word) : KForm where
  s := w.extractLsb' 63 1
  op := w.extractLsb' 53 10
  d := w.extractLsb' 43 10
  h := w.extractLsb' 41 2
  zero := w.extractLsb' 32 9
  imm := w.extractLsb' 0 32

end KForm

/-- A flag as one bit. -/
def flag (b : Bool) : BitVec 1 := if b then 1 else 0

/-- Whether a one-bit field is set. -/
def isSet (b : BitVec 1) : Bool := b == 1

/-- The register name space (R294): the 10-bit name of a register. -/
def Reg.code : Reg → BitVec 10
  | .z => 0x000 | .ones => 0x001 | .lid => 0x002 | .gid => 0x003 | .gcount => 0x004 | .cx => 0x005 | .cy => 0x006
  | .spx => 0x007 | .spy => 0x008 | .spw => 0x009 | .sph => 0x00A | .lx => 0x00B | .ly => 0x00C | .lw => 0x00D
  | .lh => 0x00E | .inst => 0x00F | .node => 0x010 | .ic => 0x011 | .hp => 0x012 | .cf => 0x013 | .hz => 0x014
  | .role => 0x015
  | .wp i => BitVec.ofNat 10 (0x018 + i.val)
  | .k i => BitVec.ofNat 10 (0x020 + i.val)
  | .s i => BitVec.ofNat 10 (0x080 + i.val)
  | .v i => BitVec.ofNat 10 (0x100 + i.val)

/-- The register of a name; none for a reserved name (R294). -/
def Reg.ofCode (c : BitVec 10) : Option Reg :=
  match c.toNat with
  | 0x000 => some .z | 0x001 => some .ones | 0x002 => some .lid | 0x003 => some .gid | 0x004 => some .gcount
  | 0x005 => some .cx | 0x006 => some .cy | 0x007 => some .spx | 0x008 => some .spy | 0x009 => some .spw
  | 0x00A => some .sph | 0x00B => some .lx | 0x00C => some .ly | 0x00D => some .lw | 0x00E => some .lh
  | 0x00F => some .inst | 0x010 => some .node | 0x011 => some .ic | 0x012 => some .hp | 0x013 => some .cf
  | 0x014 => some .hz | 0x015 => some .role
  | n =>
    if h : 0x018 ≤ n ∧ n < 0x01C then some (.wp ⟨n - 0x018, by omega⟩)
    else if h : 0x020 ≤ n ∧ n < 0x040 then some (.k ⟨n - 0x020, by omega⟩)
    else if h : 0x080 ≤ n ∧ n < 0x100 then some (.s ⟨n - 0x080, by omega⟩)
    else if h : 0x100 ≤ n ∧ n < 0x400 then some (.v ⟨n - 0x100, by omega⟩)
    else none

/-- A name below 0x100 from the low eight bits of a carve (R375). -/
def Reg.ofCarve (c : BitVec 10) : Option Reg := Reg.ofCode (c &&& 0x0FF#10)

/-- A carve: bits [9:8] a field of the instruction, bits [7:0] a name below 0x100 (R375). -/
def carve (hi : Nat) (r : Reg) : BitVec 10 := (BitVec.ofNat 10 (hi * 256)) ||| (r.code &&& 0x0FF#10)

/-- The upper field of a carve. -/
def carveHi (c : BitVec 10) : Nat := c.toNat / 256

/-- Shared codes of R297. -/
def RM.code : RM → Nat | .rne => 0 | .rtz => 1 | .rup => 2 | .rdn => 3
def RM.ofCode : Nat → RM | 0 => .rne | 1 => .rtz | 2 => .rup | _ => .rdn
def Scope.code : Scope → Nat | .grp => 0 | .core => 1 | .gang => 2 | .die => 3 | .dev => 4 | .sys => 5
def Scope.ofCode : Nat → Option Scope
  | 0 => some .grp | 1 => some .core | 2 => some .gang | 3 => some .die | 4 => some .dev | 5 => some .sys | _ => none
def Order.code : Order → Nat | .rlx => 0 | .acq => 1 | .rel => 2 | .ar => 3
def Order.ofCode : Nat → Order | 0 => .rlx | 1 => .acq | 2 => .rel | _ => .ar
def Ty.code : Ty → Nat
  | .i32 => 0 | .i8 => 1 | .i16 => 2 | .n32 => 4 | .n8 => 5 | .n16 => 6 | .f32 => 8 | .bf16 => 9 | .f16 => 10
  | .e4m3 => 11 | .e5m2 => 12 | .mk8 => 13
def Ty.ofCode : Nat → Option Ty
  | 0 => some .i32 | 1 => some .i8 | 2 => some .i16 | 4 => some .n32 | 5 => some .n8 | 6 => some .n16
  | 8 => some .f32 | 9 => some .bf16 | 10 => some .f16 | 11 => some .e4m3 | 12 => some .e5m2 | 13 => some .mk8
  | _ => none
def CC.code : CC → Nat | .eq => 0 | .ne => 1 | .lt => 2 | .ltu => 3
def CC.ofCode : Nat → CC | 0 => .eq | 1 => .ne | 2 => .lt | _ => .ltu
def FCC.code : FCC → Nat | .eq => 0 | .lt => 1 | .le => 2 | .un => 3
def FCC.ofCode : Nat → FCC | 0 => .eq | 1 => .lt | 2 => .le | _ => .un
def HF.code : HF → Nat | .full => 0 | .hi => 1 | .lo => 2
def HF.ofCode : Nat → Option HF | 0 => some .full | 1 => some .hi | 2 => some .lo | _ => none
def AOp.code : AOp → Nat
  | .add => 0 | .sub => 1 | .and => 2 | .or => 3 | .xor => 4 | .min => 5 | .max => 6 | .minu => 7 | .maxu => 8
  | .exch => 9 | .fadd => 10 | .incw => 11 | .addb => 12
def AOp.ofCode : Nat → Option AOp
  | 0 => some .add | 1 => some .sub | 2 => some .and | 3 => some .or | 4 => some .xor | 5 => some .min
  | 6 => some .max | 7 => some .minu | 8 => some .maxu | 9 => some .exch | 10 => some .fadd | 11 => some .incw
  | 12 => some .addb | _ => none
def ROp.code : ROp → Nat | .add => 0 | .min => 1 | .max => 2 | .and => 3 | .or => 4 | .xor => 5
def ROp.ofCode : Nat → Option ROp
  | 0 => some .add | 1 => some .min | 2 => some .max | 3 => some .and | 4 => some .or | 5 => some .xor | _ => none
def RTy.code : RTy → Nat | .i32 => 0 | .n32 => 1 | .f32 => 2
def RTy.ofCode : Nat → Option RTy | 0 => some .i32 | 1 => some .n32 | 2 => some .f32 | _ => none

/-- The M field of class 0 (R325). -/
def ITy.code (t : ITy) : Nat := t.wid.val * 16 + (if t.un then 8 else 0)
def ITy.ofCode (m : BitVec 7) : ITy := ⟨⟨bits m 5 4 % 4, by omega⟩, bit m 3⟩

/-- A field of n bits as a Fin. -/
def fin4 (n : Nat) : Fin 4 := ⟨n % 4, by omega⟩
def fin8 (n : Nat) : Fin 8 := ⟨n % 8, by omega⟩
def fin16 (n : Nat) : Fin 16 := ⟨n % 16, by omega⟩
def fin32 (n : Nat) : Fin 32 := ⟨n % 32, by omega⟩
def fin64 (n : Nat) : Fin 64 := ⟨n % 64, by omega⟩

namespace TForm

/-- The guard fields and marker of a T, I or J form. -/
def hd (f : TForm) : Option Hd := do
  let gr ← Reg.ofCode f.gr
  pure ⟨isSet f.s, isSet f.gv, fin32 f.gb.toNat, gr⟩

/-- The B operand of classes 2 and 3: cross-lane when M[6] is 1 (R296). -/
def bop (f : TForm) : Option BOp := do
  let r ← Reg.ofCode f.b
  pure (if bit f.m 6 then .cross r (f.m.truncate 6) else .reg r)

end TForm


/-- Class 0 (R300, R325 to R335); SETK has the K form and is read apart. -/
def parse0 (f : TForm) (h : Hd) (d a b : Reg) : Option Instr :=
  match f.op.toNat with
  | 0x000 => some (.add h (ITy.ofCode f.m) d a b)
  | 0x001 => some (.sub h (ITy.ofCode f.m) d a b)
  | 0x003 => some (.mul h (ITy.ofCode f.m) d a b)
  | 0x004 => some (.mulh h (ITy.ofCode f.m) d a b)
  | 0x005 => some (.mulodd h (ITy.ofCode f.m) d a b)
  | 0x006 => some (.div h (ITy.ofCode f.m) d a b)
  | 0x007 => some (.rem h (ITy.ofCode f.m) d a b)
  | 0x008 => some (.and h (ITy.ofCode f.m) d a b)
  | 0x009 => some (.or h (ITy.ofCode f.m) d a b)
  | 0x00A => some (.xor h (ITy.ofCode f.m) d a b)
  | 0x00B => some (.andn h (ITy.ofCode f.m) d a b)
  | 0x00E => some (.shl h (ITy.ofCode f.m) d a b)
  | 0x00F => some (.shr h (ITy.ofCode f.m) d a b)
  | 0x010 => some (.sar h (ITy.ofCode f.m) d a b)
  | 0x011 => some (.rol h (ITy.ofCode f.m) d a b)
  | 0x012 => some (.ror h (ITy.ofCode f.m) d a b)
  | 0x016 => some (.min h (ITy.ofCode f.m) d a b)
  | 0x017 => some (.max h (ITy.ofCode f.m) d a b)
  | 0x020 => some (.sel h (ITy.ofCode f.m) d a b)
  | 0x00C => some (.not h (ITy.ofCode f.m) d a)
  | 0x00D => some (.neg h (ITy.ofCode f.m) d a)
  | 0x013 => some (.clz h (ITy.ofCode f.m) d a)
  | 0x014 => some (.ctz h (ITy.ofCode f.m) d a)
  | 0x015 => some (.popc h (ITy.ofCode f.m) d a)
  | 0x01E => some (.mov h (ITy.ofCode f.m) d a)
  | 0x002 => some (.addi h d a f.imm)
  | 0x018 => some (.cmp h (CC.ofCode (bits f.m 6 5)) (fin32 (bits f.m 4 0)) d a b)
  | 0x019 => some (.bset h (fin64 (bits f.m 5 0)) d a b)
  | 0x01A => some (.bclr h (fin64 (bits f.m 5 0)) d a b)
  | 0x01B => some (.bflip h (fin64 (bits f.m 5 0)) d a b)
  | 0x01C => some (.bext h (fin64 (bits f.imm 16 11)) (fin64 (bits f.imm 10 5)) (bit f.imm 4) d a)
  | 0x01D => some (.bins h (fin64 (bits f.imm 16 11)) (fin64 (bits f.imm 10 5)) d a)
  | 0x01F => some (.swap h d a)
  | _ => none


/-- Class 1 (R300, R337 to R356). -/
def parse1 (f : TForm) (h : Hd) (d a b : Reg) : Option Instr :=
  match f.op.toNat with
  | 0x080 => some (.br h f.off)
  | 0x081 => some (.call h d f.off)
  | 0x082 => some (.ret h a)
  | 0x083 => some (.loop h d f.off)
  | 0x084 => some (.nop h)
  | 0x085 => some (.yield h)
  | 0x086 => some (.halt h)
  | 0x088 => some (.commit h)
  | 0x087 => some (.trap h f.imm)
  | 0x089 => if bit f.m 0 then some (.revP h a) else some (.revC h a)
  | 0x08A => some (.xsrRd h ⟨f.b, f.m.extractLsb' 3 4, f.m.extractLsb' 0 3⟩ d a)
  | 0x08B => some (.xsrWr h ⟨f.b, f.m.extractLsb' 3 4, f.m.extractLsb' 0 3⟩ a)
  | 0x08C => some (.regGrow h d a)
  | 0x08D => some (.regShrink h d a)
  | 0x090 =>
    match bits f.m 1 0 with
    | 0 => some (.svcResume h (f.m.extractLsb' 2 5) d a)
    | 1 => some (.svcResumeC h (f.m.extractLsb' 2 5) d a b)
    | 2 => some (.svcResumeP h (f.m.extractLsb' 2 5) d a b)
    | _ => none
  | 0x091 => some (.svcKill h d a)
  | 0x092 => some (.svcMigrate h d a b)
  | 0x093 => some (.svcPurge h (bit f.m 0) a b)
  | 0x094 => some (.svcCommit h d a)
  | 0x098 =>
    match bits f.m 1 0 with
    | 0 => some (.qctlRd h d)
    | 1 => some (.qctlQ h d)
    | 2 => some (.qctlR h d)
    | _ => none
  | 0x099 => some (.mboxSendVerify h a)
  | 0x09A => some (.mboxRecv h d a)
  | 0x09B => some (.wdogKick h a)
  | 0x09C => some (.slotSel h d a)
  | _ => none


/-- Class 4 (R300, R372). -/
def parse4 (f : TForm) (h : Hd) (d a b : Reg) : Option Instr :=
  match f.op.toNat with
  | 0x200 => some (.lperm h d a b)
  | 0x201 => some (.lshuf h (fin32 (bits f.m 4 0)) d a)
  | 0x202 => some (.lrot h (fin32 (bits f.m 4 0)) d a b)
  | 0x203 => some (.lbcast h (fin32 (bits f.m 4 0)) d a b)
  | 0x204 => do return .lred h (← ROp.ofCode (bits f.m 2 0)) (← RTy.ofCode (bits f.m 4 3)) (RM.ofCode (bits f.m 6 5)) d a
  | 0x205 => do return .lscan h (← ROp.ofCode (bits f.m 2 0)) (← RTy.ofCode (bits f.m 4 3)) (RM.ofCode (bits f.m 6 5)) d a
  | 0x206 => some (.lbits h (fin32 (bits f.m 4 0)) d a)
  | 0x207 => some (.lspread h (fin32 (bits f.m 4 0)) d a)
  | _ => none


/-- Class 6 (R300, R393). -/
def parse6 (f : TForm) (h : Hd) (d a b : Reg) : Option Instr :=
  match f.op.toNat with
  | 0x300 => do return .fence h (Order.ofCode (bits f.m 1 0)) (← Scope.ofCode (bits f.m 4 2))
  | 0x301 => some (.barInit h (fin16 (bits f.m 3 0)) a)
  | 0x302 => some (.barArv h (fin16 (bits f.m 3 0)))
  | 0x303 => some (.barWait h (fin16 (bits f.m 3 0)) (fin32 (bits f.imm 11 7)) d)
  | 0x304 => if bit f.m 3 then some (.ringPutClaim h (fin8 (bits f.m 2 0)) d) else some (.ringPut h (fin8 (bits f.m 2 0)) a)
  | 0x305 => if bit f.m 3 then some (.ringGetDone h (fin8 (bits f.m 2 0)) a) else some (.ringGet h (fin8 (bits f.m 2 0)) d)
  | 0x306 => some (.ringPeek h (fin8 (bits f.m 2 0)) (fin32 (bits f.imm 11 7)) d)
  | 0x307 => some (.stageAdv h f.imm a)
  | 0x308 =>
    match a with
    | .wp w => some (.wpWait h w f.imm d)
    | _ => none
  | 0x309 => some (.sbWait h a)
  | 0x30A => some (.earlyTrig h (fin8 (bits f.m 2 0)))
  | 0x30B => some (.detSync h)
  | 0x310 => some (.tcBind h a b)
  | 0x311 => some (.tcProbe h (fin32 (bits f.m 4 0)) d a b)
  | 0x312 => some (.tcPf h (bit f.imm 8) (f.imm.extractLsb' 0 8) d a)
  | 0x313 => some (.tcSub h d a b)
  | 0x314 => some (.tcInv h (bit f.m 0) a)
  | 0x315 => some (.tcKeep h (fin8 (bits f.m 2 0)) a)
  | 0x318 => some (.cnPut h (bit f.m 3) (fin8 (bits f.m 2 0)) d a)
  | 0x319 => some (.cnGet h (fin8 (bits f.m 2 0)) d a)
  | 0x31A => some (.cnRef h (fin8 (bits f.m 2 0)) d)
  | 0x31B => some (.cnDrop h (fin8 (bits f.m 2 0)) d)
  | 0x31C => some (.cnRoot h (bit f.m 3) (fin8 (bits f.m 2 0)) d a)
  | 0x31D => some (.cnSwap h (fin8 (bits f.m 2 0)) d a b)
  | 0x31E => some (.cnOut h (fin8 (bits f.m 2 0)) (fin16 (bits f.m 6 3)) d a b)
  | _ => none


/-- Class 7 (R300, R416). -/
def parse7 (f : TForm) (h : Hd) (d a b : Reg) : Option Instr :=
  match f.op.toNat with
  | 0x380 => some (.mbLd h (bit f.m 6) (fin4 (bits f.m 5 4)) a b)
  | 0x381 => some (.mma h (bit f.m 6) (fin4 (bits f.m 5 4)) (fin16 (bits f.m 3 0)) d a b)
  | 0x382 => some (.mloop h d a b)
  | 0x383 => some (.mmaBd h (bit f.m 6) d a b)
  | 0x384 => some (.accAlloc h (bit f.m 0) d a b)
  | 0x385 => some (.accGrow h (fin32 (bits f.imm 11 7)) d a)
  | 0x386 => some (.accFree h a)
  | 0x387 => some (.accZero h a)
  | 0x388 => some (.accRd h d a b)
  | 0x389 => some (.accWr h d a b)
  | 0x38A => some (.accLd h a b)
  | 0x38B => some (.accSt h (fin4 (bits f.m 1 0)) a b)
  | 0x38C => some (.accRscl h a b)
  | 0x38D => some (.mwait h d)
  | 0x38E => some (.mstat h (fin4 (bits f.m 1 0)) d)
  | _ => none


/-- Classes 2 and 3: OP[6:2] the operation and OP[1:0] the variant V (R298, R361, R365). -/
def parse2 (f : TForm) (h : Hd) (d a : Reg) : Option Instr :=
  match f.op.toNat / 4 * 4, f.op.toNat % 4 with
  | 0x100, 0 => do return .vadd h d a (← f.bop)
  | 0x104, 0 => do return .vsub h d a (← f.bop)
  | 0x10C, 0 => do return .vmul h d a (← f.bop)
  | 0x114, 0 => do return .vmulodd h d a (← f.bop)
  | 0x118, 0 => do return .vmad h d a (← f.bop)
  | 0x11C, 0 => do return .vand h d a (← f.bop)
  | 0x120, 0 => do return .vor h d a (← f.bop)
  | 0x124, 0 => do return .vxor h d a (← f.bop)
  | 0x128, 0 => do return .vandn h d a (← f.bop)
  | 0x134, 0 => do return .vshl h d a (← f.bop)
  | 0x138, 0 => do return .vshr h d a (← f.bop)
  | 0x13C, 0 => do return .vsar h d a (← f.bop)
  | 0x140, 0 => do return .vrol h d a (← f.bop)
  | 0x154, 0 => do return .vsel h d a (← f.bop)
  | 0x168, 0 => do return .vbflip h d a (← f.bop)
  | 0x12C, 0 => some (.vnot h d a)
  | 0x130, 0 => some (.vneg h d a)
  | 0x14C, 0 => some (.vabs h d a)
  | 0x158, 0 => some (.vmov h d a)
  | 0x15C, 0 => some (.vswap h d a)
  | 0x160, 0 => some (.vclz h d a)
  | 0x164, 0 => some (.vpopc h d a)
  | 0x110, 0 => do return .vmulh h false d a (← f.bop)
  | 0x110, 1 => do return .vmulh h true d a (← f.bop)
  | 0x144, 0 => do return .vmin h false d a (← f.bop)
  | 0x144, 1 => do return .vmin h true d a (← f.bop)
  | 0x148, 0 => do return .vmax h false d a (← f.bop)
  | 0x148, 1 => do return .vmax h true d a (← f.bop)
  | 0x108, 0 => some (.vaddi h d a f.imm)
  | 0x150, v => do return .vcmp h (CC.ofCode v) (if bit f.m 6 then 0 else fin32 (bits f.m 4 0)) d a (← f.bop)
  | 0x16C, 0 => some (.vbext h false (fin32 (bits f.imm 16 12)) (fin32 (bits f.imm 11 7)) d a)
  | 0x174, 0 => some (.vbcast h false d a)
  | 0x16C, 1 => some (.vbext h true (fin32 (bits f.imm 16 12)) (fin32 (bits f.imm 11 7)) d a)
  | 0x174, 1 => some (.vbcast h true d a)
  | 0x170, 0 => some (.vbins h (fin32 (bits f.imm 16 12)) (fin32 (bits f.imm 11 7)) d a)
  | _, _ => none

def parse3 (f : TForm) (h : Hd) (d a : Reg) : Option Instr :=
  match f.op.toNat / 4 * 4, f.op.toNat % 4 with
  | 0x180, v => do return .fadd h (RM.ofCode v) d a (← f.bop)
  | 0x184, v => do return .fsub h (RM.ofCode v) d a (← f.bop)
  | 0x188, v => do return .fmul h (RM.ofCode v) d a (← f.bop)
  | 0x18C, v => do return .ffma h (RM.ofCode v) d a (← f.bop)
  | 0x1B0, v => do return .fdiv h (RM.ofCode v) d a (← f.bop)
  | 0x1B8, v => do return .fscale h (RM.ofCode v) d a (← f.bop)
  | 0x190, 0 => do return .fmin h d a (← f.bop)
  | 0x194, 0 => do return .fmax h d a (← f.bop)
  | 0x198, v => do return .fcmp h (FCC.ofCode v) (if bit f.m 6 then 0 else fin32 (bits f.m 4 0)) d a (← f.bop)
  | 0x19C, v => some (.fexp2 h (RM.ofCode v) d a)
  | 0x1A0, v => some (.flog2 h (RM.ofCode v) d a)
  | 0x1A4, v => some (.frcp h (RM.ofCode v) d a)
  | 0x1A8, v => some (.frsq h (RM.ofCode v) d a)
  | 0x1AC, v => some (.fsqrt h (RM.ofCode v) d a)
  | 0x1B4, v => some (.frint h (RM.ofCode v) d a)
  | 0x1BC, v => do
    let tyD ← Ty.ofCode (bits f.imm 16 13)
    let tyS ← Ty.ofCode (bits f.imm 12 9)
    return .cvt h (RM.ofCode v) tyD tyS (fin4 (bits f.imm 5 4)) (fin4 (bits f.imm 3 2)) d a
  | 0x1C0, v => do return .hadd2 h (RM.ofCode v) (!bit f.m 6 && bit f.m 0) d a (← f.bop)
  | 0x1C4, v => do return .hmul2 h (RM.ofCode v) (!bit f.m 6 && bit f.m 0) d a (← f.bop)
  | 0x1C8, v => do return .hfma2 h (RM.ofCode v) (!bit f.m 6 && bit f.m 0) d a (← f.bop)
  | 0x1CC, 0 => do return .hmax2 h (!bit f.m 6 && bit f.m 0) d a (← f.bop)
  | _, _ => none

/-- Class 5: OP[6:5] the addressing class AM and OP[4:0] the operation (R299, R377). -/
def parse5 (f : TForm) (h : Hd) : Option Instr :=
  match 0x280 + f.op.toNat % 32, f.op.toNat / 32 % 4 with
  | 0x280, 0 => do return .ld h (fin4 (carveHi f.d)) (bit f.a 8) (← Reg.ofCarve f.d) (.imm (← Reg.ofCarve f.a) f.imm)
  | 0x280, 1 => do return .ld h (fin4 (bits f.m 1 0)) (bit f.m 2) (← Reg.ofCode f.d) (.ext (fin16 (bits f.a 3 0)) (← Reg.ofCode f.b))
  | 0x281, 0 => do return .st h (fin4 (carveHi f.d)) (← Reg.ofCarve f.d) (.imm (← Reg.ofCarve f.a) f.imm)
  | 0x281, 1 => do return .st h (fin4 (bits f.m 1 0)) (← Reg.ofCode f.d) (.ext (fin16 (bits f.a 3 0)) (← Reg.ofCode f.b))
  | 0x282, 0 => do return .xchg h (fin4 (carveHi f.d)) (bit f.a 8) (← Reg.ofCarve f.d) (.imm (← Reg.ofCarve f.a) f.imm)
  | 0x282, 1 => do return .xchg h (fin4 (bits f.m 1 0)) (bit f.m 2) (← Reg.ofCode f.d) (.ext (fin16 (bits f.a 3 0)) (← Reg.ofCode f.b))
  | 0x286, 0 => do return .ldl h (fin4 (carveHi f.d)) (bit f.a 8) (← Reg.ofCarve f.d) (.imm (← Reg.ofCarve f.a) f.imm)
  | 0x287, 0 => do return .stl h (fin4 (carveHi f.d)) (← Reg.ofCarve f.d) (.imm (← Reg.ofCarve f.a) f.imm)
  | 0x283, 0 => do return .vld h 0 false (← Reg.ofCode f.d) (.imm (← Reg.ofCarve f.a) f.imm)
  | 0x283, 1 => do return .vld h 0 false (← Reg.ofCode f.d) (.ext (fin16 (bits f.a 3 0)) (← Reg.ofCode f.b))
  | 0x283, 2 => do return .vld h (fin4 (bits f.m 1 0)) (bit f.m 2) (← Reg.ofCode f.d) (.lane (← Reg.ofCode f.a) (← Reg.ofCode f.b))
  | 0x284, 0 => do return .vst h ⟨0, false⟩ (← Reg.ofCode f.d) (.imm (← Reg.ofCarve f.a) f.imm)
  | 0x284, 1 => do return .vst h ⟨0, false⟩ (← Reg.ofCode f.d) (.ext (fin16 (bits f.a 3 0)) (← Reg.ofCode f.b))
  | 0x284, 2 => do return .vst h ⟨fin4 (bits f.m 1 0), bit f.m 2⟩ (← Reg.ofCode f.d) (.lane (← Reg.ofCode f.a) (← Reg.ofCode f.b))
  | 0x28A, 0 => do return .ldd h 0 false (← Reg.ofCode f.d) (.imm (← Reg.ofCarve f.a) f.imm)
  | 0x28A, 1 => do return .ldd h 0 false (← Reg.ofCode f.d) (.ext (fin16 (bits f.a 3 0)) (← Reg.ofCode f.b))
  | 0x28A, 2 => do return .ldd h (fin4 (bits f.m 1 0)) (bit f.m 2) (← Reg.ofCode f.d) (.lane (← Reg.ofCode f.a) (← Reg.ofCode f.b))
  | 0x288, 0 => do return .vldl h 0 false (← Reg.ofCode f.d) (.imm (← Reg.ofCarve f.a) f.imm)
  | 0x288, 2 => do return .vldl h (fin4 (bits f.m 1 0)) (bit f.m 2) (← Reg.ofCode f.d) (.lane (← Reg.ofCode f.a) (← Reg.ofCode f.b))
  | 0x289, 0 => do return .vstl h ⟨0, false⟩ (← Reg.ofCode f.d) (.imm (← Reg.ofCarve f.a) f.imm)
  | 0x289, 2 => do return .vstl h ⟨fin4 (bits f.m 1 0), bit f.m 2⟩ (← Reg.ofCode f.d) (.lane (← Reg.ofCode f.a) (← Reg.ofCode f.b))
  | 0x285, 0 => do return .vxchg h (← Reg.ofCode f.d) (.imm (← Reg.ofCarve f.a) f.imm)
  | 0x285, 1 => do return .vxchg h (← Reg.ofCode f.d) (.ext (fin16 (bits f.a 3 0)) (← Reg.ofCode f.b))
  | 0x28B, 2 => do return .gath h (fin4 (bits f.m 1 0)) (bit f.m 2) (← Reg.ofCode f.d) (← Reg.ofCode f.a) (← Reg.ofCode f.b)
  | 0x28C, 0 => do
    return .amo h (← AOp.ofCode (bits f.m 6 3)) (Order.ofCode (carveHi f.d)) (← Scope.ofCode (bits f.m 2 0))
      (fin4 (carveHi f.a)) (← Reg.ofCarve f.d) (← Reg.ofCarve f.a) (← Reg.ofCode f.b)
  | 0x28D, 0 => do
    return .cas h (Order.ofCode (carveHi f.d)) (← Scope.ofCode (bits f.m 2 0))
      (fin4 (carveHi f.a)) (← Reg.ofCarve f.d) (← Reg.ofCarve f.a) (← Reg.ofCode f.b)
  | 0x28E, 2 => do
    return .red h (← AOp.ofCode (bits f.m 6 3)) (bit f.a 8) (← Scope.ofCode (bits f.m 2 0))
      (← Reg.ofCode f.d) (← Reg.ofCarve f.a) (← Reg.ofCode f.b)
  | 0x28F, 0 => do return .stMc h (fin4 (carveHi f.a)) (← Reg.ofCode f.d) (← Reg.ofCarve f.a) f.imm
  | 0x290, 0 => do return .flowPut h (← Reg.ofCode f.d) (← Reg.ofCarve f.a) f.imm
  | 0x291, 0 => do return .flowGet h (← Reg.ofCode f.d) (← Reg.ofCarve f.a) f.imm
  | _, _ => none

/-- SETK, the K form (R289). -/
def parseK (w : Word) : Option Instr := do
  let f := KForm.ofWord w
  return .setk (isSet f.s) (← Reg.ofCode f.d) (← HF.ofCode f.h.toNat) f.imm

/-- A register field that the form may use for other bits: z where it names none. -/
def regOr (c : BitVec 10) : Reg := (Reg.ofCode c).getD .z

/-- The instruction that a word's fields name; must-be-zero fields and legality are checked by `decode`. -/
def parse (w : Word) : Option Instr :=
  let f := TForm.ofWord w
  if f.op = 0x021#10 then parseK w
  else do
    let h ← f.hd
    match f.op.toNat / 128 with
    | 0 => parse0 f h (regOr f.d) (regOr f.a) (regOr f.b)
    | 1 => parse1 f h (regOr f.d) (regOr f.a) (regOr f.b)
    | 2 => parse2 f h (regOr f.d) (regOr f.a)
    | 3 => parse3 f h (regOr f.d) (regOr f.a)
    | 4 => parse4 f h (regOr f.d) (regOr f.a) (regOr f.b)
    | 5 => parse5 f h
    | 6 => parse6 f h (regOr f.d) (regOr f.a) (regOr f.b)
    | _ => parse7 f h (regOr f.d) (regOr f.a) (regOr f.b)

/-- A T-form word from raw fields. -/
def rawWord (op : Nat) (h : Hd) (d a b : BitVec 10) (m : Nat) : Word :=
  TForm.toWord ⟨flag h.mark, BitVec.ofNat 10 op, flag h.gv, BitVec.ofNat 5 h.gb.val, h.gr.code, d, a, b, BitVec.ofNat 7 m⟩

/-- A word with IMM or an own field in bits [16:0]. -/
def rawImmWord (op : Nat) (h : Hd) (d a : BitVec 10) (imm : BitVec 17) : Word :=
  TForm.toWord ⟨flag h.mark, BitVec.ofNat 10 op, flag h.gv, BitVec.ofNat 5 h.gb.val, h.gr.code, d, a,
    imm.extractLsb' 7 10, imm.extractLsb' 0 7⟩

/-- The T form (R287). -/
def tWord (op : Nat) (h : Hd) (d a b : Reg) (m : Nat) : Word := rawWord op h d.code a.code b.code m

/-- The I form (R288). -/
def iWord (op : Nat) (h : Hd) (d a : Reg) (imm : BitVec 17) : Word := rawImmWord op h d.code a.code imm

/-- An own field in bits [16:0] (R291). -/
def ownWord (op : Nat) (h : Hd) (d a : Reg) (own : Nat) : Word := iWord op h d a (BitVec.ofNat 17 own)

/-- The J form (R290). -/
def jWord (op : Nat) (h : Hd) (d : Reg) (off : BitVec 27) : Word :=
  TForm.toWord ⟨flag h.mark, BitVec.ofNat 10 op, flag h.gv, BitVec.ofNat 5 h.gb.val, h.gr.code, d.code,
    off.extractLsb' 17 10, off.extractLsb' 7 10, off.extractLsb' 0 7⟩

/-- A class-2 or class-3 word: M is the cross-lane field or the instruction's own modifier (R298). -/
def vWord (op : Nat) (h : Hd) (d a : Reg) (b : BOp) (m : Nat) : Word :=
  match b with
  | .reg r => tWord op h d a r m
  | .cross r k => tWord op h d a r (64 + k.toNat)

/-- A control-register selector in B and M (R343). -/
def xsrWord (op : Nat) (h : Hd) (d a : Reg) (x : Xsr) : Word :=
  rawWord op h d.code a.code x.num (x.idx.toNat * 8 + x.word.toNat)

/-- A scalar memory word (R377): SZ and UN stand in the carves of AM 0 and in M of AM 1. -/
def sMemWord (op : Nat) (h : Hd) (sz : Fin 4) (un : Bool) (d : Reg) (m : Addr) : Word :=
  match m with
  | .imm a off => rawImmWord op h (carve sz.val d) (carve (if un then 1 else 0) a) off
  | .ext n o => rawWord (op + 0x20) h d.code (BitVec.ofNat 10 n.val) o.code (sz.val + (if un then 4 else 0))
  | .lane a b => rawWord (op + 0x40) h d.code a.code b.code (sz.val + (if un then 4 else 0))

/-- A vector memory word (R377). -/
def vMemWord (op : Nat) (h : Hd) (sz : Fin 4) (un : Bool) (d : Reg) (m : Addr) : Word :=
  match m with
  | .imm a off => rawImmWord op h d.code (carve 0 a) off
  | .ext n o => rawWord (op + 0x20) h d.code (BitVec.ofNat 10 n.val) o.code 0
  | .lane a b => rawWord (op + 0x40) h d.code a.code b.code (sz.val + (if un then 4 else 0))

/-- The word of an instruction (R300); the steps of the other agents have none. -/
def encode : Instr → Option Word
  | .add h t d a b => some (tWord 0x000 h d a b t.code)
  | .sub h t d a b => some (tWord 0x001 h d a b t.code)
  | .mul h t d a b => some (tWord 0x003 h d a b t.code)
  | .mulh h t d a b => some (tWord 0x004 h d a b t.code)
  | .mulodd h t d a b => some (tWord 0x005 h d a b t.code)
  | .div h t d a b => some (tWord 0x006 h d a b t.code)
  | .rem h t d a b => some (tWord 0x007 h d a b t.code)
  | .and h t d a b => some (tWord 0x008 h d a b t.code)
  | .or h t d a b => some (tWord 0x009 h d a b t.code)
  | .xor h t d a b => some (tWord 0x00A h d a b t.code)
  | .andn h t d a b => some (tWord 0x00B h d a b t.code)
  | .shl h t d a b => some (tWord 0x00E h d a b t.code)
  | .shr h t d a b => some (tWord 0x00F h d a b t.code)
  | .sar h t d a b => some (tWord 0x010 h d a b t.code)
  | .rol h t d a b => some (tWord 0x011 h d a b t.code)
  | .ror h t d a b => some (tWord 0x012 h d a b t.code)
  | .min h t d a b => some (tWord 0x016 h d a b t.code)
  | .max h t d a b => some (tWord 0x017 h d a b t.code)
  | .sel h t d a b => some (tWord 0x020 h d a b t.code)
  | .not h t d a => some (tWord 0x00C h d a .z t.code)
  | .neg h t d a => some (tWord 0x00D h d a .z t.code)
  | .clz h t d a => some (tWord 0x013 h d a .z t.code)
  | .ctz h t d a => some (tWord 0x014 h d a .z t.code)
  | .popc h t d a => some (tWord 0x015 h d a .z t.code)
  | .mov h t d a => some (tWord 0x01E h d a .z t.code)
  | .addi h d a imm => some (iWord 0x002 h d a imm)
  | .cmp h cc n d a b => some (tWord 0x018 h d a b (cc.code * 32 + n.val))
  | .bset h n d a b => some (tWord 0x019 h d a b n.val)
  | .bclr h n d a b => some (tWord 0x01A h d a b n.val)
  | .bflip h n d a b => some (tWord 0x01B h d a b n.val)
  | .bext h pos lenm un d a => some (ownWord 0x01C h d a (pos.val * 2048 + lenm.val * 32 + (if un then 16 else 0)))
  | .bins h pos lenm d a => some (ownWord 0x01D h d a (pos.val * 2048 + lenm.val * 32))
  | .swap h d a => some (tWord 0x01F h d a .z 0)
  | .setk mark d f imm => some (KForm.toWord ⟨flag mark, 0x021, d.code, BitVec.ofNat 2 f.code, 0, imm⟩)
  | .br h off => some (jWord 0x080 h .z off)
  | .call h d off => some (jWord 0x081 h d off)
  | .ret h a => some (tWord 0x082 h .z a .z 0)
  | .loop h d off => some (jWord 0x083 h d off)
  | .nop h => some (tWord 0x084 h .z .z .z 0)
  | .yield h => some (tWord 0x085 h .z .z .z 0)
  | .halt h => some (tWord 0x086 h .z .z .z 0)
  | .commit h => some (tWord 0x088 h .z .z .z 0)
  | .trap h imm => some (iWord 0x087 h .z .z imm)
  | .revC h a => some (tWord 0x089 h .z a .z 0)
  | .revP h a => some (tWord 0x089 h .z a .z 1)
  | .xsrRd h x d a => some (xsrWord 0x08A h d a x)
  | .xsrWr h x a => some (xsrWord 0x08B h .z a x)
  | .regGrow h d a => some (tWord 0x08C h d a .z 0)
  | .regShrink h d a => some (tWord 0x08D h d a .z 0)
  | .svcResume h l d a => some (tWord 0x090 h d a .z (l.toNat * 4))
  | .svcResumeC h l d a b => some (tWord 0x090 h d a b (l.toNat * 4 + 1))
  | .svcResumeP h l d a b => some (tWord 0x090 h d a b (l.toNat * 4 + 2))
  | .svcKill h d a => some (tWord 0x091 h d a .z 0)
  | .svcMigrate h d a b => some (tWord 0x092 h d a b 0)
  | .svcPurge h all a b => some (tWord 0x093 h .z a b (if all then 1 else 0))
  | .svcCommit h d a => some (tWord 0x094 h d a .z 0)
  | .qctlRd h d => some (tWord 0x098 h d .z .z 0)
  | .qctlQ h d => some (tWord 0x098 h d .z .z 1)
  | .qctlR h d => some (tWord 0x098 h d .z .z 2)
  | .mboxSendVerify h a => some (tWord 0x099 h .z a .z 0)
  | .mboxSendMeas h a => some (tWord 0x099 h .z a .z 0)
  | .mboxRecv h d a => some (tWord 0x09A h d a .z 0)
  | .wdogKick h a => some (tWord 0x09B h .z a .z 0)
  | .slotSel h d a => some (tWord 0x09C h d a .z 0)
  | .vadd h d a b => some (vWord 0x100 h d a b 0)
  | .vsub h d a b => some (vWord 0x104 h d a b 0)
  | .vmul h d a b => some (vWord 0x10C h d a b 0)
  | .vmulodd h d a b => some (vWord 0x114 h d a b 0)
  | .vmad h d a b => some (vWord 0x118 h d a b 0)
  | .vand h d a b => some (vWord 0x11C h d a b 0)
  | .vor h d a b => some (vWord 0x120 h d a b 0)
  | .vxor h d a b => some (vWord 0x124 h d a b 0)
  | .vandn h d a b => some (vWord 0x128 h d a b 0)
  | .vshl h d a b => some (vWord 0x134 h d a b 0)
  | .vshr h d a b => some (vWord 0x138 h d a b 0)
  | .vsar h d a b => some (vWord 0x13C h d a b 0)
  | .vrol h d a b => some (vWord 0x140 h d a b 0)
  | .vsel h d a b => some (vWord 0x154 h d a b 0)
  | .vbflip h d a b => some (vWord 0x168 h d a b 0)
  | .vnot h d a => some (tWord 0x12C h d a .z 0)
  | .vneg h d a => some (tWord 0x130 h d a .z 0)
  | .vabs h d a => some (tWord 0x14C h d a .z 0)
  | .vmov h d a => some (tWord 0x158 h d a .z 0)
  | .vswap h d a => some (tWord 0x15C h d a .z 0)
  | .vclz h d a => some (tWord 0x160 h d a .z 0)
  | .vpopc h d a => some (tWord 0x164 h d a .z 0)
  | .vmulh h un d a b => some (vWord (0x110 + (if un then 1 else 0)) h d a b 0)
  | .vmin h un d a b => some (vWord (0x144 + (if un then 1 else 0)) h d a b 0)
  | .vmax h un d a b => some (vWord (0x148 + (if un then 1 else 0)) h d a b 0)
  | .vaddi h d a imm => some (iWord 0x108 h d a imm)
  | .vcmp h cc n d a b => some (vWord (0x150 + cc.code) h d a b n.val)
  | .vbext h un pos lenm d a => some (ownWord (0x16C + (if un then 1 else 0)) h d a (pos.val * 4096 + lenm.val * 128))
  | .vbcast h hi d a => some (tWord (0x174 + (if hi then 1 else 0)) h d a .z 0)
  | .vbins h pos lenm d a => some (ownWord 0x170 h d a (pos.val * 4096 + lenm.val * 128))
  | .fadd h rm d a b => some (vWord (0x180 + rm.code) h d a b 0)
  | .fsub h rm d a b => some (vWord (0x184 + rm.code) h d a b 0)
  | .fmul h rm d a b => some (vWord (0x188 + rm.code) h d a b 0)
  | .ffma h rm d a b => some (vWord (0x18C + rm.code) h d a b 0)
  | .fdiv h rm d a b => some (vWord (0x1B0 + rm.code) h d a b 0)
  | .fscale h rm d a b => some (vWord (0x1B8 + rm.code) h d a b 0)
  | .fmin h d a b => some (vWord 0x190 h d a b 0)
  | .fmax h d a b => some (vWord 0x194 h d a b 0)
  | .fcmp h cc n d a b => some (vWord (0x198 + cc.code) h d a b n.val)
  | .fexp2 h rm d a => some (tWord (0x19C + rm.code) h d a .z 0)
  | .flog2 h rm d a => some (tWord (0x1A0 + rm.code) h d a .z 0)
  | .frcp h rm d a => some (tWord (0x1A4 + rm.code) h d a .z 0)
  | .frsq h rm d a => some (tWord (0x1A8 + rm.code) h d a .z 0)
  | .fsqrt h rm d a => some (tWord (0x1AC + rm.code) h d a .z 0)
  | .frint h rm d a => some (tWord (0x1B4 + rm.code) h d a .z 0)
  | .cvt h rm tyD tyS sp dp d a =>
    some (ownWord (0x1BC + rm.code) h d a (tyD.code * 8192 + tyS.code * 512 + sp.val * 16 + dp.val * 4))
  | .hadd2 h rm w d a b => some (vWord (0x1C0 + rm.code) h d a b (if w then 1 else 0))
  | .hmul2 h rm w d a b => some (vWord (0x1C4 + rm.code) h d a b (if w then 1 else 0))
  | .hfma2 h rm w d a b => some (vWord (0x1C8 + rm.code) h d a b (if w then 1 else 0))
  | .hmax2 h w d a b => some (vWord 0x1CC h d a b (if w then 1 else 0))
  | .lperm h d a b => some (tWord 0x200 h d a b 0)
  | .lshuf h m d a => some (tWord 0x201 h d a .z m.val)
  | .lrot h n d a b => some (tWord 0x202 h d a b n.val)
  | .lbcast h n d a b => some (tWord 0x203 h d a b n.val)
  | .lred h op ty rm d a => some (tWord 0x204 h d a .z (rm.code * 32 + ty.code * 8 + op.code))
  | .lscan h op ty rm d a => some (tWord 0x205 h d a .z (rm.code * 32 + ty.code * 8 + op.code))
  | .lbits h n d a => some (tWord 0x206 h d a .z n.val)
  | .lspread h n d a => some (tWord 0x207 h d a .z n.val)
  | .ld h sz un d m => some (sMemWord 0x280 h sz un d m)
  | .st h sz d m => some (sMemWord 0x281 h sz false d m)
  | .xchg h sz un d m => some (sMemWord 0x282 h sz un d m)
  | .ldl h sz un d m => some (sMemWord 0x286 h sz un d m)
  | .stl h sz d m => some (sMemWord 0x287 h sz false d m)
  | .vld h sz un d m => some (vMemWord 0x283 h sz un d m)
  | .vst h sz d m => some (vMemWord 0x284 h sz.sz sz.un d m)
  | .ldd h sz un d m => some (vMemWord 0x28A h sz un d m)
  | .vldl h sz un d m => some (vMemWord 0x288 h sz un d m)
  | .vstl h sz d m => some (vMemWord 0x289 h sz.sz sz.un d m)
  | .vxchg h d m => some (vMemWord 0x285 h 0 false d m)
  | .gath h sz un d a b => some (tWord 0x2CB h d a b (sz.val + (if un then 4 else 0)))
  | .amo h op ord sc sz d a b =>
    some (rawWord 0x28C h (carve ord.code d) (carve sz.val a) b.code (op.code * 8 + sc.code))
  | .cas h ord sc sz d a b => some (rawWord 0x28D h (carve ord.code d) (carve sz.val a) b.code sc.code)
  | .red h op rel sc d a b =>
    some (rawWord 0x2CE h d.code (carve (if rel then 1 else 0) a) b.code (op.code * 8 + sc.code))
  | .stMc h n d a off => some (rawImmWord 0x28F h d.code (carve n.val a) off)
  | .flowPut h d a off => some (rawImmWord 0x290 h d.code (carve 0 a) off)
  | .flowGet h d a off => some (rawImmWord 0x291 h d.code (carve 0 a) off)
  | .fence h ord sc => some (tWord 0x300 h .z .z .z (sc.code * 4 + ord.code))
  | .barInit h k a => some (tWord 0x301 h .z a .z k.val)
  | .barArv h k => some (tWord 0x302 h .z .z .z k.val)
  | .barWait h k n d => some (ownWord 0x303 h d .z (n.val * 128 + k.val))
  | .ringPutClaim h r d => some (tWord 0x304 h d .z .z (r.val + 8))
  | .ringPut h r a => some (tWord 0x304 h .z a .z r.val)
  | .ringGet h r d => some (tWord 0x305 h d .z .z r.val)
  | .ringGetDone h r a => some (tWord 0x305 h .z a .z (r.val + 8))
  | .ringPeek h r n d => some (ownWord 0x306 h d .z (n.val * 128 + r.val))
  | .stageAdv h imm a => some (iWord 0x307 h .z a imm)
  | .wpWait h w imm d => some (iWord 0x308 h d (.wp w) imm)
  | .sbWait h a => some (tWord 0x309 h .z a .z 0)
  | .earlyTrig h p => some (tWord 0x30A h .z .z .z p.val)
  | .detSync h => some (tWord 0x30B h .z .z .z 0)
  | .tcBind h a b => some (tWord 0x310 h .z a b 0)
  | .tcProbe h n d a b => some (tWord 0x311 h d a b n.val)
  | .tcPf h self mask d a => some (ownWord 0x312 h d a ((if self then 256 else 0) + mask.toNat))
  | .tcSub h d a b => some (tWord 0x313 h d a b 0)
  | .tcInv h disc a => some (tWord 0x314 h .z a .z (if disc then 1 else 0))
  | .tcKeep h i a => some (tWord 0x315 h .z a .z i.val)
  | .cnPut h node r d a => some (tWord 0x318 h d a .z (r.val + (if node then 8 else 0)))
  | .cnGet h r d a => some (tWord 0x319 h d a .z r.val)
  | .cnRef h r d => some (tWord 0x31A h d .z .z r.val)
  | .cnDrop h r d => some (tWord 0x31B h d .z .z r.val)
  | .cnRoot h ref r d a => some (tWord 0x31C h d a .z (r.val + (if ref then 8 else 0)))
  | .cnSwap h r d a b => some (tWord 0x31D h d a b r.val)
  | .cnOut h r k d a b => some (tWord 0x31E h d a b (k.val * 8 + r.val))
  | .mbLd h bank kc a b => some (tWord 0x380 h .z a b ((if bank then 64 else 0) + kc.val * 16))
  | .mma h bank kc nm d a b => some (tWord 0x381 h d a b ((if bank then 64 else 0) + kc.val * 16 + nm.val))
  | .mloop h d a b => some (tWord 0x382 h d a b 0)
  | .mmaBd h bank d a b => some (tWord 0x383 h d a b (if bank then 64 else 0))
  | .accAlloc h ek d a b => some (tWord 0x384 h d a b (if ek then 1 else 0))
  | .accGrow h n d a => some (ownWord 0x385 h d a (n.val * 128))
  | .accFree h a => some (tWord 0x386 h .z a .z 0)
  | .accZero h a => some (tWord 0x387 h .z a .z 0)
  | .accRd h d a b => some (tWord 0x388 h d a b 0)
  | .accWr h d a b => some (tWord 0x389 h d a b 0)
  | .accLd h a b => some (tWord 0x38A h .z a b 0)
  | .accSt h dt a b => some (tWord 0x38B h .z a b dt.val)
  | .accRscl h a b => some (tWord 0x38C h .z a b 0)
  | .mwait h d => some (tWord 0x38D h d .z .z 0)
  | .mstat h w d => some (tWord 0x38E h d .z .z w.val)
  | _ => none

/-- Decoding: total on every word, none where R301 gives ILLEGAL. -/
def decode (w : Word) : Option Instr :=
  match parse w with
  | some i => if i.wf && encode i == some w then some i else none
  | none => none

/-- A header word (R131, R285): bits [63:53] all ones. -/
def isHeader (w : Word) : Bool := w.extractLsb' 53 11 == 0x7FF#11

/-- Fields of a header word (R285). -/
def hdrLen (w : Word) : Nat := bits w 52 45
def hdrVlive (w : Word) : Nat := bits w 44 35
def hdrSlive (w : Word) : Nat := bits w 34 28
def hdrBound (w : Word) : Nat := bits w 27 20
def hdrJoin (w : Word) : Bool := bit w 3
def hdrEntry (w : Word) : Bool := bit w 2
def hdrNopre (w : Word) : Bool := bit w 1

/-- R286: a header that raises FRAME whenever control enters its block. -/
def hdrBad (w : Word) : Bool := hdrLen w == 0 || 768 < hdrVlive w || bit w 0

/-- The bytes of a word, lowest address first (R2). -/
def wordBytes (w : Word) : List Byte := (List.range 8).map fun i => w.extractLsb' (8 * i) 8

/-- The word of eight bytes, lowest address first. -/
def wordOfBytes (bs : List Byte) : Word := bs.foldr (fun b acc => (acc <<< 8) ||| b.zeroExtend 64) 0

/-- Decoding of the bytes at the pc: eight bytes, none where there are fewer. -/
def decodeBytes (bs : List Byte) : Option Instr :=
  if 8 ≤ bs.length then decode (wordOfBytes (bs.take 8)) else none

/-- The host's question: the instruction whose bits are `w`, every bit above `nbits` zero. -/
def decodeTableWord (nbits w : Nat) : Option Instr := decodeBytes (wordBytes (w64 (w % 2 ^ nbits)))

end Sys2Proof
end

