-- ==== Sys2Proof/Config.lean ====
section
/-! DEFINITION. What an implementation fixes and what the spec leaves open: constants with no body are free
values (notes/assumptions), so that nothing can be proved of their value. -/

namespace Sys2Proof.Config

/-- R105: whether lane `lane` of a source returns the old value of a register whose result is still awaited (free: old or
new, no other value is possible). `moment` is the tick, or in a deterministic launch the group and its ic (R261). -/
opaque readsOld : (moment reg lane : Nat) → Bool

/-- R204: the value bits of a lane or register that a load, gather or atomic poisons; the spec states none. -/
opaque poisonValue : (moment lane : Nat) → BitVec 64

/-- R203: whether a walk uses a cached entry that differs from the table's. -/
opaque usesCached : (tick : Nat) → Bool

/-- R405: whether a tile that the cache was given is still there when TC.PROBE looks, outside a DET launch; its result
reflects timing. -/
opaque tileResident : (tick : Nat) → Bool

/-- R165: the fixed hash of a tile-cache key that RATIO is held against. -/
opaque keyHash : (key : Nat) → Nat

/-- R157: the fixed hash of a tile's partition, tensor and coordinates that chooses its slice on a die; and the set of a slice
that a key's line lies in. -/
opaque sliceHash : (part tensor coord : Nat) → Nat
opaque setHash : (key : Nat) → Nat

/-- R150: whether a line that is dirty under one key has been evicted, and so written back, by the time another key reads
it from storage. -/
opaque writtenBack : (moment line : Nat) → Bool

/-- R195: whether the merge of a line whose masks conflict comes before the access that made the conflict ends. -/
opaque mergesNow : (tick line : Nat) → Bool

/-- R195: whether 10 µs have passed between two ticks. -/
opaque tenMicroseconds : (since until_ : Nat) → Bool

/-- R249, R251, R256: the place in the coherence orders whose values a lane's load returns, among those that it may. -/
opaque readTick : (tick lane : Nat) → Nat

/-- R438: whether the read of a line of host memory or of a peer fails as an access copies it. -/
opaque copyFails : (tick line : Nat) → Bool

/-- R149: the set of an L1, among 256, that a line lies in. -/
opaque l1Set : (part asid va : Nat) → Nat

/-- R148: how many more bytes of a release arrive at a step. -/
opaque copyCut : (tick : Nat) → Nat

/-- R161: which of the values that R161 allows a byte under a discarded tensor keeps: 0 the written one, n the n-th
value before it. -/
opaque discardPick : (moment addr : Nat) → Nat

/-- R156, R418: whether the engine gives its next step to the MB.LD, or the pass, that may run beside the oldest entry. -/
opaque stepsBeside : (tick : Nat) → Bool

/-- R421: the value left in an element of a window whose pass failed. -/
opaque failedElement : (moment element : Nat) → BitVec 32

/-- R391: the byte a message carries for a lane that the guard turned off; the spec names no value. -/
opaque flowGapByte : (moment index : Nat) → BitVec 8

/-- R48: the Dresan firmware key, an Ed25519 public key, whose hash is fused. -/
opaque firmwareKey : Nat

/-- R167: the fixed hash of a chunk's stack offset that places its lines on the pseudo-channels. -/
opaque chunkHash : (stackOffset : Nat) → Nat

/-- R43, R52, R53: the n-th value drawn from Zalius's random generator. -/
opaque random : (tick : Nat) → Nat

/-- R45: the compound identifier that the ROM derives from the fused seed and the measurement of the firmware; and the
certificate chain, with its DeviceID fixed at manufacture, that the identifier and the measurements give. The spec names
the derivations and not their inputs' layout (log entry 8). -/
opaque compoundId : (measurement : Nat) → Nat
opaque certificateChain : (cdi : Nat) → (measurements : List Nat) → List (BitVec 8)

/-- R46: what Zalius's identity layers answer where the answer holds a fresh nonce, key share or signature. -/
opaque identity : (what tick : Nat) → Nat

/-- R49: the fused security version of this module, from 0 to 64. -/
opaque fusedSvnRaw : Nat

/-- R47: measurement of the Zalius ROM and of the fused configuration. -/
opaque romMeasurement : Nat
opaque islandEnables : Nat

/-- R47: SHA-512 of the fused configuration: the island enables, the fused SVN and the test-mode fuse; the spec gives no
layout of what is hashed. -/
opaque fusedConfig : (enables svn : Nat) → (testFuse : Bool) → Nat

/-- R449: whether a WDOG.KICK in the window of a slot switch falls in its last tick, where it does not count. -/
opaque lastWindowTick : (tick : Nat) → Bool

/-- R452: whether the fused configuration carries the FWDEBUG fuse. -/
opaque fwDebugFuse : Bool

/-- R11: the non-volatile bytes of firmware slot `slot` as the module was delivered. -/
opaque slotImage : (slot : Nat) → List (BitVec 8)

/-- R176, R389 and R258: whether the line of physical address `pa` has its home on another die than `die`
and is not held writable there; coherence state decides and the spec leaves the moment open. -/
opaque homedElsewhere : (tick die line : Nat) → Bool

/-- R159, R199, R127: where firmware puts what it places inside a partition's first ordinary range: the tensor
table (0), the ASID table (1) and history regions (2 + n), as raw numbers that the model reduces into the range. -/
opaque firmwareLayout : (part what : Nat) → Nat

/-- R92, R108: where in a partition's context area firmware puts what it saves, and the bytes that it puts there; the spec
gives neither the place nor the layout. -/
opaque contextPlace : (part what : Nat) → Nat
opaque contextByte : (tick index : Nat) → BitVec 8

/-- R259, R390: the ASID under which the ring's VA of a receive descriptor is translated when a message of a peer comes;
the spec names the sender's ASID only. -/
opaque flowAsid : (flow : Nat) → Nat

/-- R186: the bank and the row of a stack that a line lies in; the spec maps no address to a row. -/
opaque hbmRow : (pa : Nat) → Nat × Nat

/-- R210: whether firmware has enabled the memory-side tables, and the threshold that it programmed; the spec names no
register of them. -/
opaque tablesEnabled : (tick : Nat) → Bool
opaque blockThreshold : Nat

/-- R19: whether the partner of a port has a working lane left to offer. -/
opaque partnerLane : (port tick : Nat) → Bool

/-- The readings of the module's sensors (R31), and all else the outside world decides at a tick. -/
opaque sensor : (what tick : Nat) → Nat

end Sys2Proof.Config
end

