-- ==== Sys2Proof/Machine/State.lean ====
section
/-! DEFINITION. The state of the module as the spec gives it (INVENTORY.md, heading State), as plain data, with
its value after reset, and the reasons a step can stop. Sparse tables are lists of (key, value) pairs, keys rising,
no pair holding the value that an unlisted key has; the module memories are such tables of bytes (Host.Cell). -/

namespace Sys2Proof.Machine

/-- A scalar register: its value, poison bit and origin index (R204). -/
structure SVal where
  v : Word := 0
  p : Bool := false
  o : BitVec 3 := 0
  deriving DecidableEq, Repr, Inhabited

/-- A lane of a vector register (R204). -/
structure LVal where
  v : Lane := 0
  p : Bool := false
  o : BitVec 3 := 0
  deriving DecidableEq, Repr, Inhabited

/-- One crumb of the history (R124, R125); its words in memory are the payload and then the header. -/
structure Crumb where
  kind : BitVec 6
  iclo : BitVec 26
  arg : BitVec 32
  payload : List Word
  deriving DecidableEq, Repr, Inhabited

/-- What a group waits for (R101; each instruction's entry). -/
inductive Wait where
  | slot                       -- a free scoreboard slot (R104)
  | guarded (r : Reg)          -- the slot that guards r (R104, SB.WAIT)
  | allSlots                   -- SB.WAIT z
  | barrier (k phase : Nat)    -- BAR.WAIT (R399)
  | ringFree (r : Nat)         -- RING.PUT.claim (R400)
  | ringFull (r : Nat)         -- RING.GET (R400)
  | wp (c off : Nat)           -- WP.WAIT (R396)
  | grow (n : Nat)             -- REG.GROW (R107)
  | acks                       -- the outstanding acknowledgements (R258)
  | halt                       -- HALT: earlier work (R339)
  | flowPut                    -- FLOW.PUT: the ring is full (R391)
  | flowGet                    -- FLOW.GET (R392)
  | queueFull                  -- a full matrix queue (R418)
  | queueEmpty                 -- ACC.FREE (R431)
  | queueLeft (n : Nat)        -- MWAIT: n instructions have left the queue (R427)
  | accRead                    -- a queued ACC.RD (R418)
  | migTable                   -- SVC.MIGRATE: the table is full (R207)
  | sweep                      -- TC.INV: the previous sweep (R161)
  | mailbox                    -- MBOX.SEND, MBOX.RECV (R354)
  | dispatch                   -- QCTL.q: a placement in progress (R353)
  | ackRoom                    -- a 256th unacknowledged write (R258)
  | result                     -- a memory result, at a switch marker (R101, R103)
  | proof                      -- a horizon or HISTORY_FULL stall of a proofing group (R137)
  | boundary                   -- the quantum has ended (R263, R264)
  deriving DecidableEq, Repr, Inhabited

/-- Whether a group issues, and why not (R100, R101, R117). -/
inductive Status where
  | run
  | wait (w : Wait)
  | parked
  | swapped (n : Nat)          -- swapped out while it waits for n more registers (R108)
  | saved                      -- pre-empted (R92)
  | halted
  | stopped                    -- a control core that FWD or a break stopped (R452), or that never started
  deriving DecidableEq, Repr, Inhabited

/-- Roles (R68, R96); a control core has none of them. -/
inductive Role where
  | vector | matrix | copy | control
  deriving DecidableEq, Repr, Inhabited

/-- The value that a scoreboard slot delivers (R104): registers with their lanes, and what is written. -/
structure Delivery where
  scalars : List (Nat × SVal) := []
  lanes : List (Nat × LVal) := []
  deriving DecidableEq, Repr, Inhabited

/-- A busy scoreboard slot (R104): the registers it guards and the result that is on its way. -/
structure SbSlot where
  slot : Nat
  regs : List Reg
  ic : Word
  res : Delivery
  late : Bool := false          -- the result comes at a boundary (R269)
  deriving DecidableEq, Repr, Inhabited

/-- A result of an unmarked instruction that may be outstanding (R105): the register and its old contents. -/
structure Awaited where
  r : Reg
  olds : SVal
  oldv : List LVal
  deriving DecidableEq, Repr, Inhabited

/-- An entry of the poison-origin table (R204). -/
structure Origin where
  oic : Word := 0
  valid : Bool := false
  multi : Bool := false
  cause : Nat := 0
  va : Nat := 0
  deriving DecidableEq, Repr, Inhabited

/-- The history registers and the crumb stack of a group (R116, R118, R124, R127). `hp` is HIST_BASE plus the
size of the crumbs. -/
structure Hist where
  ic : Word := 0
  hz : Word := 0
  cf : Word := 0
  crumbs : List Crumb := []
  base : Nat := 0
  log : Nat := 12
  deriving DecidableEq, Repr, Inhabited

/-- The registers of a group (R106). -/
structure Regs where
  s : List (Nat × SVal) := []
  v : List (Nat × LVal) := []          -- key 32 * register + lane
  quota : Nat := 8
  deriving DecidableEq, Repr, Inhabited

/-- Where a group stands in its code: the VA of the next word, the VA of its block's header, that header, and
whether the entry check of R128 is still to be made at the next word. -/
structure Place where
  pc : Word := 0
  hva : Word := 0
  hdr : Word := 0
  fresh : Bool := false
  deriving DecidableEq, Repr, Inhabited

/-- Marks that a handler or the debugger leaves on a group (R114, R117, R345). -/
structure Marks where
  dir : Bool := false
  proof : Bool := false
  revd : Bool := false
  skipBrk : Bool := false       -- BREAK is not taken on this first instruction (R114)
  step : Bool := false          -- DBG_STEP: park after one counted instruction (R345)
  killed : Bool := false        -- it ends, as by HALT, once its earlier work is done (R114)
  deriving DecidableEq, Repr, Inhabited

/-- Where a group sits in an issue partition (R95, R100 to R102). -/
structure Seat where
  core : Nat := 0               -- 16 * cy + cx
  ipart : Nat := 0
  slot : Nat := 0
  active : Bool := true
  age : Nat := 0                -- the tick since which it has been ready (R100, R338)
  since : Nat := 0              -- the tick at which it entered the active set
  marked : Bool := false        -- its last instruction was a switch marker (R102, R103)
  loaded : Bool := false        -- it has loaded from memory since the switch marker before (R101, R103)
  deriving DecidableEq, Repr, Inhabited

/-- A load of host or peer memory whose completion may still report an error (R202): its destinations, its ic and the
VA of each lane's access. -/
structure HostLoad where
  ds : List Reg
  ic : Word
  accs : List (Nat × Nat)
  deriving DecidableEq, Repr, Inhabited

/-- Who makes a write of memory (R249, R252): a unit whose writes show to every group at once (the host, the peers, the
scheduler, firmware), a group, the matrix engine of a core, a copy channel of a core of a gang, a copy entry's loader or
storer, or the loaders of a gang for its subscriptions and copy-outs. -/
inductive Writer where
  | unit
  | group (key : Nat)
  | matrix (core : Nat)
  | channel (gang core chan : Nat)
  | entry (gang k : Nat)
  | loader (gang : Nat)
  deriving DecidableEq, Repr, Inhabited

/-- The writes that happen before what follows (R254): of each writer, the number up to which they do; and single writes,
by place, writer and number. -/
structure View where
  known : List (Writer × Nat) := []
  reads : List (Nat × Writer × Nat) := []
  deriving DecidableEq, Repr, Inhabited

/-- Where a group sits for the scopes of R252. -/
structure Party where
  key : Nat := 0
  gang : Nat := 0
  core : Nat := 0
  mesh : Bool := false
  deriving DecidableEq, Repr, Inhabited

/-- A release that a group has made (R253): the group, its scope (0 .grp to 5 .sys), the number of the last write before it,
what it publishes, and whether it is a FENCE.ar. -/
structure Release where
  by_ : Party
  scope : Nat
  num : Nat
  view : View
  ar : Bool := false
  deriving DecidableEq, Repr, Inhabited

/-- A group: one scalar thread and 32 lanes (R94), or a control core (R352, R446). -/
structure Group where
  key : Nat := 0
  gang : Nat := 0               -- uid of its gang; of a control core, its number
  gid : Nat := 0
  role : Role := .control
  seat : Seat := {}
  status : Status := .stopped
  regs : Regs := {}
  at_ : Place := {}
  hist : Hist := {}
  marks : Marks := {}
  fpflags : BitVec 2 := 0       -- [1] SAT, [0] NVI (R239)
  pot : List (Nat × Origin) := []
  sb : List SbSlot := []
  awaited : List Awaited := []
  unwaited : List (List Reg) := []  -- the registers of each slot whose result has come, with no SB.WAIT since (R104)
  acks : Nat := 0               -- outstanding-acknowledgement counter (R258)
  bars : List (Nat × List Nat) := [] -- barrier and its recorded phases, newest first (R397, R399)
  mtarget : Option Nat := none  -- what a waiting MWAIT covers (R427)
  qi : Nat := 0                 -- words since the quantum began (R263)
  growRank : Nat := 0           -- place in the arbiter's order (R107)
  growNeed : Nat := 0           -- registers that the waiting REG.GROW asks for
  arrived : Bool := false       -- saved or parked after it had ended its quantum (R264)
  baseQuota : Nat := 8
  bootCause : Word := 0         -- control core only (R352)
  drops : List (Nat × Nat) := []-- CN slots this group's drop made pending (R221): region and slot
  view : View := {}             -- the writes of others that happen before what it does next (R254)
  revoking : Option (Nat × Nat) := none  -- ASID and page whose slots a waiting SVC.MIGRATE has revoked (R207)
  hostLoad : Option HostLoad := none  -- the last load, when it read host or peer memory (R202)
  deriving DecidableEq, Repr, Inhabited

/-- An operand slot of a task (R71 to R75). -/
structure Slot where
  base : Word := 0
  len : Nat := 0
  write : Bool := false
  read : Bool := false
  kind : Nat := 0
  reuse : Nat := 0
  extents : List (Nat × Nat) := []  -- physical address, length
  pages : List (Nat × Nat × Word) := []  -- offset, length and leaf of the pages that it covers
  revoked : Bool := false
  deriving DecidableEq, Repr, Inhabited

/-- A producer that waits for a ring's slot: a group, a copy entry, or a subscription's tile (R146). -/
inductive Claimer where
  | group (key : Nat)
  | entry (k : Nat)
  | sub (tensor : Nat) (coord : Word)
  deriving DecidableEq, Repr, Inhabited

/-- A stage ring of a gang (R69, R145, R146). Slots claimed by a producer and taken by a consumer are kept by
number, and the producers that wait for a slot in the order in which they came. -/
structure Ring where
  decl : Word := 0
  phase : Word := 0
  tail : Nat := 0
  head : Nat := 0
  claimed : List Nat := []
  taken : List Nat := []
  waiting : List Claimer := []
  views : List (Nat × View) := []   -- what the last setting or clearing of a slot's PHASE bit publishes (R253)
  deriving DecidableEq, Repr, Inhabited

/-- A named barrier of a gang (R397): count, arrivals, phase, error flag of the current phase and what its arrivals
publish (R253), and the flags and publications of the phases completed so far, newest first. -/
structure Barrier where
  c : Nat := 0
  arrived : Nat := 0
  phase : Nat := 0
  err : Bool := false
  flags : List Bool := []
  view : View := {}
  views : List View := []
  deriving DecidableEq, Repr, Inhabited

/-- A release in progress (R148, R178, R179): the ring slot that it fills or drains, its destination bytes done, the
converted bytes of the unit in hand that are still to be delivered, its saturation count, and the status of a failure. -/
structure CopyRun where
  slot : Nat := 0
  done : Nat := 0
  rest : List Byte := []
  sat : Nat := 0
  status : Nat := 0
  deriving DecidableEq, Repr, Inhabited

/-- A copy entry's progress (R78, R79, R189): releases done, whether it has failed, and the release in progress. -/
structure CopyState where
  next : Nat := 0
  failed : Bool := false
  run : Option CopyRun := none
  deriving DecidableEq, Repr, Inhabited

/-- An instruction in a core's matrix queue with the operands read at issue (R417, R418). -/
structure MEntry where
  no : Nat := 0                 -- how many had entered the queue before it
  i : Instr
  gang : Nat
  gid : Nat
  key : Nat
  core : Nat                    -- core index in the span
  ic : Word
  d : Word := 0
  a : Word := 0
  b : Word := 0
  mask : BitVec 32 := 0
  lanes : List Lane := []
  guards : List LVal := []
  step : Nat := 0               -- blocks of the passes done
  deriving DecidableEq, Repr, Inhabited

/-- A B bank (R156, R420): the record it was loaded with (none until the first MB.LD), the rows loaded, the codes of
its elements (key 128 * row + column) and scales (key 128 * block + column), and the invalid bit. The aligned values,
each block's emax and the specials are functions of the codes and the record (R245). -/
structure Bank where
  record : Option Word := none
  k : Nat := 0
  codes : List (Nat × Nat) := []
  scales : List (Nat × Nat) := []
  invalid : Bool := false
  deriving DecidableEq, Repr, Inhabited

/-- A core of the mesh (R152, R156, R418, R426 to R428). -/
structure Core where
  free : Nat := 32              -- free granules
  queue : List MEntry := []     -- oldest first
  entered : Nat := 0            -- instructions that have entered the queue (R427)
  halted : Bool := false
  disc : Nat := 0
  code : Nat := 0
  errOp : Nat := 0
  errGid : Nat := 0
  errIc : Word := 0
  mb0 : Bank := {}
  mb1 : Bank := {}
  orders : Nat := 0             -- gangs placed on it so far (R91)
  picked : List (Nat × Nat) := []   -- issue partition: the slot that it picked last (R100)
  deriving DecidableEq, Repr, Inhabited

/-- How many instructions have left a core's queue before any that stays (R427). -/
def Core.left (k : Core) : Nat := (k.queue.head?.map (·.no)).getD k.entered

/-- What a gang holds on one core of its span (R142 to R147, R152 to R155): local memory and its poisoned lines,
the granules with their rows of 32-bit values (key 128 * gang row + column) and invalid granules, the write
pointers of the 4 copy channels and the channels a failure stopped. -/
structure GangCore where
  lmem : List Host.Cell := []
  lpoison : List Nat := []
  granules : Nat := 0
  acc : List (Nat × Lane) := []
  accInvalid : List Nat := []
  wp : List (Nat × Nat) := []
  dead : List Nat := []
  kept : Option Core := none    -- the banks and the queue's state of a saved gang that holds them (R92)
  deriving DecidableEq, Repr, Inhabited

/-- A subscription of TC.SUB (R163, R406). -/
structure Subscription where
  core : Nat := 0               -- core index in the span
  tensor : Nat := 0
  coord : Word := 0
  ring : Option Nat := none     -- the ring, or a channel and local address
  chan : Nat := 0
  addr : Nat := 0
  deriving DecidableEq, Repr, Inhabited

/-- A copy-out that the loaders carry out (R225, R415). -/
structure CopyOut where
  region : Nat := 0
  root : Nat := 0
  leaves : Nat := 0
  dest : Nat := 0
  bar : Nat := 0
  gid : Nat := 0
  ic : Word := 0
  deriving DecidableEq, Repr, Inhabited

/-- How a gang stands: running, saved by a pre-emption (R92), or ended. -/
inductive GangLife where
  | live
  | saved
  | ended
  deriving DecidableEq, Repr, Inhabited

/-- A gang (R67, R70, R94, R95). `desc` is its launch record's eight words; `inst` its instance counted across the
launch (R91). -/
structure Gang where
  uid : Nat := 0
  task : TaskId := default
  ix : Nat := 0                 -- which gang of its task
  inst : Nat := 0
  desc : List Word := []
  cx : Nat := 0
  cy : Nat := 0
  life : GangLife := .live
  order : Nat := 0              -- placement order on its first core (R91)
  policy : Word := 0            -- open mask when it was launched (R57)
  age : Nat := 0
  qorder : Nat := 0             -- of a saved gang: when it came back to its queue, in the order of the tasks (R84, R92)
  stage : Nat := 0
  bars : List (Nat × Barrier) := []
  rings : List (Nat × Ring) := []
  copies : List (Nat × CopyState) := []
  copyHalted : Bool := false
  points : List Nat := []       -- early-trigger points executed (R87)
  cores : List (Nat × GangCore) := []
  subs : List Subscription := []
  outs : List CopyOut := []
  deriving DecidableEq, Repr, Inhabited

/-- Where a task stands (R70, R74, R81, R86, R89). -/
inductive TaskLife where
  | waiting                     -- dependences unmet
  | queued                      -- waits for the extent walk or for a span
  | held (slot : Nat)           -- held at dispatch under a park slot
  | running
  | complete
  deriving DecidableEq, Repr, Inhabited

/-- A task (R66, R72, R73, R86 to R90). -/
structure Task where
  id : TaskId := default
  life : TaskLife := .waiting
  counter : Nat := 0            -- unmet dependences
  walked : Bool := false
  slots : List Slot := []
  prio : Nat := 0               -- queued priority plus ageing steps, up to 7 (R82)
  order : Nat := 0              -- when it was queued
  placed : Nat := 0             -- gangs placed
  firstInst : Nat := 0          -- gang instance of its gang 0
  fired : List Nat := []        -- early-trigger points fired
  proofing : Bool := false
  touched : Bool := false       -- a source's write has touched a declared range (R90)
  conflict : Bool := false
  sources : List TaskId := []   -- tasks whose OPT edges a proofing task waits for
  killed : Bool := false
  view : View := {}             -- what its dependences and its launch's trigger publish to its first instruction (R253)
  out : View := {}              -- what the ends of its groups publish (R253)
  early : List (Nat × View) := []   -- what EARLY.TRIG publishes at a point (R253)
  reported : List (Nat × Nat) := []  -- slot: hotness windows that must pass before its next report (R209)
  deriving DecidableEq, Repr, Inhabited

/-- The ownership of a line in a DET launch (R265), with a gang's instance; UNCLAIMED is what a line without one is. -/
inductive Owner where
  | read
  | priv (gang : Nat)
  | shared
  deriving DecidableEq, Repr, Inhabited

/-- A byte in a store buffer (R266): its addresses, the writer's logical thread index, the ic of the store and the
value with its poison. Newest entries come first. -/
structure BufByte where
  pa : Nat
  va : Nat
  tid : Nat
  ic : Word
  v : Byte
  p : Bool := false
  deriving DecidableEq, Repr, Inhabited

/-- A queued serial atomic (R268, R269): the instruction, who issued it, its operands read at issue and each lane's
virtual and physical address. -/
structure Serial where
  inst : Nat                    -- gang instance
  gid : Nat
  key : Nat                     -- group key
  ic : Word
  i : Instr
  d : SVal := {}
  a : SVal := {}
  b : SVal := {}
  d2 : SVal := {}
  b2 : SVal := {}
  lanes : List (Nat × Nat × Nat × Lane) := []   -- lane, VA, physical address, data
  line : List Byte := []
  deriving DecidableEq, Repr, Inhabited

/-- A declared range of a task of a DET launch (R71, R265): the task, its extents, whether it is of KIND 0, and the gang instance
of a task with one gang. -/
structure Decl where
  task : TaskId := default
  extents : List (Nat × Nat) := []
  kind0 : Bool := false
  gang : Option Nat := none
  deriving DecidableEq, Repr, Inhabited

/-- The result of a returning serial atomic on its way to its registers (R269): their values, or poison with its cause
and VA. -/
structure DetResult where
  key : Nat
  ic : Word
  regs : List (Nat × Word)
  poison : Option (Nat × Nat) := none
  deriving DecidableEq, Repr, Inhabited

/-- What the merge and the atomics of a boundary give (R264): bytes by physical address, with their VA when they have
one, lines with their poison, and results. -/
structure Staged where
  bytes : List (Nat × Option Nat × Byte) := []
  lines : List (Nat × Bool) := []
  results : List DetResult := []
  drops : List (Nat × List (Nat × Nat)) := []   -- key of a group: the pending slots that it holds after them (R220)
  deriving DecidableEq, Repr, Inhabited

/-- The deterministic state of a launch (R263 to R274). -/
structure Det where
  k : Nat := 0
  held : Option Staged := none  -- waits for the host's decision (R272)
  placing : Bool := false       -- stands at step 7 (R264)
  decls : List Decl := []
  owners : List (Nat × Owner) := []  -- lines whose ownership a boundary changed
  touched : List (Nat × Nat) := []   -- line and instance of a gang that touched it
  stored : List Nat := []            -- lines that an engine or a flow stored to since the last boundary
  buffer : List BufByte := []
  serial : List Serial := []
  digest : Nat := 0
  nrec : Nat := 0
  asOf : List (Nat × Byte) := []      -- what bytes that a unit other than a group wrote since held at the last boundary
  fired : List (TaskId × Nat) := []   -- completions (point 0) and early points of the quantum (R264)
  snap : List Gang := []        -- the gangs' barriers, rings and write pointers as of the last boundary (R263)
  pool : List (Nat × Nat) := [] -- registers free on each core as of the last boundary, less the grants made since
  began : Nat := 0              -- the tick at which the quantum began
  deriving DecidableEq, Repr, Inhabited

/-- A launch in flight (R32, R81, R91, R264). `img` is the graph's image; `k` the patched parameters. -/
structure Launch where
  part : Nat := 0
  num : Nat := 0
  handle : Nat := 0
  graph : Nat := 0              -- the upload of its graph
  img : List Byte := []
  seq : Nat := 0
  prio : Nat := 0
  det : Bool := false
  record : Bool := false
  replay : Bool := false
  params : List (Nat × Word) := []
  killed : Bool := false
  abandoned : Bool := false
  tracePos : Nat := 0
  tasks : List Task := []
  ds : Det := {}
  deriving DecidableEq, Repr, Inhabited

/-- A resident graph (R60 to R65). -/
structure Graph where
  handle : Nat := 0
  img : List Byte := []
  id : Nat := 0                 -- which upload of the partition it is
  count : Nat := 0              -- completions (R35)
  removed : Bool := false       -- removed while launches run (R63)
  deriving DecidableEq, Repr, Inhabited

/-- What a park slot names (R74, R110, R111). -/
inductive Parked where
  | group (key : Nat)
  | hold (t : TaskId)
  deriving DecidableEq, Repr, Inhabited

/-- An action accepted for a parked group that was pre-empted; it takes effect at the restore (R347). -/
inductive Handler where
  | resume (hlog : Nat)
  | reverseGo (hlog : Nat) (t : Word)
  | reversePark (hlog : Nat) (t : Word)
  | commit
  | kill
  | step                        -- DBG_STEP (R345)
  deriving DecidableEq, Repr, Inhabited

/-- A park slot in use: words 1 to 7 of its record (R110), and a handler action that waits for a restore. -/
structure Park where
  slot : Nat
  who : Parked
  words : List Word
  due : Option Handler := none
  deriving DecidableEq, Repr, Inhabited

/-- A 64-byte entry on its way to a queue (R36, R112). -/
structure Entry where
  toHost : Bool                 -- to the host's fault queue, or to the park queue
  fn : Option Nat := none       -- the function that drove the partition when it was produced (R28)
  slot : Nat
  words : List Word             -- eight words
  deriving DecidableEq, Repr, Inhabited

/-- The last TDISP answer of a VF's TDI (R43). -/
inductive TdispAnswer where
  | lock (nonce : Nat)
  | done
  | error
  deriving DecidableEq, Repr, Inhabited

/-- TDI states (R43). -/
inductive Tdi where
  | unlocked | locked | run | error
  deriving DecidableEq, Repr, Inhabited

/-- A key version (R52): an AES-256-XTS key pair of 512 bits and an integrity-tag key of 256 bits. -/
structure KeySlot where
  xts : Nat := 0
  tag : Nat := 0
  deriving DecidableEq, Repr, Inhabited

/-- Two key versions, current and next (R52, R53, R184). -/
structure KeyPair where
  cur : Nat := 0                -- which of the two slots is current
  k0 : KeySlot := {}
  k1 : KeySlot := {}
  deriving DecidableEq, Repr, Inhabited

/-- Keys of a partition (R52, R53): its two slots, the naming key and the digest key. -/
structure Keys where
  mem : KeyPair := {}
  naming : Nat := 0
  digest : Nat := 0
  deriving DecidableEq, Repr, Inhabited

/-- A trigger in a FIFO (R32, R34): its header and patches, and the image of the graph that it names. -/
structure Trig where
  hdr : Word
  patches : List Word
  img : List Byte := []
  graph : Nat := 0
  deriving DecidableEq, Repr, Inhabited

/-- The debug policy of a partition (R54 to R57). -/
structure Policy where
  mask : Word := 0
  counter : Nat := 0
  blob : List Byte := []        -- blob in force
  deriving DecidableEq, Repr, Inhabited

/-- A partition (R40 to R44, R52 to R57, R81 to R84, R111 to R113, R164). -/
structure Part where
  cfg : List (Nat × Word) := []      -- words 0 to 7 of PART_CFG, as they are in force
  staged : List (Nat × Word) := []   -- range words written since, which act at the next preparation
  preparing : Option Word := none    -- word 0 whose preparation runs (R41)
  tdi : Tdi := .unlocked
  tenantKey : Option (BitVec 256) := none
  nonce : Option Nat := none
  tdisp : Option TdispAnswer := none -- the last answer to a TDISP request
  keys : Option Keys := none
  kver : Nat := 0
  policy : Policy := {}
  ttBase : Nat := 0
  asidtBase : Nat := 0
  keep : List (Nat × Word) := []     -- key 4 * i + word
  brk : List (Nat × Word) := []      -- DBG_BRK
  parkq : Word := 0
  service : Option Nat := none       -- uid of the service gang
  graphs : List Graph := []
  nextGraph : Nat := 0
  fifo : List Trig := []
  nextLaunch : Nat := 0
  nextPark : Nat := 1
  parks : List Park := []
  entries : List Entry := []
  heldRecs : List (Nat × List Word) := []  -- function and record, held while the host ring is full (R37)
  ovf : Option Nat := none           -- the function whose ring was full for a record of it (R37)
  discarded : Nat := 0
  credit : Nat := 0
  reserved : Option (Nat × Option Nat) := none -- the order in its queue of the waiting gang that holds the span
                                     -- reservation, and the first core of the span that freed for it (R84)
  nextOrder : Nat := 0
  deriving DecidableEq, Repr, Inhabited

/-- A graph image that is being assembled (R61). -/
structure Partial where
  handle : Nat := 0
  part : Nat := 0
  imglen : Nat := 0
  bytes : List Byte := []
  deriving DecidableEq, Repr, Inhabited

/-- The registers of a function's control window (R29). -/
structure Fn where
  psel : Nat := 0
  dropCause : Nat := 0
  dropCount : Nat := 0
  gupData : List Host.Cell := []
  gupCtl : Word := 0
  gupState : Nat := 0
  gupCause : Nat := 0
  upload : Option Partial := none
  chunk : Option Nat := none         -- a chunk that is being taken in, with the cause that refuses it or 0
  fqBase : Word := 0
  fqSize : Nat := 0
  fqProd : Nat := 0
  fqCons : Nat := 0
  fqArg : Word := 0
  fqRes : Nat := 0
  dpBlob : List Host.Cell := []
  dpSent : List Byte := []           -- the blob submitted last
  dpState : Nat := 0
  dpCause : Nat := 0
  msix : List Nat := []              -- vectors sent, newest first
  msixTable : List (Nat × Word × Word) := []  -- vector: message address; data [31:0] and mask [32] (R26)
  msixPending : List Nat := []       -- the pending-bit array: masked vectors with a message to send (R26)
  deriving DecidableEq, Repr, Inhabited

/-- The key of a tile-cache line (R157, R158): partition, tensor (0 for the flat one), generation, the four coordinates
as one number of 64 bits, and the line within the tile. -/
structure TileKey where
  part : Nat := 0
  tensor : Nat := 0
  gen : Nat := 0
  coord : Nat := 0
  line : Nat := 0
  deriving DecidableEq, Repr, Inhabited

/-- A line that the tile cache holds (R157, R165): its key, the storage line behind it, its bytes where they differ from
the memory's latest (R150), and the retention register in whose ways it lies. -/
structure TileLine where
  key : TileKey
  line : Nat
  va : Nat := 0                 -- VA div 128
  die : Nat := 0                -- the die of its home slice
  stale : Option (List Byte) := none
  reg : Option Nat := none
  deriving DecidableEq, Repr, Inhabited

/-- A line of instructions that a core's L1 holds (R1): its tag. -/
structure FetchLine where
  core : Nat
  part : Nat
  asid : Nat
  va : Nat                      -- VA div 128
  deriving DecidableEq, Repr, Inhabited

/-- A line that a core's L1 holds (R149): its tag, the tile-cache key that came with it, whether the core holds it
privately, whether it is dirty, and the leaf and the storage line recorded with it. -/
structure L1Line where
  core : Nat
  part : Nat
  asid : Nat
  va : Nat                      -- VA div 128
  key : TileKey
  own : Bool := false
  dirty : Bool := false
  leaf : Word := 0
  line : Nat := 0               -- the storage line
  deriving DecidableEq, Repr, Inhabited

/-- The values, newest first, that a byte of device storage held before the writes that caches may still hold dirty
(R161), with the key under which the last of them was made. -/
structure Back where
  key : TileKey := {}
  olds : List Byte := []
  deriving DecidableEq, Repr, Inhabited

/-- A write of a byte (R251, R254): the value that it replaced, its place in the coherence orders, its writer and the
writer's number for it, and the writes that an atomic read as it wrote. -/
structure Past where
  v : Byte
  till : Nat
  writer : Writer := .unit
  num : Nat := 0
  via : List (Writer × Nat) := []
  deriving DecidableEq, Repr, Inhabited

/-- A line whose ciphertext and integrity entry something outside has disturbed, as storage holds them until the next
access checks the tag (R182). -/
structure Disturbed where
  line : Nat
  cipher : List Byte
  entry : Nat
  deriving DecidableEq, Repr, Inhabited

/-- The module's memories: bytes of device storage by physical address, of host memory by bus address, of the
peers by port * 2^46 + offset, of the scheduler memory by offset; the poisoned lines of device storage (R187), with those
that a failed copy of a migration poisoned (R438); and the writes of every byte that a group may read (R251). -/
structure Mem where
  dev : List Host.Cell := []
  host : List Host.Cell := []
  peer : List Host.Cell := []
  sched : List Host.Cell := []
  poison : List Nat := []       -- line numbers, rising
  failed : List Nat := []       -- of them, those whose copy from the host or a peer failed (R438)
  back : List (Nat × Back) := []-- by physical address
  past : List (Nat × List Past) := []   -- by place, newest first
  faulty : List Disturbed := []
  deriving DecidableEq, Repr, Inhabited

/-- An entry of the page tables, or an ASID word, that a micro-TLB or a page-walk cache may still hold after software
changed it (R203): the lowest VA bit that it covers (56 for an ASID word) and the VA above that bit. -/
structure Cached where
  part : Nat
  asid : Nat
  sh : Nat
  ix : Nat
  word : Word
  deriving DecidableEq, Repr, Inhabited

/-- An entry of the migration table (R207, R208). -/
structure Migration where
  part : Nat
  asid : Nat
  va : Nat
  old : Nat
  new : Nat
  leafPa : Nat
  valid : List Nat := []        -- lines copied, rising
  word : Nat := 0               -- VA of the completion word, and the ASID that it stands under
  wordAsid : Nat := 0
  deriving DecidableEq, Repr, Inhabited

/-- A byte written into a die's privatised copy that has not reached the home: its offset, value, writer and number. -/
structure HeldByte where
  off : Nat
  v : Byte
  writer : Writer
  num : Nat
  deriving DecidableEq, Repr, Inhabited

/-- What the directory and a die keep of a contended line (R194 to R196): the masks of bytes that the die has read and
written since the line became contended, and of its privatised copy the bytes that have not reached the home, with the key
that they were written under. Every other byte of the copy is one that the home holds or has held, which R254 bounds for the
groups of the die as for any other (log entry 81). -/
structure DieCopy where
  die : Nat
  reads : List Nat := []        -- offsets, rising
  writes : List Nat := []
  held : List HeldByte := []
  key : TileKey := {}
  deriving DecidableEq, Repr, Inhabited

/-- A contended line and what the dies keep of it. -/
structure Contended where
  line : Nat
  dies : List DieCopy := []
  deriving DecidableEq, Repr, Inhabited

/-- Coherence state that the events of R192, R194 and R195 act on; the moves of single tokens are not kept: failed
transient requests by agent and line, the persistent table oldest first, contended lines, and the lines that a merge has
returned to token counting with the tick of the merge (R195). -/
structure Coherence where
  failures : List (Nat × Nat × Nat) := []
  persistent : List (Nat × Nat) := []
  contended : List Contended := []
  quiet : List (Nat × Nat) := []
  deriving DecidableEq, Repr, Inhabited

/-- A flow message in flight or in the reorder buffer (R259, R391): one of a peer's for this module, or one that a group
here sent to a peer and waits for. -/
structure Message where
  flow : Nat                    -- physical address of the receive descriptor
  seq : Nat
  data : List Byte
  ordered : Bool
  arrived : Bool := false
  sender : Option Nat := none   -- the group that sent it to a peer
  placed : Bool := false        -- the peer has placed it in its ring
  deriving DecidableEq, Repr, Inhabited

/-- A write of data traffic that is not acknowledged yet (R258): the group and the peer port, if one carries it. -/
structure Unacked where
  key : Nat
  port : Option Nat := none
  entry : Option Nat := none    -- the copy entry whose storer made it
  deriving DecidableEq, Repr, Inhabited

/-- A stack's scrubber and repair state (R168, R183 to R186). -/
structure Stack where
  wm : Nat := 0                 -- watermark, bytes of stack offset
  passes : Nat := 0
  running : Bool := false
  done : Bool := false
  spares : Nat := 32768
  rowSpares : List (Nat × Nat) := []    -- bank and row, spared
  retired : List Nat := []      -- lines moved to spares
  laneSpare : List Nat := []
  deriving DecidableEq, Repr, Inhabited

/-- A Flausk port (R15 to R21). -/
structure Port where
  state : Nat := 0
  half : Bool := false
  lanes4 : Bool := false
  fecIl : Bool := false
  spareOk : Bool := false       -- the spare was negotiated
  spareIn : Bool := false
  deferred : List Nat := []     -- lanes whose repair waits, oldest first (R18)
  lasting : Nat := 0
  carry : List Nat := [0, 1, 2, 3, 4, 5, 6, 7] -- lanes that carry traffic; the spare is lane 8 (R15, R19)
  failedLanes : List Nat := []
  moving : Option Nat := none   -- the lane whose traffic is being moved
  asked : List Nat := []        -- the replays that this side asked for, each from a sequence number on (R15)
  served : Option Nat := none   -- the replay that the partner asked for
  rxNext : Nat := 0
  txNext : Nat := 0
  buffer : List Nat := []       -- flits not acknowledged, oldest first
  sent : List Nat := []         -- flits resent in the last resend
  unsent : Nat := 0
  deriving DecidableEq, Repr, Inhabited

/-- An island (R10, R13, R31): its frequency and its voltage. -/
structure Island where
  on : Bool := false
  mhz : Nat := 0
  mv : Nat := 0
  deriving DecidableEq, Repr, Inhabited

/-- The state of Zalius and of the firmware slots (R45 to R51, R354, R447 to R450). -/
structure Zalius where
  slotA : Option (List Byte) := none    -- none: as delivered (Config.slotImage)
  slotB : Option (List Byte) := none
  verA : Bool := false
  verB : Bool := false
  measA : Nat := 0
  measB : Nat := 0
  active : Bool := false                -- false A, true B
  fusedSvn : Nat := 0
  log : Nat := 0                        -- event log, index 4
  cdi : Nat := 0                        -- compound identifier of the firmware that was started (R45)
  aliasMeas : List Nat := []            -- measurements 1 to 5 as this boot's Alias certificate carries them (R45)
  fwState : Nat := 0
  fwCause : Nat := 0
  fwCmd : Option Word := none           -- the command that runs
  fwData : List Host.Cell := []
  spdm : Nat := 0                       -- negotiation progress
  sessions : List Nat := []
  pendingSessions : List Nat := []
  streams : List (Nat × Nat) := []      -- stream and session
  answers : List (Nat × Nat) := []      -- last answers: request code and value
  requests : List (Nat × List Word) := []  -- core and the request outstanding
  replies : List (Nat × List Word) := []
  touched : List Nat := []              -- cores whose outstanding VERIFY names a slot stored to since (R448)
  period : Nat := 100000                -- watchdog period, microseconds
  windowOpen : Bool := false            -- the 2-ms window of a slot switch (R51, R449)
  windowLast : Bool := false            -- the window has come to its last tick, from which on no kick counts (R449)
  prev : Bool := false
  deriving DecidableEq, Repr, Inhabited

/-- The firmware debugger of the control cores (R452). -/
structure Fwd where
  brk : List (Nat × Word) := []
  sel : Word := 0
  addr : Word := 0
  first : Nat := 0                      -- the core that stopped first
  mask : List Nat := []                 -- stopped cores
  deriving DecidableEq, Repr, Inhabited

/-- The module as a whole (R10 to R14, R22 to R24, R31). -/
structure Module where
  powered : Bool := false
  pwrOffReq : Bool := false
  up : Bool := false                    -- bring-up ended with the device usable
  visible : Bool := false               -- the PCIe link trained
  fail : Nat := 0
  recovery : Bool := false
  islands : List (Nat × Island) := []
  upFrom : Nat := 0                     -- tick of bring-up, and of the last read of PWR: the readings since then make
  peakFrom : Nat := 0                   -- TEMP's highest reading and PWR's peak (R31)
  errs : List (Nat × Nat) := []         -- class: events counted since bring-up (R31)
  lasting : List (Nat × Nat) := []      -- class: lasting-fault declarations (R31)
  counters : List (Nat × Nat × Nat) := []   -- class, resource, events in the window (R14)
  limits : List (Nat × Nat × Nat) := []     -- class, window in microseconds and threshold that firmware programmed (R14)
  due : List (Nat × Nat) := []          -- class and resource of lasting faults whose repair is to come (R14)
  fabricSpare : List Nat := []          -- package-fabric lanes switched to the redundant lane (R14)
  scrubHours : Nat := 24
  scrubLate : Bool := false             -- a period boundary that the pass before delays (R183)
  modKeys : KeyPair := {}                -- the module key (R52)
  deriving DecidableEq, Repr, Inhabited

/-- A tensor whose old generation is being swept (R161). -/
structure Sweep where
  part : Nat
  tensor : Nat
  discard : Bool
  deriving DecidableEq, Repr, Inhabited

/-- A counter of the memory-side table (R210): its stack, its 64-KiB block, its requester and its count. -/
structure BlockCount where
  stack : Nat
  block : Nat
  requester : Nat
  count : Nat
  deriving DecidableEq, Repr, Inhabited

/-- What the model's agenda holds: a step of the opcode table that is due, the current group's next instruction,
the turn of another group, or a write of the outside world into the module's reach (the host, the peers). -/
inductive Action where
  | event (i : Instr)
  | issue
  | turn (key : Nat)
  | hostWrite (addr : Nat) (data : List Byte)
  | peerWrite (addr : Nat) (data : List Byte)
  | devWrite (addr : Nat) (data : List Byte)
  /-- Firmware programs the window, in microseconds, and the threshold of an error class (R14). -/
  | errorLimit (cls window threshold : Nat)
  /-- The host writes an entry of a function's MSI-X vector table: address, and data with the mask bit above it (R26). -/
  | msixWrite (fn vec : Nat) (addr data : Word)
  /-- A DOE discovery request (R26). -/
  | doeDiscovery (index : Nat)
  /-- The service gang of a partition hands a park slot's record on to the host (R112). -/
  | handOn (part slot : Nat)
  /-- A group at a switch marker waits for a result of memory that is not written yet (R101, R103). -/
  | lateResult (group : Nat)
  /-- Something outside disturbs what storage holds of a line: its ciphertext and its integrity entry (R182). -/
  | disturb (line : Nat) (cipher : List Byte) (entry : Nat)
  deriving DecidableEq, Repr, Inhabited

/-- The state of the module. `me` is the group whose turn it is and `rest` are all others; `agenda` and `tick` are
the model's own (log entries 5 and 6). -/
structure State where
  me : Group := {}
  rest : List Group := []
  gangs : List Gang := []
  launches : List Launch := []
  parts : List (Nat × Part) := []
  fns : List (Nat × Fn) := []
  cores : List (Nat × Core) := []
  mem : Mem := {}
  tiles : List TileLine := []   -- least recently used first
  l1 : List L1Line := []        -- least recently used first
  il1 : List FetchLine := []    -- the instruction L1s; least recently used first
  cached : List Cached := []
  migrations : List Migration := []
  coh : Coherence := {}
  messages : List Message := []
  delivered : List (Nat × Nat) := [] -- flow and sequence number of the messages placed from unordered flows (R259)
  unacked : List Unacked := []
  sweeps : List Sweep := []
  blockCounts : List BlockCount := []
  hbm : List (Nat × Stack) := []
  ports : List (Nat × Port) := []
  zal : Zalius := {}
  fwd : Fwd := {}
  module : Module := {}
  served : List (Nat × Nat) := []    -- loaders (0 to 3) and storers (4 to 7) of a die: the gang they turned to last (R178)
  quiesced : Bool := false
  stamp : Nat := 0                   -- writes of memory made so far: a write's place in the coherence orders (R251)
  rels : List Release := []          -- releases made so far (R253)
  hostView : View := {}              -- what the host has been shown: the completion semaphores (R35, R253)
  nextGang : Nat := 1
  agenda : List Action := []
  tick : Nat := 0
  deriving DecidableEq, Repr, Inhabited

/-- Why the machine stops with a fault. No rule of the spec stops the machine: every trap parks its group. -/
inductive Fault where
  /-- An access to a physical address that lies in no class of R202. Raised by no meaning (a walk refuses such an
  address first, R201), kept for the physical accessors. Safe: the model stops. -/
  | noSuchAddress (pa : Nat)
  deriving DecidableEq, Repr, Inhabited

/-- Why the model gives an instruction no meaning. -/
inductive Refusal where
  /-- Raised by the dispatcher for an instruction that has no meaning yet. Safe: the model stops. -/
  | notModelled (mnemonic : String)
  deriving DecidableEq, Repr, Inhabited

/-- The module before the first POWER_ON: nothing powered, every register at its reset value (R21, R30, R50, R106,
R117, R118, R145, R164, R185, R204, R239, R428), memories with nothing listed (log entries 1 to 6). -/
def State.reset : State := { zal := { fusedSvn := 0 } }

end Sys2Proof.Machine
end

