-- ==== Sys2Proof/Machine/Maps.lean ====
section
/-! DEFINITION. Sparse tables in canonical form, lists as small tables, and little-endian bytes (R2, R284). -/

namespace Sys2Proof.Machine

namespace Tab

/-- The value at key `k`; `d` for an unlisted key. -/
def get (d : α) : List (Nat × α) → Nat → α
  | [], _ => d
  | (k', v) :: t, k => if k = k' then v else get d t k

/-- Insert a pair before the first larger key. -/
def insert (k : Nat) (v : α) : List (Nat × α) → List (Nat × α)
  | [] => [(k, v)]
  | (k', v') :: t => if k < k' then (k, v) :: (k', v') :: t else (k', v') :: insert k v t

/-- Remove every pair with key `k`. -/
def erase (k : Nat) : List (Nat × α) → List (Nat × α)
  | [] => []
  | (k', v) :: t => if k = k' then erase k t else (k', v) :: erase k t

/-- Set the value at `k`; a value equal to the default `d` leaves the key unlisted. -/
def set [DecidableEq α] (d : α) (m : List (Nat × α)) (k : Nat) (v : α) : List (Nat × α) :=
  if v = d then erase k m else insert k v (erase k m)

/-- Keys rise and stay above `lo`, and no value is the default: the canonical form. -/
def wfFrom [DecidableEq α] (d : α) (lo : Nat) : List (Nat × α) → Bool
  | [] => true
  | (k, v) :: t => decide (lo ≤ k) && decide (v ≠ d) && wfFrom d (k + 1) t

/-- The canonical form of a table. -/
def wf [DecidableEq α] (d : α) (m : List (Nat × α)) : Bool := wfFrom d 0 m

end Tab

/-- `n` bytes of `w`, lowest first. -/
def leBytes (n : Nat) (w : Nat) : List Byte :=
  match n with
  | 0 => []
  | n + 1 => BitVec.ofNat 8 w :: leBytes n (w / 256)

/-- The number that bytes spell, lowest first. -/
def ofLe : List Byte → Nat
  | [] => 0
  | b :: t => b.toNat + 256 * ofLe t

/-- The bytes of a list of words. -/
def wordsBytes : List Word → List Byte
  | [] => []
  | w :: t => leBytes 8 w.toNat ++ wordsBytes t

/-- The words that bytes spell, eight bytes each; a short tail is filled with zeros. -/
def bytesWords : (n : Nat) → List Byte → List Word
  | 0, _ => []
  | n + 1, bs => w64 (ofLe (bs.take 8)) :: bytesWords n (bs.drop 8)

/-- Whether a set of numbers, kept as a list, holds `n`. -/
def mem? (n : Nat) (l : List Nat) : Bool := l.any (· == n)

/-- Add a number to a rising list without repeats. -/
def addNat (n : Nat) : List Nat → List Nat
  | [] => [n]
  | m :: t => if n < m then n :: m :: t else if n = m then m :: t else m :: addNat n t

/-- Remove a number from a list. -/
def delNat (n : Nat) (l : List Nat) : List Nat := l.filter (· != n)

/-- Numbers from `a`, `n` of them. -/
def upto (a n : Nat) : List Nat :=
  match n with
  | 0 => []
  | n + 1 => a :: upto (a + 1) n

/-- The i-th word of a list of words; 0 beyond it. -/
def wordAt (ws : List Word) (i : Nat) : Word := (ws.drop i).headD 0

/-- The number in `n` bytes at `off` of a list of bytes. -/
def leAt (bs : List Byte) (off n : Nat) : Nat := ofLe ((bs.drop off).take n)

/-- Sign-extend the low `b` bits of `n`, as an integer. -/
def sext (b n : Nat) : Int :=
  let m := n % 2 ^ b
  if m < 2 ^ (b - 1) then (m : Int) else (m : Int) - 2 ^ b

/-- An integer modulo 2^b. -/
def wrap (b : Nat) (i : Int) : Nat := (i % (2 ^ b : Int)).toNat

/-- Bit `i` of a number. -/
def nbit (n i : Nat) : Bool := n.testBit i

/-- 0 or 1. -/
def b2n (b : Bool) : Nat := if b then 1 else 0

end Sys2Proof.Machine
end

