-- ==== Sys2Proof/Machine/Ops.lean ====
section
/-! DEFINITION. The named operations over the state: looking up and updating groups, gangs, launches, partitions,
functions and cores; registers; the history; taking a trap (parking) and the handler's actions' common parts. -/

namespace Sys2Proof.Machine

/-! ### Tables of the state -/

namespace State

/-- Partition `p` (0 to 15). -/
def part (s : State) (p : Nat) : Part := Tab.get {} s.parts p
def setPart (s : State) (p : Nat) (v : Part) : State := { s with parts := Tab.set {} s.parts p v }
def modPart (s : State) (p : Nat) (f : Part → Part) : State := s.setPart p (f (s.part p))

/-- Function `n`: 0 the PF, n VF n. -/
def fn (s : State) (n : Nat) : Fn := Tab.get {} s.fns n
def setFn (s : State) (n : Nat) (v : Fn) : State := { s with fns := Tab.set {} s.fns n v }
def modFn (s : State) (n : Nat) (f : Fn → Fn) : State := s.setFn n (f (s.fn n))

/-- Core 16 * cy + cx of the mesh. -/
def core (s : State) (c : Nat) : Core := Tab.get {} s.cores c
def setCore (s : State) (c : Nat) (v : Core) : State := { s with cores := Tab.set {} s.cores c v }

def stack (s : State) (n : Nat) : Stack := Tab.get {} s.hbm n
def setStack (s : State) (n : Nat) (v : Stack) : State := { s with hbm := Tab.set {} s.hbm n v }
def port (s : State) (n : Nat) : Port := Tab.get {} s.ports n
def setPort (s : State) (n : Nat) (v : Port) : State := { s with ports := Tab.set {} s.ports n v }

/-- Every group of the module. -/
def groups (s : State) : List Group := s.me :: s.rest

/-- The group with a key. -/
def group? (s : State) (key : Nat) : Option Group := s.groups.find? (·.key == key)

/-- Change the group with a key. -/
def modGroup (s : State) (key : Nat) (f : Group → Group) : State :=
  if s.me.key = key then { s with me := f s.me }
  else { s with rest := s.rest.map fun g => if g.key = key then f g else g }

/-- Change every group. -/
def modGroups (s : State) (f : Group → Group) : State :=
  { s with me := f s.me, rest := s.rest.map f }

/-- The gang with a uid. -/
def gang? (s : State) (uid : Nat) : Option Gang := s.gangs.find? (·.uid == uid)
def gang (s : State) (uid : Nat) : Gang := (s.gang? uid).getD {}
def modGang (s : State) (uid : Nat) (f : Gang → Gang) : State :=
  { s with gangs := s.gangs.map fun g => if g.uid = uid then f g else g }

/-- The launch that a task belongs to. -/
def launch? (s : State) (p n : Nat) : Option Launch :=
  s.launches.find? fun l => l.part == p && l.num == n
def launch (s : State) (p n : Nat) : Launch := (s.launch? p n).getD {}
def modLaunch (s : State) (p n : Nat) (f : Launch → Launch) : State :=
  { s with launches := s.launches.map fun l => if l.part = p ∧ l.num = n then f l else l }

/-- A task, and a change to it. -/
def task? (s : State) (t : TaskId) : Option Task :=
  (s.launch t.part t.launch).tasks.find? (·.id == t)
def task (s : State) (t : TaskId) : Task := (s.task? t).getD {}
def modTask (s : State) (t : TaskId) (f : Task → Task) : State :=
  s.modLaunch t.part t.launch fun l =>
    { l with tasks := l.tasks.map fun x => if x.id = t then f x else x }

/-- The current group's gang, launch, task and partition. -/
def myGang (s : State) : Gang := s.gang s.me.gang
def myLaunch (s : State) : Launch := s.launch s.myGang.task.part s.myGang.task.launch
def myTask (s : State) : Task := s.task s.myGang.task
def myPart (s : State) : Part := s.part s.myGang.task.part

/-- Change the current group. -/
def modMe (s : State) (f : Group → Group) : State := { s with me := f s.me }

end State

/-! ### What a launch record says (R67, R68) -/

namespace Gang

def gcount (g : Gang) : Nat := bits (wordAt g.desc 0) 63 56
def spanCode (g : Gang) : Nat := bits (wordAt g.desc 0) 55 54
def spw (g : Gang) : Nat := if g.spanCode = 1 ∨ g.spanCode = 3 then 2 else 1
def sph (g : Gang) : Nat := if g.spanCode = 2 ∨ g.spanCode = 3 then 2 else 1
def hlog (g : Gang) : Nat := bits (wordAt g.desc 0) 53 49
def accg (g : Gang) : Nat := bits (wordAt g.desc 0) 48 43
def lmemBytes (g : Gang) : Nat := 128 * bits (wordAt g.desc 0) 42 30
def ringBit (g : Gang) (i : Nat) : Bool := nbit (bits (wordAt g.desc 0) 29 22) i
def barBit (g : Gang) (i : Nat) : Bool := nbit (bits (wordAt g.desc 0) 21 6) i
def entryVa (g : Gang) : Nat := bits (wordAt g.desc 1) 55 0
def crva (g : Gang) : Nat := bits (wordAt g.desc 5) 55 0
def csOff (g : Gang) : Nat := bits (wordAt g.desc 4) 63 32
def csCount (g : Gang) : Nat := bits (wordAt g.desc 6) 11 0

/-- Role run j (R68): role code, group count and quota. -/
def run (g : Gang) (j : Nat) : Nat × Nat × Nat :=
  let w := bits (wordAt g.desc (2 + j / 4)) (16 * (j % 4) + 15) (16 * (j % 4))
  (w / 2 ^ 14, w / 2 ^ 7 % 128 + 1, 8 * (w % 128))

/-- The core index of group `gid` in its span and the core's number (R95). -/
def coreIx (g : Gang) (gid : Nat) : Nat := gid % (g.spw * g.sph)
def coreNum (g : Gang) (ix : Nat) : Nat := 16 * (g.cy + ix / g.spw) + (g.cx + ix % g.spw)

/-- What the gang holds on core `ix` of its span. -/
def on (g : Gang) (ix : Nat) : GangCore := Tab.get {} g.cores ix
def setOn (g : Gang) (ix : Nat) (v : GangCore) : Gang := { g with cores := Tab.set {} g.cores ix v }
def bar (g : Gang) (k : Nat) : Barrier := Tab.get { c := g.gcount } g.bars k
def setBar (g : Gang) (k : Nat) (b : Barrier) : Gang :=
  { g with bars := Tab.set { c := g.gcount } g.bars k b }
def ring (g : Gang) (r : Nat) : Ring := Tab.get {} g.rings r
def setRing (g : Gang) (r : Nat) (v : Ring) : Gang := { g with rings := Tab.set {} g.rings r v }

end Gang

/-- Ring fields (R69). -/
def Ring.nslot (r : Ring) : Nat := bits r.decl 63 57
def Ring.slotBytes (r : Ring) : Nat := 128 * bits r.decl 56 47
def Ring.addr (r : Ring) : Nat := bits r.decl 23 0

/-- Claims are served in arrival order (R146, R400): whether a producer's turn has come, its joining those who wait, and its
leaving them. -/
def Ring.turnOf (r : Ring) (c : Claimer) : Bool := match r.waiting with | [] => true | h :: _ => h == c
def Ring.join (r : Ring) (c : Claimer) : Ring := if r.waiting.any (· == c) then r else { r with waiting := r.waiting ++ [c] }
def Ring.served (r : Ring) (c : Claimer) : Ring := { r with waiting := r.waiting.filter (· != c) }

/-- The partition of R40 in terms of its configuration words. -/
def Part.word (p : Part) (i : Nat) : Word := Tab.get 0 p.cfg i
/-- Word `i` of PART_CFG as it reads: the last one written. -/
def Part.reg (p : Part) (i : Nat) : Word := ((p.staged.find? (·.1 == i)).map (·.2)).getD (p.word i)
def Part.valid (p : Part) : Bool := bit (p.word 0) 63
def Part.wl (p : Part) : Nat := bits (p.word 0) 15 12
def Part.hl (p : Part) : Nat := bits (p.word 0) 11 8
def Part.ox (p : Part) : Nat := 4 * bits (p.word 0) 3 0
def Part.oy (p : Part) : Nat := 4 * bits (p.word 0) 7 4
def Part.kways (p : Part) : Nat := bits (p.word 0) 19 16

/-- Bit `n` of a word, alone (R332). -/
def bitAt (n : Nat) : Word := w64 (2 ^ n)

/-- The GiB, in bytes. -/
def gib : Nat := 2 ^ 30

/-- Range word i (1 to 7): kind, base and length in bytes (R40). -/
def Part.range (p : Part) (i : Nat) : Nat × Nat × Nat :=
  let w := p.word i
  (bits w 63 62, gib * bits w 43 22, gib * bits w 21 0)

/-- The first ordinary range: base and length. -/
def Part.firstOrdinary (p : Part) : Nat × Nat :=
  match ((upto 1 7).map p.range).find? (fun r => r.1 == 1) with
  | some r => (r.2.1, r.2.2)
  | none => (0, 0)

/-- The region with a CN index: base and length, when its kind is 2 or 3 (R212), and whether it is test naming. -/
def Part.cnRegion (p : Part) (i : Nat) : Option (Nat × Nat × Bool) :=
  if i < 7 then
    let r := p.range (i + 1)
    if r.1 = 2 ∨ r.1 = 3 then some (r.2.1, r.2.2, decide (r.1 = 3)) else none
  else none

/-- Whether a policy bit is open for a gang of the partition: open at its launch and not closed since (R57). -/
def policyOpen (s : State) (g : Gang) (b : Nat) : Bool :=
  bit g.policy b && bit (s.part g.task.part).policy.mask b

/-- The ASID of a launch: bits [11:0] of its graph handle (R199). -/
def Launch.asid (l : Launch) : Nat := l.handle % 4096

/-- The task record (R66). -/
def taskRecord (l : Launch) (t : TaskId) : Word :=
  w64 (l.handle * 2 ^ 48 + t.node * 2 ^ 32 + t.inst)

/-! ### Registers -/

/-- The 10-bit name of a register (R294), as a number. -/
def regNum (r : Reg) : Nat := (Reg.code r).toNat

namespace Group

def getS (g : Group) (i : Nat) : SVal := Tab.get {} g.regs.s i
def setS (g : Group) (i : Nat) (v : SVal) : Group :=
  { g with regs := { g.regs with s := Tab.set {} g.regs.s i v } }
def getV (g : Group) (r l : Nat) : LVal := Tab.get {} g.regs.v (32 * r + l)
def setV (g : Group) (r l : Nat) (v : LVal) : Group :=
  { g with regs := { g.regs with v := Tab.set {} g.regs.v (32 * r + l) v } }

/-- Write the listed lanes of a vector register. -/
def setLanes (g : Group) (r : Nat) : List (Nat × LVal) → Group
  | [] => g
  | (l, v) :: t => setLanes (g.setV r l v) r t

def isControl (g : Group) : Bool := g.role == .control

/-- HIST_LIMIT and hp (R118, R124, R127). -/
def hlimit (g : Group) : Nat := g.hist.base + 2 ^ g.hist.log

end Group

/-- The bytes that a crumb takes (R124). -/
def Crumb.bytes (c : Crumb) : Nat := 8 * c.payload.length + 8

/-- Total bytes of a crumb stack. -/
def crumbsBytes : List Crumb → Nat
  | [] => 0
  | c :: t => c.bytes + crumbsBytes t

def Group.hp (g : Group) : Nat := g.hist.base + crumbsBytes g.hist.crumbs
def Group.free (g : Group) : Nat := g.hlimit - g.hp

/-- ROLE code of R68. -/
def roleCode : Role → Nat
  | .vector => 1
  | .matrix => 2
  | .copy => 3
  | .control => 0

/-- A scalar read of a register by group `g` (R96, R294, R446): the value that its storage holds. lid reads 0. -/
def readS (s : State) (g : Group) (r : Reg) : SVal :=
  match r with
  | .s i => g.getS i
  | .z => {}
  | .ones => { v := BitVec.allOnes 64 }
  | .ic => { v := g.hist.ic }
  | .hp => { v := w64 g.hp }
  | .cf => { v := g.hist.cf }
  | .hz => { v := g.hist.hz }
  | .v _ => {}
  | .lid => {}
  | .gid => { v := w64 g.gid }
  | r =>
    if g.isControl then {} else
    let a := s.gang g.gang
    let p := s.part a.task.part
    match r with
    | .gcount => { v := w64 a.gcount }
    | .cx => { v := w64 (g.seat.core % 16) }
    | .cy => { v := w64 (g.seat.core / 16) }
    | .spx => { v := w64 a.cx }
    | .spy => { v := w64 a.cy }
    | .spw => { v := w64 a.spw }
    | .sph => { v := w64 a.sph }
    | .lx => { v := w64 (p.ox + bits (wordAt a.desc 7) 11 8) }
    | .ly => { v := w64 (p.oy + bits (wordAt a.desc 7) 7 4) }
    | .lw => { v := w64 (2 ^ bits (wordAt a.desc 7) 19 16) }
    | .lh => { v := w64 (2 ^ bits (wordAt a.desc 7) 15 12) }
    | .inst => { v := w64 a.task.inst }
    | .node => { v := w64 a.task.node }
    | .role => { v := w64 (roleCode g.role) }
    | .wp c => { v := w64 (Tab.get 0 (a.on (a.coreIx g.gid)).wp c) }
    | .k i => { v := Tab.get 0 (s.launch a.task.part a.task.launch).params i }
    | _ => {}

/-- A lane's read of a register: a vector lane, or the low 32 bits of a scalar or special register; lid gives the
lane index, and 0 on a control core (R295, R96, R446). -/
def readL (s : State) (g : Group) (r : Reg) (l : Nat) : LVal :=
  match r with
  | .v i => g.getV i l
  | .lid => { v := if g.isControl then 0 else w32 l }
  | r => let x := readS s g r; { v := x.v.setWidth 32, p := x.p, o := x.o }

/-- Whether the current group runs in a DET launch. -/
def State.inDet (s : State) : Bool := !s.me.isControl && s.myLaunch.det

/-- What the free values of the current group's instruction at ic `ic` depend on: the tick; in a deterministic launch the
group and its ic alone, so that two runs agree in them (R261). -/
def State.momentAt (s : State) (ic : Word) : Nat :=
  if s.inDet then 2 ^ 128 + 2 ^ 64 * (128 * s.myGang.inst + s.me.gid) + ic.toNat else s.tick
def State.moment (s : State) : Nat := s.momentAt s.me.hist.ic

/-- R105: what a read of a register returns while unmarked results are outstanding: the current contents, or the
old contents of a write that may not have happened yet (Config.readsOld; log entry 9). -/
def pickS (tick : Nat) (r : Reg) : List Awaited → SVal → SVal
  | [], cur => cur
  | a :: t, cur =>
    if a.r = r then
      if a.olds = cur then pickS tick r t cur
      else if Config.readsOld tick (regNum r) (32 + t.length) then pickS tick r t a.olds else cur
    else pickS tick r t cur

def pickL (tick : Nat) (r : Reg) (l : Nat) : List Awaited → LVal → LVal
  | [], cur => cur
  | a :: t, cur =>
    if a.r = r then
      let old := (a.oldv.drop l).headD {}
      if old = cur then pickL tick r l t cur
      else if Config.readsOld (tick + t.length) (regNum r) l then pickL tick r l t old else cur
    else pickL tick r l t cur

/-- A scalar source of the current group. -/
def srcS (s : State) (r : Reg) : SVal := pickS s.moment r s.me.awaited (readS s s.me r)

/-- A lane of a source of the current group; a scalar register gives its low 32 bits. -/
def srcL (s : State) (r : Reg) (l : Nat) : LVal :=
  match r with
  | .v _ => pickL s.moment r l s.me.awaited (readL s s.me r l)
  | .lid => readL s s.me r l
  | r => let x := srcS s r; { v := x.v.setWidth 32, p := x.p, o := x.o }

/-- Write a scalar destination of the current group; z and every other name discards (R293). -/
def putS (s : State) (d : Reg) (v : SVal) : State :=
  match d with
  | .s i => s.modMe (·.setS i v)
  | _ => s

/-- Write lanes of a vector destination of the current group. -/
def putV (s : State) (d : Reg) (vs : List (Nat × LVal)) : State :=
  match d with
  | .v i => s.modMe (·.setLanes i vs)
  | _ => s

/-! ### The guard (R292) -/

/-- Whether the scalar guard passes. -/
def guardS (s : State) (h : Hd) : Bool := bit (srcS s h.gr).v h.gb == h.gv

/-- Whether the guard of lane `l` passes. -/
def guardL (s : State) (h : Hd) (l : Nat) : Bool := bit (srcL s h.gr l).v h.gb == h.gv

/-- The lanes whose guard holds, in ascending order. -/
def lanesOn (s : State) (h : Hd) : List Nat := (upto 0 32).filter (guardL s h)

/-- A mask of lanes. -/
def maskOf (ls : List Nat) : BitVec 32 := BitVec.ofNat 32 (ls.foldl (fun m l => m + 2 ^ l) 0)

/-! ### Crumbs (R124, R125) -/

/-- A crumb pushed by an instruction that stands at ic `ic`. -/
def mkCrumb (kind : Nat) (ic : Word) (arg : BitVec 32) (payload : List Word) : Crumb :=
  { kind := BitVec.ofNat 6 kind, iclo := ic.setWidth 26, arg, payload }

/-- The ARG of a crumb that names a register. -/
def argReg (r : Reg) : BitVec 32 := BitVec.ofNat 32 (regNum r * 2 ^ 22)

/-- Poison bit and index of a register in a KIND 0x0B word. -/
def pword (v : SVal) : Nat := b2n v.p * 8 + v.o.toNat

/-- The crumb of a scalar destination (R125, R323): 0x01, or 0x0B when `poisoned` or its old value holds poison. -/
def crumbS (s : State) (d : Reg) (poisoned : Bool) : List Crumb :=
  match d with
  | .s _ =>
    let old := readS s s.me d
    if poisoned || old.p then
      [mkCrumb 0x0B s.me.hist.ic (argReg d) [old.v, w64 (pword old)]]
    else [mkCrumb 0x01 s.me.hist.ic (argReg d) [old.v]]
  | _ => []

/-- The crumb of one bit of a scalar destination: 0x03, or 0x0B. -/
def crumbBit (s : State) (d : Reg) (n : Nat) (poisoned : Bool) : List Crumb :=
  match d with
  | .s _ =>
    let old := readS s s.me d
    if poisoned || old.p then
      [mkCrumb 0x0B s.me.hist.ic (argReg d) [old.v, w64 (pword old)]]
    else [mkCrumb 0x03 s.me.hist.ic (argReg d + BitVec.ofNat 32 (n * 2 ^ 16)) [w64 (b2n (bit old.v n))]]
  | _ => []

/-- The crumb of a pair of scalar destinations: 0x09, or 0x0B. -/
def crumbPair (s : State) (d d1 : Reg) (poisoned : Bool) : List Crumb :=
  match d with
  | .s _ =>
    let x := readS s s.me d
    let y := readS s s.me d1
    if poisoned || x.p || y.p then
      [mkCrumb 0x0B s.me.hist.ic (argReg d + 1) [x.v, y.v, w64 (pword y * 16 + pword x)]]
    else [mkCrumb 0x09 s.me.hist.ic (argReg d) [x.v, y.v]]
  | _ => []

/-- Pack 32-bit values into words, the first in the low half. -/
def packLanes : List Lane → List Word
  | [] => []
  | [a] => [w64 a.toNat]
  | a :: b :: t => w64 (a.toNat + 2 ^ 32 * b.toNat) :: packLanes t

/-- The crumb of KIND 0x0A (R125): old lanes with their poison bits and origin indices. -/
def crumbVP (ic : Word) (m : BitVec 32) (olds : List (Nat × LVal)) : Crumb :=
  let idx := olds.foldl (fun n (l, x) => n + x.o.toNat * 2 ^ (3 * l)) 0
  let pb := olds.foldl (fun n (l, x) => n + b2n x.p * 2 ^ l) 0
  let tail := idx + pb * 2 ^ 96
  mkCrumb 0x0A ic m (packLanes (olds.map (·.2.v)) ++ [w64 tail, w64 (tail / 2 ^ 64)])

/-- The crumb of a vector destination's lanes (R125): 0x08, 0x02 or 0x0A. -/
def crumbV (s : State) (d : Reg) (ls : List Nat) : List Crumb :=
  match d with
  | .v i =>
    let olds := ls.map fun l => (l, s.me.getV i l)
    let m := maskOf ls
    if olds.any (·.2.p) then [crumbVP s.me.hist.ic m olds]
    else if olds.all (fun x => x.2.v == 0) then [mkCrumb 0x08 s.me.hist.ic m []]
    else [mkCrumb 0x02 s.me.hist.ic m (packLanes (olds.map (·.2.v)))]
  | _ => []

/-- The whole old lanes of a vector destination with their poison (KIND 0x0A). -/
def crumbOldLanes (s : State) (d : Reg) (ls : List Nat) : List Crumb :=
  match d with
  | .v i => [crumbVP s.me.hist.ic (maskOf ls) (ls.map fun l => (l, s.me.getV i l))]
  | _ => []

/-- The crumb of one bit of a vector destination (KIND 0x03): the old bit of each lane. -/
def crumbVBit (s : State) (d : Reg) (n : Nat) : List Crumb :=
  match d with
  | .v i =>
    let old := (upto 0 32).foldl (fun m l => m + b2n (bit (s.me.getV i l).v n) * 2 ^ l) 0
    [mkCrumb 0x03 s.me.hist.ic (argReg d + BitVec.ofNat 32 (n * 2 ^ 16)) [w64 old]]
  | _ => []

/-! ### Horizons and commits (R119, R135) -/

/-- hp := HIST_BASE and hz := ic. -/
def Group.commit (g : Group) : Group := { g with hist := { g.hist with crumbs := [], hz := g.hist.ic } }

/-- R221: when a group passes a horizon, halts or is killed, its pending drops may be freed. -/
def Group.horizon (g : Group) : Group := { g.commit with drops := [] }

/-! ### Traps and parking (R109 to R112) -/

/-- A trap: its code and cause, the address word, the lanes and the origin index (R109, R110). -/
structure Trap where
  code : Nat
  cause : Nat := 0
  addr : Nat := 0
  lanes : BitVec 32 := 0
  oidx : Option (BitVec 3) := none
  deriving DecidableEq, Repr, Inhabited

/-- Words 1 to 7 of the park record of group `g` (R110). -/
def recordWords (s : State) (g : Group) (t : Trap) : List Word :=
  let a := s.gang g.gang
  let l := s.launch a.task.part a.task.launch
  [ w64 (t.code * 2 ^ 56 + t.cause * 2 ^ 52),
    g.hist.ic,
    w64 (t.addr % 2 ^ 56),
    w64 ((match t.oidx with | some o => 2 ^ 35 + o.toNat * 2 ^ 32 | none => 0) + t.lanes.toNat),
    taskRecord l a.task,
    w64 (a.inst * 2 ^ 32 + g.seat.core % 16 * 2 ^ 24 + g.seat.core / 16 * 2 ^ 16
      + g.seat.ipart * 2 ^ 12 + g.gid),
    g.hist.hz ]

/-- Word 0 of a queue entry (R36). -/
def entryWord0 (type slot part : Nat) : Word := w64 (type * 2 ^ 56 + slot % 2 ^ 16 * 2 ^ 40 + part * 2 ^ 32)

/-- The next park slot that is not in use, from slot `n` on (R110). -/
def freePark (parks : List Park) : (fuel n : Nat) → Nat
  | 0, n => n
  | f + 1, n => if parks.any (·.slot == n) then freePark parks f ((n + 1) % 2 ^ 16) else n

/-- The function that drives a partition (R28): 0 is the PF, p + 1 the VF of partition p. -/
def driverOf (s : State) (p : Nat) : Option Nat :=
  let q := s.part p
  if !q.valid then none
  else match q.tdi with
    | .unlocked => some 0
    | .locked | .run => some (p + 1)
    | .error => none

/-- Take a park slot of partition `p` for `who` and send the record on its way (R36, R111, R112). It goes to the
service gang's queue when a service gang is registered and the record does not come from it; what is bound for the host goes
to the function that drives the partition now (R28). -/
def fileRecord (s : State) (p : Nat) (who : Parked) (own : Bool) (ws : List Word) : State :=
  s.modPart p fun q =>
    let n := freePark q.parks 65535 q.nextPark
    { q with nextPark := (n + 1) % 2 ^ 16,
             parks := q.parks ++ [{ slot := n, who, words := ws }],
             entries := q.entries ++ [{ toHost := q.service.isNone || own, fn := driverOf s p, slot := n,
                                        words := entryWord0 1 n p :: ws }] }

/-- One more event of error class `c` in telemetry; the count sticks at 2^32 − 1 (R31). -/
def State.countErr (s : State) (c : Nat) : State :=
  { s with module := { s.module with
      errs := Tab.set 0 s.module.errs c (min (Tab.get 0 s.module.errs c + 1) (2 ^ 32 - 1)) } }

/-- The service gang hands a record on (R112): that of a park slot goes to the host as well. R112 names no means for it, so
that the step may come at any time (DESIGN CHOICE, log entry 25). -/
def handOn (s : State) (p slot : Nat) : State :=
  s.modPart p fun q => match q.parks.find? (·.slot == slot) with
    | some x =>
      if q.service.isSome then
        { q with entries := q.entries ++ [{ toHost := true, fn := driverOf s p, slot, words := entryWord0 1 slot p :: x.words }] }
      else q
    | none => q

/-- Whether the group belongs to the registered service gang of its partition (R113). -/
def isService (s : State) (g : Group) : Bool :=
  !g.isControl && (s.part (s.gang g.gang).task.part).service == some g.gang

/-- A group no longer waits for a ring's slot. -/
def dropClaims (s : State) (g : Group) : State :=
  s.modGang g.gang fun a => { a with rings := a.rings.map fun r => (r.1, r.2.served (.group g.key)) }

/-- Park a group of the mesh with a trap (R111): it leaves the active set (R101), and the record describes it as it
stands. -/
def parkGroup (s : State) (key : Nat) (t : Trap) : State :=
  match s.group? key with
  | none => s
  | some g =>
    let own := isService s g
    let s1 := s.modGroup key fun g =>
      { g with status := .parked, marks := { g.marks with step := false, revd := false },
               seat := { g.seat with active := false } }
    fileRecord (dropClaims s1 g) (s.gang g.gang).task.part (.group key) own (recordWords s g t)

end Sys2Proof.Machine
end

