-- ==== Sys2Proof/Machine/Seats.lean ====
section
/-! DEFINITION. Where groups sit in the issue partitions of a core, and which of them the active sets hold (R95, R100,
R101). -/

namespace Sys2Proof.Machine

/-- The groups that hold a slot of a core. -/
def slotsOn (s : State) (c : Nat) : List Group :=
  s.groups.filter fun g => !g.isControl && g.seat.core == c && (s.gang g.gang).life == .live

/-- A ready group of the pending set. -/
def pendingReady (g : Group) : Bool := !g.isControl && g.status == .run && !g.seat.active

/-- Whether a group that becomes ready enters the active set at once: while it has room and no group of the pending set is
ready, which would come first (R101). R100 and R101 do not say how an active set with room is filled (DESIGN CHOICE, log entry
84). -/
def mayEnter (others : List Group) : Bool :=
  decide ((others.filter (·.seat.active)).length < 8) && !others.any pendingReady

/-- The seat of a new group on a core among the groups that hold slots there. -/
def seatFor (gs : List Group) (core tick : Nat) : Seat :=
  let inPart (i : Nat) := gs.filter fun g => g.seat.ipart == i
  let ip := (upto 1 15).foldl (fun b i => if (inPart i).length < (inPart b).length then i else b) 0
  let slot := ((upto 0 16).find? fun n => !(inPart ip).any (·.seat.slot == n)).getD 0
  { core, ipart := ip, slot, active := mayEnter (inPart ip), age := tick, since := tick }

/-- The other groups of a group's issue partition, and whether their active set has room. -/
def partMates (s : State) (g : Group) : List Group :=
  (slotsOn s g.seat.core).filter fun x => x.seat.ipart == g.seat.ipart && x.key != g.key
def activeRoom (s : State) (g : Group) : Bool := decide (((partMates s g).filter (·.seat.active)).length < 8)

/-- A group that becomes ready (R100, R101): it keeps its place in the active set, or enters one that may take it. -/
def reenter (s : State) (key : Nat) : State :=
  match s.group? key with
  | none => s
  | some g =>
    if g.isControl then s
    else if g.seat.active then s.modGroup key fun x => { x with seat := { x.seat with age := s.tick } }
    else s.modGroup key fun x =>
      { x with seat := { x.seat with active := mayEnter (partMates s g), age := s.tick, since := s.tick } }

end Sys2Proof.Machine
end

