-- ==== Sys2Proof/Machine/Crypt.lean ====
section
/-! DEFINITION. The algorithms that the spec names and does not define: BLAKE3 in keyed mode (R182, R216, R271), SHA-512
(R46 to R48), AES-256-XTS (R181) and Ed25519 (R44, R48, R55). PRESUMED: they are taken as their published
specifications give them (log entry 8). Words are numbers below 2^32 or 2^64, keys and hashes are little-endian numbers
of their bytes. -/

namespace Sys2Proof.Machine

/-- Rotate a number of `w` bits right. -/
def rotR (w x n : Nat) : Nat := x >>> n ||| (x <<< (w - n)) % 2 ^ w

/-- An element of a list of words. -/
def wat (l : List Nat) (i : Nat) : Nat := l.getD i 0

/-- `n` little-endian words of `k` bytes. -/
def leWords (k : Nat) : (n : Nat) → List Byte → List Nat
  | 0, _ => []
  | n + 1, bs => ofLe (bs.take k) :: leWords k n (bs.drop k)

/-! ### BLAKE3 -/

/-- The initial value. -/
def blakeIv : List Nat :=
  [0x6A09E667, 0xBB67AE85, 0x3C6EF372, 0xA54FF53A,
   0x510E527F, 0x9B05688C, 0x1F83D9AB, 0x5BE0CD19]

/-- The order of the message words in the next round. -/
def blakePerm : List Nat := [2, 6, 3, 10, 7, 0, 4, 13, 1, 11, 12, 5, 9, 14, 15, 8]

/-- The quarter round on four words of the state. -/
def blakeG (v : List Nat) (a b c d x y : Nat) : List Nat :=
  let a1 := (wat v a + wat v b + x) % 2 ^ 32
  let d1 := rotR 32 (wat v d ^^^ a1) 16
  let c1 := (wat v c + d1) % 2 ^ 32
  let b1 := rotR 32 (wat v b ^^^ c1) 12
  let a2 := (a1 + b1 + y) % 2 ^ 32
  let d2 := rotR 32 (d1 ^^^ a2) 8
  let c2 := (c1 + d2) % 2 ^ 32
  let b2 := rotR 32 (b1 ^^^ c2) 7
  (((v.set a a2).set b b2).set c c2).set d d2

/-- One round: the columns and then the diagonals. -/
def blakeRound (v m : List Nat) : List Nat :=
  let g (v : List Nat) (x : Nat × Nat × Nat × Nat × Nat) : List Nat :=
    blakeG v x.2.1 x.2.2.1 x.2.2.2.1 x.2.2.2.2 (wat m (2 * x.1)) (wat m (2 * x.1 + 1))
  [(0, 0, 4, 8, 12), (1, 1, 5, 9, 13), (2, 2, 6, 10, 14), (3, 3, 7, 11, 15),
   (4, 0, 5, 10, 15), (5, 1, 6, 11, 12), (6, 2, 7, 8, 13), (7, 3, 4, 9, 14)].foldl g v

def blakeRounds : (n : Nat) → (v m : List Nat) → List Nat
  | 0, v, _ => v
  | n + 1, v, m => blakeRounds n (blakeRound v m) (blakePerm.map (wat m))

/-- What a compression takes: chaining value, message words, counter, block length and flags. -/
structure BlakeNode where
  cv : List Nat
  m : List Nat
  t : Nat
  len : Nat
  flags : Nat
  deriving Repr

/-- The first eight words of a compression. -/
def BlakeNode.out (x : BlakeNode) : List Nat :=
  let v := blakeRounds 7 (x.cv ++ blakeIv.take 4 ++ [x.t % 2 ^ 32, x.t / 2 ^ 32 % 2 ^ 32, x.len, x.flags]) x.m
  (upto 0 8).map fun i => wat v i ^^^ wat v (i + 8)

/-- The last block of a chunk, with the blocks before it compressed. Flags: 1 chunk start, 2 chunk end, 4 parent, 8 root,
16 keyed. -/
def blakeChunk (t : Nat) : (fuel : Nat) → (cv : List Nat) → (start : Nat) → List Byte → BlakeNode
  | 0, cv, start, bs => { cv, m := leWords 4 16 bs, t, len := bs.length, flags := 16 + start + 2 }
  | n + 1, cv, start, bs =>
    if bs.length ≤ 64 then { cv, m := leWords 4 16 bs, t, len := bs.length, flags := 16 + start + 2 }
    else
      let x : BlakeNode := { cv, m := leWords 4 16 bs, t, len := 64, flags := 16 + start }
      blakeChunk t n x.out 0 (bs.drop 64)

/-- The tree over some bytes whose first chunk has number `t`: the left part is the largest power of two of whole chunks
that leaves a right part. -/
def blakeTree (key : List Nat) : (fuel : Nat) → (t : Nat) → List Byte → BlakeNode
  | 0, t, bs => blakeChunk t 16 key 1 bs
  | n + 1, t, bs =>
    if bs.length ≤ 1024 then blakeChunk t 16 key 1 bs
    else
      let k := 2 ^ Nat.log2 ((bs.length - 1) / 1024)
      let l := (blakeTree key n t (bs.take (1024 * k))).out
      let r := (blakeTree key n (t + k) (bs.drop (1024 * k))).out
      { cv := key, m := l ++ r, t := 0, len := 64, flags := 16 + 4 }

/-- BLAKE3 in keyed mode: 32 bytes of output as a number. -/
@[irreducible] def blake3 (key : Nat) (bs : List Byte) : Nat :=
  let x := blakeTree (leWords 4 8 (leBytes 32 key)) 32 0 bs
  ({ x with flags := x.flags + 8 }.out).foldr (fun w n => w + 2 ^ 32 * n) 0

/-! ### SHA-512 -/

/-- The initial hash value. -/
def shaIv : List Nat :=
  [0x6A09E667F3BCC908, 0xBB67AE8584CAA73B,
   0x3C6EF372FE94F82B, 0xA54FF53A5F1D36F1,
   0x510E527FADE682D1, 0x9B05688C2B3E6C1F,
   0x1F83D9ABFB41BD6B, 0x5BE0CD19137E2179]

/-- The round constants. -/
def shaK : List Nat :=
  [0x428A2F98D728AE22, 0x7137449123EF65CD, 0xB5C0FBCFEC4D3B2F, 0xE9B5DBA58189DBBC,
   0x3956C25BF348B538, 0x59F111F1B605D019, 0x923F82A4AF194F9B, 0xAB1C5ED5DA6D8118,
   0xD807AA98A3030242, 0x12835B0145706FBE, 0x243185BE4EE4B28C, 0x550C7DC3D5FFB4E2,
   0x72BE5D74F27B896F, 0x80DEB1FE3B1696B1, 0x9BDC06A725C71235, 0xC19BF174CF692694] ++
  [0xE49B69C19EF14AD2, 0xEFBE4786384F25E3, 0x0FC19DC68B8CD5B5, 0x240CA1CC77AC9C65,
   0x2DE92C6F592B0275, 0x4A7484AA6EA6E483, 0x5CB0A9DCBD41FBD4, 0x76F988DA831153B5,
   0x983E5152EE66DFAB, 0xA831C66D2DB43210, 0xB00327C898FB213F, 0xBF597FC7BEEF0EE4,
   0xC6E00BF33DA88FC2, 0xD5A79147930AA725, 0x06CA6351E003826F, 0x142929670A0E6E70] ++
  [0x27B70A8546D22FFC, 0x2E1B21385C26C926, 0x4D2C6DFC5AC42AED, 0x53380D139D95B3DF,
   0x650A73548BAF63DE, 0x766A0ABB3C77B2A8, 0x81C2C92E47EDAEE6, 0x92722C851482353B,
   0xA2BFE8A14CF10364, 0xA81A664BBC423001, 0xC24B8B70D0F89791, 0xC76C51A30654BE30,
   0xD192E819D6EF5218, 0xD69906245565A910, 0xF40E35855771202A, 0x106AA07032BBD1B8] ++
  [0x19A4C116B8D2D0C8, 0x1E376C085141AB53, 0x2748774CDF8EEB99, 0x34B0BCB5E19B48A8,
   0x391C0CB3C5C95A63, 0x4ED8AA4AE3418ACB, 0x5B9CCA4F7763E373, 0x682E6FF3D6B2B8A3,
   0x748F82EE5DEFB2FC, 0x78A5636F43172F60, 0x84C87814A1F0AB72, 0x8CC702081A6439EC,
   0x90BEFFFA23631E28, 0xA4506CEBDE82BDE9, 0xBEF9A3F7B2C67915, 0xC67178F2E372532B] ++
  [0xCA273ECEEA26619C, 0xD186B8C721C0C207, 0xEADA7DD6CDE0EB1E, 0xF57D4F7FEE6ED178,
   0x06F067AA72176FBA, 0x0A637DC5A2C898A6, 0x113F9804BEF90DAE, 0x1B710B35131C471B,
   0x28DB77F523047D84, 0x32CAAB7B40C72493, 0x3C9EBE0A15C9BEBC, 0x431D67C49C100D4C,
   0x4CC5D4BECB3E42B6, 0x597F299CFC657E2A, 0x5FCB6FAB3AD6FAEC, 0x6C44198C4A475817]

/-- A big-endian word of 8 bytes, and the bytes of one. -/
def be8 (bs : List Byte) : Nat := ofLe (bs.take 8).reverse
def beBytes (n w : Nat) : List Byte := (leBytes n w).reverse

/-- The message schedule, last word first. -/
def shaSchedule : (n : Nat) → List Nat → List Nat
  | 0, w => w
  | n + 1, w =>
    let a := wat w 14
    let b := wat w 1
    let s0 := rotR 64 a 1 ^^^ rotR 64 a 8 ^^^ a >>> 7
    let s1 := rotR 64 b 19 ^^^ rotR 64 b 61 ^^^ b >>> 6
    shaSchedule n ((wat w 15 + s0 + wat w 6 + s1) % 2 ^ 64 :: w)

/-- One round, with the sum of its constant and schedule word. -/
def shaRound (v : List Nat) (kw : Nat) : List Nat :=
  let a := wat v 0
  let e := wat v 4
  let ch := (e &&& wat v 5) ^^^ ((2 ^ 64 - 1 - e) &&& wat v 6)
  let t1 := wat v 7 + (rotR 64 e 14 ^^^ rotR 64 e 18 ^^^ rotR 64 e 41) + ch + kw
  let maj := (a &&& wat v 1) ^^^ (a &&& wat v 2) ^^^ (wat v 1 &&& wat v 2)
  let t2 := (rotR 64 a 28 ^^^ rotR 64 a 34 ^^^ rotR 64 a 39) + maj
  [(t1 + t2) % 2 ^ 64, a, wat v 1, wat v 2, (wat v 3 + t1) % 2 ^ 64, e, wat v 5, wat v 6]

/-- A block of 128 bytes. -/
def shaBlock (h : List Nat) (bs : List Byte) : List Nat :=
  let w := (shaSchedule 64 (((upto 0 16).map fun i => be8 (bs.drop (8 * i))).reverse)).reverse
  let v := ((shaK.zip w).map fun x => x.1 + x.2).foldl shaRound h
  (h.zip v).map fun x => (x.1 + x.2) % 2 ^ 64

def shaBlocks : (n : Nat) → List Nat → List Byte → List Nat
  | 0, h, _ => h
  | n + 1, h, bs => shaBlocks n (shaBlock h (bs.take 128)) (bs.drop 128)

/-- The 64 bytes of SHA-512, in order. -/
def shaBytes (bs : List Byte) : List Byte :=
  let pad := (239 - bs.length % 128) % 128
  let all := bs ++ [0x80] ++ leBytes pad 0 ++ beBytes 16 (8 * bs.length)
  (shaBlocks (all.length / 128) shaIv all).flatMap (beBytes 8)

/-- SHA-512 as the little-endian number of its bytes. -/
@[irreducible] def sha512 (bs : List Byte) : Nat := ofLe (shaBytes bs)

/-! ### AES-256-XTS -/

/-- The substitution box. -/
def aesS : List Nat :=
  [0x63, 0x7C, 0x77, 0x7B, 0xF2, 0x6B, 0x6F, 0xC5, 0x30, 0x01, 0x67, 0x2B, 0xFE, 0xD7, 0xAB, 0x76,
   0xCA, 0x82, 0xC9, 0x7D, 0xFA, 0x59, 0x47, 0xF0, 0xAD, 0xD4, 0xA2, 0xAF, 0x9C, 0xA4, 0x72, 0xC0,
   0xB7, 0xFD, 0x93, 0x26, 0x36, 0x3F, 0xF7, 0xCC, 0x34, 0xA5, 0xE5, 0xF1, 0x71, 0xD8, 0x31, 0x15,
   0x04, 0xC7, 0x23, 0xC3, 0x18, 0x96, 0x05, 0x9A, 0x07, 0x12, 0x80, 0xE2, 0xEB, 0x27, 0xB2, 0x75] ++
  [0x09, 0x83, 0x2C, 0x1A, 0x1B, 0x6E, 0x5A, 0xA0, 0x52, 0x3B, 0xD6, 0xB3, 0x29, 0xE3, 0x2F, 0x84,
   0x53, 0xD1, 0x00, 0xED, 0x20, 0xFC, 0xB1, 0x5B, 0x6A, 0xCB, 0xBE, 0x39, 0x4A, 0x4C, 0x58, 0xCF,
   0xD0, 0xEF, 0xAA, 0xFB, 0x43, 0x4D, 0x33, 0x85, 0x45, 0xF9, 0x02, 0x7F, 0x50, 0x3C, 0x9F, 0xA8,
   0x51, 0xA3, 0x40, 0x8F, 0x92, 0x9D, 0x38, 0xF5, 0xBC, 0xB6, 0xDA, 0x21, 0x10, 0xFF, 0xF3, 0xD2] ++
  [0xCD, 0x0C, 0x13, 0xEC, 0x5F, 0x97, 0x44, 0x17, 0xC4, 0xA7, 0x7E, 0x3D, 0x64, 0x5D, 0x19, 0x73,
   0x60, 0x81, 0x4F, 0xDC, 0x22, 0x2A, 0x90, 0x88, 0x46, 0xEE, 0xB8, 0x14, 0xDE, 0x5E, 0x0B, 0xDB,
   0xE0, 0x32, 0x3A, 0x0A, 0x49, 0x06, 0x24, 0x5C, 0xC2, 0xD3, 0xAC, 0x62, 0x91, 0x95, 0xE4, 0x79,
   0xE7, 0xC8, 0x37, 0x6D, 0x8D, 0xD5, 0x4E, 0xA9, 0x6C, 0x56, 0xF4, 0xEA, 0x65, 0x7A, 0xAE, 0x08] ++
  [0xBA, 0x78, 0x25, 0x2E, 0x1C, 0xA6, 0xB4, 0xC6, 0xE8, 0xDD, 0x74, 0x1F, 0x4B, 0xBD, 0x8B, 0x8A,
   0x70, 0x3E, 0xB5, 0x66, 0x48, 0x03, 0xF6, 0x0E, 0x61, 0x35, 0x57, 0xB9, 0x86, 0xC1, 0x1D, 0x9E,
   0xE1, 0xF8, 0x98, 0x11, 0x69, 0xD9, 0x8E, 0x94, 0x9B, 0x1E, 0x87, 0xE9, 0xCE, 0x55, 0x28, 0xDF,
   0x8C, 0xA1, 0x89, 0x0D, 0xBF, 0xE6, 0x42, 0x68, 0x41, 0x99, 0x2D, 0x0F, 0xB0, 0x54, 0xBB, 0x16]

/-- Double in the field of AES. -/
def aesX2 (a : Nat) : Nat := if a < 128 then 2 * a else 2 * a % 256 ^^^ 0x1B

def aesSub (l : List Nat) : List Nat := l.map (wat aesS)
def xorL (a b : List Nat) : List Nat := (a.zip b).map fun x => x.1 ^^^ x.2

/-- The key schedule: words of 4 bytes, last first; `i` is the number of the next word. -/
def aesExpand : (n i rcon : Nat) → List (List Nat) → List (List Nat)
  | 0, _, _, w => w
  | n + 1, i, rcon, w =>
    let p := w.headD []
    let t := if i % 8 = 0 then xorL (aesSub (p.drop 1 ++ p.take 1)) [rcon, 0, 0, 0]
      else if i % 8 = 4 then aesSub p else p
    aesExpand n (i + 1) (if i % 8 = 0 then aesX2 rcon else rcon) (xorL (w.getD 7 []) t :: w)

/-- The 15 round keys of 16 bytes. -/
def aesKeys (key : List Nat) : List (List Nat) :=
  let w := (aesExpand 52 8 1 (((upto 0 8).map fun i => (key.drop (4 * i)).take 4).reverse)).reverse
  (upto 0 15).map fun r => ((w.drop (4 * r)).take 4).flatten

/-- Rotate the rows, and mix a column. -/
def aesShift (s : List Nat) : List Nat := (upto 0 16).map fun i => wat s ((i + 4 * (i % 4)) % 16)
def aesMix (c : List Nat) : List Nat :=
  (upto 0 4).map fun i =>
    let a := wat c i
    let b := wat c ((i + 1) % 4)
    aesX2 a ^^^ aesX2 b ^^^ b ^^^ wat c ((i + 2) % 4) ^^^ wat c ((i + 3) % 4)
def aesMixAll (s : List Nat) : List Nat := (upto 0 4).flatMap fun j => aesMix ((s.drop (4 * j)).take 4)

def aesRounds : List (List Nat) → List Nat → List Nat
  | [], s => s
  | [k], s => xorL (aesShift (aesSub s)) k
  | k :: t, s => aesRounds t (xorL (aesMixAll (aesShift (aesSub s))) k)

/-- One block of AES-256 under a key schedule. -/
def aesBlock (ks : List (List Nat)) (s : List Nat) : List Nat := aesRounds (ks.drop 1) (xorL s (ks.headD []))

/-- The inverse of a block: a mixing of columns has order 4. -/
def aesUnround (s : List Nat) : List Nat :=
  ((upto 0 16).map fun i => wat s ((i + 12 * (i % 4)) % 16)).map fun b => aesS.idxOf b
def aesUnrounds : List (List Nat) → List Nat → List Nat
  | [], s => s
  | [k], s => xorL s k
  | k :: t, s => aesUnrounds t (aesUnround (aesMixAll (aesMixAll (aesMixAll (xorL s k)))))
def aesUnblock (ks : List (List Nat)) (s : List Nat) : List Nat :=
  aesUnrounds (ks.reverse.drop 1) (aesUnround (xorL s (ks.reverse.headD [])))

/-- The blocks of a data unit under tweak `t`, which doubles from block to block; `f` is the cipher of a block. -/
def xtsBlocks (f : List Nat → List Nat) : (n t : Nat) → List Nat → List Nat
  | 0, _, _ => []
  | n + 1, t, bs =>
    let tb := (leBytes 16 t).map (·.toNat)
    xorL (f (xorL (bs.take 16) tb)) tb
      ++ xtsBlocks f n (2 * t % 2 ^ 128 ^^^ (if t < 2 ^ 127 then 0 else 0x87)) (bs.drop 16)

/-- Whole blocks under AES-256-XTS: a key pair of 512 bits, its data key first, and a tweak of 128 bits. -/
def xts (f : List (List Nat) → List Nat → List Nat) (pair tweak : Nat) (bs : List Byte) : List Byte :=
  let key := (leBytes 64 pair).map (·.toNat)
  let t := aesBlock (aesKeys (key.drop 32)) ((leBytes 16 tweak).map (·.toNat))
  let t0 := t.foldr (fun b n => b + 256 * n) 0
  (xtsBlocks (f (aesKeys (key.take 32))) (bs.length / 16) t0 (bs.map (·.toNat))).map (BitVec.ofNat 8)
@[irreducible] def xtsEncrypt (pair tweak : Nat) (bs : List Byte) : List Byte := xts aesBlock pair tweak bs
@[irreducible] def xtsDecrypt (pair tweak : Nat) (bs : List Byte) : List Byte := xts aesUnblock pair tweak bs

/-! ### Ed25519 -/

def edP : Nat := 2 ^ 255 - 19
def edL : Nat := 2 ^ 252 + 27742317777372353535851937790883648493

/-- A power modulo `edP`, over `n` bits of the exponent. -/
def edPow (n b e : Nat) : Nat := (upto 0 n).foldr (fun i a => a * a % edP * (if e.testBit i then b else 1) % edP) 1

def edD : Nat := (edP - 121665) * edPow 255 121666 (edP - 2) % edP

/-- A point in extended coordinates. -/
structure EdPoint where
  x : Nat
  y : Nat
  z : Nat
  t : Nat
  deriving Repr

def EdPoint.add (p q : EdPoint) : EdPoint :=
  let a := (p.y + edP - p.x) * (q.y + edP - q.x) % edP
  let b := (p.y + p.x) * (q.y + q.x) % edP
  let c := p.t * 2 * edD % edP * q.t % edP
  let d := p.z * 2 * q.z % edP
  let e := b + edP - a
  let f := d + edP - c
  let g := d + c
  let h := b + a
  { x := e * f % edP, y := g * h % edP, z := f * g % edP, t := e * h % edP }

def EdPoint.same (p q : EdPoint) : Bool :=
  p.x * q.z % edP == q.x * p.z % edP && p.y * q.z % edP == q.y * p.z % edP

/-- A multiple, over `n` bits. -/
def EdPoint.mul (p : EdPoint) (n k : Nat) : EdPoint :=
  (upto 0 n).foldr (fun i a => let d := a.add a; if k.testBit i then d.add p else d) { x := 0, y := 1, z := 1, t := 0 }

/-- A point from 255 bits of y and the sign of x. -/
def edDecode (w : Nat) : Option EdPoint :=
  let y := w % 2 ^ 255
  let u := (y * y + edP - 1) % edP
  let v := (edD * (y * y) + 1) % edP
  let x2 := u * edPow 255 v (edP - 2) % edP
  let r := edPow 255 x2 ((edP + 3) / 8)
  let x := if r * r % edP = x2 then r else r * edPow 255 2 ((edP - 1) / 4) % edP
  if edP ≤ y ∨ x * x % edP ≠ x2 ∨ (x = 0 ∧ w.testBit 255 = true) then none
  else
    let x' := if x % 2 = w / 2 ^ 255 % 2 then x else edP - x
    some { x := x', y, z := 1, t := x' * y % edP }

/-- The base point. -/
def edBase : Option EdPoint := edDecode (4 * edPow 255 5 (edP - 2) % edP)

/-- Whether `sig` (64 bytes) is a signature of `msg` under the public key `key`. -/
@[irreducible] def ed25519Verify (key : Nat) (msg sig : List Byte) : Bool :=
  let r := sig.take 32
  let s := leAt sig 32 32
  let k := ofLe (shaBytes (r ++ leBytes 32 key ++ msg)) % edL
  match edBase, edDecode (key % 2 ^ 256), edDecode (ofLe r) with
  | some b, some a, some p => decide (s < edL) && (b.mul 253 s).same (p.add (a.mul 253 k))
  | _, _, _ => false

end Sys2Proof.Machine
end

