-- ==== Sys2Proof/Machine/Errors.lean ====
section
/-! DEFINITION. Errors counted in windows and what they start (R14), and lines moved to spares (R168, R186). -/

namespace Sys2Proof.Machine

/-! ### Counting (R14) -/

/-- Default windows, in microseconds, and thresholds of the five classes. -/
def defaultLimit (cls : Nat) : Nat × Nat :=
  match cls with
  | 0 => (10000, 32)
  | 1 => (10000, 32)
  | 2 => (1000000, 16)
  | 3 => (86400000000, 4)
  | _ => (86400000000, 2)

/-- Window and threshold of a class: what firmware programmed, or the default. -/
def limitOf (s : State) (cls : Nat) : Nat × Nat :=
  ((s.module.limits.find? (·.1 == cls)).map (·.2)).getD (defaultLimit cls)
def threshold (s : State) (cls : Nat) : Nat := (limitOf s cls).2

/-- Firmware programs a class (R14); a threshold of 0 is never reached, and the spec names no such value: it is taken as
1 (log entry 59). -/
def setLimit (s : State) (cls window thr : Nat) : State :=
  if cls < 5 then
    { s with module := { s.module with
      limits := s.module.limits.filter (·.1 != cls) ++ [(cls, window, max 1 thr)] } }
  else s

/-- Events of a resource in its window, and a change of them. -/
def windowCount (s : State) (cls res : Nat) : Nat :=
  ((s.module.counters.find? fun c => c.1 == cls && c.2.1 == res).map (·.2.2)).getD 0
def setWindow (s : State) (cls res n : Nat) : State :=
  let others := s.module.counters.filter fun c => !(c.1 == cls && c.2.1 == res)
  { s with module := { s.module with counters := if n = 0 then others else others ++ [(cls, res, n)] } }

/-- A lasting fault is declared: telemetry counts it, and the repair of the class is due until it has been done. -/
def declareLasting (s : State) (cls res : Nat) : State :=
  { s with module := { s.module with
      lasting := Tab.set 0 s.module.lasting cls (min (Tab.get 0 s.module.lasting cls + 1) (2 ^ 32 - 1)),
      due := if s.module.due.any (· == (cls, res)) then s.module.due else s.module.due ++ [(cls, res)] } }

/-- Whether a resource's repair is due, and the state once it has been done. -/
def repairDue (s : State) (cls res : Nat) : Bool := s.module.due.any (· == (cls, res))
def repaired (s : State) (cls res : Nat) : State :=
  { s with module := { s.module with due := s.module.due.filter (· != (cls, res)) } }

/-- Count `n` events of a resource: the state, and whether its fault is declared lasting by them. R14 does not say what a threshold
programmed at or below the running count does: only an event that takes the count from below to it declares, so that none does
before the next window (DESIGN CHOICE, log entry 59). -/
def countFault (s : State) (cls res n : Nat) : State × Bool :=
  let was := windowCount s cls res
  let s1 := (upto 0 n).foldl (fun s _ => s.countErr cls) (setWindow s cls res (was + n))
  if was < threshold s cls ∧ threshold s cls ≤ was + n then (declareLasting s1 cls res, true) else (s1, false)

/-! ### Where a line lies (R167) -/

/-- The first physical address above device storage. -/
def devTop : Nat := 0xB400000000

/-- Bytes of a die region. -/
def regionBytes : Nat := 0x2D00000000

/-- Stack and stack offset of a storage address. -/
def stackOf (pa : Nat) : Nat := 3 * (pa / regionBytes) + pa % regionBytes / 2048 % 3
def stackOff (pa : Nat) : Nat := pa % regionBytes / 6144 * 2048 + pa % regionBytes % 2048

/-- The storage address at a stack offset. -/
def stackPa (stack off : Nat) : Nat := regionBytes * (stack / 3) + (off / 2048 * 3 + stack % 3) * 2048 + off % 2048

/-- The pseudo-channel that a line lies on: a fixed hash of its chunk's stack offset, and the line of the chunk. -/
def pseudoChannel (pa : Nat) : Nat :=
  (Config.chunkHash (stackOff pa / 2048 * 2048) + stackOff pa % 2048 / 128) % 64

/-! ### Retirement (R186) -/

/-- A line's fault is lasting: it moves to a spare, its poison and its integrity entry with it, while the stack has one;
its counter then starts anew, for the spare (log entry 59). -/
def retireLine (s : State) (pa : Nat) : State :=
  let k := s.stack (stackOf pa)
  let s1 := repaired s 4 (pa / 128)
  if k.spares = 0 then s1
  else setWindow (s1.setStack (stackOf pa) { k with spares := k.spares - 1, retired := addNat (pa / 128) k.retired }) 4
    (pa / 128) 0

/-- `n` events of a line's class; a lasting fault retires the line. -/
def lineError (s : State) (pa n : Nat) : State :=
  let r := countFault s 4 (pa / 128) n
  if r.2 then retireLine r.1 pa else r.1

/-- An uncorrectable error poisons the line and counts as the full threshold of its class, so that it is retired at
once, whatever its window has counted (R186). -/
def poisonLine (s : State) (pa : Nat) : State :=
  let r := countFault { s.countErr 7 with mem := { s.mem with poison := addNat (pa / 128) s.mem.poison } } 4 (pa / 128) (threshold s 4)
  retireLine (if r.2 then r.1 else declareLasting r.1 4 (pa / 128)) pa

end Sys2Proof.Machine
end

