-- ==== Sys2Proof/Machine/Cipher.lean ====
section
/-! DEFINITION. What storage holds of each line: its ciphertext and its integrity entry (R52, R168, R181, R182, R184).
State keeps the plain bytes and the lines whose entry is 0; ciphertext and entries are functions of them, but for a line
that something outside has disturbed, which is kept as storage holds it until its next access checks it. -/

namespace Sys2Proof.Machine

/-- The partition that a storage address belongs to. -/
def ownerOf (s : State) (pa : Nat) : Option Nat :=
  (upto 0 16).find? fun p => (s.part p).valid && (upto 1 7).any fun i =>
    let r := (s.part p).range i
    r.1 != 0 && decide (r.2.1 ≤ pa ∧ pa < r.2.1 + r.2.2)

/-- The two key versions of a line and the index of the first: its partition's slots, or the module key (R52, R181). -/
def lineKeys (s : State) (line : Nat) : Nat × KeyPair :=
  match ownerOf s (128 * line) with
  | some p => (2 * p, ((s.part p).keys.map (·.mem)).getD {})
  | none => (0x20, s.module.modKeys)

/-- Whether a line is under the next version: its stack offset lies below its stack's watermark (R184). -/
def underNext (s : State) (line : Nat) : Bool := decide (stackOff (128 * line) < (s.stack (stackOf (128 * line))).wm)

/-- The version that encrypts a line: its slot index and its keys. -/
def lineKey (s : State) (line : Nat) : Nat × KeySlot :=
  let k := lineKeys s line
  let ix := if underNext s line then (k.2.cur + 1) % 2 else k.2.cur % 2
  (k.1 + ix, if ix = 0 then k.2.k0 else k.2.k1)

/-- A line's integrity tag over some ciphertext (R182). -/
def tagOf (s : State) (line : Nat) (cipher : List Byte) : Nat :=
  let k := lineKey s line
  max 1 (blake3 k.2.tag (leBytes 8 (128 * line) ++ leBytes 1 k.1 ++ cipher) % 2 ^ 64)

/-- The plain bytes of a line. -/
def Mem.lineBytes (m : Mem) (line : Nat) : List Byte := (upto (128 * line) 128).map (Tab.get 0 m.dev)

/-- The ciphertext of a line, and its integrity entry: 0 for a poisoned line. A line moved to a spare keeps both. -/
def cipherLine (s : State) (line : Nat) : List Byte :=
  match s.mem.faulty.find? (·.line == line) with
  | some d => d.cipher
  | none => xtsEncrypt (lineKey s line).2.xts (128 * line) (s.mem.lineBytes line)
def entryOf (s : State) (line : Nat) : Nat :=
  match s.mem.faulty.find? (·.line == line) with
  | some d => d.entry
  | none => if mem? line s.mem.poison then 0 else tagOf s line (cipherLine s line)

/-- A disturbed line is no longer kept as storage holds it. -/
def Mem.undisturbed (m : Mem) (line : Nat) : Mem := { m with faulty := m.faulty.filter (·.line != line) }

/-- The check that every read of storage makes (R182): a line whose entry does not match is poisoned and counted as an
uncorrectable error; one whose entry matches holds what its ciphertext spells. -/
def checkLine (s : State) (line : Nat) : State :=
  match s.mem.faulty.find? (·.line == line) with
  | none => s
  | some d =>
    let s1 := { s with mem := s.mem.undisturbed line }
    if d.entry = tagOf s line d.cipher then
      let bs := xtsDecrypt (lineKey s line).2.xts (128 * line) d.cipher
      { s1 with mem := { s1.mem with
          dev := (bs.zip (upto (128 * line) 128)).foldl (fun m x => Tab.set 0 m x.2 x.1) s1.mem.dev,
          poison := delNat line s1.mem.poison } }
    else if d.entry = 0 then { s1 with mem := { s1.mem with poison := addNat line s1.mem.poison } }
    else poisonLine s1 (128 * line)

/-- Something outside the module disturbs what storage holds of a line. -/
def disturb (s : State) (line : Nat) (cipher : List Byte) (entry : Nat) : State :=
  if devTop ≤ 128 * line then s
  else { s with mem := { s.mem with
    faulty := s.mem.faulty.filter (·.line != line)
      ++ [{ line, cipher := (cipher ++ leBytes 128 0).take 128, entry := entry % 2 ^ 64 }] } }

end Sys2Proof.Machine
end

