-- ==== Sys2Proof/Machine/Memory.lean ====
section
/-! DEFINITION. Memory: the classes of physical addresses, lines at their home, the page-table walk, extents, what is
protected, and the ownership of lines in a DET launch (07, 08; R187, R194 to R203, R207, R208, R75, R127, R265). -/

namespace Sys2Proof.Machine

/-! ### Bytes of the module's memories -/

/-- A place in one of the memories that an address of R202 reaches. -/
inductive Loc where
  | dev (pa : Nat)
  | host (a : Nat)
  | peer (a : Nat)
  deriving DecidableEq, Repr, Inhabited

/-- The class of a physical address (R202). -/
def classify (pa : Nat) : Option Loc :=
  if pa < devTop then some (.dev pa)
  else if pa / 2 ^ 50 = 2 then some (.host (pa % 2 ^ 50))
  else if pa / 2 ^ 50 = 3 then some (.peer (pa % 2 ^ 50))
  else none

/-- The place `n` bytes further on. -/
def Loc.plus (l : Loc) (n : Nat) : Loc :=
  match l with
  | .dev a => .dev (a + n)
  | .host a => .host (a + n)
  | .peer a => .peer (a + n)

/-- What a byte that nothing has written reads as (log entry 4). -/
def unlisted : Byte := 0

/-- One byte. -/
def Mem.byte (m : Mem) : Loc → Byte
  | .dev a => Tab.get unlisted m.dev a
  | .host a => Tab.get unlisted m.host a
  | .peer a => Tab.get unlisted m.peer a

/-- Write one byte. -/
def Mem.setByte (m : Mem) (l : Loc) (b : Byte) : Mem :=
  match l with
  | .dev a => { m with dev := Tab.set unlisted m.dev a b }
  | .host a => { m with host := Tab.set unlisted m.host a b }
  | .peer a => { m with peer := Tab.set unlisted m.peer a b }

/-- `n` bytes from a place. -/
def Mem.bytes (m : Mem) (l : Loc) : (n : Nat) → List Byte
  | 0 => []
  | n + 1 => m.byte l :: m.bytes (l.plus 1) n

/-- Write bytes from a place on. -/
def Mem.setBytes (m : Mem) (l : Loc) : List Byte → Mem
  | [] => m
  | b :: t => (m.setByte l b).setBytes (l.plus 1) t

/-- The number of a place, under which the writes of its byte are kept; local memory has the numbers 4 n + 3 (`localNum`). -/
def Loc.num : Loc → Nat
  | .dev a => 4 * a
  | .host a => 4 * a + 1
  | .peer a => 4 * a + 2

/-- One more write enters the coherence order of a byte. -/
def Mem.logAt (m : Mem) (x : Past) (place : Nat) (old : Byte) : Mem :=
  { m with past := Tab.set [] m.past place ({ x with v := old } :: Tab.get [] m.past place) }

/-- The same of the bytes from a place on. -/
def Mem.log (m : Mem) (x : Past) (l : Loc) : (n : Nat) → Mem
  | 0 => m
  | n + 1 => (m.logAt x l.num (m.byte l)).log x (l.plus 1) n

/-- Who makes a write, its number among the writer's when that is not its place in the coherence orders, and what an atomic
has read. -/
structure By where
  w : Writer := .unit
  num : Option Nat := none
  via : List (Writer × Nat) := []
  deriving DecidableEq, Repr, Inhabited

/-- The write that `x` makes as place `k` of the coherence orders. -/
def By.past (x : By) (k : Nat) : Past := { v := 0, till := k, writer := x.w, num := x.num.getD k, via := x.via }

/-- One access writes bytes: it takes the next place in their coherence orders (R250, R251). -/
def State.write (s : State) (x : By) (l : Loc) (bs : List Byte) : State :=
  { s with mem := (s.mem.log (x.past (s.stamp + 1)) l bs.length).setBytes l bs, stamp := s.stamp + 1 }

/-- Bytes that are written one by one, as those of a write larger than any access of a group are (R250); a unit's writes show at
once in any case. -/
def State.writeEach (s : State) (x : By) (l : Loc) : List Byte → State
  | [] => s
  | b :: t => (s.write x l [b]).writeEach x (l.plus 1) t
def State.writeAny (s : State) (x : By) (l : Loc) (bs : List Byte) : State :=
  if bs.length ≤ 16 || x.w == .unit then s.write x l bs else s.writeEach x l bs

/-- The canonical form of all four memories. -/
def Memory.wf (m : Mem) : Bool :=
  Tab.wf unlisted m.dev && Tab.wf unlisted m.host && Tab.wf unlisted m.peer && Tab.wf unlisted m.sched

/-- Whether a line of device storage is poisoned (R187). -/
def Mem.poisoned (m : Mem) (pa : Nat) : Bool := mem? (pa / 128) m.poison

/-- Mark a line poisoned, by a failed copy of a migration or for any other cause, and clear it. -/
def Mem.taint (m : Mem) (pa : Nat) : Mem :=
  { m with poison := addNat (pa / 128) m.poison, failed := delNat (pa / 128) m.failed }
def Mem.taintFailed (m : Mem) (pa : Nat) : Mem :=
  { m with poison := addNat (pa / 128) m.poison, failed := addNat (pa / 128) m.failed }
def Mem.clear (m : Mem) (pa : Nat) : Mem := { m with poison := delNat (pa / 128) m.poison }

/-- The cause of a poisoned line (R204): 5 when a completion error of its copy poisoned it (R438), else 4. -/
def Mem.cause (m : Mem) (pa : Nat) : Nat := if mem? (pa / 128) m.failed then 5 else 4

def State.setMem (s : State) (m : Mem) : State := { s with mem := m }

/-- A 64-bit word of device storage. -/
def State.devWord (s : State) (pa : Nat) : Word := w64 (ofLe (s.mem.bytes (.dev pa) 8))
def State.setDevWord (s : State) (pa : Nat) (w : Word) : State :=
  s.setMem (s.mem.setBytes (.dev pa) (leBytes 8 w.toNat))

/-- A word of scheduler memory, and bytes of it. -/
def Mem.schedBytes (m : Mem) (a : Nat) : (n : Nat) → List Byte
  | 0 => []
  | n + 1 => Tab.get unlisted m.sched a :: m.schedBytes (a + 1) n
def Mem.setSched (m : Mem) (a : Nat) : List Byte → Mem
  | [] => m
  | b :: t => Mem.setSched { m with sched := Tab.set unlisted m.sched a b } (a + 1) t

/-! ### Lines at their home (R182, R194 to R197, R208) -/

/-- The offsets of a line that some bytes at `pa` take. -/
def offsetsIn (line pa n : Nat) : List Nat := (upto 0 128).filter fun o => decide (pa ≤ 128 * line + o ∧ 128 * line + o < pa + n)

/-- R161: the values that some bytes hold before a cached write stay known until the line is written back. -/
def Mem.noteBack (m : Mem) (key : TileKey) : (pa n : Nat) → Mem
  | _, 0 => m
  | pa, n + 1 =>
    let e : Back := Tab.get {} m.back pa
    let m1 := { m with back := Tab.set {} m.back pa { key, olds := m.byte (.dev pa) :: e.olds } }
    m1.noteBack key (pa + 1) n

/-- The bytes of a die's copy that have not reached the home go there, at one place of their coherence orders (R195,
R196). -/
def DieCopy.push (c : DieCopy) (line : Nat) (s : State) : State :=
  if c.held.isEmpty then s
  else
    let mem := c.held.foldl (fun m h =>
      let l := Loc.dev (128 * line + h.off)
      ((m.noteBack c.key (128 * line + h.off) 1).log (By.past { w := h.writer, num := some h.num } (s.stamp + 1)) l 1).setByte l
        h.v) s.mem
    { s with mem, stamp := s.stamp + 1 }

/-- The merge (R195): every copy is recalled; a byte that one die wrote and that has not reached the home takes that
die's value, one that several wrote that of the highest-numbered die, and the others keep the home's. The line returns to
token counting. -/
def mergeLine (s : State) (line : Nat) : State :=
  match s.coh.contended.find? (·.line == line) with
  | none => s
  | some c =>
    let t := (upto 0 4).foldl (fun t d => match c.dies.find? (·.die == d) with
      | some x => x.push line t
      | none => t) s
    { t with coh := { s.coh with contended := s.coh.contended.filter (·.line != line),
                                 quiet := s.coh.quiet.filter (·.1 != line) ++ [(line, s.tick)] } }

/-- Line `i` of a migrating page is valid. -/
def markValid (s : State) (m : Migration) (i : Nat) : State :=
  { s with migrations := s.migrations.map fun x => if x = m then { x with valid := addNat i x.valid } else x }

/-- Copy line `i` of a migrating page and mark it valid. A poisoned old line arrives poisoned, and so does one of host memory
or of a peer whose read fails (R438). -/
def copyLine (s0 : State) (m : Migration) (i : Nat) (ok : Bool) : State :=
  let src := m.old + 128 * i
  let dst := m.new + 128 * i
  let s := if src < devTop then mergeLine (checkLine s0 (src / 128)) (src / 128) else s0
  let bs := match classify src with
    | some l => s.mem.bytes l 128
    | none => leBytes 128 0
  let t := (s.setMem (s.mem.undisturbed (dst / 128))).write {} (.dev dst) bs
  let mem2 := if devTop ≤ src then (if ok then t.mem.clear dst else t.mem.taintFailed dst)
    else if s.mem.poisoned src then t.mem.taint dst else t.mem.clear dst
  markValid (t.setMem mem2) m i

/-- An access to a line: one of a migrating page whose valid bit is clear is copied first (R208; whether its read of host
memory or a peer then fails is free, R438), and the line's tag is checked (R182). -/
def settleLine (s : State) (l : Loc) : State :=
  match l with
  | .dev pa =>
    match s.migrations.find? fun m => decide (m.new ≤ pa ∧ pa < m.new + 65536) with
    | some m =>
      let i := (pa - m.new) / 128
      if mem? i m.valid then checkLine s (pa / 128) else copyLine s m i (!Config.copyFails s.tick (pa / 128))
    | none => checkLine s (pa / 128)
  | _ => s

/-- A store of a whole line: the line is valid with no copy (R208), and what storage held of it is not read. -/
def claimLine (s : State) (l : Loc) : State :=
  match l with
  | .dev pa =>
    let t := match s.migrations.find? fun m => decide (m.new ≤ pa ∧ pa < m.new + 65536) with
      | some m => markValid s m ((pa - m.new) / 128)
      | none => s
    t.setMem (t.mem.undisturbed (pa / 128))
  | _ => s

/-- An access at a line's home by an agent that privatises no line: the dies' copies are recalled first (R195, R197). -/
def homeLine (s : State) (l : Loc) : State :=
  match l with
  | .dev pa => mergeLine (settleLine s l) (pa / 128)
  | _ => s

/-- A line as an access at its home finds it. -/
def State.homeWord (s : State) (pa : Nat) : Word := (homeLine s (.dev pa)).devWord pa
def State.homePoisoned (s : State) (pa : Nat) : Bool := (homeLine s (.dev pa)).mem.poisoned pa

/-! ### Translation (R199 to R203) -/

/-- Whether `[pa, pa + n)` meets a CN region of any partition (R213). -/
def inCn (s : State) (pa n : Nat) : Bool :=
  s.parts.any fun (_, p) => p.valid && (upto 0 7).any fun i =>
    match p.cnRegion i with
    | some (b, len, _) => decide (pa < b + len ∧ b < pa + n)
    | none => false

/-- A leaf found by a walk: its word, the bits of its page offset and where the entry lies. -/
structure Leaf where
  word : Word
  off : Nat
  at_ : Nat
  deriving DecidableEq, Repr, Inhabited

/-- Levels 4 to 1 (R199): the lowest VA bit indexed, the index width and the size of the table below as log2. -/
def levels : List (Nat × Nat × Nat) := [(43, 13, 16), (30, 13, 12), (21, 9, 8), (16, 5, 0)]

/-- The entry that a walk uses at a level: the one in memory, none when its line is poisoned, or one that a cache still
holds (R203). -/
def pickEntry (tick sh va : Nat) (walked : Option Word) : List Cached → Option Word
  | [] => walked
  | c :: t =>
    if c.sh = sh ∧ c.ix = va / 2 ^ sh ∧ walked ≠ some c.word ∧ Config.usesCached (tick + t.length) = true then some c.word
    else pickEntry tick sh va walked t

/-- The walk from a table (R199, R200, R201), with what caches hold of it; none when it fails. -/
def walkFrom (s : State) (held : List Cached) (va : Nat) : (table : Nat) → List (Nat × Nat × Nat) → Option Leaf
  | _, [] => none
  | table, (sh, w, below) :: t =>
    let at_ := table + 8 * (va / 2 ^ sh % 2 ^ w)
    match pickEntry s.tick sh va (if s.homePoisoned at_ then none else some (s.homeWord at_)) held with
    | none => none
    | some e =>
      let pa := bits e 51 0
      if bit e 63 = false ∨ bits e 54 52 ≠ 0 then none
      else if bit e 62 then
        if sh = 43 ∨ pa % 2 ^ sh ≠ 0 ∨ (classify pa).isNone ∨ inCn s pa (2 ^ sh) then none
        else some { word := e, off := sh, at_ }
      else
        if sh = 16 ∨ pa % 2 ^ below ≠ 0 ∨ pa ≥ devTop ∨ inCn s pa (2 ^ below) then none
        else walkFrom s held va pa t

/-- Bits of a VA above which an ASID word stands. -/
def asidShift : Nat := 56

/-- The walk of a VA under an ASID of a partition, with what caches hold of it. -/
def walkWith (s : State) (held : List Cached) (p asid va : Nat) : Option Leaf :=
  let at_ := (s.part p).asidtBase + 8 * asid
  match pickEntry s.tick asidShift va (if s.homePoisoned at_ then none else some (s.homeWord at_)) held with
  | none => none
  | some w =>
    let table := bits w 51 0
    if va ≥ 2 ^ 56 ∨ bit w 63 = false ∨ table % 2 ^ 16 ≠ 0 ∨ table ≥ devTop ∨ inCn s table (2 ^ 16) then none
    else walkFrom s held va table levels

/-- The walk as the tables stand. -/
def walk (s : State) (p asid va : Nat) : Option Leaf := walkWith s [] p asid va

/-- The translation that an access uses: at every level the table's entry or one that a cache still holds. -/
def leafOf (s : State) (p asid va : Nat) : Option Leaf :=
  walkWith s (s.cached.filter fun c => c.part == p && c.asid == asid) p asid va

/-- The entries that a walk reads: the lowest VA bit that each one covers, its address and its word. -/
def pathFrom (s : State) (va : Nat) : (table : Nat) → List (Nat × Nat × Nat) → List (Nat × Nat × Word)
  | _, [] => []
  | table, (sh, w, _) :: t =>
    let at_ := table + 8 * (va / 2 ^ sh % 2 ^ w)
    let e := s.homeWord at_
    (sh, at_, e) :: (if bit e 63 && !bit e 62 then pathFrom s va (bits e 51 0) t else [])
def walkPath (s : State) (p asid va : Nat) : List (Nat × Nat × Word) :=
  let at_ := (s.part p).asidtBase + 8 * asid
  let w := s.homeWord at_
  (asidShift, at_, w) :: (if bit w 63 then pathFrom s va (bits w 51 0) levels else [])

/-- A walk reads the lines of its entries at their homes; the entries of one that succeeds stay in the micro-TLBs and the
page-walk caches (R203). -/
def State.noteLeaf (s0 : State) (p asid va : Nat) : State :=
  let path := walkPath s0 p asid va
  let s := path.foldl (fun s e => homeLine s (.dev e.2.1)) s0
  if (walk s p asid va).isNone then s
  else
    let new := path.map fun e => ({ part := p, asid, sh := e.1, ix := va / 2 ^ e.1, word := e.2.2 } : Cached)
    { s with cached := s.cached ++ new.filter fun c => !s.cached.any (· == c) }

/-- What an access needs of a page. -/
inductive Need where
  | read | write | fetch
  deriving DecidableEq, Repr

/-- Whether a leaf grants the need; COW denies writes (R200). -/
def grants (w : Word) : Need → Bool
  | .read => bit w 61
  | .write => bit w 60 && !bit w 56
  | .fetch => bit w 59

/-- What an address resolves to. -/
inductive Look where
  | ok (l : Loc) (leaf : Word)
  /-- Denied, with the poison cause of R204: 1 walk failed, 2 permission, 3 extent. -/
  | bad (cause : Nat)
  deriving DecidableEq, Repr, Inhabited

/-- Resolve a VA under an ASID of a partition. -/
def lookIn (s : State) (p asid va : Nat) (n : Need) : Look :=
  match leafOf s p asid va with
  | none => .bad 1
  | some l =>
    if grants l.word n then
      match classify (bits l.word 51 0 + va % 2 ^ l.off) with
      | some loc => .ok loc l.word
      | none => .bad 1
    else .bad 2

/-- Partition and ASID of the current group. -/
def State.myAsid (s : State) : Nat := s.myLaunch.asid
def State.myP (s : State) : Nat := s.myGang.task.part

/-- A virtual access of the current group. -/
def look (s : State) (va : Nat) (n : Need) : Look := lookIn s s.myP s.myAsid va n

/-- The extent that holds an offset (R73). -/
def inExtents (o : Nat) : List (Nat × Nat) → Option Nat
  | [] => none
  | (pa, len) :: t => if o < len then some (pa + o) else inExtents (o - len) t

/-- The leaf of the page that holds an offset of a slot: its attributes CNR and MS act on accesses (R379, R176). -/
def pageLeaf (o : Nat) : List (Nat × Nat × Word) → Word
  | [] => 0
  | (at_, len, w) :: t => if at_ ≤ o ∧ o < at_ + len then w else pageLeaf o t

/-- The VA of an extent-relative access (R75). -/
def extVa (t : Task) (slot : Nat) (o : Nat) : Nat :=
  (((t.slots.drop slot).headD {}).base.toNat + o) % 2 ^ 56

/-- Resolve an extent-relative access of `n` bytes (R75). -/
def lookExt (s : State) (slot o n : Nat) (need : Need) : Look :=
  match s.myTask.slots.drop slot with
  | [] => .bad 3
  | x :: _ =>
    if x.revoked ∨ o + n > x.len ∨ (need = .write ∧ x.write = false) ∨ (need = .read ∧ x.read = false) then .bad 3
    else match inExtents o x.extents with
      | none => .bad 3
      | some pa => match classify pa with
        | some loc => .ok loc (pageLeaf o x.pages)
        | none => .bad 3

/-! ### Protected targets (R127, R379) -/

/-- Whether `[pa, pa + n)` meets a history region of any group, reserved until its gang has ended (R106, R127). -/
def inHistory (s : State) (pa n : Nat) : Bool :=
  s.groups.any fun g =>
    !g.isControl && decide (pa < g.hist.base + 2 ^ g.hist.log ∧ g.hist.base < pa + n)
      && (s.gang g.gang).life != .ended

/-- Whether `[pa, pa + n)` meets the partition's tensor table (R159). -/
def inTensorTable (s : State) (p pa n : Nat) : Bool :=
  let t := (s.part p).ttBase
  decide (pa < t + 64 * 65536 ∧ t < pa + n)

/-- A load meets a history region, or a page of host or peer memory that is marked MS: it raises ACCESS (R127, R202). -/
def Look.loadTrap (s : State) (l : Look) (n : Nat) : Bool :=
  match l with
  | .ok (.dev pa) _ => inHistory s pa n
  | .ok _ leaf => bit leaf 58
  | _ => false

/-- Whether a store of `n` bytes is denied (R201, R202, R75, R379): the cause of its ACCESS. -/
def Look.storeDenied (s : State) (l : Look) (n : Nat) : Option Nat :=
  match l with
  | .bad 3 => some 2
  | .bad _ => some 1
  | .ok (.dev pa) leaf =>
    if inHistory s pa n || inTensorTable s s.myP pa n || bit leaf 57 then some 1 else none
  | .ok _ leaf => if bit leaf 58 then some 1 else none

/-- Whether an exchange or atomic is denied: as a store, and on host and peer memory too (R202). -/
def Look.atomicDenied (s : State) (l : Look) (n : Nat) : Option Nat :=
  match l with
  | .ok (.host _) _ => some 1
  | .ok (.peer _) _ => some 1
  | l => l.storeDenied s n

/-! ### Deterministic launches (R265, R266) -/

/-- A declared range covers a line. -/
def Decl.covers (x : Decl) (line : Nat) : Bool :=
  x.extents.any fun e => decide (e.1 < 128 * line + 128 ∧ 128 * line < e.1 + e.2)

/-- What a line starts as (R265). -/
def Det.firstOwner (d : Det) (line : Nat) : Option Owner :=
  match d.decls.filter (·.covers line) with
  | [] => none
  | [x] => if x.kind0 then some .read else x.gang.map .priv
  | xs => if xs.all (·.kind0) then some .read else none

/-- The owner of a line for the launch; none is UNCLAIMED. -/
def Det.owner (d : Det) (line : Nat) : Option Owner :=
  match d.owners.find? (·.1 == line) with
  | some x => some x.2
  | none => d.firstOwner line

/-- R263: a place lies in a line PRIVATE to another gang. -/
def privateOther (s : State) (l : Loc) : Bool :=
  match l with
  | .dev pa =>
    s.inDet && match s.myLaunch.ds.owner (pa / 128) with
      | some (.priv g) => g != s.myGang.inst
      | _ => false
  | _ => false

/-- R265, R266: a store to this place is buffered. -/
def buffered (s : State) (l : Loc) : Bool :=
  match l with
  | .dev pa =>
    s.inDet && match s.myLaunch.ds.owner (pa / 128) with
      | some (.priv g) => g != s.myGang.inst
      | _ => true
  | _ => false

/-- Note that a gang has touched a line of the launch (R265). -/
def Det.touch (d : Det) (line gang : Nat) : Det :=
  if d.touched.any (· == (line, gang)) then d else { d with touched := d.touched ++ [(line, gang)] }

def State.touchLoc (s : State) (l : Loc) : State :=
  match l with
  | .dev pa =>
    if s.inDet then
      s.modLaunch s.myP s.myGang.task.launch fun x => { x with ds := x.ds.touch (pa / 128) s.myGang.inst }
    else s
  | _ => s

/-- Note that the current group's launch has stored to a line without a store buffer (R265). -/
def State.storeLoc (s : State) (l : Loc) : State :=
  match l with
  | .dev pa =>
    if s.inDet then
      s.modLaunch s.myP s.myGang.task.launch fun x => { x with ds := { x.ds with stored := addNat (pa / 128) x.ds.stored } }
    else s
  | _ => s

/-- The logical thread index of a lane of the current group (R266). -/
def State.tid (s : State) (lane : Nat) : Nat := s.myGang.inst * 4096 + s.me.gid * 32 + lane

/-- The group's own buffered byte at a place, if it has one (R266): the newest. -/
def ownByte (s : State) (pa : Nat) : Option BufByte :=
  s.myLaunch.ds.buffer.find? fun b => b.pa == pa && b.tid / 32 == s.myGang.inst * 128 + s.me.gid

end Sys2Proof.Machine
end

