-- ==== Sys2Proof/Machine/Order.lean ====
section
/-! DEFINITION. Which writes happen before what a group does next (R252 to R256): the scopes, what a release publishes, and
what an acquire takes from the releases that it synchronises with. -/

namespace Sys2Proof.Machine

/-- The compute die of a core (R94). -/
def dieOf (core : Nat) : Nat := core % 16 / 8 + 2 * (core / 16 / 8)

/-- The die of the current group. -/
def State.myDie (s : State) : Nat := dieOf s.me.seat.core

/-! ### Scopes (R252) -/

/-- The scopes in the order in which they nest. -/
def scopeNum : Scope → Nat
  | .grp => 0
  | .core => 1
  | .gang => 2
  | .die => 3
  | .dev => 4
  | .sys => 5

def Group.party (g : Group) : Party := { key := g.key, gang := g.gang, core := g.seat.core, mesh := !g.isControl }

/-- The narrowest scope that includes two groups. The scopes nest, so that two groups of one core are in each other's .gang
scope whatever their gangs (DEDUCED, log entry 81). -/
def Party.reach (a b : Party) : Nat :=
  if a.key = b.key then 0
  else if !a.mesh || !b.mesh then 4
  else if a.core = b.core then 1
  else if a.gang = b.gang then 2
  else if dieOf a.core = dieOf b.core then 3
  else 4

/-! ### Views (R254) -/

namespace View

/-- The number up to which a writer's writes are known. -/
def upTo (v : View) (w : Writer) : Nat := ((v.known.find? (·.1 == w)).map (·.2)).getD 0

/-- A writer's writes up to a number are known. -/
def learn (v : View) (w : Writer) (n : Nat) : View :=
  if n ≤ v.upTo w then v else { v with known := (w, n) :: v.known.filter (·.1 != w) }

/-- One write is known. -/
def see (v : View) (x : Nat × Writer × Nat) : View :=
  if v.reads.any (· == x) then v else { v with reads := x :: v.reads }

/-- All that either knows. -/
def join (a b : View) : View := b.reads.foldl see (b.known.foldl (fun v x => v.learn x.1 x.2) a)

/-- Whether a write of a place is known to the group with a key: its own, one of a unit that every group sees at once, or one
that the view holds. -/
def knows (v : View) (key place : Nat) (w : Writer) (n : Nat) : Bool :=
  w == .unit || w == .group key || decide (n ≤ v.upTo w) || v.reads.any (· == (place, w, n))

end View

/-! ### Releases and acquires (R253) -/

/-- The releases that an acquire of a group at a scope synchronises with when it has read some writes: each precedes one of
those writes in its group's order, and both scopes include both groups. -/
def State.matched (s : State) (p : Party) (scope : Nat) (reads : List (Nat × Writer × Nat)) : List Release :=
  s.rels.filter fun r => decide (r.by_.reach p ≤ r.scope ∧ r.by_.reach p ≤ scope) &&
    reads.any fun x => x.2.1 == .group r.by_.key && decide (r.num < x.2.2)

/-- What a view is after it takes some releases. -/
def View.taking (v : View) (rs : List Release) : View := rs.foldl (fun v r => v.join r.view) v

/-- What a release of a group publishes: its own writes, what it knows, what it has read, and what the releases behind those
reads have published to it (R254: releases are cumulative). -/
def State.publishes (s : State) (g : Group) : View :=
  (g.view.learn (.group g.key) s.stamp).taking (s.matched g.party 5 g.view.reads)

/-- The bytes that a die's copies hold for themselves reach the homes (R196). -/
def pushDie (s : State) (die : Nat) : State :=
  s.coh.contended.foldl (fun t c => match c.dies.find? (·.die == die) with
    | some x =>
      let u := x.push c.line t
      { u with coh := { u.coh with contended := u.coh.contended.map fun y =>
          if y.line = c.line then { y with dies := y.dies.map fun z => if z.die = die then { z with held := [] } else z } else y } }
    | none => t) s

/-- A release of a group at a scope (R253). At .dev and .sys every byte that its die holds in copies reaches the home first
(R196). -/
def releaseBy (s : State) (g : Group) (scope : Nat) (ar : Bool := false) : State :=
  let t := if 4 ≤ scope ∧ g.isControl = false then pushDie s (dieOf g.seat.core) else s
  { t with rels := t.rels ++ [{ by_ := g.party, scope, num := t.stamp, view := t.publishes g, ar }] }
def State.release (s : State) (sc : Scope) : State := releaseBy s s.me (scopeNum sc)

/-- The current group learns what a view holds. -/
def State.learn (s : State) (v : View) : State := s.modMe fun g => { g with view := g.view.join v }

/-- An acquire of the current group that has read some writes. An acquire at .dev or .sys drops the die's copies that the die
has not written (R196): no byte of such a copy is kept here apart from the home's. -/
def State.acquire (s : State) (scope : Nat) (reads : List (Nat × Writer × Nat)) : State :=
  s.modMe fun g => { g with view := g.view.taking (s.matched g.party scope reads) }

/-- The acquire of a fence takes from all that its group has read before it. -/
def State.fenceAcq (s : State) (sc : Scope) : State := s.acquire (scopeNum sc) s.me.view.reads

/-- FENCE.ar (R256): what happens before it is visible to every observer of its scope once it completes, so that a later
FENCE.ar of another observer, and what follows that one, knows it; and it is a release and an acquire. -/
def State.fenceAr (s : State) (sc : Scope) : State :=
  let t := s.fenceAcq sc
  let p := t.me.party
  let u := t.modMe fun g => { g with view := g.view.taking (t.rels.filter fun r =>
    r.ar && decide (r.by_.reach p ≤ r.scope ∧ r.by_.reach p ≤ (scopeNum sc))) }
  releaseBy u u.me (scopeNum sc) true

end Sys2Proof.Machine
end

