-- ==== Sys2Proof/Machine/Caches.lean ====
section
/-! DEFINITION. The caches of the mesh: tensor descriptors and tile-cache keys (R157 to R160, R454), the lines that the
tile cache and the L1s hold (R149, R150, R164, R165), and the privatised copies of contended lines (R194 to R196). -/

namespace Sys2Proof.Machine

/-! ### Descriptors (R159, R160, R454) -/

/-- The descriptor words of a tensor of a partition. -/
def descAt (s : State) (p id : Nat) : Nat := (s.part p).ttBase + 64 * id
def descWords (s : State) (p id : Nat) : List Word :=
  (upto 0 8).map fun i => s.homeWord (descAt s p id + 8 * i)

def tBase (w : List Word) : Nat := bits (wordAt w 0) 55 0
def tValid (w : List Word) : Bool := bit (wordAt w 1) 63
def tEsz (w : List Word) : Nat := 2 ^ bits (wordAt w 1) 59 58
def tNd (w : List Word) : Nat := bits (wordAt w 1) 57 56
def tGen (w : List Word) : Nat := bits (wordAt w 1) 55 48
def tTrb (w : List Word) : Nat := bits (wordAt w 1) 47 44
def tRow (w : List Word) : Nat := 2 ^ tTrb w
def tLpr (w : List Word) : Nat := tRow w / 128
def tRows (w : List Word) : Nat := 16 / tLpr w
def tDim (w : List Word) (k : Nat) : Nat := bits (wordAt w (2 + k / 2)) (32 * (k % 2) + 31) (32 * (k % 2))
def tStride (w : List Word) (k : Nat) : Nat := bits (wordAt w (3 + k)) 47 0
def tLen (w : List Word) : Nat := bits (wordAt w 7) 39 0

/-- Whether stride k is used (R454). -/
def tUsed (w : List Word) (k : Nat) : Bool := decide (k ≤ tNd w ∧ 1 < tDim w k)

/-- The VA of line `l` of a tile, and whether the line lies within the extents (R160). -/
def tileLineVa (w : List Word) (c : Nat × Nat × Nat × Nat) (l : Nat) : Nat :=
  let (c0, c1, c2, c3) := c
  tBase w + c0 * tRow w + (c1 * tRows w + l / tLpr w) * tStride w 1 + c2 * tStride w 2 + c3 * tStride w 3
    + l % tLpr w * 128
def tileLineIn (w : List Word) (c : Nat × Nat × Nat × Nat) (l : Nat) : Bool :=
  let (c0, c1, c2, c3) := c
  decide (c0 * tRow w + l % tLpr w * 128 < tDim w 0 * tEsz w ∧ c1 * tRows w + l / tLpr w < tDim w 1
    ∧ c2 < tDim w 2 ∧ c3 < tDim w 3)

/-- The tile and the line in it that a VA of the bound range decomposes into, when the line lies within the extents
(R454). -/
def tLine (w : List Word) (va : Nat) : Option ((Nat × Nat × Nat × Nat) × Nat) :=
  if va < tBase w ∨ tBase w + tLen w ≤ va then none
  else
    let o0 := va - tBase w
    let c3 := if tUsed w 3 then o0 / tStride w 3 else 0
    let o1 := if tUsed w 3 then o0 % tStride w 3 else o0
    let c2 := if tUsed w 2 then o1 / tStride w 2 else 0
    let o2 := if tUsed w 2 then o1 % tStride w 2 else o1
    let row := if tUsed w 1 then o2 / tStride w 1 else 0
    let byte := if tUsed w 1 then o2 % tStride w 1 else o2
    let c := (byte / tRow w, row / tRows w, c2, c3)
    let l := row % tRows w * tLpr w + byte % tRow w / 128
    if tileLineIn w c l then some (c, l) else none

/-- The ids of a partition's valid descriptors: those whose byte 15 has its top bit set. -/
def boundIds (s : State) (p : Nat) : List Nat :=
  let t := (s.part p).ttBase
  s.mem.dev.filterMap fun (a, b) =>
    if t ≤ a ∧ a < t + 64 * 65536 ∧ (a - t) % 64 = 15 ∧ 128 ≤ b.toNat then some ((a - t) / 64) else none

/-! ### Keys (R157, R158) -/

/-- Coordinates of a register (R393), and packed again. -/
def coordOf (w : Word) : Nat × Nat × Nat × Nat := (bits w 15 0, bits w 31 16, bits w 47 32, bits w 63 48)
def coordWord (c : Nat × Nat × Nat × Nat) : Word :=
  w64 (c.1 % 2 ^ 16 + 2 ^ 16 * (c.2.1 % 2 ^ 16) + 2 ^ 32 * (c.2.2.1 % 2 ^ 16) + 2 ^ 48 * (c.2.2.2 % 2 ^ 16))

/-- The key of the flat tensor. -/
def flatKey (s : State) (p va : Nat) : TileKey :=
  { part := p, tensor := 0, gen := tGen (descWords s p 0),
    coord := (coordWord (va / 2 ^ 11, va / 2 ^ 27, va / 2 ^ 43 % 2 ^ 13, 0)).toNat, line := va / 128 % 16 }

/-- The key of a virtual access: the descriptor's whose range and extents hold it, or the flat tensor's. COORD has 16 bits for
each coordinate, and the spec does not refuse a descriptor whose extents reach beyond 65,536 tiles in one of them: such a tile
is keyed by the coordinate's low 16 bits (DESIGN CHOICE, log entry 76). -/
def keyOf (s : State) (p va : Nat) : TileKey :=
  match (boundIds s p).findSome? fun id => (tLine (descWords s p id) va).map fun x => (id, x) with
  | some (id, c, l) =>
    { part := p, tensor := id, gen := tGen (descWords s p id), coord := (coordWord c).toNat, line := l }
  | none => flatKey s p va

/-- A key's 96 bits. -/
def TileKey.num (k : TileKey) : Nat := k.line + 2 ^ 4 * (k.coord + 2 ^ 64 * (k.gen + 2 ^ 8 * (k.tensor + 2 ^ 16 * k.part)))

/-- Class ids of the content-named regions (R212), and the key of a line of one (R226). -/
def isClassId (id : Nat) : Bool := decide (0xFFF8 ≤ id ∧ id ≤ 0xFFFE)
def cnKey (s : State) (p id slot : Nat) : TileKey :=
  { part := p, tensor := id, gen := tGen (descWords s p id), coord := slot / 16 % 2 ^ 48, line := slot % 16 }

/-- The die whose stacks hold a storage address (R167). -/
def homeDie (pa : Nat) : Nat := pa / regionBytes

/-- The die of a line's home slice: that of the stack which holds line 0 of its tile. A tile of the flat tensor is one
chunk, and a CN region lies on one die; where line 0 of another tile is not mapped to storage, the line's own stack stands in
(log entry 76). -/
def tileDie (s : State) (asid : Nat) (k : TileKey) (pa : Nat) : Nat :=
  if k.tensor = 0 ∨ isClassId k.tensor = true then homeDie pa
  else
    let va := tileLineVa (descWords s k.part k.tensor) (coordOf (w64 k.coord)) 0
    match walk s k.part asid va with
    | some l => match classify (bits l.word 51 0 + va % 2 ^ l.off) with
      | some (.dev pa0) => homeDie pa0
      | _ => homeDie pa
    | none => homeDie pa

/-! ### The tile cache (R150, R157, R164, R165) -/

/-- KEEP register words of a partition. -/
def Part.keepWord (q : Part) (i j : Nat) : Word := Tab.get 0 q.keep (4 * i + j)
def Part.keepWays (q : Part) (i : Nat) : Nat := if bit (q.keepWord i 0) 63 then bits (q.keepWord i 0) 61 58 else 0

/-- Whether a fill matches a retention register: its tensor, or its VA range. The spec does not say where a fill goes that
matches an enabled register with WAYS 0: that register has no way to place it in, and here it counts as no match (DESIGN
CHOICE, log entry 76). -/
def keepMatches (q : Part) (i : Nat) (k : TileKey) (va : Nat) : Bool :=
  let w := q.keepWord i 0
  decide (0 < q.keepWays i) &&
    (if bit w 62 then decide (bits (q.keepWord i 1) 55 0 ≤ va ∧ va < bits (q.keepWord i 2) 55 0)
     else bits w 15 0 == k.tensor)

/-- The register in whose ways a fill is placed as retained: one that it matches and whose RATIO the hash of its key is below,
the lowest of several (log entry 76). -/
def keepReg (q : Part) (k : TileKey) (va : Nat) : Option Nat :=
  (upto 0 8).find? fun i => keepMatches q i k va && decide (Config.keyHash k.num % 256 < bits (q.keepWord i 0) 57 49)

/-- Whether a partition has a range in a die region. -/
def Part.onDie (q : Part) (d : Nat) : Bool :=
  (upto 1 7).any fun i =>
    let r := q.range i
    r.1 != 0 && decide (r.2.1 < regionBytes * (d + 1) ∧ regionBytes * d < r.2.1 + r.2.2)

/-- The ways of a die's slices in which a fill may be placed: its register's, or those that no register reserves. -/
def fillWays (s : State) (p die : Nat) (reg : Option Nat) : Nat :=
  match reg with
  | some i => (s.part p).keepWays i
  | none => 16 - (upto 0 16).foldl (fun n p =>
      let q := s.part p
      if q.valid && q.onDie die then (upto 0 8).foldl (fun n i => n + q.keepWays i) n else n) 0

/-- The slice of a die that a key's tile lies in, among the 384 of 256 KiB (R1, R157), and the set of the slice: 128 sets of
16 ways. -/
def TileKey.slice (k : TileKey) : Nat := Config.sliceHash k.part k.tensor k.coord % 384
def TileKey.set (k : TileKey) : Nat := Config.setHash k.num % 128

/-- The lines of a set that compete with a fill. -/
def TileLine.rival (die : Nat) (k : TileKey) (reg : Option Nat) (t : TileLine) : Bool :=
  t.die == die && t.reg == reg && (reg.isNone || t.key.part == k.part)
    && t.key.slice == k.slice && t.key.set == k.set

/-- A line's dirty bytes are written back: storage then holds their latest values. -/
def writtenBack (s : State) (k : TileKey) (line : Nat) : State :=
  { s with mem := { s.mem with back := s.mem.back.filter fun e => !(e.1 / 128 == line && e.2.key == k) } }

/-- The least recently used of the lines that compete with a fill leave its set, until the fill has a way. -/
def makeRoom (s : State) (die : Nat) (k : TileKey) (reg : Option Nat) : State :=
  let cap := fillWays s k.part die reg
  if s.tiles.length < cap then s
  else
    let rivals := s.tiles.filter (·.rival die k reg)
    let out := rivals.take (rivals.length + 1 - cap)
    out.foldl (fun s t => let s1 := writtenBack s t.key t.line; { s1 with tiles := s1.tiles.filter (· != t) }) s

/-- What storage holds of a line: the oldest known value of every byte that a cache holds dirty. -/
def storageBytes (s : State) (line : Nat) : List Byte :=
  (upto (128 * line) 128).map fun pa => (Tab.get ({} : Back) s.mem.back pa).olds.getLastD (s.mem.byte (.dev pa))

/-- Bytes of a line that another key holds dirty. -/
def dirtyElsewhere (s : State) (k : TileKey) (line : Nat) : Bool :=
  s.mem.back.any fun e => e.1 / 128 == line && e.2.key != k

/-- A line takes its place in the order of replacement: a streaming one the least recently used (R159). -/
def placeTile (t : TileLine) (streaming : Bool) (ts : List TileLine) : List TileLine := if streaming then t :: ts else ts ++ [t]

/-- A fill: the line is read from storage. Where another key holds bytes of it dirty, storage may not have them yet; an
eviction may also have written them back (free; R150). -/
def fillTile (s0 : State) (die : Nat) (k : TileKey) (va line : Nat) (streaming : Bool) : State :=
  let reg := keepReg (s0.part k.part) k va
  let s := makeRoom s0 die k reg
  let t : TileLine := { key := k, line, va := va / 128, die, reg }
  if dirtyElsewhere s k line then
    if Config.writtenBack s.moment line then
      { s with mem := { s.mem with back := s.mem.back.filter fun e => !(e.1 / 128 == line) },
               tiles := placeTile t streaming s.tiles }
    else { s with tiles := placeTile { t with stale := some (storageBytes s line) } streaming s.tiles }
  else { s with tiles := placeTile t streaming s.tiles }

/-- An access through a key: a hit makes the line the most recently used, a miss fills it. -/
def touchKey (s : State) (asid : Nat) (k : TileKey) (va line : Nat) : State :=
  match s.tiles.find? fun t => t.key == k && t.line == line with
  | some t => { s with tiles := s.tiles.filter (· != t) ++ [t] }
  | none =>
    let streaming := k.tensor != 0 && bits (wordAt (descWords s k.part k.tensor) 1) 61 60 == 1
    fillTile s (tileDie s asid k (128 * line)) k va line streaming

/-- The same of the current group's or an engine's access through a VA. -/
def touchTile (s : State) (asid va line : Nat) : State := touchKey s asid (keyOf s s.myP va) va line

/-- A write through a key leaves every other key's line as it was (R150). -/
def freezeOthers (s : State) (k : TileKey) (line : Nat) : State :=
  if s.tiles.any fun t => t.line == line && t.key != k then
    { s with tiles := s.tiles.map fun t =>
        if t.line = line ∧ t.key ≠ k ∧ t.stale = none then { t with stale := some (s.mem.bytes (.dev (128 * line)) 128) }
        else t }
  else s

/-- The line that a key holds with other bytes than the latest: what an access through the key finds (R150). -/
def staleLine (s : State) (p va line : Nat) : Option TileLine :=
  if s.tiles.any fun t => t.line == line && t.stale.isSome then
    let k := keyOf s p va
    s.tiles.find? fun t => t.key == k && t.line == line && t.stale.isSome
  else none

/-- Bytes of a line as the key of a VA has them; in a deterministic launch R266 names them (log entry 76). -/
def State.keyBytes (s : State) (va pa n : Nat) : List Byte :=
  match (if s.inDet then none else staleLine s s.myP va (pa / 128)) with
  | some t => ((t.stale.getD []).drop (pa % 128)).take n
  | none => s.mem.bytes (.dev pa) n

/-- Bytes written through a key whose line is stale: they show in that line too. -/
def patchStale (s : State) (p va pa : Nat) (bs : List Byte) : State :=
  match staleLine s p va (pa / 128) with
  | none => s
  | some t =>
    let old := t.stale.getD []
    let o := pa % 128
    { s with tiles := s.tiles.map fun x =>
        if x = t then { x with stale := some (old.take o ++ bs ++ old.drop (o + bs.length)) } else x }

/-! ### The L1s (R149) -/

/-- The set of its core's L1 that a line lies in: 256 sets of 8 ways, 256 KiB (R1). The spec gives neither the index nor the
order of replacement: the index is free, and the least recently used line of the set leaves (DESIGN CHOICE, log entry 76). -/
def L1Line.set (x : L1Line) : Nat := Config.l1Set x.part x.asid x.va % 256

/-- The line of a core's L1 with a tag. -/
def l1Find (s : State) (core part asid va : Nat) : Option L1Line :=
  s.l1.find? fun x => x.core == core && x.part == part && x.asid == asid && x.va == va

/-- Other holders of a key give its lines up to a writer, or share them with a reader (R191). -/
def takeL1 (s : State) (core : Option Nat) (k : TileKey) (wr : Bool) : List L1Line :=
  s.l1.filterMap fun x =>
    if x.key = k ∧ some x.core ≠ core then (if wr then none else some { x with own := false, dirty := false }) else some x

/-- A core's L1 takes a line at an access. A core that alone holds the line holds it privately, and a write then leaves
it dirty there; other cores' lines of the key are shared or, at a write, taken from them, and the write goes through. The
64 miss-status entries hold misses under way, which here end within their access (log entry 76). -/
def touchL1 (s : State) (core asid va : Nat) (k : TileKey) (leaf : Word) (line : Nat) (wr : Bool) : State :=
  let others := s.l1.any fun x => x.key == k && x.core != core
  let mine := l1Find s core k.part asid va
  let new : L1Line := { core, part := k.part, asid, va, key := k, own := !others,
                        dirty := !others && (wr || ((mine.map (·.dirty)).getD false)),
                        leaf := ((mine.map (·.leaf)).getD leaf), line := ((mine.map (·.line)).getD line) }
  let all := (takeL1 s core k wr).filter (fun x => !(x.core == core && x.part == k.part && x.asid == asid && x.va == va)) ++ [new]
  let here := all.filter (·.core == core)
  let rivals := here.filter (·.set == new.set)
  { s with l1 := if here.length ≤ 8 then all else if rivals.length ≤ 8 then all
      else (rivals.head?).elim all fun x => all.filter (· != x) }

/-- Lines of one instruction L1: 64 KiB (R1); the spec gives its organisation no further, and the least recently used of all
its lines leaves (DESIGN CHOICE, log entry 76). -/
def il1Lines : Nat := 512

/-- A core's instruction L1 takes the line of a word that is fetched. -/
def touchIl1 (s : State) (core part asid va : Nat) : State :=
  let new : FetchLine := { core, part, asid, va }
  let all := s.il1.filter (· != new) ++ [new]
  let mine := all.filter (·.core == core)
  { s with il1 := if mine.length ≤ il1Lines then all else (mine.head?).elim all fun x => all.filter (· != x) }

/-- SVC.PURGE on the L1s of a partition: private dirty lines of a range of pages are written back, and every line of it
is dropped (R203). A tile-cache line whose bytes are not the latest is read anew at its next access (R150). -/
def purgeLines (s : State) (p : Nat) (first last : Nat) : State :=
  let hit (part va : Nat) : Bool := part == p && decide (first ≤ va / 512 ∧ va / 512 ≤ last)
  { s with l1 := s.l1.filter fun x => !hit x.part x.va, il1 := s.il1.filter fun x => !hit x.part x.va,
           tiles := s.tiles.filter fun t => !(t.stale.isSome && hit t.key.part t.va) }

/-! ### Contended lines (R194 to R196) -/

/-- What a die keeps of a contended line. -/
def Contended.of (c : Contended) (d : Nat) : DieCopy := (c.dies.find? (·.die == d)).getD { die := d }
def Contended.put (c : Contended) (x : DieCopy) : Contended := { c with dies := c.dies.filter (·.die != x.die) ++ [x] }

/-- A byte that one die wrote and another one read or wrote (R195). -/
def Contended.conflict (c : Contended) : Bool :=
  c.dies.any fun a => c.dies.any fun b => a.die != b.die &&
    a.writes.any fun o => mem? o b.writes || mem? o b.reads

def State.contendedAt (s : State) (line : Nat) : Option Contended := s.coh.contended.find? (·.line == line)
def State.setContended (s : State) (c : Contended) : State :=
  { s with coh := { s.coh with contended := s.coh.contended.map fun x => if x.line = c.line then c else x } }

/-- An access of the current group to bytes of a contended line: its die's masks note them, and the die holds a copy. At
a conflict the merge may come before the access ends (free; R195). -/
def joinLine (s : State) (c : Contended) (k : TileKey) (offs : List Nat) (wr : Bool) : State :=
  let x := c.of s.myDie
  let add (l : List Nat) : List Nat := offs.foldl (fun l o => addNat o l) l
  let y := { x with reads := if wr then x.reads else add x.reads, writes := if wr then add x.writes else x.writes, key := k }
  let c1 := c.put y
  let s1 := s.setContended c1
  if c1.conflict && Config.mergesNow s.tick c.line then mergeLine s1 c.line else s1

/-- The copy of a contended line that the current group's accesses act on: none in a DET launch, for a control core and
for a memory-side page, whose accesses act at the home (R195, R176). -/
def State.copyOf (s : State) (line : Nat) : Option DieCopy :=
  if s.inDet || s.me.isControl then none
  else (s.contendedAt line).bind fun c => c.dies.find? (·.die == s.myDie)

/-- A byte that the current die's copy holds and the home does not. -/
def State.heldAt (s : State) (l : Loc) : Option HeldByte :=
  match l with
  | .dev pa => (s.copyOf (pa / 128)).bind fun x => x.held.find? (·.off == pa % 128)
  | _ => none

/-- Bytes are written into a die's copy; they have not reached the home. -/
def DieCopy.write (x : DieCopy) (w : Writer) (num o : Nat) : List Byte → DieCopy
  | [] => x
  | b :: t => DieCopy.write { x with held := x.held.filter (·.off != o) ++ [{ off := o, v := b, writer := w, num }] } w num (o + 1) t

end Sys2Proof.Machine
end

