-- ==== Sys2Proof/Machine/Reach.lean ====
section
/-! DEFINITION. Reading and writing bytes for the current group with the poison of lines, the traffic that writes make,
local memory, and the origins of poison (R142, R143, R187, R188, R205, R249 to R251, R258, R265, R266). -/

namespace Sys2Proof.Machine

/-! ### Reading and writing for the current group -/

/-- One access of a lane: its address, size and what it resolves to. -/
structure Acc where
  lane : Nat
  va : Nat
  n : Nat
  look : Look
  deriving DecidableEq, Repr, Inhabited

/-- Where accesses reach. -/
def accLocs (as : List Acc) : List Loc :=
  as.filterMap fun a => match a.look with
    | .ok l _ => some l
    | .bad _ => none

/-- An access of the current group meets a line: it is settled, unless it stores all of it, and when it is contended the group
joins its die's copy or, as an access at the home, has the copies recalled (R176, R194, R195, R208). -/
def meetLine (s0 : State) (a : Acc) (l : Loc) (leaf : Word) (wr home whole : Bool) : State :=
  let s := if whole then claimLine s0 l else settleLine s0 l
  match l with
  | .dev pa =>
    match s.contendedAt (pa / 128) with
    | none => s
    | some c =>
      if home || s.inDet || s.me.isControl || bit leaf 58 then mergeLine s c.line
      else joinLine s c (keyOf s s.myP a.va) (offsetsIn c.line pa a.n) wr
  | _ => s

/-- The caches take the line of an access (R149, R157); a memory-side page bypasses both (R176). -/
def cacheLine (s : State) (a : Acc) (l : Loc) (leaf : Word) (wr : Bool) : State :=
  match l with
  | .dev pa =>
    if bit leaf 58 || s.me.isControl then s
    else
      let k := keyOf s s.myP a.va
      touchL1 (touchTile s s.myAsid a.va (pa / 128)) s.me.seat.core s.myAsid (a.va / 128) k leaf (pa / 128) wr
  | _ => s

/-- The first access to each line among some. -/
def firstOfLines : List Acc → List Acc → List Acc
  | _, [] => []
  | met, a :: t =>
    if met.any fun b => b.va / 128 == a.va / 128 then firstOfLines met t else a :: firstOfLines (a :: met) t

/-- How many bytes of a device line some accesses reach. -/
def covered (line : Nat) (as : List Acc) : Nat :=
  let all := as.foldl (fun l a => match a.look with
    | .ok (.dev pa) _ => (upto pa a.n).foldl (fun l x => if x / 128 = line then addNat x l else l) l
    | _ => l) []
  all.length

/-- Whether some accesses reach every byte of a place's line. -/
def coversLine (as : List Acc) (l : Loc) : Bool :=
  match l with
  | .dev pa => covered (pa / 128) as == 128
  | _ => false

/-- Before an access: the VAs' translations stay cached (R203), the lines are met, the caches take them, and touched lines
are noted (R265). `home` is for the accesses that act at the home (R176, R179, R197); `whole` holds the lines that a store
covers. -/
def State.meet (virt wr home : Bool) (whole : Loc → Bool) : List Acc → State → State
  | [], s => s
  | a :: t, s =>
    let s1 := if virt then s.noteLeaf s.myP s.myAsid a.va else s
    match a.look with
    | .ok l leaf => State.meet virt wr home whole t ((meetLine s1 a l leaf wr home (whole l)).touchLoc l)
    | .bad _ => State.meet virt wr home whole t s1

def State.begin (s : State) (virt wr home : Bool) (as : List Acc) : State :=
  (firstOfLines [] as).foldl (fun s a => match a.look with
    | .ok l leaf => cacheLine s a l leaf wr
    | .bad _ => s)
    (s.meet virt wr home (fun l => wr && !home && !buffered s l && coversLine as l) as)

/-! ### Which write a load returns (R249 to R251, R254, R256)

Outside a DET launch a load may return a value that a later write has replaced, as long as the replacing write does not
happen before the load, and is not one that the group has made or read already. A load reads all its bytes at one place of the
coherence orders, so that it is single-copy atomic; each lane picks its own (log entry 77). -/

/-- A byte as a group finds it: its place, the latest value at its home, and what its die's copy holds apart from the home. -/
structure Cell where
  place : Nat
  cur : Byte
  held : Option HeldByte := none
  deriving DecidableEq, Repr, Inhabited

/-- The latest bytes of a place, and what the current group's die holds of them. -/
def State.cells (s : State) (l : Loc) (n : Nat) : List Cell :=
  (upto 0 n).map fun i => { place := (l.plus i).num, cur := s.mem.byte (l.plus i), held := s.heldAt (l.plus i) }

/-- The writes of a byte, newest first, and those that happen before what the current group does. -/
def State.writesOf (s : State) (c : Cell) : List Past := Tab.get [] s.mem.past c.place
def State.knows (s : State) (place : Nat) (w : Writer) (n : Nat) : Bool := s.me.view.knows s.me.key place w n

/-- The earliest place of the coherence orders whose values a load of some bytes may return. -/
def readFloor (s : State) (cs : List Cell) : Nat :=
  cs.foldl (fun m c => max m
    (((s.writesOf c).find? fun x => s.knows c.place x.writer x.num).elim 0 (·.till))) 0

/-- Whether a load of some bytes may return others than the latest: none of a deterministic launch or of a control core, and
none that must see a byte of its die's copy. -/
def mayLag (s : State) (cs : List Cell) : Bool :=
  !s.inDet && !s.me.isControl &&
    !(cs.any fun c => (c.held.map fun h => s.knows c.place h.writer h.num).getD false) &&
    cs.any fun c => c.held.isSome || (s.writesOf c).any fun x => decide (readFloor s cs < x.till)

/-- The place of the coherence orders that a load reads at; one above the last write's is the present, with the die's copy. -/
def loadTick (s : State) (lane : Nat) (cs : List Cell) : Nat :=
  if mayLag s cs then max (readFloor s cs) (Config.readTick s.tick lane) else s.stamp + 1

/-- A byte as it stood at a place of the coherence orders, and the write that gave it, when one did. -/
def byteAt (s : State) (k : Nat) (c : Cell) : Byte :=
  if s.stamp < k then (c.held.map (·.v)).getD c.cur
  else (((s.writesOf c).filter fun x => decide (k < x.till)).getLast?.map (·.v)).getD c.cur
def sourceAt (s : State) (k : Nat) (c : Cell) : List (Nat × Writer × Nat) :=
  match (if s.stamp < k then c.held else none) with
  | some h => [(c.place, h.writer, h.num)]
  | none => match (s.writesOf c).find? fun x => decide (x.till ≤ k) with
    | some x => (c.place, x.writer, x.num) :: x.via.map fun y => (c.place, y.1, y.2)
    | none => []

/-- What a load of a lane returns of some bytes. -/
def loadBytes (s : State) (lane : Nat) (cs : List Cell) : List Byte := cs.map (byteAt s (loadTick s lane cs))

/-- The writes that the current group has read, and did not know before, are known to it from then on (R251, R254). -/
def State.see (s : State) (xs : List (Nat × Writer × Nat)) : State :=
  s.modMe fun g => { g with view := (xs.filter fun x => !g.view.knows g.key x.1 x.2.1 x.2.2).foldl View.see g.view }

/-- The writes behind what a load of a lane returns. -/
def loadSources (s : State) (lane : Nat) (cs : List Cell) : List (Nat × Writer × Nat) :=
  if s.inDet || s.me.isControl then [] else cs.flatMap (sourceAt s (loadTick s lane cs))

/-- The latest writes of some bytes, which an atomic or an exchange reads. -/
def latestSources (s : State) (l : Loc) (n : Nat) : List (Nat × Writer × Nat) :=
  if s.inDet || s.me.isControl then [] else (s.cells l n).flatMap (sourceAt s (s.stamp + 1))

/-- A byte that a load of a deterministic launch returns, with its poison (R266): the group's own buffered one, else the one
of the last boundary or, of a line that its gang holds privately, the latest. -/
def detByte (s : State) (pa : Nat) : Byte × Bool :=
  match ownByte s pa with
  | some b => (b.v, b.p)
  | none =>
    let own := match s.myLaunch.ds.owner (pa / 128) with
      | some (.priv g) => g == s.myGang.inst
      | _ => false
    let b := s.mem.byte (.dev pa)
    (if own then b else ((s.myLaunch.ds.asOf.find? (·.1 == pa)).map (·.2)).getD b, s.mem.poisoned pa)

/-- The latest bytes as the key of a VA has them, and whether a line of them is poisoned (R150, R187). -/
def keyAcc (s : State) (a : Acc) : Nat × Bool :=
  match a.look with
  | .bad _ => (0, false)
  | .ok (.dev pa) _ =>
    if s.inDet then
      let bs := (upto pa a.n).map (detByte s)
      (ofLe (bs.map (·.1)), bs.any (·.2))
    else if (staleLine s s.myP a.va (pa / 128)).isSome then (ofLe (s.keyBytes a.va pa a.n), s.mem.poisoned pa)
    else (ofLe ((s.cells (.dev pa) a.n).map fun c => (c.held.map (·.v)).getD c.cur), s.mem.poisoned pa)
  | .ok l _ => (ofLe (s.mem.bytes l a.n), false)

/-- Whether a load goes by the writes of its bytes; otherwise it goes by the rules of a deterministic launch, or by its key's
own line (R150, R266). -/
def State.ordered (s : State) (a : Acc) : Bool :=
  !s.inDet && !s.me.isControl && match a.look with
    | .ok (.dev pa) _ => (staleLine s s.myP a.va (pa / 128)).isNone
    | .ok _ _ => true
    | .bad _ => false

/-- The poison cause of a place (R204). -/
def poisonCause (s : State) (l : Loc) : Nat :=
  match l with
  | .dev pa => s.mem.cause pa
  | _ => 4

/-- What an access at the home reads: the number, and the poison cause when the lane is poisoned (R204, R187). -/
def homeAcc (s : State) (a : Acc) : Nat × Option Nat :=
  match a.look with
  | .bad c => (0, some c)
  | .ok l _ =>
    let x := keyAcc s a
    (x.1, if x.2 then some (poisonCause s l) else none)

/-- What a load reads. -/
def loadAcc (s : State) (a : Acc) : Nat × Option Nat :=
  match a.look with
  | .ok l _ =>
    if s.ordered a then (ofLe (loadBytes s a.lane (s.cells l a.n)), (homeAcc s a).2) else homeAcc s a
  | .bad c => (0, some c)

/-- What the group has read it does not read an older value of (R251); a load that returns poison reads no write (R249). -/
def readBy (s : State) (a : Acc) : List (Nat × Writer × Nat) :=
  match a.look with
  | .ok l _ => if s.ordered a && (homeAcc s a).2.isNone then loadSources s a.lane (s.cells l a.n) else []
  | .bad _ => []

/-- The same of an access at the home. -/
def homeReadBy (s : State) (a : Acc) : List (Nat × Writer × Nat) :=
  match a.look with
  | .ok l _ => if s.ordered a && (homeAcc s a).2.isNone then latestSources s l a.n else []
  | .bad _ => []

/-- Old bytes for a memory crumb: the number, and whether they lay in a poisoned line. -/
def oldAcc (s : State) (a : Acc) : Nat × Bool := keyAcc s a

/-- Whether a write to a place is data traffic (R258): to host or peer memory, or to a line homed on another die
that this die does not hold writable (free; log entry 10). -/
def dataTraffic (s : State) (va : Nat) (l : Loc) : Bool :=
  match l with
  | .dev pa =>
    decide (tileDie s s.myAsid (keyOf s s.myP va) pa ≠ s.myDie) && Config.homedElsewhere s.tick s.myDie (pa / 128)
  | _ => true

/-- The port of a peer place (R202). -/
def Loc.port? : Loc → Option Nat
  | .peer a => some (a / 2 ^ 46)
  | _ => none

/-- The line a place lies in. -/
def Loc.line : Loc → Loc
  | .dev a => .dev (a / 128)
  | .host a => .host (a / 128)
  | .peer a => .peer (a / 128)

/-- A flit leaves through a port, which keeps it until it is acknowledged (R15). -/
def sendFlit (s : State) (l : Loc) : State :=
  match l.port? with
  | none => s
  | some n =>
    let p := s.port n
    s.setPort n { p with txNext := p.txNext + 1, buffer := p.buffer ++ [p.txNext] }

/-- The distinct lines of some writes, the last write to each. -/
def distinctLines : List (Nat × Loc) → List (Nat × Loc)
  | [] => []
  | x :: t => if t.any (fun y => y.2.line == x.2.line) then distinctLines t else x :: distinctLines t

/-- Those of some writes that are data traffic, one for each line. -/
def trafficOf (s : State) (ws : List (Nat × Loc)) : List (Nat × Loc) :=
  (distinctLines ws).filter fun x => dataTraffic s x.1 x.2 && !buffered s x.2

/-- Count one unacknowledged write for each line of data traffic (R258). R19 speaks only of the writes outstanding when a port
enters STATE 4; a later write or load through it reaches the peer, leaves its flit in the replay buffer and is acknowledged as
through any other port (DESIGN CHOICE, log entry 83). -/
def countLines (s0 : State) (ds : List Loc) : State :=
  let s := ds.foldl sendFlit s0
  { s with unacked := s.unacked ++ ds.map fun l => { key := s.me.key, port := l.port? },
           me := { s.me with acks := s.me.acks + ds.length } }

/-- The data traffic that a group's writes make. -/
def countTraffic (s : State) (ws : List (Nat × Loc)) : State := countLines s ((trafficOf s ws).map (·.2))

/-- Remove the first outstanding write of a group. -/
def dropUnacked (key : Nat) : List Unacked → List Unacked
  | [] => []
  | u :: t => if u.key = key then t else u :: dropUnacked key t

/-- One write of a group is acknowledged. -/
def acknowledge (s : State) (key : Nat) : State :=
  if s.unacked.any (·.key == key) then
    { s with unacked := dropUnacked key s.unacked }.modGroup key fun g => { g with acks := g.acks - 1 }
  else s

/-- The oldest unacknowledged writes of the current group are acknowledged until `n` more stay within 255 (R258). -/
def roomForAcks (s : State) (n : Nat) : State :=
  (upto 0 (s.me.acks + n - 255)).foldl (fun s _ => acknowledge s s.me.key) s

/-- The current group as a writer. -/
def State.byMe (s : State) : By := { w := .group s.me.key }

/-- Bytes enter the store buffer of the current group's launch, the newest first (R266). -/
def bufferBytes (s : State) (lane va pa : Nat) (bs : List Byte) (p : Bool) : State :=
  let new := (bs.zip (upto 0 bs.length)).map fun x =>
    ({ pa := pa + x.2, va := va + x.2, tid := s.tid lane, ic := s.me.hist.ic, v := x.1, p } : BufByte)
  s.modLaunch s.myP s.myGang.task.launch fun x => { x with ds := { x.ds with buffer := new.reverse ++ x.ds.buffer } }

/-- Write bytes of a line for the current group: into the store buffer of a DET launch (R266), into its die's copy of a
contended line (R194), or at the home. -/
def writeBytes (s : State) (x : By) (lane va : Nat) (l : Loc) (p : Bool) (bs : List Byte) : State :=
  match l with
  | .dev pa =>
    if buffered s l then bufferBytes s lane va pa bs p
    else match s.copyOf (pa / 128), s.contendedAt (pa / 128) with
      | some y, some c =>
        { s with stamp := s.stamp + 1 }.setContended (c.put (y.write x.w (s.stamp + 1) (pa % 128) bs))
      | _, _ => s.writeAny x l bs
  | _ => s.writeAny x l bs

/-- A write through a key leaves bytes dirty in the caches, and other keys' lines as they were (R150, R161); one to a
memory-side page, of a control core, into a die's copy or into a store buffer does not (R176, R194, R266). -/
def noteDirty (s : State) (l : Loc) (leaf : Word) (va n : Nat) : State :=
  match l with
  | .dev pa =>
    if buffered s l || bit leaf 58 || s.me.isControl || (s.copyOf (pa / 128)).isSome then s
    else
      let k := keyOf s s.myP va
      let s1 := freezeOthers s k (pa / 128)
      { s1 with mem := s1.mem.noteBack k pa n }
  | _ => s

/-- The line of a write's key, when it shows other bytes than the latest (R150). -/
def patchKey (s : State) (l : Loc) (va : Nat) (bs : List Byte) : State :=
  match l with
  | .dev pa => if buffered s l then s else patchStale s s.myP va pa bs
  | _ => s

/-- R90: a write by a source task that touches a declared range of a proofing task. -/
def noteProofing (s : State) (va n : Nat) : State :=
  if s.me.isControl then s else
  let t := s.myGang.task
  { s with launches := s.launches.map fun l =>
      if l.part = t.part ∧ l.num = t.launch then
        { l with tasks := l.tasks.map fun x =>
            if x.proofing ∧ x.sources.contains t
                ∧ x.slots.any (fun o => decide (va < o.base.toNat + o.len ∧ o.base.toNat < va + n))
            then { x with touched := true } else x }
      else l }

/-- Write a lane's bytes. -/
def writeAcc (s : State) (x : By) (a : Acc) (bs : List Byte) : State :=
  match a.look with
  | .bad _ => s
  | .ok l leaf =>
    noteProofing (patchKey (writeBytes (noteDirty s l leaf a.va a.n) x a.lane a.va l false bs) l a.va bs) a.va a.n

/-- The current group as the writer of an atomic, which has read the latest write of each byte. -/
def State.byAtomic (s : State) (a : Acc) : By :=
  { w := .group s.me.key, via := (homeReadBy s a).map fun x => (x.2.1, x.2.2) }

/-- Lanes that only write, or exchange, in their order. -/
def writeAccs (s : State) (atomic : Bool) : List (Acc × List Byte) → State
  | [] => s
  | (a, bs) :: t => writeAccs (writeAcc s (if atomic then s.byAtomic a else s.byMe) a bs) atomic t

/-- R187: a write that covers all 128 bytes of a poisoned line clears the poison; a buffered one has not reached it (R266). -/
def clearCovered (s : State) (as : List Acc) : State :=
  let now := as.filter fun a => match a.look with
    | .ok l _ => !buffered s l
    | _ => false
  { s with mem := { s.mem with poison := s.mem.poison.filter fun line => decide (covered line now ≠ 128) } }

/-- The VAs and places that accesses resolve to. -/
def locsOf (as : List Acc) : List (Nat × Loc) :=
  as.filterMap fun a => match a.look with
    | .ok l _ => some (a.va, l)
    | .bad _ => none

/-- A whole store: the lanes in order, then the poison that it clears and the traffic that it makes. -/
def storeAll (s : State) (ws : List (Acc × List Byte)) (atomic : Bool := false) : State :=
  let as := ws.map (·.1)
  countTraffic (clearCovered (writeAccs s atomic ws) as) (locsOf as)

/-! ### Local memory (R142, R143) -/

/-- Why a local access of `n` bytes is denied, if it is. -/
def localDenied (s : State) (addr n : Nat) : Bool :=
  let g := s.myGang
  decide (addr ≥ 2 ^ 24 ∨ addr / 2 ^ 20 % 4 ≠ 0 ∨ addr / 2 ^ 22 ≥ g.spw * g.sph
    ∨ addr % 2 ^ 20 + n > g.lmemBytes)

def localCore (addr : Nat) : Nat := addr / 2 ^ 22 % 4
def localOff (addr : Nat) : Nat := addr % 2 ^ 20

/-- `n` bytes at an offset of a core's reservation. -/
def GangCore.bytes (c : GangCore) (o : Nat) : (n : Nat) → List Byte
  | 0 => []
  | n + 1 => Tab.get 0 c.lmem o :: c.bytes (o + 1) n
def GangCore.setBytes (c : GangCore) (o : Nat) : List Byte → GangCore
  | [] => c
  | b :: t => GangCore.setBytes { c with lmem := Tab.set 0 c.lmem o b } (o + 1) t
def GangCore.poisoned (c : GangCore) (o n : Nat) : Bool :=
  (upto (o / 128) ((o + n - 1) / 128 - o / 128 + 1)).any (mem? · c.lpoison)

/-- The number of a byte of a gang's local memory among the places. -/
def localNum (gang addr : Nat) : Nat := 4 * (2 ^ 24 * gang + addr % 2 ^ 24) + 3

/-- Bytes of local memory of the current gang as a group finds them. -/
def State.localCells (s : State) (addr n : Nat) : List Cell :=
  let c := s.myGang.on (localCore addr)
  (upto 0 n).map fun i => { place := localNum s.me.gang (addr + i), cur := Tab.get 0 c.lmem (localOff addr + i) }

/-- Read local memory of the current gang: the latest number and whether a line of it is poisoned (R188). -/
def localLoad (s : State) (addr n : Nat) : Nat × Bool :=
  let c := s.myGang.on (localCore addr)
  (ofLe (c.bytes (localOff addr) n), c.poisoned (localOff addr) n)

/-- The same of a lane's load, which reads as one of memory does (R249 to R254). -/
def localLoadBy (s : State) (lane addr n : Nat) : Nat × Bool :=
  (ofLe (loadBytes s lane (s.localCells addr n)), (localLoad s addr n).2)
def localReadBy (s : State) (lane addr n : Nat) : List (Nat × Writer × Nat) :=
  if (localLoad s addr n).2 then [] else loadSources s lane (s.localCells addr n)

/-- The writes of some bytes of local memory enter their coherence orders, at one place. -/
def Mem.logLocal (m : Mem) (x : Past) (gang : Nat) (c : GangCore) (addr : Nat) : (n : Nat) → Mem
  | 0 => m
  | n + 1 => (m.logAt x (localNum gang addr) (Tab.get 0 c.lmem (localOff addr))).logLocal x gang c (addr + 1) n

/-- One access writes local memory; poison stays until a whole line is written (see `localClear`). -/
def localStore (s : State) (x : By) (addr : Nat) (bs : List Byte) : State :=
  let c := s.myGang.on (localCore addr)
  { s with mem := s.mem.logLocal (x.past (s.stamp + 1)) s.me.gang c addr bs.length, stamp := s.stamp + 1 }.modGang s.me.gang fun g =>
    g.setOn (localCore addr) ((g.on (localCore addr)).setBytes (localOff addr) bs)

/-- An engine writes local memory byte by byte, each with the next of its numbers when it counts them (R148, R250). -/
def localEach (s : State) (x : By) (addr : Nat) : List Byte → State
  | [] => s
  | b :: t => localEach (localStore s x addr [b]) { x with num := x.num.map (· + 1) } (addr + 1) t

def localStores (s : State) (x : By) : List (Nat × List Byte) → State
  | [] => s
  | (a, bs) :: t => localStores (if bs.length ≤ 8 && x.num.isNone then localStore s x a bs else localEach s x a bs) x t

/-- R188: a write of a whole line clears its poison bit. -/
def localClear (s : State) (ws : List (Nat × List Byte)) : State :=
  let hit (core line : Nat) : Nat :=
    (ws.foldl (fun l (a, bs) => if localCore a = core then
      (upto (localOff a) bs.length).foldl (fun l x => if x / 128 = line then addNat x l else l) l else l) []).length
  s.modGang s.me.gang fun g =>
    { g with cores := g.cores.map fun (ix, c) =>
        (ix, { c with lpoison := c.lpoison.filter fun line => decide (hit ix line ≠ 128) }) }

def localStoreAll (s : State) (x : By) (ws : List (Nat × List Byte)) : State := localClear (localStores s x ws) ws

/-! ### Poison origins (R205) -/

/-- Record an origin for a poisoning instruction at ic `ic`: the table and the index that the lanes take. -/
def addOrigin (pot : List (Nat × Origin)) (hz ic : Word) (cause va : Nat) : List (Nat × Origin) × BitVec 3 :=
  let at_ (i : Nat) : Origin := Tab.get {} pot i
  let new : Origin := { oic := ic, valid := true, cause, va := va % 2 ^ 56 }
  match (upto 0 8).find? fun i => (at_ i).valid && (at_ i).oic == ic with
  | some i => (Tab.set {} pot i new, BitVec.ofNat 3 i)
  | none =>
    let pot1 := (upto 0 8).foldl (fun p i =>
      let e : Origin := Tab.get {} p i
      if e.valid && decide (e.oic < hz) then Tab.set {} p i {} else p) pot
    match (upto 0 8).find? fun i => !(Tab.get ({} : Origin) pot1 i).valid with
    | some i => (Tab.set {} pot1 i new, BitVec.ofNat 3 i)
    | none =>
      let least := (upto 1 7).foldl (fun m i =>
        if (Tab.get ({} : Origin) pot1 i).oic < (Tab.get ({} : Origin) pot1 m).oic then i else m) 0
      (Tab.set {} pot1 least { Tab.get ({} : Origin) pot1 least with multi := true }, BitVec.ofNat 3 least)

/-- A load that returns no poison frees the entry of its ic (R205). -/
def dropOrigin (pot : List (Nat × Origin)) (ic : Word) : List (Nat × Origin) :=
  match (upto 0 8).find? fun i => (Tab.get ({} : Origin) pot i).valid && (Tab.get ({} : Origin) pot i).oic == ic with
  | some i => Tab.set {} pot i {}
  | none => pot

/-- After a load at ic `ic`: the origin of its lowest poisoned lane recorded, or its entry freed. -/
def noteLoad (s : State) (ic : Word) (bad : Option (Nat × Nat)) : State × BitVec 3 :=
  match bad with
  | some (cause, va) =>
    let r := addOrigin s.me.pot s.me.hist.hz ic cause va
    (s.modMe fun g => { g with pot := r.1 }, r.2)
  | none => (s.modMe fun g => { g with pot := dropOrigin g.pot ic }, 0)

end Sys2Proof.Machine
end

