-- ==== Sys2Proof/Machine/Home.lean ====
section
/-! DEFINITION. Bytes and words at a line's home, as the units other than a group's lanes read and write them, and the
messages that leave for the peers (R187, R208, R259, R391). -/

namespace Sys2Proof.Machine

/-- Bytes and words of a place within one line, and writing them at its home. -/
def State.read (s : State) (l : Loc) (n : Nat) : List Byte := (homeLine s l).mem.bytes l n
def State.wordAt (s : State) (l : Loc) (i : Nat) : Word := w64 (ofLe (s.read (l.plus (8 * i)) 8))

/-- What bytes held at the last boundary is kept for the deterministic launches (R263). -/
def noteAsOf (s : State) (pa n : Nat) : State :=
  if s.launches.any (·.det) then
    { s with launches := s.launches.map fun x => if x.det then
        { x with ds := { x.ds with asOf := (upto pa n).foldl (fun l a =>
          if l.any (·.1 == a) then l else l ++ [(a, s.mem.byte (.dev a))]) x.ds.asOf } } else x }
  else s

/-- A word as of the last boundary for a group of a deterministic launch, as it stands for any other. -/
def State.wordSeen (s : State) (l : Loc) (i : Nat) : Word :=
  let now := s.wordAt l i
  match l with
  | .dev pa =>
    if s.inDet then
      w64 (ofLe ((upto 0 8).map fun k =>
        ((s.myLaunch.ds.asOf.find? (·.1 == pa + 8 * i + k)).map (·.2)).getD (now.extractLsb' (8 * k) 8)))
    else now
  | _ => now

/-- A write at a home by a unit other than a group's lanes: whole lines written lose their poison, and are not copied first
(R187, R208). -/
def State.poke (s0 : State) (l : Loc) (bs : List Byte) (x : By := {}) : State :=
  let s := match l with
    | .dev pa => 
      noteAsOf (if pa % 128 = 0 ∧ bs.length = 128 then mergeLine (claimLine s0 l) (pa / 128) else homeLine s0 l) pa bs.length
    | _ => s0
  let t := s.writeAny x l bs
  match l with
  | .dev pa =>
    let left := t.mem.poison.filter fun line => !decide (pa ≤ 128 * line ∧ 128 * line + 128 ≤ pa + bs.length)
    t.setMem { t.mem with poison := left }
  | _ => t
def State.pokeWord (s : State) (l : Loc) (w : Word) (x : By := {}) : State := s.poke l (leBytes 8 w.toNat) x

/-- Bytes of device storage on several lines, each line written at its home; `n` bounds the lines. -/
def State.pokeLines (s : State) (pa : Nat) (bs : List Byte) : (n : Nat) → State
  | 0 => s
  | n + 1 =>
    if bs.isEmpty then s
    else
      let k := 128 - pa % 128
      State.pokeLines (s.poke (.dev pa) (bs.take k)) (pa + k) (bs.drop k) n
def State.pokeDev (s : State) (pa : Nat) (bs : List Byte) : State := s.pokeLines pa bs (bs.length / 128 + 2)

/-- Whether a place lies in a poisoned line. -/
def State.taintedAt (s : State) (l : Loc) : Bool :=
  match l with
  | .dev pa => s.mem.poisoned pa
  | _ => false

/-- Change the low 32 bits of a descriptor word. -/
def setLow (w : Word) (n : Nat) : Word := w64 (w.toNat / 2 ^ 32 * 2 ^ 32 + n % 2 ^ 32)

/-- The port that carries a message to a peer. -/
def Message.outPort (m : Message) : Option Nat := if m.flow < devTop then none else some (m.flow % 2 ^ 50 / 2 ^ 46)

/-- The message that the current group has sent to a peer and waits for. -/
def State.flying (s : State) : Option Message := s.messages.find? fun m => m.sender == some s.me.key

/-- SEQ of a send descriptor advances and OPEN is set (R390, R391). -/
def nextSeq (s : State) (tx : Loc) : State :=
  let t := s.pokeWord (tx.plus 8) (setLow (s.wordAt tx 1) (bits (s.wordAt tx 1) 31 0 + 1)) s.byMe
  t.pokeWord tx (t.wordAt tx 0 ||| bitAt 63) s.byMe

/-- A message leaves for a peer: a flit carries it, and the group waits until the peer has placed it. -/
def sendMessage (s : State) (tx : Loc) (p : Nat) (data : List Byte) : State :=
  let m : Message := { flow := 3 * 2 ^ 50 + p, seq := bits (s.wordAt tx 1) 31 0, data, ordered := bit (s.wordAt tx 0) 62,
                       sender := some s.me.key }
  let t := sendFlit (nextSeq s tx) (.peer p)
  { t with messages := t.messages ++ [m] }

end Sys2Proof.Machine
end

