-- ==== Sys2Proof/Machine/Island.lean ====
section
/-! DEFINITION. The control island: firmware slots and their measurements, the event log, the restart of the control
cores (R47, R48, R51, R352, R447, R449), quiescing (R353). -/

namespace Sys2Proof.Machine

/-- The bytes of a firmware slot: false A, true B. -/
def Zalius.slot (z : Zalius) (b : Bool) : List Byte :=
  if b then z.slotB.getD (Config.slotImage 1) else z.slotA.getD (Config.slotImage 0)
def Zalius.setSlot (z : Zalius) (b : Bool) (v : List Byte) : Zalius :=
  if b then { z with slotB := some v } else { z with slotA := some v }
def Zalius.verified (z : Zalius) (b : Bool) : Bool := if b then z.verB else z.verA
def Zalius.setVerified (z : Zalius) (b v : Bool) : Zalius := if b then { z with verB := v } else { z with verA := v }
def Zalius.meas (z : Zalius) (b : Bool) : Nat := if b then z.measB else z.measA
def Zalius.setMeas (z : Zalius) (b : Bool) (v : Nat) : Zalius := if b then { z with measB := v } else { z with measA := v }

/-- Header fields of an image (R447). -/
def imgSvn (bs : List Byte) : Nat := leAt bs 8 1
def imgBuild (bs : List Byte) : Nat := leAt bs 0 2
def imgBody (bs : List Byte) : Nat := leAt bs 16 4
def imgEntry (bs : List Byte) : Nat := leAt bs 24 4
/-- Header and body, over which the signature is made, and the signature after them (R48). -/
def imgSigned (bs : List Byte) : List Byte := bs.take (64 + imgBody bs)
def imgWhole (bs : List Byte) : List Byte := bs.take (128 + imgBody bs)

/-- The bytes at an offset of a slot's window: 0 beyond its image, which its header's BODYLEN ends (R446; log entry 82). -/
def Zalius.window (z : Zalius) (b : Bool) (o n : Nat) : Nat := leAt (imgWhole (z.slot b)) o n

/-- The signature of an image: Ed25519 by the Dresan firmware key over the SHA-512 of header and body (R48). -/
def firmwareSigned (bs : List Byte) : Bool :=
  ed25519Verify Config.firmwareKey (shaBytes (imgSigned bs)) ((bs.drop (64 + imgBody bs)).take 64)

/-- The header rules of R447. -/
def imgHeaderOk (bs : List Byte) : Bool :=
  decide (leAt bs 4 4 = 0x4C514657 ∧ leAt bs 2 2 = 1 ∧ leAt bs 9 7 = 0 ∧ imgSvn bs ≤ 64
    ∧ leAt bs 20 4 = 0 ∧ imgBody bs % 8 = 0 ∧ imgBody bs ≤ 0x7FF80
    ∧ leAt bs 28 4 = 0 ∧ imgEntry bs % 8 = 0 ∧ 64 ≤ imgEntry bs ∧ imgEntry bs < 64 + imgBody bs)
  && (upto 32 32).all (fun o => leAt bs o 1 == 0)

/-- The check of an image under R48: 0 verified; 1 the signature fails; 2 the SVN is below the fused counter;
4 bad header (codes of R354; the header comes first, R447). -/
def imgCheck (z : Zalius) (bs : List Byte) : Nat :=
  if !imgHeaderOk bs then 4
  else if !firmwareSigned bs then 1
  else if imgSvn bs < z.fusedSvn then 2
  else 0

/-- Extend the event log with an event: code, slot and SVN (R47). -/
def Zalius.extend (z : Zalius) (code : Nat) (slot : Bool) (svn : Nat) : Zalius :=
  { z with log := sha512 (leBytes 64 z.log ++ leBytes 3 (code + 256 * b2n slot + 65536 * svn) ++ leBytes 13 0) }

/-- A verify of a slot: its code, and the state after it: verified, measured and index 4 extended on success. -/
def Zalius.verify (z : Zalius) (slot : Bool) : Nat × Zalius :=
  let bs := z.slot slot
  let c := imgCheck z bs
  if c = 0 then
    (0, ((z.setVerified slot true).setMeas slot (sha512 (imgWhole bs))).extend 1 slot (imgSvn bs))
  else (c, z.setVerified slot false)

/-- The cores with a VERIFY request of a slot outstanding (R354). -/
def Zalius.verifying (z : Zalius) (slot : Bool) : List Nat :=
  (z.requests.filter fun r => bits (wordAt r.2 0) 7 0 == 1 && wordAt r.2 1 == w64 (b2n slot)).map (·.1)

/-- A store to a slot touches every VERIFY of it that is outstanding (R448). -/
def Zalius.touch (z : Zalius) (slot : Bool) : Zalius :=
  { z with touched := (z.verifying slot).foldl (fun l c => addNat c l) z.touched }

/-- Whether a control core executes: it has started, and has not ended by HALT. -/
def Group.executes (g : Group) : Bool := g.isControl && g.status != .stopped && g.status != .halted

/-- The control cores that execute stop for the firmware debugger (R452): the one that a break stopped first, whose word is
not a break again when it goes on, or all of them for FWD_CTL 2, which takes core 0 as the first (log entry 82). -/
def stopCores (s : State) (hit : Option Nat) : State :=
  let run := (s.groups.filter Group.executes).map (·.key)
  let s1 := s.modGroups fun g =>
    if g.executes then { g with status := .stopped, marks := { g.marks with skipBrk := g.marks.skipBrk || hit == some g.key } }
    else g
  if run.isEmpty then s
  else { s1 with fwd := { s.fwd with first := if s.fwd.mask.isEmpty then hit.getD 0 else s.fwd.first,
                                     mask := run.foldl (fun l c => addNat c l) s.fwd.mask } }

/-- FWD_CTL 1: every core that the debugger stopped runs again. -/
def resumeCores (s : State) : State :=
  let s1 := s.modGroups fun g => if g.isControl && mem? g.key s.fwd.mask then { g with status := .run } else g
  { s1 with fwd := { s.fwd with mask := [] } }

/-- The group of control core `c` as it starts at an image's entry (R352, R446): ic 0, quota 8. The block that the
first fetch enters is the entry's. -/
def bootGroup (c : Nat) (entry : Nat) (cause : Word) : Group :=
  { key := c, gid := c, gang := c, role := .control, status := .run,
    regs := { quota := 8 }, baseQuota := 8, bootCause := cause,
    at_ := { pc := w64 (0xE80000 + entry), hva := w64 (0xE80000 + entry - 8), hdr := 0 },
    hist := { base := 0xF00000 + 0x10000 * c, log := 16 } }

/-- Replace the control cores by freshly started ones. A control core that a turn has never reached stands in
`rest` or is `me`. -/
def startCores (s : State) (entry : Nat) (cause : Word) : State :=
  let s1 := s.modGroups fun g => if g.isControl then bootGroup g.key entry cause else g
  let missing := (upto 0 4).filter fun c => !s.groups.any (·.key == c)
  { s1 with rest := s1.rest ++ missing.map fun c => bootGroup c entry cause }

/-- The instructions of restart (R51, R352, R449): every core starts in `slot` with CAUSE `cause`, outstanding
mailbox requests are discarded, and a watchdog record is written for causes 2 to 4. -/
def restartCores (s : State) (slot : Bool) (cause : Nat) : State :=
  let left := s.zal.active
  let ic0 := ((s.groups.find? fun g => g.isControl && g.key == 0).map (·.hist.ic)).getD 0
  let w0 := b2n slot * 2 ^ 16 + b2n left * 2 ^ 8 + cause
  let z := { s.zal with active := slot, requests := [], replies := [],
                        touched := [], windowOpen := decide (cause = 1), windowLast := false, prev := left }
  let svn := imgSvn (s.zal.slot slot)
  let z1 := if cause = 1 then z.extend 2 slot svn else if cause = 2 then z.extend 3 slot svn else z
  let mem1 := if cause ≥ 2 then
      s.mem.setSched 0xFFFF00 (wordsBytes [w64 w0, w64 (Config.sensor 0 s.tick), ic0] ++ leBytes 40 0)
    else s.mem
  let boot := w64 (b2n left * 2 ^ 16 + b2n slot * 2 ^ 8 + cause)
  startCores { s with zal := z1, mem := mem1, quiesced := s.quiesced || decide (cause = 2) }
    (imgEntry (s.zal.slot slot)) boot

/-- The word at a VA or offset as the current group fetches it, or the trap of the fetch (R198, R446). -/
def fetchAt (s : State) (va : Word) : Trap ⊕ Word :=
  let a := va.toNat
  if s.me.isControl then
    if 0xE80000 ≤ a ∧ a + 8 ≤ 0xF00000 then
      .inr (w64 (s.zal.window s.zal.active (a - 0xE80000) 8))
    else .inl { code := 5, cause := 1, addr := a }
  else match look s a .fetch with
    | .ok (.dev pa) _ =>
      let s1 := homeLine s (.dev pa)
      if s1.mem.poisoned pa then .inl { code := 5, cause := 7, addr := a } else .inr (s1.devWord pa)
    | _ => .inl { code := 5, cause := 1, addr := a }

/-- Whether a word of this OP acts in lanes under its guard (R292, R375, R393, R417). -/
def opInLanes (op : Nat) : Bool :=
  if op < 0x100 then false
  else if op < 0x280 then true
  else if op < 0x300 then !(mem? (op % 32) [0x00, 0x01, 0x02, 0x06, 0x07, 0x0C, 0x0D])
  else mem? op [0x319, 0x388, 0x389, 0x38C]

/-- The lanes of a guard that hold: bit 0 alone for a scalar instruction. -/
def guardLanes (s : State) (h : Hd) (vec : Bool) : BitVec 32 :=
  if vec then maskOf (lanesOn s h) else if guardS s h then 1 else 0

/-- LANES of a park record for the word that the current group stands at (R110): none for a word that is no
instruction. -/
def wordLanes (s : State) (w : Word) : BitVec 32 :=
  match decode w with
  | none => 0
  | some (.setk ..) => 1
  | some _ =>
    match (TForm.ofWord w).hd with
    | some h => guardLanes s h (opInLanes (TForm.ofWord w).op.toNat)
    | none => 0

/-- The VA of the instruction that stands at the current group's ic when its pc is `pc`: behind the header of the next block
when the group has reached the end of one. -/
def standingAt (s : State) (pc : Word) : Word :=
  match fetchAt s pc with
  | .inl _ => pc
  | .inr w => if isHeader w then pc + 8 else pc

/-- LANES for the word that the current group stands at. -/
def standingLanes (s : State) : BitVec 32 :=
  match fetchAt s (standingAt s s.me.at_.pc) with
  | .inl _ => 0
  | .inr w => wordLanes s w

/-- R352: a trap of any kind on a control core raises WATCHDOG. Within the window of a slot switch the cores
restart in the previous slot instead (R51, R449), as a rollback. -/
def watchdogTrap (s : State) : State :=
  if s.zal.windowOpen then restartCores s s.zal.prev 2 else restartCores s s.zal.active 4

/-- A trap of the current group: a mesh group parks, a control core raises WATCHDOG. -/
def trapMe (s : State) (t : Trap) : State :=
  if s.me.isControl then watchdogTrap s else parkGroup s s.me.key t

/-- The current group waits; the instruction that it waits in stands where it was. -/
def waitMe (s : State) (w : Wait) : State :=
  s.modMe fun g => if w = .boundary then { g.horizon with status := .wait w } else { g with status := .wait w }

end Sys2Proof.Machine
end

