-- ==== Sys2Proof/Machine/Tasks.lean ====
section
/-! DEFINITION. Graph images, tasks and their dependences, the end of groups and gangs, launches
(R64 to R67, R81, R86 to R88, R106, R114, R339). -/

namespace Sys2Proof.Machine

/-- What holds a release at .dev or .sys back (R254, R258): its own unacknowledged writes, and those of groups of its die,
which it may have read before their homes have them. -/
def State.owing (s : State) : Bool :=
  s.me.acks != 0 || (!s.me.isControl && s.rest.any fun g =>
    !g.isControl && dieOf g.seat.core == s.myDie && g.acks != 0)

/-! ### The graph image (R64 to R66, R86) -/

def imgW (img : List Byte) (off : Nat) : Word := w64 (leAt img off 8)
def imgNodes (img : List Byte) : Nat := bits (imgW img 0) 12 0
/-- Word i of node record n. -/
def nodeW (img : List Byte) (n i : Nat) : Word := imgW img (320 + 128 * n + 8 * i)
def nodeGangs (img : List Byte) (n : Nat) : Nat := bits (nodeW img n 8) 63 48
def nodeInsts (img : List Byte) (n : Nat) : Nat := bits (nodeW img n 8) 31 0
def nodePoints (img : List Byte) (n : Nat) : Nat := bits (nodeW img n 10) 50 48
def nodeQl (img : List Byte) (n : Nat) : Nat := bits (nodeW img n 10) 47 43
def nodeOpers (img : List Byte) (n : Nat) : Nat := bits (nodeW img n 10) 55 51
def nodeOpOff (img : List Byte) (n : Nat) : Nat := bits (nodeW img n 9) 63 32
/-- The launch record of a node. -/
def nodeRec (img : List Byte) (n : Nat) : List Word := (upto 0 8).map (nodeW img n)
/-- The out-edges of a node. -/
def nodeEdges (img : List Byte) (n : Nat) : List Word :=
  let w := nodeW img n 10
  (upto 0 (bits w 63 56)).map fun i => imgW img (bits (nodeW img n 9) 31 0 + 8 * i)

def edgeDest (e : Word) : Nat := bits e 63 48
def edgeMap (e : Word) : Nat := bits e 47 46
def edgePoint (e : Word) : Nat := bits e 45 43
def edgeOpt (e : Word) : Bool := bit e 42
def edgeOff (e : Word) : Int := sext 32 (bits e 31 0)

/-- How many instances of edge `e` of node `src` reach instance `n` of its destination (R86). -/
def edgeInto (img : List Byte) (src : Nat) (e : Word) (n : Nat) : Nat :=
  match edgeMap e with
  | 0 => if (0 : Int) ≤ (n : Int) - edgeOff e ∧ (n : Int) - edgeOff e < nodeInsts img src then 1 else 0
  | 1 => nodeInsts img src
  | _ => if n = 0 then nodeInsts img src else 0

/-- The counter that instance `n` of node `d` starts with (R86). -/
def startCounter (img : List Byte) (d n : Nat) : Nat :=
  (upto 0 (imgNodes img)).foldl (fun c src =>
    (nodeEdges img src).foldl (fun c e => if edgeDest e = d then c + edgeInto img src e n else c) c) 0

/-- How many of edge `e`'s instances go from instance `i` of its source to instance `n` of its destination. -/
def edgeFrom (e : Word) (i n : Nat) : Nat :=
  match edgeMap e with
  | 0 => if (n : Int) = i + edgeOff e then 1 else 0
  | 1 => 1
  | _ => if n = 0 then 1 else 0

/-- Queue a task (R81): it takes the next place in its partition's order. -/
def queueTask (s : State) (t : TaskId) : State :=
  let n := (s.part t.part).nextOrder
  (s.modTask t fun x => { x with life := .queued, order := n }).modPart t.part
    fun p => { p with nextOrder := n + 1 }

/-- What a point of a task publishes to the tasks that its edges feed (R253): of point 0, the completion, the ends of its groups;
of any other, what its EARLY.TRIGs publish. -/
def Task.viewAt (x : Task) (p : Nat) : View := if p = 0 then x.out else Tab.get {} x.early p

/-- Decrement the counters that the selected edges of a task feed, which also brings what `v` publishes; a task that reaches 0
is queued (R81, R86). -/
def fireEdges (s : State) (t : TaskId) (v : View) (sel : Word → Bool) : State :=
  let l := s.launch t.part t.launch
  let es := (nodeEdges l.img t.node).filter sel
  let dec (x : Task) : Nat :=
    es.foldl (fun c e => if edgeDest e = x.id.node then c + edgeFrom e t.inst x.id.inst else c) 0
  let s1 := s.modLaunch t.part t.launch fun l =>
    { l with tasks := l.tasks.map fun x =>
        { x with counter := x.counter - dec x, view := if dec x = 0 then x.view else x.view.join v } }
  let ready := (s1.launch t.part t.launch).tasks.filter fun x => x.life == .waiting && x.counter == 0
  ready.foldl (fun s x => queueTask s x.id) s1

/-- The edges that a completion decrements: POINT 0 and every OPT edge (R86). -/
def edgeOnDone (e : Word) : Bool := edgePoint e == 0 || edgeOpt e
/-- The edges that point `p` decrements (R87). -/
def edgeOnPoint (p : Nat) (e : Word) : Bool := edgePoint e == p && !edgeOpt e

/-- A task completes (R86); in a DET launch its edges act at the boundary (R264). -/
def completeTask (s : State) (t : TaskId) : State :=
  let s1 := s.modTask t fun x => { x with life := .complete }
  if (s.launch t.part t.launch).det then
    s1.modLaunch t.part t.launch fun l => { l with ds := { l.ds with fired := l.ds.fired ++ [(t, 0)] } }
  else fireEdges s1 t ((s.task t).viewAt 0) edgeOnDone

/-- The gangs of a task, and the groups of a gang. -/
def gangsOf (s : State) (t : TaskId) : List Gang := s.gangs.filter (·.task == t)
def groupsOf (s : State) (uid : Nat) : List Group := s.groups.filter fun g => !g.isControl && g.gang == uid

/-- Whether a gang has a matrix-role group on core `ix` of its span (R156). -/
def holdsQueue (s : State) (g : Gang) (ix : Nat) : Bool :=
  (groupsOf s g.uid).any fun x => x.role == .matrix && g.coreIx x.gid == ix

/-- A core gives back `n` granules; with `queue`, the B banks and the matrix queue too, as they are at first: the next gang
that holds them finds banks without a record, whatever this one loaded (DESIGN CHOICE, log entry 34). -/
def Core.release (k : Core) (n : Nat) (queue : Bool) : Core :=
  let k1 := { k with free := k.free + n }
  if queue then { k1 with queue := [], mb0 := {}, mb1 := {}, halted := false, disc := 0 } else k1

/-- Free what a gang holds on the cores of its span (R106, R156); a saved gang holds none. -/
def freeGang (s : State) (g : Gang) : State :=
  if g.life != .live then s
  else (upto 0 (g.spw * g.sph)).foldl (fun s ix =>
    let n := g.coreNum ix
    s.setCore n ((s.core n).release (g.on ix).granules (holdsQueue s g ix))) s

/-- A gang whose groups have all ended frees its resources; its task completes when every gang has (R86, R106).
A service gang's registration ends with it (R344). -/
def endGang (s : State) (uid : Nat) : State :=
  match s.gang? uid with
  | none => s
  | some g =>
    if g.life != .ended && (groupsOf s uid).all (·.status == .halted) then
      let s0 := (freeGang s g).modGang uid fun g => { g with life := .ended, cores := [], subs := [] }
      let s1 := { s0 with rest := s0.rest.filter fun x => x.isControl || x.gang != uid }
      let s2 := s1.modPart g.task.part fun p =>
        if p.service = some uid then { p with service := none, parkq := 0 } else p
      let l := s2.launch g.task.part g.task.launch
      let n := nodeGangs l.img g.task.node
      let t := s2.task g.task
      if t.placed ≥ n ∧ (gangsOf s2 g.task).all (·.life == .ended) ∧ t.life = .running then
        completeTask s2 g.task
      else s2
    else s

/-- The end of a group is a release at .dev (R253), to the tasks that wait for its own. -/
def publishEnd (s : State) (g : Group) : State :=
  if g.isControl then s
  else
    let t := pushDie s (dieOf g.seat.core)
    t.modTask (s.gang g.gang).task fun x => { x with out := x.out.join (t.publishes g) }

/-- A group ends (R106, R339): its quota returns to the pool, its history is gone. -/
def haltGroup (s : State) (key : Nat) : State :=
  match s.group? key with
  | none => s
  | some g =>
    let s1 := (publishEnd s g).modGroup key fun g =>
      { g.horizon with status := .halted, regs := { g.regs with quota := 0, v := [] }, sb := [], awaited := [],
                       seat := { g.seat with active := false } }
    if g.isControl then s1 else endGang s1 g.gang

/-- Forget the park slots of a group. -/
def dropParks (s : State) (p : Nat) (who : Parked) : State :=
  s.modPart p fun q => { q with parks := q.parks.filter (·.who != who) }

/-- A group is to end with status 1 for its task (R114): its parks are gone. -/
def condemn (s : State) (key : Nat) (g : Group) : State :=
  let t := (s.gang g.gang).task
  ((dropParks s t.part (.group key)).modTask t fun x => { x with killed := true }).modLaunch t.part t.launch
    fun l => { l with killed := true }

/-- Kill a group with its gang: it ends at once, and its task completes with status 1. -/
def killGroup (s : State) (key : Nat) : State :=
  match s.group? key with
  | none => s
  | some g => if g.status == .halted then s else haltGroup (condemn s key g) key

/-- Whether earlier work of a group is left, which its end waits for (R258, R339): its scoreboard slots, its instructions in
the matrix queue, and the acknowledgements. -/
def workLeft (s : State) (g : Group) : Bool :=
  !g.sb.isEmpty || (!g.isControl && (s.core g.seat.core).queue.any (·.key == g.key))
    || s.groups.any fun x => x.acks != 0 && (x.key == g.key || (!x.isControl && dieOf x.seat.core == dieOf g.seat.core))

/-- Kill a group by a handler (R114): it ends as by HALT, once its earlier work is done, and its task completes with
status 1. -/
def killWhenDone (s : State) (key : Nat) : State :=
  match s.group? key with
  | none => s
  | some g =>
    if g.status == .halted then s
    else if workLeft s g then
      (condemn s key g).modGroup key fun x => { x with status := .wait .halt, marks := { x.marks with killed := true } }
    else haltGroup (condemn s key g) key

/-- Kill every group of a gang. -/
def killGang (s : State) (uid : Nat) : State :=
  (groupsOf s uid).foldl (fun s g => killGroup s g.key) s

/-- Early-trigger point `p` of a task fires (R87). -/
def firePoint (s : State) (t : TaskId) (p : Nat) : State :=
  let s1 := s.modTask t fun x => { x with fired := addNat p x.fired }
  if (s.launch t.part t.launch).det then
    s1.modLaunch t.part t.launch fun l => { l with ds := { l.ds with fired := l.ds.fired ++ [(t, p)] } }
  else fireEdges s1 t ((s1.task t).viewAt p) (edgeOnPoint p)

/-- A held or waiting task is dropped, with status 1 (R74); its points fire with its completion (log entry 25). -/
def dropTask (s : State) (t : TaskId) : State :=
  let s1 := dropParks s t.part (.hold t)
  let s2 := (s1.modTask t fun x => { x with killed := true }).modLaunch t.part t.launch
    fun l => { l with killed := true }
  let ps := (upto 1 (nodePoints (s.launch t.part t.launch).img t.node)).filter fun p =>
    !mem? p (s.task t).fired
  completeTask (ps.foldl (fun s p => firePoint s t p) s2) t

/-- Early-trigger point `p` (R87): fires when every gang of the task has executed it. `v` is what the trigger publishes. -/
def earlyPoint (s : State) (uid p : Nat) (v : View) : State :=
  let t := (s.gang uid).task
  let s1 := (s.modGang uid fun g => { g with points := addNat p g.points }).modTask t fun x =>
    { x with early := Tab.set {} x.early p ((x.viewAt p).join v) }
  let x := s1.task t
  if mem? p x.fired || decide (x.placed < nodeGangs (s1.launch t.part t.launch).img t.node)
      || !(gangsOf s1 t).all (fun g => mem? p g.points) then s1
  else firePoint s1 t p

end Sys2Proof.Machine
end

