-- ==== Sys2Proof/Machine/Issue.lean ====
section
/-! DEFINITION. Issuing one instruction of the current group: the checks that every instruction shares in the order
of R302, the stalls of R104, R137 and R263, and what completing an instruction does (R103, R105, R116, R119, R122,
R128, R129). Each meaning supplies what it reads and writes, what its own entry checks, and its effect. -/

namespace Sys2Proof.Machine

/-- What an instruction names: its guard and marker, the registers it reads and writes, further registers that it
names (the destination of a split-phase instruction, which R105 does not cover; `quota` those named only), the roles that may issue it, whether
it is a horizon (R120) and whether it acts in lanes (R292). -/
structure Info where
  h : Hd
  reads : List Reg := []
  writes : List Reg := []
  roles : List Role
  horizon : Bool := false
  names : List Reg := []
  quota : List Reg := []
  vec : Bool := false
  deriving Repr

/-- What an instruction finds at issue, computed on the state before it: the FRAME of a taken transfer, whether a field is
illegal here, the crumbs
it pushes (first pushed first), a consumer's poison (its lanes and the lowest one's index), its own trap, what it must
wait for, whether it stands as it is for the time being, how it ends or breaks a quantum (R263), the places that an access put off by R263 touches (R265), and what a first attempt to wait notes: a barrier's phase (R399) or
the queue entries that MWAIT covers (R427), the ring whose slot is claimed (R146), the ASID and the page whose slots
SVC.MIGRATE revokes before it goes on (R207), and the message that FLOW.PUT sends to a peer before it waits (R391): the VA and
place of its send descriptor, its place at the peer and data. -/
structure Pre where
  frame : Option Trap := none
  illegal : Bool := false
  crumbs : List Crumb := []
  poison : Option (BitVec 32 × Option (BitVec 3)) := none
  trap : Option Trap := none
  wait : Option Wait := none
  blocking : Bool := false
  quantum : Bool := false
  foreign : Bool := false
  touch : List Loc := []
  note : Option (Nat × Nat) := none
  covers : Option Nat := none
  claims : Option Nat := none
  revokes : Option (Nat × Nat) := none
  send : Option (Nat × Loc × Nat × List Byte) := none
  hold : Bool := false
  deriving Repr

/-- Vector registers at or above the quota (R106, R295). -/
def quotaBad (s : State) (f : Info) : Bool :=
  (f.h.gr :: f.reads ++ f.writes ++ f.names ++ f.quota).any fun r => match r with
    | .v i => decide (i.val ≥ s.me.regs.quota)
    | _ => false

/-- A register that a busy scoreboard slot guards, among those the instruction touches (R104). -/
def guardedReg (s : State) (f : Info) : Option Reg :=
  (f.h.gr :: f.reads ++ f.writes ++ f.names).find? fun r => s.me.sb.any fun x => x.regs.any (· == r)

/-- Whether the hazard detector is open for the current group (R54, R105). -/
def hazardOpen (s : State) : Bool := !s.me.isControl && policyOpen s s.myGang 4

/-- R104, R105: in hazard-checked mode, touching a register that a slot guards, or whose slot has delivered with no
SB.WAIT since, or reading an awaited one. The hardware's own timing decides which results are still outstanding; the model
takes every destination of an unmarked instruction as outstanding until the next switch marker, one whose guard failed
among them (the model's choice, log entry 9). -/
def hazard (s : State) (f : Info) : Bool :=
  hazardOpen s && ((guardedReg s f).isSome ||
    (f.h.gr :: f.reads ++ f.writes ++ f.names).any (fun r => s.me.unwaited.any (·.any (· == r))) ||
    (f.h.gr :: f.reads).any fun r => s.me.awaited.any (·.r == r))

/-- The entry check of the block (R128): HBOUND crumb units and the last 16 bytes must be free. -/
def entryFull (g : Group) : Bool :=
  let hb := hdrBound g.at_.hdr
  g.at_.fresh && (if hb = 255 then decide (g.free < 16) else decide (g.free < hb * 160 + 16))

/-- The per-push check (R128): each push must leave 16 bytes. -/
def pushFull (g : Group) (cs : List Crumb) : Bool :=
  !cs.isEmpty && decide (g.free < crumbsBytes cs + 16)

/-- Old contents of the registers that an instruction writes (R105). -/
def awaitedOf (s : State) (ws : List Reg) : List Awaited :=
  ws.filterMap fun r => match r with
    | .s _ => some { r, olds := readS s s.me r, oldv := [] }
    | .v i => some { r, olds := {}, oldv := (upto 0 32).map (s.me.getV i) }
    | _ => none

/-- The quantum Q of the current group's node (R66, R263). -/
def quantumLen (s : State) : Nat := 2 ^ nodeQl s.myLaunch.img s.myGang.task.node

/-- The group steps past its instruction: the crumbs are pushed, ic and the pc advance. The crumbs lie in Hist alone, so that a
read of the bytes of the region after its gang has ended gives what memory held there before; R127 does not say what they hold
then (DESIGN CHOICE, log entry 26). -/
def Group.advance (g : Group) (cs : List Crumb) : Group :=
  { g with hist := { g.hist with ic := g.hist.ic + 1, crumbs := cs.reverse ++ g.hist.crumbs },
           at_ := { g.at_ with pc := g.at_.pc + 8, fresh := false },
           marks := { g.marks with skipBrk := false },
           hostLoad := none,
           seat := { g.seat with loaded := g.seat.loaded && !g.seat.marked },
           qi := g.qi + 1 }

/-- After an instruction: a marker has every result written (R103), any other leaves its own outstanding (R105). -/
def Group.settle (g : Group) (mark : Bool) (new : List Awaited) : Group :=
  { g with awaited := if mark then [] else new ++ g.awaited, seat := { g.seat with marked := mark } }

/-- R345: after one counted instruction under DBG_STEP the group parks with BREAK; one that has ended its quantum by it
still has when it goes on. -/
def stepPark (s : State) (key : Nat) : State :=
  match s.group? key with
  | some g =>
    let ended := g.status == .wait .boundary
    if g.marks.step && (g.status == .run || ended) then
      parkGroup (s.modGroup key fun g => { g with arrived := ended }) key
        { code := 12, addr := (standingAt s g.at_.pc).toNat, lanes := standingLanes s }
    else s
  | none => s

/-- R263: the end of a quantum; arriving at the boundary is a horizon event (R264). -/
def quantumEnd (s : State) (p : Pre) (key : Nat) (q : Nat) (det : Bool) : State :=
  if det then
    s.modGroup key fun g =>
      if g.status = .run ∧ (p.quantum = true ∨ g.qi ≥ q) then { g.horizon with status := .wait .boundary } else g
  else s

/-- An instruction that meets no trap and no stall completes. -/
def complete (f : Info) (p : Pre) (eff : State → State) (s : State) : State :=
  let key := s.me.key
  let s1 := eff (s.modMe (·.advance p.crumbs))
  let s2 := if f.horizon then s1.modGroup key Group.horizon else s1
  let s3 := s2.modGroup key (·.settle f.h.mark (awaitedOf s f.writes))
  stepPark (quantumEnd s3 p key (quantumLen s) s.inDet) key

/-- The checks and stalls before an instruction's effect, in the order of R302; none when it completes. A transfer whose
registers a slot still guards waits for them before it can meet its FRAME (R104). -/
def stopOf (f : Info) (p : Pre) (s : State) : Option (Trap ⊕ Wait) :=
  let pc := s.me.at_.pc.toNat
  let frame := if (guardedReg s f).isNone then p.frame else none
  if let some t := frame then some (.inl t)
  else if p.illegal then some (.inl { code := 1, addr := pc })
  else if !f.roles.any (· == s.me.role) then some (.inl { code := 2, addr := pc })
  else if quotaBad s f then some (.inl { code := 10, addr := pc })
  else if hazard s f then some (.inl { code := 11, addr := pc })
  else match guardedReg s f with
    | some r => some (.inr (.guarded r))
    | none =>
      if entryFull s.me || pushFull s.me p.crumbs then
        if s.me.marks.proof then some (.inr .proof)
        else some (.inl { code := 7, addr := s.me.at_.hva.toNat })
      else match p.poison with
        | some (ls, o) => some (.inl { code := 4, addr := pc, lanes := ls, oidx := o })
        | none => if s.inDet && p.foreign then some (.inr .boundary) else match p.trap with
          | some t => some (.inl t)
          | none =>
            if s.me.marks.proof && f.horizon then some (.inr .proof)
            else if s.inDet && p.blocking && (decide (s.me.qi ≠ 0) || p.wait.isSome) then some (.inr .boundary)
            else match p.wait with
              | some w => some (.inr w)
              | none => none

/-- What a first attempt to wait for registers, queue entries or a ring's slot notes: the request's place in the arbiter's
order (R107), the instructions that had entered the queue (R427), and the place among the claims (R146). In a DET launch
the order is that of the quanta, and within one that of the groups. -/
def noteTurn (p : Pre) (s : State) : State :=
  let s1 := match p.wait with
    | some (.grow n) =>
      if s.inDet && s.me.qi != 0 then s
      else
        let now := if s.inDet then s.myLaunch.ds.began else s.tick
        s.modMe fun g => { g with growRank := if g.growRank = 0 then now + 1 else g.growRank, growNeed := n }
    | _ => s
  match p.covers, p.claims, p.wait with
  | some n, _, _ => s1.modMe fun g => { g with mtarget := some (g.mtarget.getD n) }
  | none, some r, some (.ringFree _) =>
    if s.inDet then s1 else s1.modGang s1.me.gang fun g => g.setRing r ((g.ring r).join (.group s1.me.key))
  | _, _, _ => s1

/-- A slot covers a page. -/
def Slot.covers (x : Slot) (page : Nat) : Bool :=
  decide (x.base.toNat < 65536 * (page + 1) ∧ 65536 * page < x.base.toNat + x.len)

/-- R207, step 1: every slot of the ASID that covers the page is revoked. -/
def revokePage (s : State) (p asid page : Nat) : State :=
  { s with launches := s.launches.map fun l =>
      if l.part = p ∧ l.asid = asid then
        { l with tasks := l.tasks.map fun t =>
            { t with slots := t.slots.map fun x => if x.covers page then { x with revoked := true } else x } }
      else l }

/-- A wait on a barrier with no record waits for the phase that was current at its first attempt (R399), FLOW.PUT's
message to a peer leaves (R391), and SVC.MIGRATE revokes slots (R207). -/
def noteWait (p : Pre) (s : State) : State :=
  let s0 := noteTurn p s
  let s1 := match p.revokes, p.wait with
    | some (asid, page), some .migTable =>
      (revokePage s0 s0.myP asid page).modMe fun g => { g with revoking := some (asid, page) }
    | _, _ => s0
  let s2 := match p.send, p.wait with
    | some (va, tx, at_, data), some .flowPut => sendMessage (noteProofing s1 va 16) tx at_ data
    | _, _ => s1
  let s3 := if s.inDet && p.foreign then p.touch.foldl State.touchLoc s2 else s2
  match p.note with
  | some (k, ph) =>
    if s.inDet && decide (s.me.qi ≠ 0) then s3
    else s3.modMe fun g =>
      if (Tab.get [] g.bars k).isEmpty then { g with bars := Tab.set [] g.bars k [ph] } else g
  | none => s3

/-- The groups of the launch that come before the current one, by gang instance and then by group, and have not ended their
quantum. -/
def lowerRunning (s : State) : List Group :=
  s.rest.filter fun x => !x.isControl && !x.arrived &&
    (let a := s.gang x.gang
     let t := s.myGang.task
     a.task.part == t.part && a.task.launch == t.launch && a.life != .ended
       && decide (a.inst < s.myGang.inst ∨ (a.inst = s.myGang.inst ∧ x.gid < s.me.gid)))
    && (match x.status with
      | .wait .boundary | .swapped _ | .halted => false
      | _ => true)

/-- The waits that R263 names. -/
def isWait (i : Instr) : Bool :=
  match i with
  | .barWait .. | .ringPutClaim .. | .ringPut .. | .ringGet .. | .ringGetDone .. | .ringPeek .. | .wpWait .. | .regGrow ..
  | .flowGet .. => true
  | _ => false

/-- Whether the instruction that a group stands at is such a wait. -/
def standsAtWait (s : State) (x : Group) : Bool :=
  let t := { s with me := x }
  let word := match fetchAt t x.at_.pc with
    | .inr w => if isHeader w then fetchAt t (x.at_.pc + 8) else .inr w
    | .inl e => .inl e
  match word with
  | .inr w => (decode w).elim false isWait
  | .inl _ => false

/-- A lower group of the launch whose first instruction of the quantum is a wait, which it has not executed. A parked one is
left out: what it waits for comes with its handler. -/
def firstDue (s : State) : Bool :=
  (lowerRunning s).any fun x => x.qi == 0 && x.status != .parked && standsAtWait s x

/-- Waits that stand first in a quantum are judged in the order of the groups, so that what one of them takes is the same
on every run (R261, R263). -/
def holds (p : Pre) (s : State) : Bool :=
  p.hold || (s.inDet && p.blocking && s.me.qi == 0 && firstDue s)

/-- Issue an instruction of the current group. Every path is a next state. A stall that comes before the instruction's own
wait notes nothing. -/
def issue (f : Info) (p : Pre) (eff : State → State) (s : State) : Host.Outcome State Fault Refusal :=
  match stopOf f p s with
  | some (.inl t) => .next (trapMe s (if t.code = 4 then t else { t with lanes := guardLanes s f.h f.vec }))
  | some (.inr w) => .next (if holds p s then s
      else if p.wait == some w || w == .boundary then noteWait p (waitMe s w) else waitMe s w)
  | none => .next (if holds p s then s else complete f p eff s)

/-- Roles of R98. -/
def rolesAll : List Role := [.vector, .matrix, .copy, .control]
def rolesMesh : List Role := [.vector, .matrix, .copy]
def rolesVector : List Role := [.vector]
def rolesMatrix : List Role := [.matrix]
def rolesAcc : List Role := [.vector, .matrix]
def rolesControl : List Role := [.control]
def rolesVecCtl : List Role := [.vector, .control]

/-- The poison of a list of scalar values: the first poisoned one (R323). -/
def poisonOf (vs : List SVal) : Option (BitVec 3) :=
  (vs.find? (·.p)).map (·.o)

/-- A scalar consumer's POISON_USE: lane 0 and the index of its first poisoned operand (R206, R323). -/
def consume (vs : List SVal) : Option (BitVec 32 × Option (BitVec 3)) :=
  (poisonOf vs).map fun o => (1, some o)

/-- A scalar result with the poison of its operands. -/
def withPoison (v : Word) (vs : List SVal) : SVal :=
  match poisonOf vs with
  | some o => { v, p := true, o }
  | none => { v }

/-- An ACCESS trap of the current group. -/
def access (cause addr : Nat) : Option Trap := some { code := 5, cause, addr }

/-- The VA of the instruction that the current group issues. -/
def State.pcN (s : State) : Nat := s.me.at_.pc.toNat

end Sys2Proof.Machine
end

