-- ==== Sys2Proof/Machine/Operands.lean ====
section
/-! DEFINITION. Operand forms and integer arithmetic: the types of class 0 (R325 to R333), the B operand of classes 2
and 3 (R295, R296), the lane arithmetic of class 2 (R361, R363), and the patterns under which an instruction is
invertible (R121, R327). -/

namespace Sys2Proof

open Machine

/-! ### Scalar integers (R325, R328, R329) -/

/-- Width of a class-0 type. -/
def ITy.w (t : ITy) : Nat := 64 / 2 ^ t.wid.val

/-- The low W bits of a register, unsigned and as the type reads them. -/
def ITy.nat (t : ITy) (v : Word) : Nat := v.toNat % 2 ^ t.w
def ITy.int (t : ITy) (v : Word) : Int := if t.un then (t.nat v : Int) else sext t.w v.toNat

/-- A W-bit result extended to 64 bits by the type. -/
def ITy.ext (t : ITy) (r : Nat) : Word :=
  if t.un then w64 (r % 2 ^ t.w) else BitVec.ofInt 64 (sext t.w r)

/-- An integer result, modulo 2^W. -/
def ITy.res (t : ITy) (i : Int) : Word := t.ext (wrap t.w i)

/-- Quotient and remainder with the edge cases of R328. -/
def ITy.quot (t : ITy) (a b : Word) : Word :=
  if t.int b = 0 then t.res (-1) else t.res (Int.tdiv (t.int a) (t.int b))
def ITy.rem (t : ITy) (a b : Word) : Word :=
  if t.int b = 0 then t.res (t.int a) else t.res (Int.tmod (t.int a) (t.int b))

/-- The high W bits of the 2W-bit product. -/
def ITy.mulh (t : ITy) (a b : Word) : Word := t.res ((t.int a * t.int b) / 2 ^ t.w)

/-- Shifts and rotates by b modulo W. -/
def ITy.shl (t : ITy) (a b : Word) : Word := t.ext (t.nat a * 2 ^ (b.toNat % t.w))
def ITy.shr (t : ITy) (a b : Word) : Word := t.ext (t.nat a / 2 ^ (b.toNat % t.w))
def ITy.sar (t : ITy) (a b : Word) : Word := t.res (sext t.w a.toNat / 2 ^ (b.toNat % t.w))
/-- Rotate the low `w` bits left by `n` places. -/
def rotl (w a n : Nat) : Nat :=
  let k := n % w
  (a % 2 ^ w * 2 ^ k + a % 2 ^ w / 2 ^ (w - k)) % 2 ^ w
def ITy.rol (t : ITy) (a b : Word) : Word := t.ext (rotl t.w a.toNat b.toNat)
def ITy.ror (t : ITy) (a b : Word) : Word := t.ext (rotl t.w a.toNat (t.w - b.toNat % t.w))

/-- Zeros above the highest 1, zeros below the lowest 1, and ones, within `w` bits (R329). -/
def clzN (a : Nat) : (w : Nat) → Nat
  | 0 => 0
  | w + 1 => if a.testBit w then 0 else 1 + clzN a w
def ctzN (a : Nat) : (w : Nat) → Nat
  | 0 => 0
  | w + 1 => if a % 2 = 1 then 0 else 1 + ctzN (a / 2) w
def popN (a : Nat) : (w : Nat) → Nat
  | 0 => 0
  | w + 1 => a % 2 + popN (a / 2) w

/-- The smaller and the larger as the type compares (R328). -/
def ITy.min (t : ITy) (a b : Word) : Word := if t.int a ≤ t.int b then t.res (t.int a) else t.res (t.int b)
def ITy.max (t : ITy) (a b : Word) : Word := if t.int a ≤ t.int b then t.res (t.int b) else t.res (t.int a)

/-- The multiplier of MULODD: the lowest bit forced to 1 (R328). -/
def oddOf (b : Word) : Word := b ||| 1

/-- The inverse of an odd number modulo 2^64: each step doubles the bits that are right. -/
def invOdd (b : Word) : Word :=
  let x0 : Word := b
  let x1 := x0 * (2 - b * x0)
  let x2 := x1 * (2 - b * x1)
  let x3 := x2 * (2 - b * x2)
  let x4 := x3 * (2 - b * x3)
  x4 * (2 - b * x4)

/-- BEXT and BINS (R333). -/
def bext (a : Word) (pos lenm : Nat) (un : Bool) : Word :=
  let f := a.toNat / 2 ^ pos % 2 ^ (lenm + 1)
  if un then w64 f else BitVec.ofInt 64 (sext (lenm + 1) f)
def bins (d a : Word) (pos lenm : Nat) : Word :=
  let m := w64 ((2 ^ (lenm + 1) - 1) * 2 ^ pos)
  (d &&& ~~~m) ||| (w64 (a.toNat * 2 ^ pos) &&& m)

/-- The register that a B operand names. -/
def BOp.r : BOp → Reg
  | .reg r => r
  | .cross r _ => r

end Sys2Proof

namespace Sys2Proof.Machine

/-- The update patterns of R121: D names exactly one source, the one it updates. -/
def updA (d a b : Reg) : Bool := d == a && a != b
def updAB (d a b : Reg) : Bool := (d == a && a != b) || (d == b && a != b)

/-- Whether a scalar instruction of an invertible pattern runs as destructive: its guard register is D, or what it
reads or the old D holds poison (R121, R323). -/
def mustPush (s : State) (h : Hd) (d : Reg) (reads : List Reg) : Bool :=
  h.gr == d || (srcS s h.gr).p || (srcS s d).p || reads.any fun r => (srcS s r).p

/-- A scalar instruction with result `r` (R322, R323, R328): `inv` says whether its operands match its invertible
pattern. -/
def scalarDo (h : Hd) (d : Reg) (reads : List Reg) (inv : Bool) (r : Word) (s : State) :
    Host.Outcome State Fault Refusal :=
  let vs := reads.map (srcS s) ++ [srcS s h.gr]
  issue { h, reads, writes := [d], roles := rolesAll }
    { crumbs := if inv && !mustPush s h d reads then [] else crumbS s d (vs.any (·.p)) }
    (fun t => if guardS s h then putS t d (withPoison r vs) else t) s

/-! ### The B operand (R295, R296) -/

/-- Lane `l` of a B operand; cross-lane, lane l + k, and 0 outside the 32 lanes. -/
def srcB (s : State) (b : BOp) (l : Nat) : LVal :=
  match b with
  | .reg r => srcL s r l
  | .cross r k =>
    let j := (l : Int) + k.toInt
    if 0 ≤ j ∧ j < 32 then srcL s r j.toNat else {}

/-- The vector update patterns (R359, R361): a cross-lane B matches when it does not name D. -/
def vupdA (d a : Reg) (b : BOp) : Bool := updA d a b.r
def vupdAB (d a : Reg) (b : BOp) : Bool :=
  match b with
  | .reg r => updAB d a r
  | .cross r _ => updA d a r

/-- The first poisoned of some lane values gives a result its poison (R206, R358). -/
def lanePoison (v : Lane) (xs : List LVal) : LVal :=
  match xs.find? (·.p) with
  | some x => { v, p := true, o := x.o }
  | none => { v }

/-- What lane `l` of an instruction of classes 2 and 3 reads, in the order A, B, old D, guard (R358). -/
def laneReads (s : State) (h : Hd) (a : Reg) (b : BOp) (d : Reg) (readsD : Bool) (l : Nat) : List LVal :=
  [srcL s a l, srcB s b l] ++ (if readsD then [srcL s d l] else []) ++ [srcL s h.gr l]

/-- The results of the active lanes: `f a b d` on the old values of every lane (R357). -/
def laneResults (s : State) (h : Hd) (a : Reg) (b : BOp) (d : Reg) (readsD : Bool)
    (f : Lane → Lane → Lane → Lane) : List (Nat × LVal) :=
  (lanesOn s h).map fun l =>
    (l, lanePoison (f (srcL s a l).v (srcB s b l).v (srcL s d l).v) (laneReads s h a b d readsD l))

/-- Whether an instruction of classes 2 to 4 that matches an update pattern is invertible now (R359): its guard is
not D and no active lane reads poison. -/
def vInvNow (s : State) (h : Hd) (a : Reg) (b : BOp) (d : Reg) : Bool :=
  h.gr != d && (lanesOn s h).all fun l => (laneReads s h a b d true l).all (!·.p)

/-- A vector instruction (R359) with the lane result `f`: `inv` says whether its operands match its update pattern,
`readsD` whether the result uses the old D. -/
def vecDo (h : Hd) (d a : Reg) (b : BOp) (inv readsD : Bool) (f : Lane → Lane → Lane → Lane) (s : State) :
    Host.Outcome State Fault Refusal :=
  issue { h, reads := [a, b.r] ++ (if readsD then [d] else []), writes := [d], roles := rolesVecCtl, vec := true }
    { crumbs := if inv && vInvNow s h a b d then [] else crumbV s d (lanesOn s h) }
    (fun t => putV t d (laneResults s h a b d readsD f)) s

/-- A bit write into each active lane (R359, R362): KIND 0x03, KIND 0x0A with the whole old lanes when poison is
involved, or KIND 0x08 with no active lane (R122). -/
def crumbLaneBit (s : State) (h : Hd) (d : Reg) (n : Nat) (reads : Nat → List LVal) : List Crumb :=
  let act := lanesOn s h
  if act.isEmpty then crumbV s d act
  else if act.any fun l => (srcL s d l).p || (reads l).any (·.p) then crumbOldLanes s d act else crumbVBit s d n

/-- Bit `n` of a lane set to `b`. -/
def setLaneBit (d : Lane) (n : Nat) (b : Bool) : Lane :=
  if b then d ||| w32 (2 ^ n) else d &&& ~~~(w32 (2 ^ n))

/-- A vector compare (R362, R367). -/
def vecBitDo (h : Hd) (n : Nat) (d a : Reg) (b : BOp) (f : Lane → Lane → Bool) (s : State) :
    Host.Outcome State Fault Refusal :=
  issue { h, reads := [a, b.r, d], writes := [d], roles := rolesVecCtl, vec := true }
    { crumbs := crumbLaneBit s h d n fun l => laneReads s h a b d false l }
    (fun t => putV t d (laneResults s h a b d true fun x y z => setLaneBit z n (f x y))) s

/-! ### Lane integers (R361, R363) -/

/-- A lane as a signed number. -/
def sl (a : Lane) : Int := a.toInt

def vmulh (un : Bool) (a b : Lane) : Lane :=
  if un then w32 (a.toNat * b.toNat / 2 ^ 32) else BitVec.ofInt 32 (sl a * sl b / 2 ^ 32)
def vmin (un : Bool) (a b : Lane) : Lane :=
  if (if un then decide (a.toNat ≤ b.toNat) else decide (sl a ≤ sl b)) then a else b
def vmax (un : Bool) (a b : Lane) : Lane :=
  if (if un then decide (a.toNat ≤ b.toNat) else decide (sl a ≤ sl b)) then b else a
def vrol (a b : Lane) : Lane := w32 (rotl 32 a.toNat b.toNat)
def vror (a b : Lane) : Lane := w32 (rotl 32 a.toNat (32 - b.toNat % 32))
def vbext (un : Bool) (pos lenm : Nat) (a : Lane) : Lane :=
  let f := a.toNat / 2 ^ pos % 2 ^ (lenm + 1)
  if un then w32 f else BitVec.ofInt 32 (sext (lenm + 1) f)
def vbins (pos lenm : Nat) (a d : Lane) : Lane :=
  let m := w32 ((2 ^ (lenm + 1) - 1) * 2 ^ pos)
  (d &&& ~~~m) ||| (w32 (a.toNat * 2 ^ pos) &&& m)

/-- The inverse of an odd number modulo 2^32. -/
def invOdd32 (b : Lane) : Lane :=
  let x1 := b * (2 - b * b)
  let x2 := x1 * (2 - b * x1)
  let x3 := x2 * (2 - b * x2)
  x3 * (2 - b * x3)

end Sys2Proof.Machine
end

