-- ==== Sys2Proof/Machine/Flags.lean ====
section
/-! DEFINITION. Conditions and flags: the compares of CMP, VCMP (R331, R362) and the sticky flags FPFLAGS (R239). -/

namespace Sys2Proof.Machine

/-- The condition of CMP on 64-bit values (R331). -/
def ccWord (c : CC) (a b : Word) : Bool :=
  match c with
  | .eq => a == b
  | .ne => a != b
  | .lt => decide (a.toInt < b.toInt)
  | .ltu => decide (a.toNat < b.toNat)

/-- The condition of VCMP on lanes (R362). -/
def ccLane (c : CC) (a b : Lane) : Bool :=
  match c with
  | .eq => a == b
  | .ne => a != b
  | .lt => decide (a.toInt < b.toInt)
  | .ltu => decide (a.toNat < b.toNat)

/-- FPFLAGS with the flags that an instruction raises; they are sticky (R239). -/
def raiseFlags (f : BitVec 2) (sat nvi : Bool) : BitVec 2 :=
  f ||| BitVec.ofNat 2 (2 * b2n sat + b2n nvi)

/-- A write of FPFLAGS by XSR.WR: bits [1:0] of the value (R343). -/
def writeFlags (v : Word) : BitVec 2 := v.setWidth 2

end Sys2Proof.Machine
end

