-- ==== Sys2Proof/Machine/Float.lean ====
section
/-! DEFINITION. Numbers: the floating-point formats and MK8 (R228 to R233), rounding (R234, R235), exact arithmetic
rounded once (R236, R237, R366 to R369) and conversions with saturation (R238, R371). -/

namespace Sys2Proof.Machine

/-- A floating-point format (R228): field widths, bias, and the magnitudes (sign bit apart) of the largest finite
value, of infinity where the format has one, and of the canonical NaN (R230). -/
structure Fmt where
  eb : Nat
  fb : Nat
  bias : Nat
  maxC : Nat
  infC : Option Nat
  nanC : Nat
  deriving DecidableEq, Repr, Inhabited

def fp32 : Fmt := ⟨8, 23, 127, 0x7F7FFFFF, some 0x7F800000, 0x7FC00000⟩
def bf16 : Fmt := ⟨8, 7, 127, 0x7F7F, some 0x7F80, 0x7FC0⟩
def fp16 : Fmt := ⟨5, 10, 15, 0x7BFF, some 0x7C00, 0x7E00⟩
def e4m3 : Fmt := ⟨4, 3, 7, 0x7E, none, 0x7F⟩
def e5m2 : Fmt := ⟨5, 2, 15, 0x7B, some 0x7C, 0x7E⟩

/-- The sign bit's weight, and the exponent of the smallest subnormal. -/
def Fmt.top (f : Fmt) : Nat := 2 ^ (f.eb + f.fb)
def Fmt.emin (f : Fmt) : Int := 1 - (f.bias : Int) - f.fb

/-- An exact value: NaN, an infinity, or (−1)^neg · m · 2^e; with `more`, a value strictly between that magnitude
and the next integer multiple of 2^e. -/
inductive FVal where
  | nan
  | inf (neg : Bool)
  | fin (neg : Bool) (m : Nat) (e : Int) (more : Bool)
  deriving DecidableEq, Repr, Inhabited

/-- A zero. -/
def FVal.zero (neg : Bool) : FVal := .fin neg 0 0 false

/-- The value of a code (R228). -/
def Fmt.dec (f : Fmt) (c : Nat) : FVal :=
  let neg := decide (c / f.top % 2 = 1)
  let g := c % f.top
  if f.maxC < g then (if f.infC = some g then .inf neg else .nan)
  else
    let x := g / 2 ^ f.fb
    if x = 0 then .fin neg g f.emin false
    else .fin neg (2 ^ f.fb + g % 2 ^ f.fb) ((x : Int) - 1 + f.emin) false

/-- Whether a magnitude k with remainder r of 2^sh, and perhaps more, is rounded up (R234). -/
def roundsUp (rm : RM) (neg : Bool) (k r sh : Nat) (more : Bool) : Bool :=
  match rm with
  | .rne => decide (2 ^ (sh - 1) < r) || (decide (r = 2 ^ (sh - 1)) && (more || k % 2 == 1))
  | .rtz => false
  | .rup => !neg && (decide (r ≠ 0) || more)
  | .rdn => neg && (decide (r ≠ 0) || more)

/-- The integer that a magnitude m · 2^e rounds to in units of 2^q. -/
def roundAt (rm : RM) (neg : Bool) (m : Nat) (e q : Int) (more : Bool) : Nat :=
  if q ≤ e then m * 2 ^ (e - q).toNat
  else
    let sh := (q - e).toNat
    let k := m / 2 ^ sh
    if roundsUp rm neg k (m % 2 ^ sh) sh more then k + 1 else k

/-- A nonzero magnitude rounded once to a format with unbounded exponent: its magnitude code, which exceeds `maxC`
when the rounded value exceeds the largest finite one. -/
def Fmt.roundMag (f : Fmt) (rm : RM) (neg : Bool) (m : Nat) (e : Int) (more : Bool) : Nat :=
  let q := max (e + (Nat.log2 m : Int) - f.fb) f.emin
  (q - f.emin).toNat * 2 ^ f.fb + roundAt rm neg m e q more

def Fmt.signed (f : Fmt) (neg : Bool) (g : Nat) : Nat := if neg then f.top + g else g

/-- An arithmetic result (R236): rounded once, overflow by mode, canonical NaN. -/
def Fmt.enc (f : Fmt) (rm : RM) (x : FVal) : Nat :=
  let inf := f.infC.getD f.maxC
  match x with
  | .nan => f.nanC
  | .inf neg => f.signed neg inf
  | .fin neg m e more =>
    if m = 0 then f.signed neg 0
    else
      let g := f.roundMag rm neg m e more
      if g ≤ f.maxC then f.signed neg g
      else f.signed neg (match rm with
        | .rne => inf
        | .rtz => f.maxC
        | .rup => if neg then f.maxC else inf
        | .rdn => if neg then inf else f.maxC)

/-! ### Exact operations -/

/-- The negative. -/
def FVal.neg : FVal → FVal
  | .nan => .nan
  | .inf n => .inf (!n)
  | .fin n m e w => .fin (!n) m e w

/-- The sign, magnitude apart. -/
def FVal.isNeg : FVal → Bool
  | .nan => false
  | .inf n => n
  | .fin n _ _ _ => n

def FVal.isNan : FVal → Bool
  | .nan => true
  | _ => false

def FVal.isZero : FVal → Bool
  | .fin _ 0 _ _ => true
  | _ => false

/-- A signed integer multiple of 2^q. -/
def signedAt (neg : Bool) (m : Nat) (e q : Int) : Int :=
  let v : Int := m * 2 ^ (e - q).toNat
  if neg then -v else v

/-- The exact sum; a zero sum of opposite signs is +0, or −0 under .rdn (R236). -/
def FVal.add (rm : RM) (x y : FVal) : FVal :=
  match x, y with
  | .nan, _ => .nan
  | _, .nan => .nan
  | .inf a, .inf b => if a = b then .inf a else .nan
  | .inf a, _ => .inf a
  | _, .inf b => .inf b
  | .fin a m e _, .fin b n g _ =>
    if m = 0 ∧ n = 0 then .zero (if a = b then a else rm == .rdn)
    else
      let q := min e g
      let v := signedAt a m e q + signedAt b n g q
      if v = 0 then .zero (rm == .rdn) else .fin (decide (v < 0)) v.natAbs q false

/-- The exact product. -/
def FVal.mul (x y : FVal) : FVal :=
  match x, y with
  | .nan, _ => .nan
  | _, .nan => .nan
  | .inf a, .inf b => .inf (a != b)
  | .inf a, .fin b n _ _ => if n = 0 then .nan else .inf (a != b)
  | .fin a m _ _, .inf b => if m = 0 then .nan else .inf (a != b)
  | .fin a m e _, .fin b n g _ => .fin (a != b) (m * n) (e + g) false

/-- The exact quotient, to 60 bits and what is beyond them (R237). -/
def FVal.div (x y : FVal) : FVal :=
  match x, y with
  | .nan, _ => .nan
  | _, .nan => .nan
  | .inf _, .inf _ => .nan
  | .inf a, .fin b _ _ _ => .inf (a != b)
  | .fin a _ _ _, .inf b => .zero (a != b)
  | .fin a m e _, .fin b n g _ =>
    if n = 0 then (if m = 0 then .nan else .inf (a != b))
    else if m = 0 then .zero (a != b)
    else
      let k := 60 + Nat.log2 n
      .fin (a != b) (m * 2 ^ k / n) (e - g - k) (decide (m * 2 ^ k % n ≠ 0))

/-- The integer square root, from its highest bit down. -/
def isqrtFrom (n : Nat) : (i : Nat) → (r : Nat) → Nat
  | 0, r => r
  | i + 1, r => if (r + 2 ^ i) * (r + 2 ^ i) ≤ n then isqrtFrom n i (r + 2 ^ i) else isqrtFrom n i r
def isqrt (n : Nat) : Nat := isqrtFrom n (Nat.log2 n / 2 + 1) 0

/-- The magnitude with an even exponent. -/
def evenExp (m : Nat) (e : Int) : Nat × Int := if e % 2 = 0 then (m, e) else (2 * m, e - 1)

/-- √x and 1 ÷ √x (R237). -/
def FVal.sqrt (x : FVal) : FVal :=
  match x with
  | .nan => .nan
  | .inf n => if n then .nan else .inf false
  | .fin n m e _ =>
    if m = 0 then .zero n else if n then .nan
    else
      let p := evenExp m e
      let t := isqrt (p.1 * 2 ^ 128)
      .fin false t (p.2 / 2 - 64) (decide (t * t ≠ p.1 * 2 ^ 128))
def FVal.rsqrt (x : FVal) : FVal :=
  match x with
  | .nan => .nan
  | .inf n => if n then .nan else .zero false
  | .fin n m e _ =>
    if m = 0 then .inf n else if n then .nan
    else
      let p := evenExp m e
      let t := isqrt (2 ^ 256 / p.1)
      .fin false t (-(p.2 / 2) - 128) (decide (t * t * p.1 ≠ 2 ^ 256))

/-- Fixed point with 320 fraction bits: ln 2, the exponential series and the series of the inverse hyperbolic
tangent. The operands' results stay further from every rounding boundary than the series' errors (log entry 13). -/
def fxOne : Nat := 2 ^ 320
def fxLn2 : Nat := 0xB17217F7D1CF79ABC9E3B39803F2F6AF40F343267298B62D8A0D175B8BAAFA2BE7B876206DEBAC98
def expSum (y : Nat) : (n : Nat) → (k term sum : Nat) → Nat
  | 0, _, _, sum => sum
  | n + 1, k, term, sum =>
    let t := term * y / fxOne / k
    expSum y n (k + 1) t (sum + t)
def atanhSum (z2 : Nat) : (n : Nat) → (k pow sum : Nat) → Nat
  | 0, _, _, sum => sum
  | n + 1, k, pow, sum => atanhSum z2 n (k + 2) (pow * z2 / fxOne) (sum + pow / k)

/-- 2^x (R237): an integer power is exact; otherwise 2^i times the series at the fraction. -/
def FVal.exp2 (x : FVal) : FVal :=
  match x with
  | .nan => .nan
  | .inf n => if n then .zero false else .inf false
  | .fin n m e _ =>
    let fx : Int := signedAt n m (max e (-320)) (-320)
    let i := fx / (fxOne : Int)
    let f := (fx - i * fxOne).toNat
    if m = 0 then .fin false 1 0 false
    else if 9 ≤ e + Nat.log2 m then (if n then .fin false 1 (-2000) true else .fin false 1 2000 true)
    else if f = 0 then .fin false 1 i false
    else .fin false (expSum (f * fxLn2 / fxOne) 90 1 fxOne fxOne) (i - 320) true

/-- log2 x (R237): exact for a power of 2. -/
def FVal.log2 (x : FVal) : FVal :=
  match x with
  | .nan => .nan
  | .inf n => if n then .nan else .inf false
  | .fin n m e _ =>
    if m = 0 then .inf true else if n then .nan
    else
      let k := Nat.log2 m
      let x : Int := e + k
      if m = 2 ^ k then (if x = 0 then .zero false else .fin (decide (x < 0)) x.natAbs 0 false)
      else
        let z := (m - 2 ^ k) * fxOne / (m + 2 ^ k)
        let l := 2 * atanhSum (z * z / fxOne) 110 1 z 0 * fxOne / fxLn2
        let r : Int := x * fxOne + l
        .fin (decide (r < 0)) r.natAbs (-320) true

/-- FRINT (R368): the integer chosen by the mode; a zero keeps the sign. -/
def FVal.rint (rm : RM) (x : FVal) : FVal :=
  match x with
  | .fin n m e w => .fin n (roundAt rm n m e 0 w) 0 false
  | x => x

/-- FSCALE (R368): times 2^b. -/
def FVal.scale (x : FVal) (b : Int) : FVal :=
  match x with
  | .fin n m e w => .fin n m (e + b) w
  | x => x

/-- x < y and x = y for numbers and infinities; zeros are equal. -/
def FVal.lt (x y : FVal) : Bool :=
  match x, y with
  | .nan, _ => false
  | _, .nan => false
  | .inf a, .inf b => a && !b
  | .inf a, _ => a
  | _, .inf b => !b
  | .fin a m e _, .fin b n g _ =>
    let q := min e g
    decide (signedAt a m e q < signedAt b n g q)
def FVal.eq (x y : FVal) : Bool := !x.isNan && !y.isNan && !x.lt y && !y.lt x

/-- FMIN and FMAX on codes (R366). -/
def Fmt.min (f : Fmt) (a b : Nat) : Nat :=
  match (f.dec a).isNan, (f.dec b).isNan with
  | true, true => f.nanC
  | true, false => b
  | false, true => a
  | false, false =>
    if (f.dec a).lt (f.dec b) then a else if (f.dec b).lt (f.dec a) then b
    else if (f.dec a).isNeg then a else b
def Fmt.max (f : Fmt) (a b : Nat) : Nat :=
  match (f.dec a).isNan, (f.dec b).isNan with
  | true, true => f.nanC
  | true, false => b
  | false, true => a
  | false, false =>
    if (f.dec a).lt (f.dec b) then b else if (f.dec b).lt (f.dec a) then a
    else if (f.dec a).isNeg then b else a

/-- FCMP's condition (R367). -/
def ccNum (c : FCC) (x y : FVal) : Bool :=
  match c with
  | .eq => x.eq y
  | .lt => x.lt y
  | .le => x.lt y || x.eq y
  | .un => x.isNan || y.isNan

/-! ### MK8 (R232, R235) -/

/-- A positive MK8 magnitude m (1 to 127) in units of 2^−12. -/
def mk8Mag (m : Nat) : Nat :=
  let z := 6 - Nat.log2 m
  let body := m % 2 ^ (6 - z)
  if z = 0 then (16 + body % 16) * 2 ^ (body / 16 + 6)
  else if z ≤ 4 then
    let w := 4 - z
    let e := body / 2 ^ w
    let t : Int := if e < 2 then -(2 + 2 * (z : Int)) + e else 2 * (z : Int) + ((e : Int) - 2)
    (2 ^ w + body % 2 ^ w) * 2 ^ (t - w + 12).toNat
  else if z = 5 then (if body = 0 then 2 else 2 ^ 22)
  else 1

/-- The value of an MK8 code. -/
def mk8Dec (c : Nat) : FVal :=
  if c % 256 = 0 then .zero false
  else if c % 256 = 0x80 then .nan
  else .fin (decide (c / 128 % 2 = 1)) (mk8Mag (c % 128)) (-12) false

/-- Magnitude codes with their values. -/
def mk8Table : List (Nat × Nat) := (0, 0) :: (upto 1 127).map fun m => (m, mk8Mag m)

/-- Rounding a magnitude m · 2^e into MK8: the code of the magnitude and whether it saturated (R235, R238). -/
def mk8Round (rm : RM) (neg : Bool) (m : Nat) (e : Int) : Nat × Bool :=
  let q := min e (-12)
  let x := m * 2 ^ (e - q).toNat
  let u := 2 ^ (-12 - q).toNat
  if 2 ^ 22 * u < x then (0x03, true)
  else
    let lo := mk8Table.foldl (fun b p => if p.2 * u ≤ x ∧ b.2 ≤ p.2 then p else b) (0, 0)
    let hi := mk8Table.foldl (fun b p => if x ≤ p.2 * u ∧ p.2 ≤ b.2 then p else b) (0x03, 2 ^ 22)
    if lo.2 * u = x then (lo.1, false)
    else
      let up := match rm with
        | .rtz => false
        | .rup => !neg
        | .rdn => neg
        | .rne =>
          if 2 * x = (lo.2 + hi.2) * u then decide (hi.1 % 2 = 0 ∧ lo.1 % 2 = 1)
          else decide ((lo.2 + hi.2) * u < 2 * x)
      (if up then hi.1 else lo.1, false)

/-! ### Conversions (R238, R371) -/

/-- The format of a floating-point type. -/
def tyFmt? : Ty → Option Fmt
  | .f32 => some fp32
  | .bf16 => some bf16
  | .f16 => some fp16
  | .e4m3 => some e4m3
  | .e5m2 => some e5m2
  | _ => none

/-- Bits of a type, and whether it is an unsigned or a signed integer. -/
def tyBits : Ty → Nat
  | .i32 => 32 | .n32 => 32 | .f32 => 32
  | .i16 => 16 | .n16 => 16 | .bf16 => 16 | .f16 => 16
  | _ => 8
def tyUnsigned : Ty → Bool
  | .n32 => true | .n16 => true | .n8 => true
  | _ => false
def tyInt : Ty → Bool
  | .i32 => true | .i16 => true | .i8 => true | .n32 => true | .n16 => true | .n8 => true
  | _ => false

/-- The exact value of a part. -/
def tyRead (t : Ty) (c : Nat) : FVal :=
  match tyFmt? t with
  | some f => f.dec c
  | none =>
    if t = .mk8 then mk8Dec c
    else
      let v : Int := if tyUnsigned t then ((c % 2 ^ (tyBits t) : Nat) : Int) else sext (tyBits t) c
      .fin (decide (v < 0)) v.natAbs 0 false

/-- Conversions that keep an infinity: widening ones, and FP16 to BF16. -/
def keepsInf (st dt : Ty) : Bool :=
  match dt, st with
  | .f32, .bf16 => true | .f32, .f16 => true | .f32, .e5m2 => true | .f32, .f32 => true
  | .bf16, .e5m2 => true | .bf16, .f16 => true | .bf16, .bf16 => true
  | .f16, .e5m2 => true | .f16, .f16 => true
  | .e5m2, .e5m2 => true
  | _, _ => false

/-- An integer result saturated to a type's range: its bits and whether it saturated. -/
def satInt (t : Ty) (v : Int) : Nat × Bool :=
  let lo : Int := if tyUnsigned t then 0 else -(2 ^ (tyBits t - 1))
  let hi : Int := if tyUnsigned t then 2 ^ (tyBits t) - 1 else 2 ^ (tyBits t - 1) - 1
  if v < lo then (wrap (tyBits t) lo, true) else if hi < v then (wrap (tyBits t) hi, true) else (wrap (tyBits t) v, false)

/-- Convert an exact value read as `st` to `dt`: the bits and whether R238 saturated. -/
def convertNum (rm : RM) (st dt : Ty) (x : FVal) : Nat × Bool :=
  match tyFmt? dt with
  | some f =>
    match x with
    | .nan => (f.nanC, false)
    | .inf n =>
      if keepsInf st dt then (f.signed n (f.infC.getD f.maxC), false) else (f.signed n f.maxC, true)
    | .fin n m e w =>
      if m = 0 then (f.signed n 0, false)
      else
        let g := f.roundMag rm n m e w
        if g ≤ f.maxC then (f.signed n g, false) else (f.signed n f.maxC, true)
  | none =>
    if dt = .mk8 then
      match x with
      | .nan => (0x80, false)
      | .inf n => ((if n then 0x83 else 0x03), true)
      | .fin n m e _ =>
        let r := mk8Round rm n m e
        (if r.1 = 0 then 0 else if n then 128 + r.1 else r.1, r.2)
    else
      match x with
      | .nan => (0, false)
      | .inf n => satInt dt (if n then -(2 ^ 64) else 2 ^ 64)
      | .fin n m e w =>
        let v := roundAt rm n m e 0 w
        satInt dt (if n then -(v : Int) else v)

end Sys2Proof.Machine
end

