-- ==== Sys2Proof/Machine/VectorInt.lean ====
section
/-! DEFINITION. Class 2: the vector integer instructions (R357 to R364). -/

namespace Sys2Proof.Machine

/-- z as a B operand: an instruction that takes none. -/
def noB : BOp := .reg .z

/-- VADD, VSUB, VADDI (R361). -/
def execVadd (h : Hd) (d a : Reg) (b : BOp) (s : State) : Host.Outcome State Fault Refusal :=
  vecDo h d a b (vupdAB d a b) false (fun x y _ => x + y) s
def execVsub (h : Hd) (d a : Reg) (b : BOp) (s : State) : Host.Outcome State Fault Refusal :=
  vecDo h d a b (vupdA d a b) false (fun x y _ => x - y) s
def execVaddi (h : Hd) (d a : Reg) (imm : BitVec 17) (s : State) : Host.Outcome State Fault Refusal :=
  vecDo h d a noB (d == a) false (fun x _ _ => x + imm.signExtend 32) s

/-- VMUL, VMULH, VMULODD, VMAD (R361). -/
def execVmul (h : Hd) (d a : Reg) (b : BOp) (s : State) : Host.Outcome State Fault Refusal :=
  vecDo h d a b false false (fun x y _ => x * y) s
def execVmulh (h : Hd) (un : Bool) (d a : Reg) (b : BOp) (s : State) : Host.Outcome State Fault Refusal :=
  vecDo h d a b false false (fun x y _ => vmulh un x y) s
def execVmulodd (h : Hd) (d a : Reg) (b : BOp) (s : State) : Host.Outcome State Fault Refusal :=
  vecDo h d a b (vupdA d a b) false (fun x y _ => x * (y ||| 1)) s
def execVmad (h : Hd) (d a : Reg) (b : BOp) (s : State) : Host.Outcome State Fault Refusal :=
  vecDo h d a b false true (fun x y z => z + x * y) s

/-- VAND, VOR, VXOR, VANDN, VNOT, VNEG (R361). -/
def execVand (h : Hd) (d a : Reg) (b : BOp) (s : State) : Host.Outcome State Fault Refusal :=
  vecDo h d a b false false (fun x y _ => x &&& y) s
def execVor (h : Hd) (d a : Reg) (b : BOp) (s : State) : Host.Outcome State Fault Refusal :=
  vecDo h d a b false false (fun x y _ => x ||| y) s
def execVxor (h : Hd) (d a : Reg) (b : BOp) (s : State) : Host.Outcome State Fault Refusal :=
  vecDo h d a b (vupdAB d a b) false (fun x y _ => x ^^^ y) s
def execVandn (h : Hd) (d a : Reg) (b : BOp) (s : State) : Host.Outcome State Fault Refusal :=
  vecDo h d a b false false (fun x y _ => x &&& ~~~y) s
def execVnot (h : Hd) (d a : Reg) (s : State) : Host.Outcome State Fault Refusal :=
  vecDo h d a noB (d == a) false (fun x _ _ => ~~~x) s
def execVneg (h : Hd) (d a : Reg) (s : State) : Host.Outcome State Fault Refusal :=
  vecDo h d a noB (d == a) false (fun x _ _ => -x) s

/-- VSHL, VSHR, VSAR, VROL by b mod 32 (R361). -/
def execVshl (h : Hd) (d a : Reg) (b : BOp) (s : State) : Host.Outcome State Fault Refusal :=
  vecDo h d a b false false (fun x y _ => x <<< (y.toNat % 32)) s
def execVshr (h : Hd) (d a : Reg) (b : BOp) (s : State) : Host.Outcome State Fault Refusal :=
  vecDo h d a b false false (fun x y _ => x >>> (y.toNat % 32)) s
def execVsar (h : Hd) (d a : Reg) (b : BOp) (s : State) : Host.Outcome State Fault Refusal :=
  vecDo h d a b false false (fun x y _ => x.sshiftRight (y.toNat % 32)) s
def execVrol (h : Hd) (d a : Reg) (b : BOp) (s : State) : Host.Outcome State Fault Refusal :=
  vecDo h d a b (vupdA d a b) false (fun x y _ => vrol x y) s

/-- VMIN, VMAX, VABS (R361); the absolute value of −2^31 is −2^31. -/
def execVmin (h : Hd) (un : Bool) (d a : Reg) (b : BOp) (s : State) : Host.Outcome State Fault Refusal :=
  vecDo h d a b false false (fun x y _ => vmin un x y) s
def execVmax (h : Hd) (un : Bool) (d a : Reg) (b : BOp) (s : State) : Host.Outcome State Fault Refusal :=
  vecDo h d a b false false (fun x y _ => vmax un x y) s
def execVabs (h : Hd) (d a : Reg) (s : State) : Host.Outcome State Fault Refusal :=
  vecDo h d a noB false false (fun x _ _ => if x.toInt < 0 then -x else x) s

/-- VCMP (R362): one bit of each active lane. -/
def execVcmp (h : Hd) (cc : CC) (bit : Fin 32) (d a : Reg) (b : BOp) (s : State) :
    Host.Outcome State Fault Refusal :=
  vecBitDo h bit d a b (ccLane cc) s

/-- What VSEL selects in a lane (R364). -/
def selLane (s : State) (h : Hd) (a : Reg) (b : BOp) (l : Nat) : LVal :=
  if guardL s h l then srcL s a l else srcB s b l

/-- VSEL (R364): the guard selects and every lane is written; poison comes from the selected value and the guard. -/
def execVsel (h : Hd) (d a : Reg) (b : BOp) (s : State) : Host.Outcome State Fault Refusal :=
  issue { h, reads := [a, b.r], writes := [d], roles := rolesVecCtl, vec := true }
    { crumbs := crumbV s d (upto 0 32) }
    (fun t => putV t d ((upto 0 32).map fun l =>
      (l, lanePoison (selLane s h a b l).v [selLane s h a b l, srcL s h.gr l]))) s

/-- VMOV (R361). -/
def execVmov (h : Hd) (d a : Reg) (s : State) : Host.Outcome State Fault Refusal :=
  vecDo h d a noB false false (fun x _ _ => x) s

/-- VSWAP (R364): values and poison state change places in the active lanes; no crumb. -/
def execVswap (h : Hd) (d a : Reg) (s : State) : Host.Outcome State Fault Refusal :=
  issue { h, reads := [d, a], writes := [d, a], roles := rolesVecCtl, vec := true } {}
    (fun t => if d = a then t else
      putV (putV t d ((lanesOn s h).map fun l => (l, srcL s a l))) a ((lanesOn s h).map fun l => (l, srcL s d l))) s

/-- VCLZ and VPOPC (R361). -/
def execVclz (h : Hd) (d a : Reg) (s : State) : Host.Outcome State Fault Refusal :=
  vecDo h d a noB false false (fun x _ _ => w32 (clzN x.toNat 32)) s
def execVpopc (h : Hd) (d a : Reg) (s : State) : Host.Outcome State Fault Refusal :=
  vecDo h d a noB false false (fun x _ _ => w32 (popN x.toNat 32)) s

/-- VBFLIP (R361): bit b mod 32 flipped. -/
def execVbflip (h : Hd) (d a : Reg) (b : BOp) (s : State) : Host.Outcome State Fault Refusal :=
  vecDo h d a b (vupdA d a b) false (fun x y _ => x ^^^ w32 (2 ^ (y.toNat % 32))) s

/-- VBEXT and VBINS (R363). -/
def execVbext (h : Hd) (un : Bool) (pos lenm : Fin 32) (d a : Reg) (s : State) :
    Host.Outcome State Fault Refusal :=
  vecDo h d a noB false false (fun x _ _ => vbext un pos lenm x) s
def execVbins (h : Hd) (pos lenm : Fin 32) (d a : Reg) (s : State) : Host.Outcome State Fault Refusal :=
  vecDo h d a noB false true (fun x _ z => vbins pos lenm x z) s

/-- VBCAST (R364): half of a scalar register in every active lane. -/
def execVbcast (h : Hd) (hi : Bool) (d a : Reg) (s : State) : Host.Outcome State Fault Refusal :=
  let x := srcS s a
  let half (l : Nat) : LVal := if hi then { v := (x.v >>> 32).setWidth 32, p := x.p, o := x.o } else srcL s a l
  issue { h, reads := [a], writes := [d], roles := rolesVecCtl, vec := true }
    { crumbs := crumbV s d (lanesOn s h) }
    (fun t => putV t d ((lanesOn s h).map fun l =>
      (l, lanePoison (half l).v [half l, srcL s h.gr l]))) s

end Sys2Proof.Machine
end

