-- ==== Sys2Proof/Machine/VectorFp.lean ====
section
/-! DEFINITION. Class 3: the vector floating-point instructions (R365 to R371). -/

namespace Sys2Proof.Machine

/-- The FP32 value of a lane. -/
def fl (a : Lane) : FVal := fp32.dec a.toNat

/-- An FP32 instruction: the exact result of the lane's operands, rounded once (R236, R365). -/
def fpDo (h : Hd) (rm : RM) (d a : Reg) (b : BOp) (readsD : Bool) (f : Lane → Lane → Lane → FVal) (s : State) :
    Host.Outcome State Fault Refusal :=
  vecDo h d a b false readsD (fun x y z => w32 (fp32.enc rm (f x y z))) s

/-- FADD, FSUB, FMUL, FFMA (R236). -/
def execFadd (h : Hd) (rm : RM) (d a : Reg) (b : BOp) (s : State) : Host.Outcome State Fault Refusal :=
  fpDo h rm d a b false (fun x y _ => (fl x).add rm (fl y)) s
def execFsub (h : Hd) (rm : RM) (d a : Reg) (b : BOp) (s : State) : Host.Outcome State Fault Refusal :=
  fpDo h rm d a b false (fun x y _ => (fl x).add rm (fl y).neg) s
def execFmul (h : Hd) (rm : RM) (d a : Reg) (b : BOp) (s : State) : Host.Outcome State Fault Refusal :=
  fpDo h rm d a b false (fun x y _ => (fl x).mul (fl y)) s
def execFfma (h : Hd) (rm : RM) (d a : Reg) (b : BOp) (s : State) : Host.Outcome State Fault Refusal :=
  fpDo h rm d a b true (fun x y z => ((fl x).mul (fl y)).add rm (fl z)) s

/-- FMIN and FMAX (R366). -/
def execFmin (h : Hd) (d a : Reg) (b : BOp) (s : State) : Host.Outcome State Fault Refusal :=
  vecDo h d a b false false (fun x y _ => w32 (fp32.min x.toNat y.toNat)) s
def execFmax (h : Hd) (d a : Reg) (b : BOp) (s : State) : Host.Outcome State Fault Refusal :=
  vecDo h d a b false false (fun x y _ => w32 (fp32.max x.toNat y.toNat)) s

/-- FCMP (R367). -/
def execFcmp (h : Hd) (cc : FCC) (bit : Fin 32) (d a : Reg) (b : BOp) (s : State) :
    Host.Outcome State Fault Refusal :=
  vecBitDo h bit d a b (fun x y => ccNum cc (fl x) (fl y)) s

/-- FEXP2, FLOG2, FRCP, FRSQ, FSQRT, FDIV (R237). -/
def execFexp2 (h : Hd) (rm : RM) (d a : Reg) (s : State) : Host.Outcome State Fault Refusal :=
  fpDo h rm d a noB false (fun x _ _ => (fl x).exp2) s
def execFlog2 (h : Hd) (rm : RM) (d a : Reg) (s : State) : Host.Outcome State Fault Refusal :=
  fpDo h rm d a noB false (fun x _ _ => (fl x).log2) s
def execFrcp (h : Hd) (rm : RM) (d a : Reg) (s : State) : Host.Outcome State Fault Refusal :=
  fpDo h rm d a noB false (fun x _ _ => (FVal.fin false 1 0 false).div (fl x)) s
def execFrsq (h : Hd) (rm : RM) (d a : Reg) (s : State) : Host.Outcome State Fault Refusal :=
  fpDo h rm d a noB false (fun x _ _ => (fl x).rsqrt) s
def execFsqrt (h : Hd) (rm : RM) (d a : Reg) (s : State) : Host.Outcome State Fault Refusal :=
  fpDo h rm d a noB false (fun x _ _ => (fl x).sqrt) s
def execFdiv (h : Hd) (rm : RM) (d a : Reg) (b : BOp) (s : State) : Host.Outcome State Fault Refusal :=
  fpDo h rm d a b false (fun x y _ => (fl x).div (fl y)) s

/-- FRINT and FSCALE (R368). -/
def execFrint (h : Hd) (rm : RM) (d a : Reg) (s : State) : Host.Outcome State Fault Refusal :=
  fpDo h rm d a noB false (fun x _ _ => (fl x).rint rm) s
def execFscale (h : Hd) (rm : RM) (d a : Reg) (b : BOp) (s : State) : Host.Outcome State Fault Refusal :=
  fpDo h rm d a b false (fun x y _ => (fl x).scale y.toInt) s

/-- Part `p` of `n` bits of a lane, and the lane with that part written (R370). -/
def partOf (a : Lane) (n p : Nat) : Nat := a.toNat / 2 ^ (n * p) % 2 ^ n
def withPart (d : Lane) (n p v : Nat) : Lane :=
  w32 (d.toNat - partOf d n p * 2 ^ (n * p) + v % 2 ^ n * 2 ^ (n * p))

/-- CVT of one lane: the new lane, and the flags that it raises (R371). -/
def cvtLane (rm : RM) (dt st : Ty) (sp dp : Nat) (a d : Lane) : Lane × Bool × Bool :=
  let x := tyRead st (partOf a (tyBits st) sp)
  let y := convertNum rm st dt x
  (withPart d (tyBits dt) dp y.1, y.2, x.isNan && tyInt dt)

/-- CVT (R370, R371): a narrow destination keeps the lane's other bits; active lanes without poison in the value
they convert set FPFLAGS (R239). -/
def execCvt (h : Hd) (rm : RM) (dt st : Ty) (sp dp : Fin 4) (d a : Reg) (s : State) :
    Host.Outcome State Fault Refusal :=
  let part := decide (tyBits dt ≠ 32)
  let rs := (lanesOn s h).map fun l => (l, cvtLane rm dt st sp dp (srcL s a l).v (srcL s d l).v)
  let clean := rs.filter fun r => !(srcL s a r.1).p
  issue { h, reads := [a] ++ (if part then [d] else []), writes := [d], roles := rolesVecCtl, vec := true }
    { crumbs := crumbV s d (lanesOn s h) }
    (fun t => (putV t d (rs.map fun r => (r.1, lanePoison r.2.1 (laneReads s h a noB d part r.1)))).modMe
      fun g => { g with fpflags := raiseFlags g.fpflags (clean.any (·.2.2.1)) (clean.any (·.2.2.2)) }) s

/-- Both halves of a lane under one operation (R369). -/
def halves (f16 : Bool) (op : Fmt → Nat → Nat → Nat → Nat) (x y z : Lane) : Lane :=
  let f := if f16 then fp16 else bf16
  let half (p : Nat) : Nat := op f (partOf x 16 p) (partOf y 16 p) (partOf z 16 p)
  w32 (half 0 + 2 ^ 16 * half 1)

/-- HADD2, HMUL2, HFMA2, HMAX2 (R369). -/
def execHadd2 (h : Hd) (rm : RM) (f16 : Bool) (d a : Reg) (b : BOp) (s : State) : Host.Outcome State Fault Refusal :=
  vecDo h d a b false false (halves f16 fun f x y _ => f.enc rm ((f.dec x).add rm (f.dec y))) s
def execHmul2 (h : Hd) (rm : RM) (f16 : Bool) (d a : Reg) (b : BOp) (s : State) : Host.Outcome State Fault Refusal :=
  vecDo h d a b false false (halves f16 fun f x y _ => f.enc rm ((f.dec x).mul (f.dec y))) s
def execHfma2 (h : Hd) (rm : RM) (f16 : Bool) (d a : Reg) (b : BOp) (s : State) : Host.Outcome State Fault Refusal :=
  vecDo h d a b false true (halves f16 fun f x y z => f.enc rm (((f.dec x).mul (f.dec y)).add rm (f.dec z))) s
def execHmax2 (h : Hd) (f16 : Bool) (d a : Reg) (b : BOp) (s : State) : Host.Outcome State Fault Refusal :=
  vecDo h d a b false false (halves f16 fun f x y _ => f.max x y) s

end Sys2Proof.Machine
end

