-- ==== Sys2Proof/Machine/LaneOps.lean ====
section
/-! DEFINITION. Class 4: the lane instructions (R372 to R374) and the reduction tree of R247. -/

namespace Sys2Proof.Machine

/-- A lane instruction whose active lane L takes source lane `src L` of A (R372): poisoned by that lane, by `extra`
and by the guard. -/
def permDo (h : Hd) (d a : Reg) (reads : List Reg) (src : Nat → Nat) (extra : Nat → List LVal) (s : State) :
    Host.Outcome State Fault Refusal :=
  issue { h, reads := a :: reads, writes := [d], roles := rolesVecCtl, vec := true }
    { crumbs := crumbV s d (lanesOn s h) }
    (fun t => putV t d ((lanesOn s h).map fun l =>
      let x := srcL s a (src l)
      (l, lanePoison x.v ([x] ++ extra l ++ [srcL s h.gr l])))) s

/-- LPERM and LSHUF. -/
def execLperm (h : Hd) (d a b : Reg) (s : State) : Host.Outcome State Fault Refusal :=
  permDo h d a [b] (fun l => (srcL s b l).v.toNat % 32) (fun l => [srcL s b l]) s
def execLshuf (h : Hd) (m : Fin 32) (d a : Reg) (s : State) : Host.Outcome State Fault Refusal :=
  permDo h d a [] (fun l => l ^^^ m.val) (fun _ => []) s

/-- The lane count of LROT and LBCAST in a lane: the low 5 bits of B as the lane reads it, plus the constant, modulo 32
(R357, R372). -/
def laneCount (s : State) (n : Fin 32) (b : Reg) (l : Nat) : Nat := ((srcL s b l).v.toNat % 32 + n.val) % 32

/-- LROT and LBCAST. -/
def execLrot (h : Hd) (n : Fin 32) (d a b : Reg) (s : State) : Host.Outcome State Fault Refusal :=
  permDo h d a [b] (fun l => (l + laneCount s n b l) % 32) (fun l => [srcL s b l]) s
def execLbcast (h : Hd) (n : Fin 32) (d a b : Reg) (s : State) : Host.Outcome State Fault Refusal :=
  permDo h d a [b] (laneCount s n b) (fun l => [srcL s b l]) s

/-- How a reduction combines two values (R373). -/
def combine (op : ROp) (ty : RTy) (rm : RM) (x y : Lane) : Lane :=
  match ty, op with
  | .f32, .add => w32 (fp32.enc rm ((fl x).add rm (fl y)))
  | .f32, .min => w32 (fp32.min x.toNat y.toNat)
  | .f32, _ => w32 (fp32.max x.toNat y.toNat)
  | _, .add => x + y
  | ty, .min => vmin (ty == .n32) x y
  | ty, .max => vmax (ty == .n32) x y
  | _, .and => x &&& y
  | _, .or => x ||| y
  | _, .xor => x ^^^ y

/-- The identity that an inactive lane enters with (R373). -/
def identity (op : ROp) (ty : RTy) : Lane :=
  match ty, op with
  | .f32, .add => 0x80000000
  | .f32, .min => 0x7F800000
  | .f32, _ => 0xFF800000
  | .i32, .min => 0x7FFFFFFF
  | .i32, .max => 0x80000000
  | .n32, .min => 0xFFFFFFFF
  | _, .and => 0xFFFFFFFF
  | _, _ => 0

/-- A node of the tree: its value and the origin of its lowest poisoned active lane. -/
def joinNode (op : ROp) (ty : RTy) (rm : RM) (x y : LVal) : LVal :=
  let v := combine op ty rm x.v y.v
  if x.p then { v, p := true, o := x.o } else { v, p := y.p, o := if y.p then y.o else 0 }

/-- The node over 2^k lanes from lane `l` (R247). -/
def treeNode (op : ROp) (ty : RTy) (rm : RM) (leaf : Nat → LVal) : (k : Nat) → (l : Nat) → LVal
  | 0, l => leaf l
  | k + 1, l => joinNode op ty rm (treeNode op ty rm leaf k l) (treeNode op ty rm leaf k (l + 2 ^ k))

/-- LSCAN's prefix over `n` lanes from lane `l`: the largest aligned nodes, added from the lowest upward. -/
def prefixNode (op : ROp) (ty : RTy) (rm : RM) (leaf : Nat → LVal) :
    (k : Nat) → (l n : Nat) → Option LVal → Option LVal
  | 0, l, n, acc => if n % 2 = 1 then
      some (match acc with
        | none => leaf l
        | some a => joinNode op ty rm a (leaf l)) else acc
  | k + 1, l, n, acc =>
    if n.testBit (k + 1) then
      let x := treeNode op ty rm leaf (k + 1) l
      prefixNode op ty rm leaf k (l + 2 ^ (k + 1)) n (some (match acc with
        | none => x
        | some a => joinNode op ty rm a x))
    else prefixNode op ty rm leaf k l n acc

/-- A leaf of the tree: the lane's value, or the identity where the guard fails. -/
def redLeaf (s : State) (h : Hd) (op : ROp) (ty : RTy) (a : Reg) (l : Nat) : LVal :=
  if guardL s h l then srcL s a l else { v := identity op ty }

/-- A scalar result of active lanes' values with their poison and the guard's. -/
def scalarOfLanes (s : State) (h : Hd) (v : Word) (xs : List LVal) : SVal :=
  match (xs ++ (lanesOn s h).map (srcL s h.gr)).find? (·.p) with
  | some x => { v, p := true, o := x.o }
  | none => { v }

/-- LRED (R373): a vector D takes the reduction in every active lane; a scalar D is written in every case. -/
def execLred (h : Hd) (op : ROp) (ty : RTy) (rm : RM) (d a : Reg) (s : State) : Host.Outcome State Fault Refusal :=
  let x := treeNode op ty rm (redLeaf s h op ty a) 5 0
  issue { h, reads := [a], writes := [d], roles := rolesVecCtl, vec := true }
    { crumbs := if d.isV then crumbV s d (lanesOn s h) else crumbS s d false }
    (fun t =>
      if d.isV then putV t d ((lanesOn s h).map fun l => (l, lanePoison x.v [x, srcL s h.gr l]))
      else putS t d (scalarOfLanes s h (if ty = .i32 then x.v.signExtend 64 else x.v.zeroExtend 64) [x])) s

/-- A result of a reduction as it is written: lane 0 of LSCAN passes through no addition, and its NaN is canonical all the same
(R230). -/
def canonical (ty : RTy) (v : Lane) : Lane :=
  match ty, fl v with
  | .f32, .nan => w32 fp32.nanC
  | _, _ => v

/-- LSCAN (R373). -/
def execLscan (h : Hd) (op : ROp) (ty : RTy) (rm : RM) (d a : Reg) (s : State) : Host.Outcome State Fault Refusal :=
  issue { h, reads := [a], writes := [d], roles := rolesVecCtl, vec := true }
    { crumbs := crumbV s d (lanesOn s h) }
    (fun t => putV t d ((lanesOn s h).map fun l =>
      let x := (prefixNode op ty rm (redLeaf s h op ty a) 5 0 (l + 1) none).getD {}
      (l, lanePoison (canonical ty x.v) [x, srcL s h.gr l]))) s

/-- LBITS (R374): one bit of each active lane gathered into a scalar. -/
def execLbits (h : Hd) (n : Fin 32) (d a : Reg) (s : State) : Host.Outcome State Fault Refusal :=
  let act := lanesOn s h
  let v := act.foldl (fun m l => m + b2n (bit (srcL s a l).v n) * 2 ^ l) 0
  issue { h, reads := [a], writes := [d], roles := rolesVecCtl, vec := true }
    { crumbs := crumbS s d false }
    (fun t => putS t d (scalarOfLanes s h (w64 v) (act.map (srcL s a)))) s

/-- LSPREAD (R374): bit L of a scalar into one bit of active lane L. -/
def execLspread (h : Hd) (n : Fin 32) (d a : Reg) (s : State) : Host.Outcome State Fault Refusal :=
  let x (l : Nat) : LVal := srcL s a l
  let reads (l : Nat) : List LVal := [x l, srcL s d l, srcL s h.gr l]
  issue { h, reads := [a, d], writes := [d], roles := rolesVecCtl, vec := true }
    { crumbs := crumbLaneBit s h d n fun l => [x l, srcL s h.gr l] }
    (fun t => putV t d ((lanesOn s h).map fun l =>
      (l, lanePoison (setLaneBit (srcL s d l).v n (bit (x l).v l)) (reads l)))) s

end Sys2Proof.Machine
end

