-- ==== Sys2Proof/Machine/Access.lean ====
section
/-! DEFINITION. The access procedure of class 5 (R377, R378): addresses, what each lane's access reaches, its checks,
the crumbs of R380, and the plain loads, stores and exchanges (R381 to R383). -/

namespace Sys2Proof.Machine

/-- Bytes of the access size code of scalar and per-lane accesses (R377). -/
def szBytes (sz : Fin 4) : Nat := 2 ^ sz.val

/-- The registers that an address reads. -/
def Addr.regs : Addr → List Reg
  | .imm a _ => [a]
  | .ext _ o => [o]
  | .lane a b => [a, b]

/-- Whether an address is per lane (AM 2). -/
def Addr.perLane : Addr → Bool
  | .lane _ _ => true
  | _ => false

/-- The values that lane `l` reads for its address. -/
def addrReads (s : State) (m : Addr) (l : Nat) : List LVal := (Addr.regs m).map fun r => srcL s r l

/-- The offset of an extent-relative access of lane `l`, `step` bytes a lane. -/
def extOff (s : State) (o : Reg) (l step : Nat) : Nat := ((srcS s o).v.toNat + step * l) % 2 ^ 64

/-- The address of lane `l` (R299, R75). -/
def addrOf (s : State) (m : Addr) (l step : Nat) : Nat :=
  match m with
  | .imm a off => ((srcS s a).v + off.signExtend 64 + w64 (step * l)).toNat
  | .ext slot o => extVa s.myTask slot (extOff s o l step)
  | .lane a b => ((srcS s a).v + (srcL s b l).v.signExtend 64).toNat

/-- What an instruction's addresses name: memory, local memory, or the control cores' address space. -/
inductive Space where
  | mem | lmem | ctl
  deriving DecidableEq, Repr, Inhabited

def spaceOf (s : State) (loc : Bool) : Space := if s.me.isControl then .ctl else if loc then .lmem else .mem

/-- A VA as an access of the current group resolves it: a line that the core's L1 holds for it is used as it was recorded, under
the permissions recorded with it (R149); any other is translated. -/
def lookHit (s : State) (va : Nat) (n : Need) : Look :=
  match (if s.me.isControl then none else l1Find s s.me.seat.core s.myP s.myAsid (va / 128)) with
  | some x => if grants x.leaf n then .ok (.dev (128 * x.line + va % 128)) x.leaf else .bad 2
  | none => look s va n

/-- The access of lane `l`: `n` bytes, resolved under `need` when it names memory. -/
def mkAcc (s : State) (sp : Space) (m : Addr) (n step : Nat) (need : Need) (l : Nat) : Acc :=
  let va := addrOf s m l step
  { lane := l, va, n,
    look := match sp with
      | .mem => match m with
        | .ext slot o => lookExt s slot (extOff s o l step) n need
        | _ => lookHit s va need
      | _ => .bad 0 }

/-! ### The control cores' addresses (R352, R446, R448) -/

/-- Whether control core `c` may load or store `n` bytes at an offset (R446). -/
def ctlOk (c a n : Nat) (write : Bool) : Bool :=
  let e := a + n
  decide (e ≤ 0xE00000)
    || (decide (0xE00000 ≤ a ∧ e ≤ 0xE80000) && (!write || c == 0))
    || (decide (0xE80000 ≤ a ∧ e ≤ 0xF00000) && !write)
    || decide (0xFFFF00 ≤ a ∧ e ≤ 0xFFFF40)

/-- Bytes at an offset. -/
def ctlRead (s : State) (a n : Nat) : List Byte :=
  if a < 0xE00000 ∨ 0xF00000 ≤ a then s.mem.schedBytes a n
  else
    let slot := if a < 0xE80000 then !s.zal.active else s.zal.active
    leBytes n (s.zal.window slot (a % 0x80000) n)

/-- Bytes of an image with some replaced; an image grows with zeros. -/
def spliceAt (img : List Byte) (o : Nat) (bs : List Byte) : List Byte :=
  img.take o ++ leBytes (o - img.length) 0 ++ bs ++ img.drop (o + bs.length)

/-- A store at an offset; one into the inactive slot's window clears its verified state and touches a VERIFY that is
outstanding (R448). -/
def ctlWrite (s : State) (a : Nat) (bs : List Byte) : State :=
  if 0xE00000 ≤ a ∧ a < 0xE80000 then
    let slot := !s.zal.active
    let z := (s.zal.setSlot slot (spliceAt (s.zal.slot slot) (a % 0x80000) bs)).setVerified slot false
    { s with zal := z.touch slot }
  else { s with mem := s.mem.setSched a bs }

def ctlWrites (s : State) : List (Acc × List Byte) → State
  | [] => s
  | (a, bs) :: t => ctlWrites (ctlWrite s a.va bs) t

/-! ### Reading and writing through any space -/

/-- How an access meets memory. -/
inductive Use where
  | load | store | atomic
  deriving DecidableEq, Repr

/-- What one access reads: the number, and the poison cause (R204). -/
def readAcc (s : State) (sp : Space) (u : Use) (a : Acc) : Nat × Option Nat :=
  match sp with
  | .mem => if u = .load then loadAcc s a else homeAcc s a
  | .lmem => let r := localLoadBy s a.lane a.va a.n; (r.1, if r.2 then some 4 else none)
  | .ctl => (ofLe (ctlRead s a.va a.n), none)

/-- The old bytes of an access that will be written, and whether a line of them is poisoned. -/
def oldOf (s : State) (sp : Space) (a : Acc) : Nat × Bool :=
  match sp with
  | .mem => oldAcc s a
  | .lmem => localLoad s a.va a.n
  | .ctl => (ofLe (ctlRead s a.va a.n), false)

/-- Write the lanes in order (R249). -/
def writeSpace (s : State) (sp : Space) (u : Use) (ws : List (Acc × List Byte)) : State :=
  match sp with
  | .mem => storeAll s ws (u == .atomic)
  | .lmem => localStoreAll s s.byMe (ws.map fun w => (w.1.va, w.2))
  | .ctl => ctlWrites s ws

/-- Translations are kept, lines met and cached, and lines noted before an access (R203, R208, R265); an exchange acts at
the home. -/
def beginSpace (s : State) (sp : Space) (u : Use) (m : Addr) (as : List Acc) : State :=
  match sp with
  | .mem => s.begin (match m with | .ext _ _ => false | _ => true) (u != .load) (u == .atomic) as
  | _ => s

/-- What was read is not read older again (R251). -/
def noteReads (s : State) (sp : Space) (u : Use) (as : List Acc) : State :=
  match sp with
  | .mem => s.see (as.flatMap fun a => if u = .load then readBy s a else homeReadBy s a)
  | .lmem => s.see (as.flatMap fun a => localReadBy s a.lane a.va a.n)
  | .ctl => s

/-! ### Checks (R378, R379) -/

/-- Why an access is denied, as the cause of its ACCESS. -/
def deniedBy (s : State) (sp : Space) (u : Use) (a : Acc) : Option Nat :=
  match sp with
  | .ctl => if ctlOk s.me.key a.va a.n (u != .load) then none else some 1
  | .lmem => if localDenied s a.va a.n then some 1 else none
  | .mem => match u with
    | .load => if a.look.loadTrap s a.n then some 1 else none
    | .store => a.look.storeDenied s a.n
    | .atomic => a.look.atomicDenied s a.n

/-- The access with the lowest address among denied ones. -/
def lowestDenied : List (Nat × Nat) → Option (Nat × Nat)
  | [] => none
  | x :: t => match lowestDenied t with
    | none => some x
    | some y => if y.1 < x.1 then some y else some x

/-- ALIGN, then ACCESS with the lowest denied address (R378). -/
def accTrap (s : State) (sp : Space) (u : Use) (as : List Acc) : Option Trap :=
  match as.find? fun a => decide (a.va % a.n ≠ 0) with
  | some a => some { code := 6, addr := a.va }
  | none =>
    match lowestDenied (as.filterMap fun a => (deniedBy s sp u a).map fun c => (a.va, c)) with
    | some (va, c) => access c va
    | none => none

/-- POISON_USE of active lanes: the lanes that hold poison, and the lowest one's index (R206, R110). -/
def lanesPoison (rs : List (Nat × List LVal)) : Option (BitVec 32 × Option (BitVec 3)) :=
  let bad := rs.filterMap fun r => (r.2.find? (·.p)).map fun x => (r.1, x.o)
  match bad with
  | [] => none
  | (_, o) :: _ => some (maskOf (bad.map (·.1)), some o)

/-- Whether an access touches a line PRIVATE to another gang (R263). -/
def accForeign (s : State) (as : List Acc) : Bool :=
  as.any fun a => match a.look with
    | .ok l _ => privateOther s l
    | .bad _ => false

/-- R258: the write that would be the 256th unacknowledged one waits. -/
def ackWait (s : State) (as : List Acc) : Option Wait :=
  if 255 < s.me.acks + (trafficOf s (locsOf as)).length then some .ackRoom else none

/-! ### Crumbs (R125, R380) -/

/-- Eight-byte words of a list of bytes. -/
def padWords (bs : List Byte) : List Word := bytesWords ((bs.length + 7) / 8) bs

/-- The memory crumb of lanes about to be written: one payload word of 0 when no lane is active. -/
def crumbMem (s : State) (sp : Space) (as : List Acc) : List Crumb :=
  let kind := if sp = .lmem then 0x06 else 0x05
  let keep := if sp = .lmem then 2 ^ 24 else 2 ^ 56
  match as with
  | [] => [mkCrumb kind s.me.hist.ic 0 [0]]
  | a :: _ =>
    let olds := as.map fun x => (x, oldOf s sp x)
    let bad := b2n (olds.any (·.2.2))
    [mkCrumb kind s.me.hist.ic (maskOf (as.map (·.lane)))
      (w64 (bad * 2 ^ 63 + a.va % keep) :: padWords (olds.flatMap fun x => leBytes x.1.n x.2.1))]

/-! ### Results -/

/-- A loaded number extended from `n` bytes (R377). -/
def extLane (n : Nat) (un : Bool) (v : Nat) : Lane :=
  if un || decide (4 ≤ n) then w32 v else BitVec.ofInt 32 (sext (8 * n) v)
def extWord (n : Nat) (un : Bool) (v : Nat) : Word :=
  if un || decide (8 ≤ n) then w64 v else BitVec.ofInt 64 (sext (8 * n) v)

/-- The lowest poisoned access of a load with its cause and address. -/
def firstBad (rs : List (Acc × Nat × Option Nat)) : Option (Nat × Nat) :=
  match rs with
  | [] => none
  | (a, _, some c) :: _ => some (c, a.va)
  | (_, _, none) :: t => firstBad t

/-- Lanes loaded into a vector register, or into two when an element has 8 bytes (R383). -/
def loadedLanes (tick n : Nat) (un : Bool) (o : BitVec 3) (r : Nat) (rs : List (Acc × Nat × Option Nat)) :
    List (Nat × LVal) :=
  rs.flatMap fun x =>
    let l := x.1.lane
    match x.2.2 with
    | some _ =>
      let p := Config.poisonValue tick l
      (32 * r + l, { v := p.setWidth 32, p := true, o }) ::
        (if n = 8 then [(32 * (r + 1) + l, { v := (p >>> 32).setWidth 32, p := true, o })] else [])
    | none =>
      (32 * r + l, { v := extLane n un x.2.1 }) ::
        (if n = 8 then [(32 * (r + 1) + l, { v := w32 (x.2.1 / 2 ^ 32) })] else [])

/-- Write lanes named by 32 * register + lane. -/
def Group.putLanes (g : Group) : List (Nat × LVal) → Group
  | [] => g
  | (k, v) :: t => Group.putLanes { g with regs := { g.regs with v := Tab.set {} g.regs.v k v } } t

/-- Write scalar registers by number. -/
def Group.putScalars (g : Group) : List (Nat × SVal) → Group
  | [] => g
  | (k, v) :: t => Group.putScalars (g.setS k v) t

/-- A delivery reaches its registers. -/
def Group.deliver (g : Group) (d : Delivery) : Group := (g.putScalars d.scalars).putLanes d.lanes

/-- The scalar loaded by a scalar access (R381). -/
def loadedScalar (tick n : Nat) (un : Bool) (o : BitVec 3) (x : Acc × Nat × Option Nat) : SVal :=
  match x.2.2 with
  | some _ => { v := Config.poisonValue tick 0, p := true, o }
  | none => { v := extWord n un x.2.1 }

/-- The index of a vector register; 0 for any other. -/
def Reg.vIx : Reg → Nat
  | .v i => i
  | _ => 0
def Reg.sIx : Reg → Nat
  | .s i => i
  | _ => 0

/-- The lowest free scoreboard slot (R104). -/
def freeSlot (sb : List SbSlot) : Nat :=
  ((upto 0 8).find? fun n => !sb.any (·.slot == n)).getD 8

/-- A split-phase result takes a slot. -/
def takeSlot (s : State) (regs : List Reg) (ic : Word) (res : Delivery) (late : Bool := false) : State :=
  s.modMe fun g => { g with sb := g.sb ++ [{ slot := freeSlot g.sb, regs, ic, res, late }] }

/-- A slot's result has come: the slot is free, and until SB.WAIT the hazard detector knows of its registers (R104). -/
def Group.endSlot (g : Group) (x : SbSlot) : Group :=
  { g.deliver x.res with sb := g.sb.filter (·.slot != x.slot),
                         unwaited := ((g.unwaited.map (·.filter fun r => !x.regs.any (· == r))).filter (!·.isEmpty)) ++ [x.regs] }

/-- A load of host or peer memory may still meet a completion error (R202). -/
def hostLoadOf (ds : List Reg) (ic : Word) (as : List Acc) : Option HostLoad :=
  let hs := as.filter fun a => match a.look with
    | .ok (.host _) _ => true
    | .ok (.peer _) _ => true
    | _ => false
  if hs.isEmpty then none else some { ds, ic, accs := hs.map fun a => (a.lane, a.va) }

/-! ### The plain accesses -/

/-- The shape of a plain access (R377): its data register, address, size and extension; whether it reaches local
memory, acts in lanes, writes, reads, is split-phase, and is a gather. -/
structure Plain where
  h : Hd
  d : Reg
  m : Addr
  n : Nat
  un : Bool := false
  loc : Bool := false
  vec : Bool := false
  wr : Bool := false
  rd : Bool := false
  split : Bool := false
  gath : Bool := false
  deriving Repr

/-- Lane L of a contiguous access lies at address + 4L (R377). -/
def Plain.step (x : Plain) : Nat := if x.vec && !Addr.perLane x.m then 4 else 0

/-- The active lanes of an access: lane 0 for a scalar one whose guard passes. -/
def Plain.acts (x : Plain) (s : State) : List Nat :=
  if x.vec then lanesOn s x.h else if guardS s x.h then [0] else []

/-- The accesses of the active lanes. -/
def Plain.accs (x : Plain) (s : State) : List Acc :=
  (x.acts s).map (mkAcc s (spaceOf s x.loc) x.m x.n x.step (if x.wr then .write else .read))

/-- The access as its read picks what it returns: the lanes of a gather that reach one line receive it together (R174, R249),
every other lane picks for itself. -/
def Plain.reading (x : Plain) (as : List Acc) (a : Acc) : Acc :=
  if x.gath then { a with lane := ((as.find? fun b => b.va / 128 == a.va / 128).map (·.lane)).getD a.lane } else a

/-- How the access meets memory. -/
def Plain.use (x : Plain) : Use := if x.wr && x.rd then .atomic else if x.wr then .store else .load

/-- The registers that a load writes. -/
def Plain.dests (x : Plain) : List Reg :=
  match x.d with
  | .v i => if x.vec && x.n = 8 then [x.d, if h : i.val + 1 < 768 then .v ⟨i.val + 1, h⟩ else x.d] else [x.d]
  | _ => [x.d]

/-- The data that lane `l` writes. -/
def Plain.data (x : Plain) (s : State) (a : Acc) : List Byte :=
  leBytes a.n (if x.vec then (srcL s x.d a.lane).v.toNat else (srcS s x.d).v.toNat)

/-- Whether an exchange keeps no record (R380): XCHG of 8 bytes and VXCHG, when D names neither the guard nor an
address register, and no old byte lies in a poisoned line. -/
def Plain.exInv (x : Plain) (oldPoison : Bool) : Bool :=
  x.wr && x.rd && (x.vec || x.n == 8) && x.h.gr != x.d && !(Addr.regs x.m).any (· == x.d) && !oldPoison

/-- The crumbs of a plain access: the memory crumb first, the register crumbs after it (R380). -/
def Plain.crumbs (x : Plain) (s : State) (as : List Acc) : List Crumb :=
  let sp := spaceOf s x.loc
  if x.exInv (as.any fun a => (oldOf s sp a).2) then []
  else (if x.wr then crumbMem s sp as else []) ++
    (if x.rd then x.dests.flatMap fun d => if x.vec then crumbV s d (as.map (·.lane)) else crumbS s d false else [])

/-- What the active lanes read for their addresses, data and guard. -/
def Plain.reads (x : Plain) (s : State) : List (Nat × List LVal) :=
  (x.acts s).map fun l =>
    (l, addrReads s x.m l ++ (if x.wr then [srcL s x.d l] else []) ++ [srcL s x.h.gr l])

/-- The effect of the reads on the group: the origin recorded or freed and the result delivered, at once or through
a slot. `rs` is what the lanes read and `ic` the ic of the access. -/
def Plain.receive (x : Plain) (ic : Word) (rs : List (Acc × Nat × Option Nat)) (s : State) : State :=
  if rs.isEmpty && !x.split then s
  else
    let r := if rs.isEmpty then (s, (0 : BitVec 3)) else noteLoad s ic (firstBad rs)
    let res : Delivery :=
      if x.vec then { lanes := loadedLanes (s.momentAt ic) x.n x.un r.2 (Reg.vIx x.d) rs }
      else if x.d.isS then { scalars := rs.map fun y => (Reg.sIx x.d, loadedScalar (s.momentAt ic) x.n x.un r.2 y) }
      else {}
    let s1 := r.1.modMe fun g =>
      { g with hostLoad := hostLoadOf x.dests ic (rs.map (·.1)),
               seat := { g.seat with loaded := g.seat.loaded || (!x.loc && !x.split) } }
    if x.split then takeSlot s1 x.dests ic res else s1.modMe (·.deliver res)

/-- A plain access (R378, R381 to R383). -/
def plainDo (x : Plain) (s : State) : Host.Outcome State Fault Refusal :=
  let sp := spaceOf s x.loc
  let as := x.accs s
  let s1 := beginSpace s sp x.use x.m as
  let regs := Addr.regs x.m
  issue { h := x.h, reads := regs ++ (if x.wr then [x.d] else []),
          writes := if x.rd && !x.split then x.dests else [], names := if x.split then x.dests else [],
          roles := if x.loc || x.split || (x.wr && x.rd) then rolesVector else rolesVecCtl, vec := x.vec }
    { illegal := s.me.isControl && !(match x.m with | .imm _ _ => true | _ => false),
      crumbs := x.crumbs s1 as,
      poison := lanesPoison (x.reads s),
      trap := accTrap s sp x.use as,
      foreign := accForeign s as, touch := accLocs as,
      wait := if x.split && decide (8 ≤ s.me.sb.length) then some .slot
              else if x.wr then ackWait s as else none }
    (fun t =>
      let t0 := beginSpace t sp x.use x.m as
      let rs := as.map fun a => (a, readAcc s1 sp x.use (x.reading as a))
      let t1 := if x.rd then noteReads t0 sp x.use (as.map (x.reading as)) else t0
      let t2 := if x.wr then writeSpace t1 sp x.use (as.map fun a => (a, x.data s a)) else t1
      if x.rd then x.receive s.me.hist.ic rs t2 else t2) s

end Sys2Proof.Machine
end

