-- ==== Sys2Proof/Machine/LoadStore.lean ====
section
/-! DEFINITION. Class 5, the plain accesses: loads, stores, exchanges, local accesses, LDD and GATH (R381 to R383). -/

namespace Sys2Proof.Machine

/-- Bytes of a vector access: 4 when contiguous, the code's size per lane (R377). -/
def vecBytes (sz : Fin 4) (m : Addr) : Nat := if Addr.perLane m then szBytes sz else 4

/-- LD, ST, XCHG (R381). -/
def execLd (h : Hd) (sz : Fin 4) (un : Bool) (d : Reg) (m : Addr) (s : State) : Host.Outcome State Fault Refusal :=
  plainDo { h, d, m, n := szBytes sz, un, rd := true } s
def execSt (h : Hd) (sz : Fin 4) (d : Reg) (m : Addr) (s : State) : Host.Outcome State Fault Refusal :=
  plainDo { h, d, m, n := szBytes sz, wr := true } s
def execXchg (h : Hd) (sz : Fin 4) (un : Bool) (d : Reg) (m : Addr) (s : State) :
    Host.Outcome State Fault Refusal :=
  plainDo { h, d, m, n := szBytes sz, un, wr := true, rd := true } s

/-- VLD, VST, VXCHG. UN of a store is a field of its encoding and changes nothing that it writes (R377). -/
def execVld (h : Hd) (sz : Fin 4) (un : Bool) (d : Reg) (m : Addr) (s : State) : Host.Outcome State Fault Refusal :=
  plainDo { h, d, m, n := vecBytes sz m, un, vec := true, rd := true } s
def execVst (h : Hd) (sz : StoreSize) (d : Reg) (m : Addr) (s : State) : Host.Outcome State Fault Refusal :=
  plainDo { h, d, m, n := vecBytes sz.sz m, vec := true, wr := true } s
def execVxchg (h : Hd) (d : Reg) (m : Addr) (s : State) : Host.Outcome State Fault Refusal :=
  plainDo { h, d, m, n := 4, vec := true, wr := true, rd := true } s

/-- LDL, STL, VLDL, VSTL: the same on local memory. -/
def execLdl (h : Hd) (sz : Fin 4) (un : Bool) (d : Reg) (m : Addr) (s : State) : Host.Outcome State Fault Refusal :=
  plainDo { h, d, m, n := szBytes sz, un, loc := true, rd := true } s
def execStl (h : Hd) (sz : Fin 4) (d : Reg) (m : Addr) (s : State) : Host.Outcome State Fault Refusal :=
  plainDo { h, d, m, n := szBytes sz, loc := true, wr := true } s
def execVldl (h : Hd) (sz : Fin 4) (un : Bool) (d : Reg) (m : Addr) (s : State) : Host.Outcome State Fault Refusal :=
  plainDo { h, d, m, n := vecBytes sz m, un, loc := true, vec := true, rd := true } s
def execVstl (h : Hd) (sz : StoreSize) (d : Reg) (m : Addr) (s : State) : Host.Outcome State Fault Refusal :=
  plainDo { h, d, m, n := vecBytes sz.sz m, loc := true, vec := true, wr := true } s

/-- LDD and GATH: split-phase loads (R104, R382, R383). -/
def execLdd (h : Hd) (sz : Fin 4) (un : Bool) (d : Reg) (m : Addr) (s : State) : Host.Outcome State Fault Refusal :=
  plainDo { h, d, m, n := vecBytes sz m, un, vec := true, rd := true, split := true } s
def execGath (h : Hd) (sz : Fin 4) (un : Bool) (d a b : Reg) (s : State) : Host.Outcome State Fault Refusal :=
  plainDo { h, d, m := .lane a b, n := szBytes sz, un, vec := true, rd := true, split := true, gath := true } s

end Sys2Proof.Machine
end

