-- ==== Sys2Proof/Machine/Atomic.lean ====
section
/-! DEFINITION. Class 5: AMO, CAS, RED and ST.MC (R384 to R389), with the queue of a DET launch (R268, R269). -/

namespace Sys2Proof.Machine

/-- Bytes of AMO and CAS by size code (R377). -/
def amoBytes (sz : Fin 4) : Nat := match sz with | 0 => 4 | 1 => 4 | 2 => 8 | 3 => 16

/-- The second register of a pair (R375). -/
def Reg.next : Reg → Reg
  | .s i => if h : i.val + 1 < 128 then .s ⟨i.val + 1, h⟩ else .s i
  | r => r

/-- The new value of an atomic on `w` bits, or none when .addb refuses (R384, R385). -/
def amoOp (op : AOp) (w old b bound : Nat) : Option Nat :=
  let m := 2 ^ w
  let b := b % m
  match op with
  | .add => some ((old + b) % m)
  | .sub => some ((old + (m - b)) % m)
  | .and => some (old &&& b)
  | .or => some (old ||| b)
  | .xor => some (old ^^^ b)
  | .min => some (if sext w old ≤ sext w b then old else b)
  | .max => some (if sext w old ≤ sext w b then b else old)
  | .minu => some (if old ≤ b then old else b)
  | .maxu => some (if old ≤ b then b else old)
  | .exch => some b
  | .fadd => some (fp32.enc .rne ((fp32.dec old).add .rne (fp32.dec b)))
  | .incw => some (if b ≤ old then 0 else old + 1)
  | .addb => if old + b < m ∧ old + b ≤ bound % m then some (old + b) else none

/-- CAS: B when memory equals the expected value (R386). -/
def casOp (w old e b : Nat) : Option Nat := if old = e % 2 ^ w then some (b % 2 ^ w) else none

/-- The operand number of a register or pair. -/
def pairVal (lo hi : SVal) (pair : Bool) : Nat := lo.v.toNat + (if pair then 2 ^ 64 * hi.v.toNat else 0)

/-- The registers of D after an atomic that found `old` (R377, R384): D, and D + 1 of a pair. -/
def amoResult (sz : Fin 4) (addb : Bool) (d old : Nat) (refused : Bool) : List (Nat × SVal) :=
  let lo : Word := if sz = 0 then BitVec.ofInt 64 (sext 32 old) else w64 old
  if sz = 3 then [(d, { v := lo }), (d + 1, { v := w64 (old / 2 ^ 64) })]
  else if addb then [(d, { v := lo }), (d + 1, { v := w64 (b2n refused) })]
  else [(d, { v := lo })]

/-- Poison of cause 4 in D (R389). -/
def poisonPair (tick : Nat) (pair : Bool) (d : Nat) (o : BitVec 3) : List (Nat × SVal) :=
  (d, { v := Config.poisonValue tick 0, p := true, o }) ::
    (if pair then [(d + 1, { v := Config.poisonValue tick 1, p := true, o })] else [])

/-- An AMO or CAS: what it names and the operation on the old value. -/
structure Rmw where
  h : Hd
  cas : Bool
  op : AOp
  ord : Order
  sc : Scope
  sz : Fin 4
  d : Reg
  a : Reg
  b : Reg
  deriving Repr

def Rmw.addb (x : Rmw) : Bool := !x.cas && x.op == .addb
def Rmw.pair (x : Rmw) : Bool := x.sz == 3 || x.addb
def Rmw.returns (x : Rmw) : Bool := x.d.isS
def Rmw.horizon (x : Rmw) : Bool := x.sc != .grp
def Rmw.bs (x : Rmw) : List Reg := if x.pair then [x.b, Reg.next x.b] else [x.b]
def Rmw.ds (x : Rmw) : List Reg := if x.pair then [x.d, Reg.next x.d] else [x.d]

/-- The new value that the operation gives for an old one. -/
def Rmw.apply (x : Rmw) (old d b : Nat) (bound : Nat) : Option Nat :=
  let w := 8 * amoBytes x.sz
  if x.cas then casOp w old d b else amoOp x.op w old b bound

/-- A release at .dev or .sys waits for the acknowledgements (R253, R258). -/
def releaseWait (s : State) (rel : Bool) (sc : Scope) : Option Wait :=
  if rel && (sc == .dev || sc == .sys) && s.owing then some .acks else none

/-- Whether an order releases, and acquires. -/
def orderRel (o : Order) : Bool := o == .rel || o == .ar
def orderAcq (o : Order) : Bool := o == .acq || o == .ar

/-- Queue a serial atomic of the current group (R268). -/
def pushSerial (s : State) (q : Serial) : State :=
  s.modLaunch s.myP s.myGang.task.launch fun l => { l with ds := { l.ds with serial := l.ds.serial ++ [q] } }

/-- The physical address of an access in device storage. -/
def Acc.pa (a : Acc) : Nat := match a.look with | .ok (.dev pa) _ => pa | _ => 0

/-- Read, combine and write one location; nothing is written when the operation refuses. The group has read the write that it
found, also then (R251, R257). -/
def rmwAcc (s : State) (a : Acc) (f : Nat → Option Nat) : State :=
  let t := s.see (homeReadBy s a)
  match f (oldAcc s a).1 with
  | some v => writeAcc t (s.byAtomic a) a (leBytes a.n v)
  | none => t

/-- AMO and CAS (R384 to R386, R389). -/
def rmwDo (x : Rmw) (i : Instr) (s : State) : Host.Outcome State Fault Refusal :=
  let ok := guardS s x.h
  let n := amoBytes x.sz
  let a : Acc := { lane := 0, va := (srcS s x.a).v.toNat, n, look := look s (srcS s x.a).v.toNat .write }
  let as := if ok then [a] else []
  let s1 := s.begin true true true as
  let old := oldAcc s1 a
  let rs := [x.a] ++ x.bs ++ (if x.cas then x.ds else [])
  let dv := (srcS s x.d, srcS s (Reg.next x.d))
  let bv := (srcS s x.b, srcS s (Reg.next x.b))
  let wide := decide (x.sz = 3)
  let new := x.apply old.1 (pairVal dv.1 dv.2 wide) (pairVal bv.1 bv.2 wide) bv.2.v.toNat
  let ic := s.me.hist.ic
  let trap := match accTrap s .mem .atomic as with
    | some t => some t
    | none => if ok && old.2 && !x.returns then some { code := 4, lanes := 1, addr := s.pcN } else none
  issue { h := x.h, reads := rs, writes := [], names := x.ds, roles := rolesVector, horizon := x.horizon }
    { crumbs := if x.horizon then [] else
        crumbMem s1 .mem as ++ (if x.pair then crumbPair s x.d (Reg.next x.d) false else crumbS s x.d false),
      poison := if ok then consume (rs.map (srcS s) ++ [srcS s x.h.gr]) else none,
      trap,
      foreign := accForeign s as, touch := accLocs as,
      quantum := ok && x.returns,
      wait := if !ok then none
        else if x.returns && decide (8 ≤ s.me.sb.length) then some .slot
        else releaseWait s (orderRel x.ord) x.sc }
    (fun t =>
      if !ok then t
      else
        let t1 := (if orderRel x.ord then t.release x.sc else t).begin true true true as
        if s.inDet then
          let t2 := pushSerial t1
            { inst := s.myGang.inst, gid := s.me.gid, key := s.me.key, ic, i, d := dv.1, d2 := dv.2,
              a := srcS s x.a, b := bv.1, b2 := bv.2, lanes := [(0, a.va, Acc.pa a, 0)] }
          if x.returns then takeSlot t2 x.ds ic {} true else t2
        else if old.2 then
          let r := noteLoad t1 ic (some (4, a.va))
          takeSlot r.1 x.ds ic { scalars := poisonPair s.moment x.pair (Reg.sIx x.d) r.2 }
        else
          let t2 := rmwAcc t1 a (fun v => x.apply v (pairVal dv.1 dv.2 wide) (pairVal bv.1 bv.2 wide) bv.2.v.toNat)
          let t3 := if orderAcq x.ord then t2.acquire (scopeNum x.sc) (homeReadBy t1 a) else t2
          if x.returns then
            takeSlot t3 x.ds ic { scalars := amoResult x.sz x.addb (Reg.sIx x.d) old.1 new.isNone }
          else t3) s

def execAmo (h : Hd) (op : AOp) (ord : Order) (sc : Scope) (sz : Fin 4) (d a b : Reg) (s : State) :
    Host.Outcome State Fault Refusal :=
  rmwDo { h, cas := false, op, ord, sc, sz, d, a, b } (.amo h op ord sc sz d a b) s
def execCas (h : Hd) (ord : Order) (sc : Scope) (sz : Fin 4) (d a b : Reg) (s : State) :
    Host.Outcome State Fault Refusal :=
  rmwDo { h, cas := true, op := .exch, ord, sc, sz, d, a, b } (.cas h ord sc sz d a b) s

/-- The lanes of RED applied in ascending order, each an atomic of its own (R387). -/
def redAll (s : State) (op : AOp) : List (Acc × Lane) → State
  | [] => s
  | (a, v) :: t => redAll (rmwAcc s a fun old => amoOp op 32 old v.toNat 0) op t

/-- RED (R387, R389). -/
def execRed (h : Hd) (op : AOp) (rel : Bool) (sc : Scope) (d a b : Reg) (s : State) :
    Host.Outcome State Fault Refusal :=
  let as := (lanesOn s h).map (mkAcc s .mem (.lane a b) 4 0 .write)
  let s1 := s.begin true true true as
  let hor := sc != .grp
  let bad := as.filter fun x => (oldAcc s1 x).2
  let ws := as.map fun x => (x, (srcL s d x.lane).v)
  issue { h, reads := [a, b, d], roles := rolesVector, horizon := hor, vec := true }
    { crumbs := if hor then [] else crumbMem s1 .mem as,
      poison := lanesPoison ((lanesOn s h).map fun l => (l, [srcL s a l, srcL s b l, srcL s d l, srcL s h.gr l])),
      trap := match accTrap s .mem .atomic as with
        | some t => some t
        | none => if bad.isEmpty then none
          else some { code := 4, lanes := maskOf (bad.map (·.lane)), addr := s.pcN },
      foreign := accForeign s as, touch := accLocs as,
      wait := if as.isEmpty then none
        else match releaseWait s rel sc with
          | some w => some w
          | none => ackWait s as }
    (fun t =>
      let t1 := (if rel then t.release sc else t).begin true true true as
      if as.isEmpty then t
      else if s.inDet then
        pushSerial t1
          { inst := s.myGang.inst, gid := s.me.gid, key := s.me.key, ic := s.me.hist.ic,
            i := .red h op rel sc d a b, lanes := ws.map fun w => (w.1.lane, w.1.va, Acc.pa w.1, w.2) }
      else countTraffic (redAll t1 op ws) (locsOf as)) s

/-- The destinations of ST.MC: the addresses in s(N) to s(N + n) (R388). -/
def mcAccs (s : State) (h : Hd) (n : Nat) (a : Reg) (off : BitVec 17) : List (List Acc) :=
  (upto 0 (n + 1)).map fun i =>
    let r : Reg := match a with
      | .s k => if hk : k.val + i < 128 then .s ⟨k.val + i, hk⟩ else a
      | _ => a
    (lanesOn s h).map (mkAcc s .mem (.imm r off) 4 4 .write)

/-- ST.MC (R388). -/
def execStMc (h : Hd) (n : Fin 4) (d a : Reg) (off : BitVec 17) (s : State) : Host.Outcome State Fault Refusal :=
  let rows := mcAccs s h n a off
  let as := rows.flatten
  let s1 := s.begin true true false as
  let bases : List Reg := (upto 0 (n + 1)).map fun i => match a with
    | .s k => if hk : k.val + i < 128 then .s ⟨k.val + i, hk⟩ else a
    | _ => a
  issue { h, reads := bases ++ [d], roles := rolesVector, vec := true }
    { crumbs := rows.flatMap (crumbMem s1 .mem),
      poison := lanesPoison ((lanesOn s h).map fun l =>
        (l, bases.map (fun r => srcL s r l) ++ [srcL s d l, srcL s h.gr l])),
      trap := accTrap s .mem .atomic as,
      foreign := accForeign s as, touch := accLocs as,
      wait := ackWait s as }
    (fun t => storeAll (t.begin true true false as) (as.map fun x => (x, leBytes 4 (srcL s d x.lane).v.toNat))) s

end Sys2Proof.Machine
end

