-- ==== Sys2Proof/Machine/Flow.lean ====
section
/-! DEFINITION. Class 5: FLOW.PUT and FLOW.GET (R390 to R392), and placing a message in a receive ring (R259). -/

namespace Sys2Proof.Machine

/-- Receive-descriptor fields (R390). -/
def rxLogn (s : State) (l : Loc) : Nat := bits (s.wordAt l 0) 59 56
def rxRing (s : State) (l : Loc) : Nat := bits (s.wordAt l 0) 55 0
def rxOrd (s : State) (l : Loc) : Bool := bit (s.wordAt l 0) 62
def rxNext (s : State) (l : Loc) : Nat := bits (s.wordAt l 1) 31 0
def rxProd (s : State) (l : Loc) : Nat := bits (s.wordAt l 2) 31 0
def rxCons (s : State) (l : Loc) : Nat := bits (s.wordAt l 3) 31 0
def rxFull (s : State) (l : Loc) : Bool := decide (2 ^ rxLogn s l ≤ (rxProd s l + (2 ^ 32 - rxCons s l)) % 2 ^ 32)

/-- Whether FLOW.GET finds a message: one that was there at the last boundary, in a deterministic launch (R263), and has not
been taken since. -/
def rxHas (s : State) (l : Loc) : Bool :=
  bits (s.wordSeen l 2) 31 0 != bits (s.wordSeen l 3) 31 0 && rxCons s l != bits (s.wordSeen l 2) 31 0

/-- A message enters the ring whose next entry lies at `entry` (R392): the entry, then NEXT, PROD and OPEN. -/
def placeMessage (s : State) (x : By) (rx entry : Loc) (data : List Byte) : State :=
  let s1 := s.poke entry data x
  let s2 := s1.pokeWord (rx.plus 8) (setLow (s1.wordAt rx 1) (rxNext s1 rx + 1)) x
  let s3 := s2.pokeWord (rx.plus 16) (setLow (s2.wordAt rx 2) (rxProd s2 rx + 1)) x
  s3.pokeWord rx (s3.wordAt rx 0 ||| bitAt 63) x

/-- The VA of ring entry number `n`. -/
def ringEntry (s : State) (rx : Loc) (n : Nat) : Nat := rxRing s rx + 128 * (n % 2 ^ rxLogn s rx)

/-- A failing port: FLOW.PUT completes unsent through it (R258, R391). -/
def portDead (s : State) (l : Loc) : Bool :=
  match l.port? with
  | some p => (s.port p).state == 4
  | none => false

/-- The send descriptor's reserved fields and ORD against the receiver's (R391). -/
def sendBad (s : State) (tx : Loc) (rx : Loc) : Bool :=
  bits (s.wordAt tx 0) 61 56 != 0 || bits (s.wordAt tx 1) 63 32 != 0
    || (upto 2 6).any (fun i => s.wordAt tx i != 0) || bit (s.wordAt tx 0) 62 != rxOrd s rx

/-- The 128 bytes that FLOW.PUT sends: zeros for a doorbell; a lane that the guard turned off brings bytes that the
spec does not name. -/
def flowData (s : State) (h : Hd) (d : Reg) : List Byte :=
  (upto 0 32).flatMap fun l =>
    if d == .z then leBytes 4 0
    else if guardL s h l then leBytes 4 (srcL s d l).v.toNat
    else (upto 0 4).map fun k => Config.flowGapByte s.moment (4 * l + k)

/-- A descriptor at an address: device storage, 64-aligned, writable and unpoisoned, or the trap. -/
def descriptor (s : State) (va : Nat) (peerOk : Bool) : Trap ⊕ Loc :=
  let a : Acc := { lane := 0, va, n := 64, look := look s va .write }
  match accTrap s .mem .store [a] with
  | some t => .inl t
  | none => match a.look with
    | .ok (.dev pa) _ =>
      if s.homePoisoned pa then .inl { code := 4, lanes := 1, addr := s.pcN } else .inr (.dev pa)
    | .ok (.peer p) _ => if peerOk then .inr (.peer p) else .inl { code := 5, cause := 1, addr := va }
    | _ => .inl { code := 5, cause := 1, addr := va }

/-- What FLOW.PUT finds: its trap, or the send descriptor, the receive descriptor and, in device storage, the place
of the next ring entry. -/
def flowTarget (s : State) (va : Nat) : Trap ⊕ (Loc × Loc × Option Loc) :=
  match descriptor s va false with
  | .inl t => .inl t
  | .inr tx =>
    match descriptor s (bits (s.wordAt tx 0) 55 0) true with
    | .inl t => .inl t
    | .inr rx =>
      if sendBad s tx rx || rxLogn s rx == 0 then .inl { code := 5, cause := 1, addr := va }
      else match rx with
        | .dev _ =>
          let e := ringEntry s rx (rxProd s rx)
          match look s e .write with
          | .ok (.dev pa) _ => .inr (tx, rx, some (.dev pa))
          | _ => .inl { code := 5, cause := 1, addr := e }
        | _ => .inr (tx, rx, none)

/-- The places of FLOW.PUT's descriptors and entry, and whether one lies in a line PRIVATE to another gang (R263). -/
def flowPutLocs (act : List Nat) (tgt : Trap ⊕ (Loc × Loc × Option Loc)) : List Loc :=
  match act, tgt with
  | _ :: _, .inr (tx, rx, e) => [tx, rx] ++ e.toList
  | _, _ => []
def flowForeign (s : State) (ls : List Loc) : Bool := ls.any (privateOther s)

/-- The VAs and sizes of what FLOW.PUT writes through two descriptors: the send descriptor at `va`, and in device storage the
receive descriptor and the entry (R90). -/
def flowPutSpans (s : State) (va : Nat) (tx rx : Loc) : List (Nat × Nat) :=
  (va, 16) :: (if rx.port?.isSome then []
    else [(bits (s.wordAt tx 0) 55 0, 24), (ringEntry s rx (rxProd s rx), 128)])

/-- The translations of some VAs stay cached (R203). -/
def noteLeaves (s : State) (vas : List Nat) : State := vas.foldl (fun s va => s.noteLeaf s.myP s.myAsid va) s
/-- The VAs that FLOW.PUT translates. -/
def flowPutVas (s : State) (va : Nat) (tx rx : Loc) : List Nat :=
  [va, bits (s.wordAt tx 0) 55 0] ++ (if rx.port?.isSome then [] else [ringEntry s rx (rxProd s rx)])

/-- Some written ranges that a proofing task may have declared (R90). -/
def noteSpans (s : State) (xs : List (Nat × Nat)) : State := xs.foldl (fun s x => noteProofing s x.1 x.2) s

/-- Why FLOW.PUT does not complete yet (R391): it sends only when the acknowledgements have come; then it waits for the
ring and in ordered mode for its turn, or for the peer that has to place the message. -/
def flowPutWait (s : State) (tx rx : Loc) : Option Wait :=
  if portDead s rx then none
  else match s.flying with
    | some m => if m.placed then none else some .flowPut
    | none =>
      if s.owing then some .acks
      else if rx.port?.isSome then some .flowPut
      else if rxFull s rx then some .flowPut
      else if rxOrd s rx && bits (s.wordAt tx 1) 31 0 != rxNext s rx then some .flowPut
      else none

/-- FLOW.PUT (R391): a release at .sys that completes when the message stands in the receiver's ring; through a failed
port it completes unsent. In a deterministic launch the messages of an ordered flow take their numbers in the order of the
groups: one waits until the groups before it have ended their quantum (R261; log entry 85). -/
def execFlowPut (h : Hd) (d a : Reg) (off : BitVec 17) (s : State) : Host.Outcome State Fault Refusal :=
  let act := lanesOn s h
  let va := addrOf s (.imm a off) 0 0
  let tgt := flowTarget s va
  issue { h, reads := a :: (if d == .z then [] else [d]), roles := rolesVector, horizon := true, vec := true }
    { poison := lanesPoison (act.map fun l => (l, [srcL s a l] ++ (if d == .z then [] else [srcL s d l]) ++ [srcL s h.gr l])),
      trap := if act.isEmpty then none else match tgt with | .inl t => some t | .inr _ => none,
      wait := match act, tgt with
        | _ :: _, .inr (tx, rx, _) => flowPutWait s tx rx
        | _, _ => none,
      hold := s.inDet && !(lowerRunning s).isEmpty && (match act, tgt with
        | _ :: _, .inr (tx, _, _) => bit (s.wordAt tx 0) 62
        | _, _ => false),
      foreign := flowForeign s (flowPutLocs act tgt), touch := flowPutLocs act tgt,
      send := match act, tgt with
        | _ :: _, .inr (tx, .peer p, _) =>
          if portDead s (.peer p) || s.flying.isSome || s.owing then none else some (va, tx, p, flowData s h d)
        | _, _ => none }
    (fun t =>
      match act, tgt with
      | _ :: _, .inr (tx, rx, e) =>
        let t := (flowPutLocs act tgt).foldl (fun t l => (t.touchLoc l).storeLoc l)
          ((noteLeaves t (flowPutVas s va tx rx)).release .sys)
        if portDead s rx then t.countErr 8
        else match e with
          | some l => nextSeq (placeMessage (noteSpans t (flowPutSpans s va tx rx)) t.byMe rx l (flowData s h d)) tx
          | none => { t with messages := t.messages.filter fun m => m.sender != some s.me.key }
      | _, _ => t) s

/-- The places of FLOW.GET's descriptor and entry. -/
def flowGetLocs (act : List Nat) (src : Trap ⊕ (Loc × Nat × Look)) : List Loc :=
  match act, src with
  | _ :: _, .inr (rx, _, .ok l _) => [rx, l]
  | _ :: _, .inr (rx, _, _) => [rx]
  | _, _ => []

/-- FLOW.GET (R392): entry CONS of the ring into the active lanes; an acquire at .sys. -/
def execFlowGet (h : Hd) (d a : Reg) (off : BitVec 17) (s : State) : Host.Outcome State Fault Refusal :=
  let act := lanesOn s h
  let va := addrOf s (.imm a off) 0 0
  let rxd := descriptor s va false
  let src : Trap ⊕ (Loc × Nat × Look) := match rxd with
    | .inl t => .inl t
    | .inr rx =>
      if rxLogn s rx == 0 then .inl { code := 5, cause := 1, addr := va }
      else let e := ringEntry s rx (rxCons s rx); .inr (rx, e, look s e .read)
  issue { h, reads := [a], writes := [d], roles := rolesVector, horizon := true, vec := true }
    { poison := lanesPoison (act.map fun l => (l, [srcL s a l, srcL s h.gr l])),
      trap := if act.isEmpty then none else match src with | .inl t => some t | .inr _ => none,
      blocking := !act.isEmpty,
      wait := if act.isEmpty then none
        else match src with
          | .inl _ => none
          | .inr (rx, _, _) => if rxHas s rx then none else some .flowGet,
      foreign := flowForeign s (flowGetLocs act src), touch := flowGetLocs act src }
    (fun t =>
      match act, src with
      | _ :: _, .inr (rx, e, lk) =>
        let rs := act.map fun l =>
          let x : Acc :=
            { lane := l, va := e + 4 * l, n := 4,
              look := match lk with | .ok loc w => .ok (loc.plus (4 * l)) w | .bad c => .bad c }
          (x, homeAcc (match lk with | .ok loc _ => homeLine s loc | .bad _ => s) x)
        let from_ := latestSources t (rx.plus 16) 8
        let t := (flowGetLocs act src).foldl State.touchLoc (noteLeaves t [va, e]) |>.storeLoc rx
        let r := noteLoad ((t.see from_).acquire (scopeNum .sys) from_) s.me.hist.ic (firstBad rs)
        (noteProofing (r.1.modMe (·.putLanes (loadedLanes s.moment 4 true r.2 (Reg.vIx d) rs))) (va + 24) 8).pokeWord (rx.plus 24)
          (setLow (s.wordAt rx 3) (rxCons s rx + 1)) s.byMe
      | _, _ => t) s

end Sys2Proof.Machine
end

