-- ==== Sys2Proof/Machine/Scalar.lean ====
section
/-! DEFINITION. Class 0: the scalar integer instructions (R322 to R336). -/

namespace Sys2Proof.Machine

/-- ADD (R328): a + b modulo 2^W; an update form when D names one source (R327). -/
def execAdd (h : Hd) (t : ITy) (d a b : Reg) (s : State) : Host.Outcome State Fault Refusal :=
  scalarDo h d [a, b] (t.w == 64 && updAB d a b) (t.res (t.int (srcS s a).v + t.int (srcS s b).v)) s

/-- SUB (R328): a − b modulo 2^W. -/
def execSub (h : Hd) (t : ITy) (d a b : Reg) (s : State) : Host.Outcome State Fault Refusal :=
  scalarDo h d [a, b] (t.w == 64 && updA d a b) (t.res (t.int (srcS s a).v - t.int (srcS s b).v)) s

/-- ADDI (R328, R330): A plus the sign-extended immediate modulo 2^64; an update form when D = A. -/
def execAddi (h : Hd) (d a : Reg) (imm : BitVec 17) (s : State) : Host.Outcome State Fault Refusal :=
  scalarDo h d [a] (d == a) ((srcS s a).v + imm.signExtend 64) s

/-- MUL (R328): the low W bits of the product. -/
def execMul (h : Hd) (t : ITy) (d a b : Reg) (s : State) : Host.Outcome State Fault Refusal :=
  scalarDo h d [a, b] false (t.res (t.int (srcS s a).v * t.int (srcS s b).v)) s

/-- MULH (R328): the high W bits of the 2W-bit product, signed or unsigned. -/
def execMulh (h : Hd) (t : ITy) (d a b : Reg) (s : State) : Host.Outcome State Fault Refusal :=
  scalarDo h d [a, b] false (t.mulh (srcS s a).v (srcS s b).v) s

/-- MULODD (R328): a × (b OR 1) modulo 2^64. -/
def execMulodd (h : Hd) (_t : ITy) (d a b : Reg) (s : State) : Host.Outcome State Fault Refusal :=
  scalarDo h d [a, b] (updA d a b) ((srcS s a).v * oddOf (srcS s b).v) s

/-- DIV (R328): the quotient rounded toward zero, with its edge cases. -/
def execDiv (h : Hd) (t : ITy) (d a b : Reg) (s : State) : Host.Outcome State Fault Refusal :=
  scalarDo h d [a, b] false (t.quot (srcS s a).v (srcS s b).v) s

/-- REM (R328): the remainder, with the sign of a. -/
def execRem (h : Hd) (t : ITy) (d a b : Reg) (s : State) : Host.Outcome State Fault Refusal :=
  scalarDo h d [a, b] false (t.rem (srcS s a).v (srcS s b).v) s

/-- AND, OR, XOR, ANDN (R328). -/
def execAnd (h : Hd) (t : ITy) (d a b : Reg) (s : State) : Host.Outcome State Fault Refusal :=
  scalarDo h d [a, b] false (t.ext ((srcS s a).v &&& (srcS s b).v).toNat) s
def execOr (h : Hd) (t : ITy) (d a b : Reg) (s : State) : Host.Outcome State Fault Refusal :=
  scalarDo h d [a, b] false (t.ext ((srcS s a).v ||| (srcS s b).v).toNat) s
def execXor (h : Hd) (t : ITy) (d a b : Reg) (s : State) : Host.Outcome State Fault Refusal :=
  scalarDo h d [a, b] (t.w == 64 && updAB d a b) (t.ext ((srcS s a).v ^^^ (srcS s b).v).toNat) s
def execAndn (h : Hd) (t : ITy) (d a b : Reg) (s : State) : Host.Outcome State Fault Refusal :=
  scalarDo h d [a, b] false (t.ext ((srcS s a).v &&& ~~~(srcS s b).v).toNat) s

/-- NOT and NEG (R329); update forms when D = A. -/
def execNot (h : Hd) (t : ITy) (d a : Reg) (s : State) : Host.Outcome State Fault Refusal :=
  scalarDo h d [a] (t.w == 64 && d == a) (t.ext (~~~(srcS s a).v).toNat) s
def execNeg (h : Hd) (t : ITy) (d a : Reg) (s : State) : Host.Outcome State Fault Refusal :=
  scalarDo h d [a] (t.w == 64 && d == a) (t.res (-(t.int (srcS s a).v))) s

/-- SHL, SHR, SAR (R328): shifts by b modulo W. -/
def execShl (h : Hd) (t : ITy) (d a b : Reg) (s : State) : Host.Outcome State Fault Refusal :=
  scalarDo h d [a, b] false (t.shl (srcS s a).v (srcS s b).v) s
def execShr (h : Hd) (t : ITy) (d a b : Reg) (s : State) : Host.Outcome State Fault Refusal :=
  scalarDo h d [a, b] false (t.shr (srcS s a).v (srcS s b).v) s
def execSar (h : Hd) (t : ITy) (d a b : Reg) (s : State) : Host.Outcome State Fault Refusal :=
  scalarDo h d [a, b] false (t.sar (srcS s a).v (srcS s b).v) s

/-- ROL and ROR (R328): rotations within W bits by b modulo W. -/
def execRol (h : Hd) (t : ITy) (d a b : Reg) (s : State) : Host.Outcome State Fault Refusal :=
  scalarDo h d [a, b] (t.w == 64 && updA d a b) (t.rol (srcS s a).v (srcS s b).v) s
def execRor (h : Hd) (t : ITy) (d a b : Reg) (s : State) : Host.Outcome State Fault Refusal :=
  scalarDo h d [a, b] (t.w == 64 && updA d a b) (t.ror (srcS s a).v (srcS s b).v) s

/-- CLZ, CTZ, POPC (R329): counts within W bits. -/
def execClz (h : Hd) (t : ITy) (d a : Reg) (s : State) : Host.Outcome State Fault Refusal :=
  scalarDo h d [a] false (t.ext (clzN (t.nat (srcS s a).v) t.w)) s
def execCtz (h : Hd) (t : ITy) (d a : Reg) (s : State) : Host.Outcome State Fault Refusal :=
  scalarDo h d [a] false (t.ext (ctzN (t.nat (srcS s a).v) t.w)) s
def execPopc (h : Hd) (t : ITy) (d a : Reg) (s : State) : Host.Outcome State Fault Refusal :=
  scalarDo h d [a] false (t.ext (popN (t.nat (srcS s a).v) t.w)) s

/-- MIN and MAX (R328). -/
def execMin (h : Hd) (t : ITy) (d a b : Reg) (s : State) : Host.Outcome State Fault Refusal :=
  scalarDo h d [a, b] false (t.min (srcS s a).v (srcS s b).v) s
def execMax (h : Hd) (t : ITy) (d a b : Reg) (s : State) : Host.Outcome State Fault Refusal :=
  scalarDo h d [a, b] false (t.max (srcS s a).v (srcS s b).v) s

/-- The bit that a bit write gives a scalar register; the other bits and the rules of poison are kept. -/
def bitWord (d : Word) (n : Nat) (c : Bool) : Word := if c then d ||| bitAt n else d &&& ~~~(bitAt n)

/-- CMP (R331): one bit of D; the old D is read, since 63 of its bits are kept. -/
def execCmp (h : Hd) (cc : CC) (bit : Fin 32) (d a b : Reg) (s : State) : Host.Outcome State Fault Refusal :=
  let vs := [srcS s a, srcS s b, srcS s d, srcS s h.gr]
  issue { h, reads := [a, b, d], writes := [d], roles := rolesAll }
    { crumbs := crumbBit s d bit (vs.any (·.p)) }
    (fun t => if guardS s h then
        putS t d (withPoison (bitWord (srcS s d).v bit (ccWord cc (srcS s a).v (srcS s b).v)) vs)
      else t) s

/-- Bit n of R332: B plus the constant, modulo 64. -/
def bitIndex (s : State) (n : Fin 64) (b : Reg) : Nat := ((srcS s b).v.toNat + n.val) % 64

/-- BSET and BCLR (R332): KIND 0x03 when D = A ≠ B, else 0x01. -/
def bitDo (h : Hd) (n : Fin 64) (d a b : Reg) (c : Bool) (s : State) : Host.Outcome State Fault Refusal :=
  let vs := [srcS s a, srcS s b, srcS s h.gr]
  let i := bitIndex s n b
  issue { h, reads := [a, b], writes := [d], roles := rolesAll }
    { crumbs := if updA d a b then crumbBit s d i (vs.any (·.p)) else crumbS s d (vs.any (·.p)) }
    (fun t => if guardS s h then putS t d (withPoison (bitWord (srcS s a).v i c) vs) else t) s
def execBset (h : Hd) (n : Fin 64) (d a b : Reg) (s : State) : Host.Outcome State Fault Refusal :=
  bitDo h n d a b true s
def execBclr (h : Hd) (n : Fin 64) (d a b : Reg) (s : State) : Host.Outcome State Fault Refusal :=
  bitDo h n d a b false s

/-- BFLIP (R332): an update form when D = A ≠ B. -/
def execBflip (h : Hd) (n : Fin 64) (d a b : Reg) (s : State) : Host.Outcome State Fault Refusal :=
  scalarDo h d [a, b] (updA d a b) ((srcS s a).v ^^^ bitAt (bitIndex s n b)) s

/-- BEXT and BINS (R333); BINS reads the old D. -/
def execBext (h : Hd) (pos lenm : Fin 64) (un : Bool) (d a : Reg) (s : State) : Host.Outcome State Fault Refusal :=
  scalarDo h d [a] false (bext (srcS s a).v pos lenm un) s
def execBins (h : Hd) (pos lenm : Fin 64) (d a : Reg) (s : State) : Host.Outcome State Fault Refusal :=
  scalarDo h d [a, d] false (bins (srcS s d).v (srcS s a).v pos lenm) s

/-- MOV (R329). -/
def execMov (h : Hd) (t : ITy) (d a : Reg) (s : State) : Host.Outcome State Fault Refusal :=
  scalarDo h d [a] false (t.ext (t.nat (srcS s a).v)) s

/-- SWAP (R334): values and poison state change places; no crumb, and a poisoned guard register adds no poison, so
that the reverse is SWAP itself (log entry 12). -/
def execSwap (h : Hd) (d a : Reg) (s : State) : Host.Outcome State Fault Refusal :=
  issue { h, reads := [d, a], writes := [d, a], roles := rolesAll } {}
    (fun t => if guardS s h && d != a then putS (putS t d (srcS s a)) a (srcS s d) else t) s

/-- SEL (R335): A when the guard passes, B when it fails; poison only from the selected source and the guard. -/
def execSel (h : Hd) (t : ITy) (d a b : Reg) (s : State) : Host.Outcome State Fault Refusal :=
  let x := if guardS s h then srcS s a else srcS s b
  let all := [srcS s a, srcS s b, srcS s h.gr]
  issue { h, reads := [a, b], writes := [d], roles := rolesAll }
    { crumbs := crumbS s d (all.any (·.p)) }
    (fun u => putS u d (withPoison (t.ext (t.nat x.v)) [x, srcS s h.gr])) s

/-- The guard of an instruction that has none: it always executes (R289, R292). -/
def noGuard (mark : Bool) : Hd := { mark, gv := false, gb := 0, gr := .z }

/-- SETK (R336): the immediate under H; H = 00 clears D's poison, the other two keep it. -/
def execSetk (mark : Bool) (d : Reg) (f : HF) (imm : BitVec 32) (s : State) : Host.Outcome State Fault Refusal :=
  let old := srcS s d
  let new : SVal := match f with
    | .full => { v := imm.signExtend 64 }
    | .hi => { old with v := w64 (imm.toNat * 2 ^ 32 + old.v.toNat % 2 ^ 32) }
    | .lo => { old with v := w64 (old.v.toNat / 2 ^ 32 * 2 ^ 32 + imm.toNat) }
  issue { h := noGuard mark, reads := if f = .full then [] else [d], writes := [d], roles := rolesAll }
    { crumbs := crumbS s d false }
    (fun t => putS t d new) s

end Sys2Proof.Machine
end

