-- ==== Sys2Proof/Machine/Sync.lean ====
section
/-! DEFINITION. Class 6: fences, waits, barriers, rings, stages and early triggers (R394 to R403, R145 to R148). -/

namespace Sys2Proof.Machine

/-! ### Barriers and rings of a gang -/

/-- A phase whose arrivals have reached the count completes (R399). -/
def Barrier.settle (b : Barrier) : Barrier :=
  if b.c ≤ b.arrived then
    { b with arrived := 0, phase := b.phase + 1, err := false, flags := b.err :: b.flags, view := {}, views := b.view :: b.views }
  else b

/-- One arrival, with or without error status, and what it publishes (R253). -/
def Barrier.arrive (b : Barrier) (err : Bool) (v : View) : Barrier :=
  Barrier.settle { b with arrived := b.arrived + 1, err := b.err || err, view := b.view.join v }

/-- The flag of a completed phase, and what its arrivals have published. -/
def Barrier.flag (b : Barrier) (ph : Nat) : Bool := (b.flags.drop (b.phase - 1 - ph)).headD false
def Barrier.viewOf (b : Barrier) (ph : Nat) : View := (b.views.drop (b.phase - 1 - ph)).headD {}

/-- Ring slots by state (R145, R146, R400). -/
def Ring.full (r : Ring) (i : Nat) : Bool := bit r.phase i
def Ring.isFree (r : Ring) (i : Nat) : Bool := !r.full i && !mem? i r.claimed && !mem? i r.taken
def Ring.slotAddr (r : Ring) (i : Nat) : Nat := (r.addr + i * r.slotBytes) % 2 ^ 24
def Ring.slotOf (r : Ring) (a : Nat) : Option Nat := (upto 0 r.nslot).find? fun i => r.slotAddr i == a
def Ring.claim (r : Ring) : Ring :=
  { r with claimed := addNat r.tail r.claimed, tail := (r.tail + 1) % r.nslot }
/-- Setting and clearing a slot's PHASE bit are releases (R146, R253): `v` is what they publish. -/
def Ring.viewOf (r : Ring) (i : Nat) : View := Tab.get {} r.views i
def Ring.publish (r : Ring) (i : Nat) (v : View) : Ring := { r with views := Tab.set {} r.views i v }
def Ring.put (r : Ring) (i : Nat) (v : View) : Ring :=
  { r.publish i v with claimed := delNat i r.claimed, phase := r.phase ||| bitAt i }
def Ring.canTake (r : Ring) : Bool := r.full r.head && !mem? r.head r.taken
def Ring.take (r : Ring) : Ring := { r with taken := addNat r.head r.taken, head := (r.head + 1) % r.nslot }
def Ring.done (r : Ring) (i : Nat) (v : View) : Ring :=
  { r.publish i v with taken := delNat i r.taken, phase := r.phase &&& ~~~(bitAt i) }

/-- The current gang as of the last boundary (R263); as it stands outside a DET launch. -/
def seenGang (s : State) : Gang :=
  if s.inDet then (s.myLaunch.ds.snap.find? (·.uid == s.me.gang)).getD s.myGang else s.myGang

def modMyGang (s : State) (f : Gang → Gang) : State := s.modGang s.me.gang f

/-! ### The shared form of class 6 (R393) -/

/-- A class-6 scalar instruction: its guard and, when the guard passes, its operands are consumed; its checks, waits
and effect apply when the guard passes. -/
structure Sync where
  h : Hd
  reads : List Reg := []
  writes : List Reg := []
  bits : List Reg := []          -- bit registers: read and written, no consumers (R393)
  roles : List Role
  horizon : Bool := false
  crumbs : List Crumb := []
  vecs : List Reg := []          -- vector operands read whole
  trap : Option Trap := none
  wait : Option Wait := none
  blocking : Bool := false
  quantum : Bool := false
  foreign : Bool := false
  touch : List Loc := []
  note : Option (Nat × Nat) := none
  lateGuard : Bool := false      -- the guard is an operand only when it passes (class 7)
  covers : Option Nat := none
  claims : Option Nat := none
  revokes : Option (Nat × Nat) := none
  hold : Bool := false

/-- POISON_USE of a vector operand read whole: its poisoned lanes. -/
def vecPoison (s : State) (rs : List Reg) : Option (BitVec 32 × Option (BitVec 3)) :=
  match rs with
  | [] => none
  | r :: t => match lanesPoison ((upto 0 32).map fun l => (l, [srcL s r l])) with
    | some x => some x
    | none => vecPoison s t

def syncDo (x : Sync) (eff : State → State) (s : State) : Host.Outcome State Fault Refusal :=
  let ok := guardS s x.h
  issue { h := x.h, reads := x.reads ++ x.vecs ++ x.bits, writes := x.writes ++ x.bits, roles := x.roles,
          horizon := x.horizon }
    { crumbs := x.crumbs,
      poison := match (if x.lateGuard && !ok then none else consume [srcS s x.h.gr]) with
        | some q => some q
        | none => if !ok then none else match vecPoison s x.vecs with
          | some q => some q
          | none => consume (x.reads.map (srcS s)),
      trap := if ok then x.trap else none,
      wait := if ok then x.wait else none,
      blocking := ok && x.blocking,
      quantum := ok && x.quantum,
      foreign := ok && x.foreign,
      touch := x.touch,
      note := if ok then x.note else none,
      covers := if ok then x.covers else none,
      claims := if ok then x.claims else none,
      revokes := if ok then x.revokes else none,
      hold := ok && x.hold }
    (fun t => if ok then eff t else t) s

/-- Write a bit of a bit register; the register keeps its poison. -/
def putBit (t s : State) (d : Reg) (n : Nat) (b : Bool) : State :=
  putS t d { srcS s d with v := bitWord (srcS s d).v n b }

/-- ACCESS with cause 1 at the instruction's own VA (R109). -/
def accessHere (s : State) (bad : Bool) : Option Trap := if bad then access 1 s.pcN else none

/-! ### Fences and waits -/

/-- What a fence does to the order of memory (R253 to R256). -/
def fenceDo (ord : Order) (sc : Scope) (s : State) : State :=
  match ord with
  | .rlx => s
  | .rel => s.release sc
  | .acq => s.fenceAcq sc
  | .ar => s.fenceAr sc

/-- FENCE (R394, R258): .acq and .ar are acquires (R253), .rel and .ar releases. -/
def execFence (h : Hd) (ord : Order) (sc : Scope) (s : State) : Host.Outcome State Fault Refusal :=
  syncDo { h, roles := rolesVecCtl, horizon := sc != .grp, wait := releaseWait s (ord != .rlx) sc } (fenceDo ord sc) s

/-- SB.WAIT (R395): it reads no value and its guard selects by its stored bits. A slot that guards two registers is waited for
by either name. -/
def execSbWait (h : Hd) (a : Reg) (s : State) : Host.Outcome State Fault Refusal :=
  issue { h, quota := [a], roles := rolesVector }
    { wait := if !guardS s h then none
        else if a = .z then (if s.me.sb.isEmpty then none else some .allSlots)
        else if s.me.sb.any fun x => x.regs.any (· == a) then some (.guarded a) else none }
    (fun t => if guardS s h then t.modMe fun g =>
      { g with unwaited := if a = .z then [] else g.unwaited.filter fun x => !x.any (· == a) } else t) s

/-- WP.WAIT (R396): waits until the write pointer reaches D + IMM; an acquire of every byte below (R148). -/
def execWpWait (h : Hd) (w : Fin 4) (imm : BitVec 17) (d : Reg) (s : State) : Host.Outcome State Fault Refusal :=
  let g := seenGang s
  let off := (srcS s d).v.toNat + imm.toNat
  syncDo { h, reads := [d], roles := [.vector, .copy], blocking := true,
           wait := if Tab.get 0 (g.on (g.coreIx s.me.gid)).wp w < off then some (.wp w off) else none }
    (fun t => t.learn { known := [(.channel s.me.gang (g.coreIx s.me.gid) w, off)] }) s

/-! ### Barriers (R397 to R399) -/

/-- BAR.INIT (R398). -/
def execBarInit (h : Hd) (k : Fin 16) (a : Reg) (s : State) : Host.Outcome State Fault Refusal :=
  let n := (srcS s a).v.toNat
  syncDo { h, reads := [a], roles := rolesMesh, horizon := true,
           trap := accessHere s (!s.myGang.barBit k || n == 0 || decide (65535 < n)) }
    (fun t => modMyGang t fun g => g.setBar k (Barrier.settle { g.bar k with c := n })) s

/-- BAR.ARV (R399): one arrival, whose phase the group records. -/
def execBarArv (h : Hd) (k : Fin 16) (s : State) : Host.Outcome State Fault Refusal :=
  let ph := (s.myGang.bar k).phase
  syncDo { h, roles := rolesMesh, horizon := true, trap := accessHere s (!s.myGang.barBit k) }
    (fun t => (modMyGang t fun g => g.setBar k ((g.bar k).arrive false (t.publishes t.me))).modMe fun g =>
      { g with bars := Tab.set [] g.bars k (ph :: Tab.get [] g.bars k) }) s

/-- BAR.WAIT (R399): waits for the recorded phases, or for the one current at its first attempt. -/
def execBarWait (h : Hd) (k : Fin 16) (bit : Fin 32) (d : Reg) (s : State) : Host.Outcome State Fault Refusal :=
  let cur := ((seenGang s).bar k).phase
  let phases := match Tab.get [] s.me.bars k with
    | [] => [cur]
    | ps => ps
  let last := phases.foldl max 0
  syncDo { h, bits := [d], roles := rolesMesh, horizon := true, blocking := true,
           trap := accessHere s (!s.myGang.barBit k),
           wait := if cur ≤ last then some (.barrier k last) else none,
           note := some (k, cur) }
    (fun t => putBit (phases.foldl (fun t ph => t.learn ((s.myGang.bar k).viewOf ph))
        (t.modMe fun g => { g with bars := Tab.set [] g.bars k [] })) s d bit (phases.any (s.myGang.bar k).flag)) s

/-! ### Rings (R145, R146, R400) -/

/-- RING.PUT.claim: slot TAIL, once it is free and the claims that came before have been served. -/
def execRingPutClaim (h : Hd) (r : Fin 8) (d : Reg) (s : State) : Host.Outcome State Fault Refusal :=
  let q := s.myGang.ring r
  let seen := (seenGang s).ring r
  let me := Claimer.group s.me.key
  syncDo { h, writes := [d], roles := rolesMesh, horizon := true, blocking := true,
           trap := accessHere s (!s.myGang.ringBit r),
           wait := if seen.isFree q.tail && q.isFree q.tail && q.turnOf me then none else some (.ringFree r),
           claims := some r }
    (fun t => putS (modMyGang t fun g => g.setRing r ((q.claim).served me)) d { v := w64 (q.slotAddr q.tail) }) s

/-- RING.PUT: the claimed slot at A becomes full. -/
def execRingPut (h : Hd) (r : Fin 8) (a : Reg) (s : State) : Host.Outcome State Fault Refusal :=
  let q := s.myGang.ring r
  let slot := q.slotOf (srcS s a).v.toNat
  syncDo { h, reads := [a], roles := rolesMesh, horizon := true, blocking := true,
           trap := match accessHere s (!s.myGang.ringBit r) with
             | some t => some t
             | none => match slot with
               | some i => if mem? i q.claimed then none else access 1 (srcS s a).v.toNat
               | none => access 1 (srcS s a).v.toNat }
    (fun t => modMyGang t fun g => g.setRing r (q.put (slot.getD 0) (t.publishes t.me))) s

/-- RING.GET: slot HEAD, once it is full and not taken. -/
def execRingGet (h : Hd) (r : Fin 8) (d : Reg) (s : State) : Host.Outcome State Fault Refusal :=
  let q := s.myGang.ring r
  let seen := (seenGang s).ring r
  syncDo { h, writes := [d], roles := rolesMesh, horizon := true, blocking := true,
           trap := accessHere s (!s.myGang.ringBit r),
           wait := if q.canTake && seen.full q.head && !mem? q.head seen.taken then none else some (.ringFull r) }
    (fun t => putS ((modMyGang t fun g => g.setRing r q.take).learn (q.viewOf q.head)) d { v := w64 (q.slotAddr q.head) }) s

/-- RING.GET.done: the taken slot at A becomes free. -/
def execRingGetDone (h : Hd) (r : Fin 8) (a : Reg) (s : State) : Host.Outcome State Fault Refusal :=
  let q := s.myGang.ring r
  let slot := q.slotOf (srcS s a).v.toNat
  syncDo { h, reads := [a], roles := rolesMesh, horizon := true, blocking := true,
           trap := match accessHere s (!s.myGang.ringBit r) with
             | some t => some t
             | none => match slot with
               | some i => if mem? i q.taken then none else access 1 (srcS s a).v.toNat
               | none => access 1 (srcS s a).v.toNat }
    (fun t => modMyGang t fun g => g.setRing r (q.done (slot.getD 0) (t.publishes t.me))) s

/-- RING.PEEK: PHASE[HEAD] into a bit; it does not wait. -/
def execRingPeek (h : Hd) (r : Fin 8) (bit : Fin 32) (d : Reg) (s : State) : Host.Outcome State Fault Refusal :=
  let q := (seenGang s).ring r
  syncDo { h, bits := [d], roles := rolesMesh, horizon := true, blocking := true,
           trap := accessHere s (!s.myGang.ringBit r) }
    (fun t => putBit (t.learn (q.viewOf q.head)) s d bit (q.full q.head)) s

/-! ### Stages, early triggers and quanta -/

/-- STAGE.ADV (R401, R78). -/
def execStageAdv (h : Hd) (imm : BitVec 17) (a : Reg) (s : State) : Host.Outcome State Fault Refusal :=
  let n := (srcS s a).v.toNat + imm.toNat
  syncDo { h, reads := [a], roles := [.vector, .copy], horizon := true, quantum := true,
           trap := accessHere s (decide (2 ^ 32 - 1 < s.myGang.stage + n)) }
    (fun t => modMyGang t fun g => { g with stage := g.stage + n }) s

/-- EARLY.TRIG (R402, R87): a release at .dev. -/
def execEarlyTrig (h : Hd) (p : Fin 8) (s : State) : Host.Outcome State Fault Refusal :=
  syncDo { h, roles := rolesVector, horizon := true,
           trap := accessHere s (decide (nodePoints s.myLaunch.img s.myGang.task.node < p.val)),
           wait := releaseWait s true .dev }
    (fun t =>
      let u := t.release .dev
      earlyPoint u s.me.gang p (u.publishes u.me)) s

/-- DET.SYNC (R403): the end of the quantum, or FENCE.ar at .dev. -/
def execDetSync (h : Hd) (s : State) : Host.Outcome State Fault Refusal :=
  syncDo { h, roles := rolesVector, horizon := true, quantum := true, wait := releaseWait s true .dev }
    (·.fenceAr .dev) s

end Sys2Proof.Machine
end

