-- ==== Sys2Proof/Machine/Engines.lean ====
section
/-! DEFINITION. Acting for another group, and the line writes of the engines: copy storers, ACC.ST and CN.OUT
(R197, R225, R267, R432). -/

namespace Sys2Proof.Machine

/-- Give the turn to the group with a key; nothing when there is none. -/
def State.turn (s : State) (key : Nat) : State :=
  match s.rest.find? (·.key == key) with
  | some g => { s with me := g, rest := s.me :: s.rest.filter (·.key != key) }
  | none => s

/-- Do `f` with the turn given to the group with a key, and give the turn back. -/
def asGroup (s : State) (key : Nat) (f : State → State) : State :=
  let back := s.me.key
  let t := s.turn key
  if t.me.key = key then State.turn (f t) back else s

/-- Do `f` with the turn given to a stand-in for a group that has ended (R225, R415). -/
def asGhost (s : State) (g : Group) (f : State → State) : State :=
  let t := f { s with me := g, rest := s.me :: s.rest }
  let u := t.turn s.me.key
  { u with rest := u.rest.filter (·.key != g.key) }

/-- The key of a group of a gang. -/
def groupKey? (s : State) (uid gid : Nat) : Option Nat :=
  ((groupsOf s uid).find? (·.gid == gid)).map (·.key)

/-- Bytes in runs, each with its poison, that a buffer takes for lane 0 (R267). -/
def bufferRuns (s : State) (va : Nat) (l : Loc) : List (List Byte × Bool) → State
  | [] => s
  | (bs, p) :: t => bufferRuns (writeBytes s {} 0 va l p bs) (va + bs.length) (l.plus bs.length) t

/-- What an engine writes into a line, in runs that are poison or not, for the current group's instruction at ic `ic`, as
stores of its lane 0 (R267), and as the engine's own writes (R253). A store buffer takes the poison of each byte; in memory poison makes a poisoned line, which
keeps its bytes (R187, R432). The writes are data traffic as the group's stores are, and the 256th unacknowledged one waits
until the oldest is acknowledged (R258). An address that no longer resolves is skipped. -/
def engineWrite (s0 : State) (x : By) (ic : Word) (va : Nat) (runs : List (List Byte × Bool)) : State :=
  let bs := runs.flatMap (·.1)
  let poison := runs.any (·.2)
  let now := s0.me.hist.ic
  let s := s0.modMe fun g => { g with hist := { g.hist with ic := ic + 1 } }
  let a : Acc := { lane := 0, va, n := bs.length, look := look s va .write }
  let s1 := State.meet true true true (fun l => !buffered s l && coversLine [a] l) [a] s
  let s2 := match a.look with
    | .ok l leaf =>
      let s1' := match l with
        | .dev pa => if bit leaf 58 then s1 else touchTile s1 s1.myAsid va (pa / 128)
        | _ => s1
      let s3 :=
        if poison then
          if buffered s1' l then bufferRuns s1' va l runs
          else match l with
            | .dev pa => noteProofing { s1' with mem := s1'.mem.taint pa } va bs.length
            | _ => s1'
        else clearCovered (writeAcc s1' x a bs) [a]
      let ws := [(va, l)]
      countTraffic (roomForAcks s3 (trafficOf s3 ws).length) ws
    | .bad _ => s1
  s2.modMe fun g => { g with hist := { g.hist with ic := now } }

/-- Whether an engine may write `n` bytes at a VA (R225, R432): the access of the lowest page that denies it. The
pages are those that start at or after `va - va mod 65,536`. -/
def engineDenied (s : State) (va n : Nat) : Option Nat :=
  ((upto (va / 65536) ((va + n - 1) / 65536 - va / 65536 + 1)).find? fun p =>
    let lo := max va (65536 * p)
    let hi := min (va + n) (65536 * (p + 1))
    let l := look s lo .write
    match l with
    | .ok (.dev _) _ => (l.storeDenied s (hi - lo)).isSome
    | _ => true).map fun p => max va (65536 * p)

end Sys2Proof.Machine
end

