-- ==== Sys2Proof/Machine/Cn.lean ====
section
/-! DEFINITION. The content-named region: names, index entries, counts, reclamation, root cells and copy-out
(R212 to R227), and the CN instructions (R409 to R415). -/

namespace Sys2Proof.Machine

/-- A CN region of a partition (R212, R213). -/
structure CnReg where
  part : Nat
  ix : Nat
  test : Bool
  base : Nat
  len : Nat
  deriving DecidableEq, Repr, Inhabited

/-- Slots of a region. -/
def CnReg.n (r : CnReg) : Nat := r.len / gib * 6291456
/-- Where slot `i`'s index entry and line lie. -/
def CnReg.entry (r : CnReg) (i : Nat) : Nat := r.base + 32 * i
def CnReg.line (r : CnReg) (i : Nat) : Nat := r.base + r.len / 4 + 128 * i

/-- Region `i` of a partition; a range without slots is none. -/
def cnReg? (s : State) (p i : Nat) : Option CnReg :=
  match (s.part p).cnRegion i with
  | some (base, len, test) => if len = 0 then none else some { part := p, ix := i, test, base, len }
  | none => none

/-! ### Entries (R214) -/

/-- An index entry. -/
structure CnEntry where
  name : Nat
  state : Nat
  node : Bool
  count : Nat
  deriving DecidableEq, Repr, Inhabited

def cnEntry (s : State) (r : CnReg) (i : Nat) : CnEntry :=
  let bs := s.read (.dev (r.entry i)) 24
  let w := w64 (leAt bs 16 8)
  { name := leAt bs 0 16, state := bits w 63 62, node := bit w 61, count := bits w 31 0 }

/-- Word 2 of an entry. -/
def CnEntry.word2 (e : CnEntry) : Word := w64 (e.state * 2 ^ 62 + b2n e.node * 2 ^ 61 + e.count)
def CnEntry.bytes (e : CnEntry) : List Byte := leBytes 16 e.name ++ leBytes 8 e.word2.toNat ++ leBytes 8 0

/-- A state with the bytes of device storage that a CN operation has written: address and number (R271), and the writer. -/
structure Book where
  s : State
  wrote : List (Nat × Nat) := []
  by_ : By := {}

def Book.write (b : Book) (pa : Nat) (bs : List Byte) : Book :=
  { b with s := b.s.poke (.dev pa) bs b.by_, wrote := b.wrote ++ [(pa, bs.length)] }

/-- Write word 2 of slot `i`'s entry, and the whole entry. -/
def Book.word2 (b : Book) (r : CnReg) (i : Nat) (e : CnEntry) : Book :=
  b.write (r.entry i + 16) (leBytes 8 e.word2.toNat)
def Book.entry (b : Book) (r : CnReg) (i : Nat) (e : CnEntry) : Book := b.write (r.entry i) e.bytes

/-! ### Names (R215 to R217) -/

/-- XOR of the eight 16-byte chunks of a line. -/
def xorChunks (bs : List Byte) : (n : Nat) → Nat
  | 0 => 0
  | n + 1 => ofLe (bs.take 16) ^^^ xorChunks (bs.drop 16) n

/-- HASH of a line (R216). -/
def cnHash (s : State) (r : CnReg) (line : List Byte) : Nat :=
  let h := if r.test then xorChunks line 8 / 256
    else blake3 (((s.part r.part).keys.map (·.naming)).getD 0) line % 2 ^ 120
  if h = 0 then 1 else h

/-- The slot that a name may lie in. -/
def cnSlotOf (r : CnReg) (name : Nat) : Nat := (name / 256 % r.n + name % 256) % r.n

/-- The slot that holds a name, with its entry. A poisoned index line holds none. -/
def cnFind (s : State) (r : CnReg) (name : Nat) : Option (Nat × CnEntry) :=
  let i := cnSlotOf r name
  let e := cnEntry s r i
  if name ≠ 0 ∧ e.name = name ∧ (e.state = 1 ∨ e.state = 2) ∧ s.homePoisoned (r.entry i) = false then some (i, e)
  else none

/-- Whether a name is live (R217). -/
def cnLive (s : State) (r : CnReg) (name : Nat) : Bool :=
  match cnFind s r name with
  | some (_, e) => e.state == 1
  | none => false

/-- The bytes of a live name's line; none when it is not live or its line is poisoned. -/
def cnLine (s : State) (r : CnReg) (name : Nat) : Option (List Byte) :=
  match cnFind s r name with
  | some (i, e) =>
    if e.state = 1 ∧ s.homePoisoned (r.line i) = false then some (s.read (.dev (r.line i)) 128) else none
  | none => none

/-- The eight names of an interior node (R222). -/
def childrenOf (line : List Byte) : List Nat := (upto 0 8).map fun j => leAt line (16 * j) 16

/-! ### Counts (R220, R221) -/

def stuckCount : Nat := 0xFFFFFFFF

/-- Add 1 to the count of a live name; none when it is not live. -/
def cnRefAt (b : Book) (r : CnReg) (name : Nat) : Option Book :=
  match cnFind b.s r name with
  | some (i, e) =>
    if e.state ≠ 1 then none
    else if e.count = stuckCount then some b
    else some (b.word2 r i { e with count := e.count + 1 })
  | none => none

/-- Subtract 1 from the count of a live name; none when it is not live. A count of 0 makes the line pending, which
holds it for the group `who` until that group passes a horizon. -/
def cnDropAt (b : Book) (r : CnReg) (name : Nat) (who : Option Nat) : Option Book :=
  match cnFind b.s r name with
  | some (i, e) =>
    if e.state ≠ 1 then none
    else if e.count = stuckCount then some b
    else
      let e1 : CnEntry := { e with count := e.count - 1, state := if e.count ≤ 1 then 2 else 1 }
      let b1 := b.word2 r i e1
      match who with
      | some k => if e1.state = 2 then
          some { b1 with s := b1.s.modGroup k fun g => { g with drops := g.drops ++ [(r.ix, i)] } }
        else some b1
      | none => some b1
  | none => none

/-- Drop each non-null name of a list, in order; one that is not live is passed over. -/
def cnDropAll (b : Book) (r : CnReg) : List Nat → Book
  | [] => b
  | n :: t => cnDropAll (if n = 0 then b else (cnDropAt b r n none).getD b) r t

/-- Groups of a partition whose drop holds a slot pending. -/
def dropHeld (s : State) (p ix i : Nat) : Bool :=
  s.groups.any fun g => !g.isControl && (s.gang g.gang).task.part == p && g.drops.any (· == (ix, i))

/-- A revived slot is no longer pending for any group. -/
def unhold (s : State) (p ix i : Nat) : State :=
  s.modGroups fun g =>
    if !g.isControl && (s.gang g.gang).task.part == p then { g with drops := g.drops.filter (· != (ix, i)) } else g

/-- The reverse of the group's own drop revives its pending line (R220, R227); else as CN.REF. -/
def cnRevive (b : Book) (r : CnReg) (name key : Nat) : Option Book :=
  match cnFind b.s r name with
  | some (i, e) =>
    if e.state = 2 then
      if ((b.s.group? key).map fun g => g.drops.any (· == (r.ix, i))).getD false then
        let b1 := b.word2 r i { e with state := 1, count := 1 }
        some { b1 with s := unhold b1.s r.part r.ix i }
      else none
    else cnRefAt b r name
  | none => none

/-! ### Lookup-or-allocate (R218, R219) -/

/-- The walk over the probe indices: the index to use, and whether it matched. -/
def putWalk (s : State) (r : CnReg) (h : Nat) (line : List Byte) : List Nat → Option Nat → Option (Nat × Bool)
  | [], free => free.map fun k => (k, false)
  | k :: t, free =>
    let i := (h % r.n + k) % r.n
    if s.homePoisoned (r.entry i) then putWalk s r h line t free
    else
      let e := cnEntry s r i
      if e.state = 0 then some (free.getD k, false)
      else if e.state = 3 then putWalk s r h line t (some (free.getD k))
      else if e.name = 256 * h + k ∧ s.homePoisoned (r.line i) = false
          ∧ s.read (.dev (r.line i)) 128 = line then some (k, true)
      else putWalk s r h line t free

/-- Put a line: the name, or none when the region is full (R218). -/
def cnPutAt (b : Book) (r : CnReg) (line : List Byte) (node : Bool) : Option (Book × Nat) :=
  let h := cnHash b.s r line
  match putWalk b.s r h line (upto 0 256) none with
  | none => none
  | some (k, found) =>
    let i := (h % r.n + k) % r.n
    let name := 256 * h + k
    if found then
      let e := cnEntry b.s r i
      let b0 : Book := if e.state = 2 then { b with s := unhold b.s r.part r.ix i } else b
      let b1 := b0.word2 r i
        { e with state := 1, count := if e.count = stuckCount then e.count else e.count + 1 }
      some (if node then cnDropAll b1 r (childrenOf line) else b1, name)
    else
      let b1 := b.write (r.line i) line
      some (b1.entry r i { name, state := 1, node, count := 1 }, name)

/-- The caches drop their copies of slot `i`'s line. -/
def dropCopies (s : State) (r : CnReg) (i : Nat) : State :=
  { s with tiles := s.tiles.filter (·.line != r.line i / 128), l1 := s.l1.filter (·.line != r.line i / 128) }

/-- The tile cache takes the line of slot `i` under the key of its region's class (R226). -/
def touchSlot (s : State) (r : CnReg) (i : Nat) : State :=
  touchKey s s.myAsid (cnKey s r.part (0xFFF8 + r.ix) i) 0 (r.line i / 128)

/-- Free a pending line that no group's drop holds (R221, R443): its copies go, its children are dropped, and the entry is
vacated. -/
def cnFree (b : Book) (r : CnReg) (i : Nat) : Book :=
  let e := cnEntry b.s r i
  if e.state ≠ 2 ∨ r.n ≤ i ∨ b.s.homePoisoned (r.entry i) ∨ dropHeld b.s r.part r.ix i then b
  else
    let b0 : Book := { b with s := dropCopies b.s r i }
    let b1 := if e.node && !b0.s.homePoisoned (r.line i) then
        cnDropAll b0 r (childrenOf (b0.s.read (.dev (r.line i)) 128))
      else b0
    b1.entry r i { name := 0, state := 3, node := false, count := 0 }

/-! ### Root cells (R223, R224) -/

/-- What a CN operation at its home gives: a name, nothing but its effect, poison in D of a cause, or a refusal. -/
inductive CnRes where
  | name (n : Nat)
  | done
  | poison (cause : Nat)
  | refused
  deriving DecidableEq, Repr, Inhabited

/-- Read a root cell; with `ref`, take a reference. -/
def cnRootAt (b0 : Book) (r : CnReg) (ref : Bool) (pa : Nat) : Book × CnRes :=
  let b : Book := { b0 with s := homeLine b0.s (.dev pa) }
  if b.s.mem.poisoned pa then (b, .poison 4)
  else
    let n := ofLe (b.s.mem.bytes (.dev pa) 16)
    if ref && n != 0 then
      match cnRefAt b r n with
      | some b1 => (b1, .name n)
      | none => (b, .refused)
    else (b, .name n)

/-- Compare and swap a root cell with its count steps. -/
def cnSwapAt (b0 : Book) (r : CnReg) (pa old new : Nat) : Book × CnRes :=
  let b : Book := { b0 with s := homeLine b0.s (.dev pa) }
  if new != 0 && !cnLive b.s r new then (b, .refused)
  else if b.s.mem.poisoned pa then (b, .poison 4)
  else
    let cur := ofLe (b.s.mem.bytes (.dev pa) 16)
    if cur = old then
      let b1 := if new = 0 then b else (cnRefAt b r new).getD b
      let b2 := b1.write pa (leBytes 16 new)
      (if cur = 0 then b2 else (cnDropAt b2 r cur none).getD b2, .name cur)
    else (b, .name cur)

/-! ### The operations as instructions and as queued atomics -/

/-- A CN operation with its operands: the serial form of R268. -/
inductive CnOp where
  | put (node : Bool) (line : List Byte)
  | ref (name : Nat)
  | drop (name : Nat)
  | root (ref : Bool) (pa : Nat)
  | swap (pa old new : Nat)
  deriving DecidableEq, Repr, Inhabited

/-- Apply an operation at its home; a drop holds for `who`. -/
def cnApply (b : Book) (r : CnReg) (who : Option Nat) : CnOp → Book × CnRes
  | .put node line => match cnPutAt b r line node with
    | some (b1, n) => (b1, .name n)
    | none => (b, .refused)
  | .ref n => match cnRefAt b r n with
    | some b1 => (b1, .done)
    | none => (b, .refused)
  | .drop n => match cnDropAt b r n who with
    | some b1 => (b1, .done)
    | none => (b, .refused)
  | .root ref pa => cnRootAt b r ref pa
  | .swap pa old new => cnSwapAt b r pa old new

/-- A name in a pair of registers (R409). -/
def pairName (lo hi : SVal) : Nat := lo.v.toNat + 2 ^ 64 * hi.v.toNat
def nameIn (s : State) (d : Reg) : Nat := pairName (srcS s d) (srcS s (Reg.next d))

/-- The line in a vector register (R409). -/
def lineIn (s : State) (a : Reg) : List Byte := (upto 0 32).flatMap fun l => leBytes 4 (srcL s a l).v.toNat

/-- A region checked at issue (R409, R58): its trap. -/
def cnTrap (s : State) (r : Nat) : Option Trap :=
  match cnReg? s s.myP r with
  | none => access 1 s.pcN
  | some x => if x.test && !policyOpen s s.myGang 5 then access 4 s.pcN else none

/-- A root cell checked at issue: a CNR page with the right, in device storage, and then its alignment (R413). -/
def cellTrap (s : State) (va : Nat) (need : Need) : Option Trap :=
  match look s va need with
  | .ok (.dev pa) leaf =>
    if !bit leaf 57 || inHistory s pa 16 || (need == .write && inTensorTable s s.myP pa 16) then access 1 va
    else if va % 16 ≠ 0 then some { code := 6, addr := va } else none
  | _ => access 1 va

/-- The device address of a cell. -/
def cellPa (s : State) (va : Nat) (need : Need) : Nat :=
  match look s va need with
  | .ok (.dev pa) _ => pa
  | _ => 0

/-- First of two traps. -/
def firstTrap (a b : Option Trap) : Option Trap := match a with | some t => some t | none => b

/-- The crumb of a name pair (R125, R227): KIND 0x07 with TOOK, or 0x0B when an old value held poison. -/
def crumbName (s : State) (d : Reg) (took : Bool) : List Crumb :=
  let x := readS s s.me d
  let y := readS s s.me (Reg.next d)
  if x.p || y.p then crumbPair s d (Reg.next d) true
  else [mkCrumb 0x07 s.me.hist.ic (BitVec.ofNat 32 (b2n took)) [x.v, y.v]]

/-- A result of a CN operation reaches the pair D. -/
def giveName (t : State) (d : Reg) (ic : Word) (va : Nat) : CnRes → State
  | .name n => putS (putS t d { v := w64 n }) (Reg.next d) { v := w64 (n / 2 ^ 64) }
  | .poison c =>
    let r := noteLoad t ic (some (c, va))
    r.1.modMe (·.putScalars (poisonPair (t.momentAt ic) true (Reg.sIx d) r.2))
  | _ => t

/-- The reads of a root cell are accesses of lane 0 (R203, R263, R265). -/
def cellAcc (s : State) (va : Nat) (need : Need) : Acc := { lane := 0, va, n := 16, look := look s va need }

/-- An operation of the current group outside a DET launch. -/
def cnNow (s : State) (r : Nat) (op : CnOp) : Option (Book × CnRes) :=
  (cnReg? s s.myP r).map fun x => cnApply { s := s, by_ := s.byMe } x (some s.me.key) op

/-- What a root operation is to the order of memory: CN.SWAP a release, both of them acquires of the write that they read
(R253). -/
def cnRelease (t : State) : CnOp → State
  | .swap .. => t.release .dev
  | _ => t
def cnAcquire (t : State) (reads : List (Nat × Writer × Nat)) : CnOp → State
  | .swap .. | .root .. => (t.see reads).acquire (scopeNum .dev) reads
  | _ => t

/-- Whether the region's state refuses an operation at issue; a DET launch checks that at the boundary (R269). -/
def cnRefuses (s : State) (r : Nat) (op : CnOp) : Bool :=
  !s.inDet && match cnNow s r op with
    | some (_, .refused) => true
    | _ => false

/-- The shape of CN.PUT, CN.REF, CN.DROP, CN.ROOT and CN.SWAP: operation, region, and the cell's address and need
when it has one; `cause` is that of a refusal. -/
structure CnDo where
  x : Sync
  i : Instr
  r : Nat
  op : CnOp
  d : Reg
  cell : Option (Nat × Need) := none
  cause : Nat := 1

def cnDo (c : CnDo) (s : State) : Host.Outcome State Fault Refusal :=
  let accs := match c.cell with | some (va, n) => [cellAcc s va n] | none => []
  let cellT := match c.cell with | some (va, n) => cellTrap s va n | none => none
  let late := if cnRefuses s c.r c.op then access c.cause s.pcN else none
  let va := ((c.cell.map (·.1)).getD 0)
  let pa := match c.op with | .root _ p => p | .swap p _ _ => p | _ => 0
  let new := match c.op with | .swap _ _ n => n | .ref n => n | .drop n => n | _ => 0
  syncDo { c.x with trap := firstTrap (cnTrap s c.r) (firstTrap cellT late), foreign := accForeign s accs, touch := accLocs accs }
    (fun t =>
      let t1 := (cnRelease t c.op).begin true true true accs
      if s.inDet then
        pushSerial t1
          { inst := s.myGang.inst, gid := s.me.gid, key := s.me.key, ic := s.me.hist.ic, i := c.i,
            d := srcS s c.d, d2 := srcS s (Reg.next c.d), b := { v := w64 new }, b2 := { v := w64 (new / 2 ^ 64) },
            lanes := if accs.isEmpty then [] else [(0, va, pa, 0)],
            line := match c.op with | .put _ l => l | _ => [] }
      else match cnNow t1 c.r c.op with
        | some (b, res) =>
          let t2 := if b.wrote.any (·.1 == pa) && !accs.isEmpty then noteProofing b.s va 16 else b.s
          cnAcquire (giveName t2 c.d s.me.hist.ic va res) (latestSources t1 (.dev pa) 16) c.op
        | none => t1) s

/-- CN.PUT (R410). -/
def execCnPut (h : Hd) (node : Bool) (r : Fin 8) (d a : Reg) (s : State) : Host.Outcome State Fault Refusal :=
  cnDo { x := { h, vecs := [a], writes := [d, Reg.next d], roles := rolesVector, quantum := true,
                crumbs := crumbName s d (guardS s h) },
         i := .cnPut h node r d a, r, op := .put node (lineIn s a), d, cause := 3 } s

/-- CN.REF and CN.DROP (R412). -/
def execCnRef (h : Hd) (r : Fin 8) (d : Reg) (s : State) : Host.Outcome State Fault Refusal :=
  cnDo { x := { h, reads := [d, Reg.next d], roles := rolesVector }, i := .cnRef h r d, r,
         op := .ref (nameIn s d), d } s
def execCnDrop (h : Hd) (r : Fin 8) (d : Reg) (s : State) : Host.Outcome State Fault Refusal :=
  cnDo { x := { h, reads := [d, Reg.next d], roles := rolesVector }, i := .cnDrop h r d, r,
         op := .drop (nameIn s d), d } s

/-- CN.ROOT (R413). -/
def execCnRoot (h : Hd) (ref : Bool) (r : Fin 8) (d a : Reg) (s : State) : Host.Outcome State Fault Refusal :=
  let va := (srcS s a).v.toNat
  let pa := cellPa s va .read
  let m := (homeLine s (.dev pa)).mem
  let took := guardS s h && ref && !m.poisoned pa && ofLe (m.bytes (.dev pa) 16) != 0
  cnDo { x := { h, reads := [a], writes := [d, Reg.next d], roles := rolesVector,
                quantum := true, crumbs := crumbName s d took },
         i := .cnRoot h ref r d a, r, op := .root ref pa, d, cell := some (va, .read) } s

/-- CN.SWAP (R414). -/
def execCnSwap (h : Hd) (r : Fin 8) (d a b : Reg) (s : State) : Host.Outcome State Fault Refusal :=
  let va := (srcS s a).v.toNat
  cnDo { x := { h, reads := [a, d, Reg.next d, b, Reg.next b], writes := [d, Reg.next d], roles := rolesVector,
                horizon := true, quantum := true, wait := releaseWait s true .dev },
         i := .cnSwap h r d a b, r, op := .swap (cellPa s va .write) (nameIn s d) (nameIn s b), d,
         cell := some (va, .write) } s

/-- What CN.GET finds (R411): the line, or a poison cause. -/
def getLine (s : State) (r name : Nat) : List Byte × Option Nat :=
  match cnReg? s s.myP r with
  | none => ([], some 1)
  | some x => match cnFind s x name with
    | some (i, e) =>
      if e.state ≠ 1 then ([], some 1)
      else if s.homePoisoned (x.line i) then ([], some 4)
      else (s.read (.dev (x.line i)) 128, none)
    | none => ([], some 1)

/-- The lines that an access to a name reads are met at their homes, and the tile cache takes the named line. -/
def meetIn (s : State) (x : CnReg) (name : Nat) : State :=
  let i := cnSlotOf x name
  let t := homeLine (homeLine s (.dev (x.entry i))) (.dev (x.line i))
  if cnLive t x name then touchSlot t x i else t
def meetName (s : State) (r name : Nat) : State :=
  match cnReg? s s.myP r with
  | some x => meetIn s x name
  | none => s

/-- CN.GET (R411): acts in lanes; a poisoned guard lane poisons the lane it writes (R393). -/
def execCnGet (h : Hd) (r : Fin 8) (d a : Reg) (s : State) : Host.Outcome State Fault Refusal :=
  let act := lanesOn s h
  let got := getLine s r (nameIn s a)
  issue { h, reads := [a, Reg.next a], writes := [d], roles := rolesVector, vec := true }
    { crumbs := crumbV s d act,
      poison := lanesPoison (act.map fun l => (l, [srcL s a l, srcL s (Reg.next a) l])),
      trap := if act.isEmpty then none else cnTrap s r }
    (fun t =>
      if act.isEmpty then t
      else
        let n := noteLoad (meetName t r (nameIn s a)) s.me.hist.ic (got.2.map fun c => (c, 0))
        putV n.1 d (act.map fun l => (l, match got.2 with
          | some _ => { v := (Config.poisonValue s.moment l).setWidth 32, p := true, o := n.2 }
          | none => lanePoison (w32 (leAt got.1 (4 * l) 4)) [srcL s h.gr l]))) s

/-! ### Copy-out (R222, R225, R415) -/

/-- The least depth d with 8^d ≥ L. -/
def treeDepth (l : Nat) : Nat := ((upto 0 9).find? fun d => decide (l ≤ 8 ^ d)).getD 8

/-- The first `n` leaves under a name at depth `d`; none for a leaf that fails, and zeros under a null name. -/
def treeLeaves (s : State) (r : CnReg) : (d : Nat) → (name : Option Nat) → (n : Nat) → List (Option (List Byte))
  | 0, name, _ => [match name with
      | none => none
      | some 0 => some (leBytes 128 0)
      | some m => cnLine s r m]
  | d + 1, name, n =>
    let kids : List (Option Nat) := match name with
      | none => (upto 0 8).map fun _ => none
      | some 0 => (upto 0 8).map fun _ => some 0
      | some m => match cnLine s r m with
        | some line => (childrenOf line).map some
        | none => (upto 0 8).map fun _ => none
    (kids.zip (upto 0 8)).flatMap fun (k, j) =>
      if n ≤ j * 8 ^ d then [] else treeLeaves s r d k (min (8 ^ d) (n - j * 8 ^ d))

/-- The names that a copy-out of `n` leaves reads. -/
def treeNames (s : State) (r : CnReg) : (d : Nat) → (name n : Nat) → List Nat
  | 0, name, _ => if name = 0 then [] else [name]
  | d + 1, name, n =>
    if name = 0 then []
    else name :: match cnLine s r name with
      | some line => ((childrenOf line).zip (upto 0 8)).flatMap fun (k, j) =>
          if n ≤ j * 8 ^ d then [] else treeNames s r d k (min (8 ^ d) (n - j * 8 ^ d))
      | none => []

/-- CN.OUT (R415): checked and queued for the loaders; it completes at issue. -/
def execCnOut (h : Hd) (r : Fin 8) (k : Fin 16) (d a b : Reg) (s : State) : Host.Outcome State Fault Refusal :=
  let va := (srcS s a).v.toNat
  let n := (srcS s b).v.toNat
  syncDo { h, reads := [d, Reg.next d, a, b], roles := [.vector, .copy], horizon := true,
           trap := firstTrap (cnTrap s r) (firstTrap
             (if va % 128 ≠ 0 then some { code := 6, addr := va } else none)
             (if n = 0 ∨ 2 ^ 24 < n ∨ s.myGang.barBit k = false then access 1 s.pcN
              else (engineDenied s va (128 * n)).bind fun x => access 1 x)) }
    (fun t => modMyGang t fun g =>
      { g with outs := g.outs ++ [{ region := r, root := nameIn s d, leaves := n, dest := va, bar := k,
                                    gid := s.me.gid, ic := s.me.hist.ic }] }) s

/-- Write the leaves of a copy-out in order; from the first failing leaf onward the lines are poisoned. -/
def outLines (s : State) (ic : Word) (va : Nat) (bad : Bool) : List (Option (List Byte)) → State
  | [] => s
  | x :: t =>
    let bad1 := bad || x.isNone
    outLines (engineWrite s { w := .loader s.me.gang } ic va [(x.getD (leBytes 128 0), bad1)]) ic (va + 128) bad1 t

/-- The loaders carry out a copy-out and arrive at its barrier. -/
def doCopyOut (s : State) (uid : Nat) (o : CopyOut) : State :=
  let g := s.gang uid
  match cnReg? s g.task.part o.region with
  | none => s
  | some r =>
    let leaves := treeLeaves s r (treeDepth o.leaves) (some o.root) o.leaves
    let meet (t : State) : State := (treeNames t r (treeDepth o.leaves) o.root o.leaves).foldl (fun t n => meetIn t r n) t
    let s1 := match groupKey? s uid o.gid with
      | some k => asGroup s k fun t => outLines (meet t) o.ic o.dest false leaves
      | none => asGhost s { key := 4 + 128 * uid + o.gid, gang := uid, gid := o.gid, role := .copy, status := .halted }
          fun t => outLines (meet t) o.ic o.dest false leaves
    s1.modGang uid fun g =>
      { g.setBar o.bar ((g.bar o.bar).arrive (leaves.any (·.isNone)) { known := [(.loader uid, s1.stamp)] }) with outs := g.outs.erase o }

/-- Every copy-out outstanding, with its gang. -/
def allOuts (s : State) : List (Nat × CopyOut) := s.gangs.flatMap fun g => g.outs.map fun o => (g.uid, o)

/-- CN_OUT_COMPLETE (R225): in a DET launch the boundary carries copy-outs out (R267). -/
def execCnOutComplete (index : Nat) (s : State) : Host.Outcome State Fault Refusal :=
  match (allOuts s).drop index with
  | (uid, o) :: _ =>
    let g := s.gang uid
    if (s.launch g.task.part g.task.launch).det then .next s else .next (doCopyOut s uid o)
  | [] => .next s

/-- CN_RECLAIM (R221). -/
def execCnReclaim (part : Fin 16) (region slot : Nat) (s : State) : Host.Outcome State Fault Refusal :=
  match cnReg? s part region with
  | some r => .next (cnFree { s := s } r slot).s
  | none => .next s

end Sys2Proof.Machine
end

