-- ==== Sys2Proof/Machine/Fetch.lean ====
section
/-! DEFINITION. Fetching the current group's next word: translation with permission X (R198), falling into a block
(R130, R131, R286), breakpoints (R345), and the place that a word is put to be fetched. -/

namespace Sys2Proof.Machine

/-- A header that no control may enter (R286). -/
def headerBad (w : Word) : Bool := hdrBad w

/-- Whether the next word stands above the group's block, or the group has not entered a block yet. -/
def atBlockEnd (g : Group) : Bool := g.at_.pc == g.at_.hva + 8 + w64 (8 * hdrLen g.at_.hdr)

/-- Entering the block at `va` with header `w` (R130): the pc stands at its first instruction; a JOIN block pushes
the old cf and takes `from`. -/
def Group.enter (g : Group) (va w : Word) (src : Word) : Group :=
  let g1 := { g with at_ := { pc := va + 8, hva := va, hdr := w, fresh := true } }
  if hdrJoin w then
    { g1 with hist := { g1.hist with
        crumbs := mkCrumb 0x04 g.hist.ic 0 [g.hist.cf] :: g.hist.crumbs, cf := src } }
  else g1

/-- Before a fetch: the walk's entries stay cached (R203), the word's line is met at its home (R182, R195, R208), and the core's
instruction L1 takes it (R1). -/
def State.fetching (s : State) : State :=
  if s.me.isControl then s
  else
    let t := s.noteLeaf s.myP s.myAsid s.me.at_.pc.toNat
    match look t s.me.at_.pc.toNat .fetch with
    | .ok l _ => touchIl1 (homeLine t l) t.me.seat.core t.myP t.myAsid (t.me.at_.pc.toNat / 128)
    | .bad _ => t

/-- Falling into the next block when the group stands at a block's end; otherwise nothing. -/
def fallIn (s : State) : Trap ⊕ State :=
  if atBlockEnd s.me then
    let va := s.me.at_.pc
    match fetchAt s va with
    | .inl t => .inl t
    | .inr w =>
      if !isHeader w || headerBad w || (s.me.at_.hdr == 0 && !hdrEntry w) then
        .inl { code := 3, addr := va.toNat }
      else .inr (s.modMe (·.enter va w 0))
  else .inr s

/-- BREAK is due at the next word (R345): an enabled breakpoint names it, the gang was launched with DEBUG open, and
the group does not resume from a break. -/
def breakDue (s : State) : Bool :=
  !s.me.isControl && !s.me.marks.skipBrk && policyOpen s s.myGang 0 &&
    (upto 0 4).any fun i =>
      let b := Tab.get 0 s.myPart.brk i
      bit b 63 && bits b 55 0 == s.me.at_.pc.toNat

/-- A control core is about to execute a word at an enabled FWD_BRK offset (R452). -/
def fwdDue (s : State) : Bool :=
  s.me.isControl && !s.me.marks.skipBrk && Config.fwDebugFuse &&
    (upto 0 4).any fun i =>
      let b := Tab.get 0 s.fwd.brk i
      bit b 63 && bits b 23 0 == s.me.at_.pc.toNat

/-- The page of code where a word is put for the next fetch, and the VA of its block. -/
def slotPage : Nat := 0x230000
def slotVa : Nat := 0x10000

/-- The role that issues a word of the given OP class (R98). -/
def slotRole (i : Instr) : Role :=
  match i with
  | .mbLd .. => .matrix
  | .mma .. => .matrix
  | .mloop .. => .matrix
  | .mmaBd .. => .matrix
  | .accAlloc .. => .matrix
  | .accGrow .. => .matrix
  | .accFree .. => .matrix
  | .mwait .. => .matrix
  | .mstat .. => .matrix
  | _ => .vector

/-- Whether an instruction is one of the control cores' (R352). -/
def slotControl (i : Instr) : Bool :=
  match i with
  | .qctlRd .. => true
  | .qctlQ .. => true
  | .qctlR .. => true
  | .mboxSendVerify .. => true
  | .mboxSendMeas .. => true
  | .mboxRecv .. => true
  | .wdogKick .. => true
  | .slotSel .. => true
  | _ => false

/-- A block header: LEN 1 with the given flag bits. -/
def slotHeader : Word := w64 ((2 ^ 11 - 1) * 2 ^ 53 + 1 * 2 ^ 45 + 255 * 2 ^ 20 + 2 ^ 2)

/-- The current group set up to run the one word `w` next: a group of partition 0 in a 1 × 1 gang, its code page
mapped by tables in the partition's range; a control core for firmware instructions. -/
def placeWord (s : State) (w : Nat) : State :=
  let word := w64 w
  let ctl := match decode word with
    | some i => slotControl i
    | none => false
  if ctl then
    let img := leBytes 64 0 ++ leBytes 8 slotHeader.toNat ++ leBytes 8 w
    { s with agenda := [], zal := s.zal.setSlot s.zal.active img,
             module := { s.module with islands := Tab.set {} s.module.islands 0 { on := true } },
             me := { bootGroup 0 64 0 with
               at_ := { pc := w64 (0xE80000 + 72), hva := w64 (0xE80000 + 64), hdr := slotHeader } } }
  else
    let role := match decode word with
      | some i => slotRole i
      | none => .vector
    let cells := [(0x100000, w64 (2 ^ 63 + 0x200000)), (0x200000, w64 (2 ^ 63 + 0x210000)),
      (0x210000, w64 (2 ^ 63 + 0x220000)), (0x220000, w64 (2 ^ 63 + 0x221000)),
      (0x221008, w64 (2 ^ 63 + 2 ^ 62 + 2 ^ 61 + 2 ^ 60 + 2 ^ 59 + slotPage)),
      (slotPage, slotHeader), (slotPage + 8, word)]
    let s1 := cells.foldl (fun s (a, x) => s.setDevWord a x) s
    let task : TaskId := { part := 0, launch := 0, node := 0, inst := 0 }
    { s1 with
      agenda := [], cached := [], tiles := [], l1 := [], il1 := [], coh := {}, migrations := [],
      rest := s.rest.filter (·.isControl),
      parts := Tab.set {} s.parts 0
        { cfg := [(0, w64 (2 ^ 63 + 2 * 2 ^ 12 + 2 * 2 ^ 8)), (1, w64 (2 ^ 62 + 4))], asidtBase := 0x100000,
          ttBase := 0x1000000 },
      launches := [{ part := 0, num := 0, tasks := [{ id := task, life := .running, placed := 1, walked := true }] }],
      gangs := [{ uid := 1, task, desc := [w64 (2 ^ 56 + 16 * 2 ^ 49 + 8 * 2 ^ 30 + 0xFFFF * 2 ^ 6), w64 slotVa, 0, 0, 0, 0, 0, 0] }],
      nextGang := 2,
      me := { key := 4 + 128, gang := 1, role, status := .run,
              regs := { quota := 768 }, baseQuota := 768,
              at_ := { pc := w64 (slotVa + 8), hva := w64 slotVa, hdr := slotHeader },
              hist := { base := 0x300000, log := 16 } } }

end Sys2Proof.Machine
end

