-- ==== Sys2Proof/Machine/Product.lean ====
section
/-! DEFINITION. The aligned-block product: format records (R242, R243), scales (R241, R244), decoding and alignment,
block terms and the accumulation of blocks (R245, R246, R248). -/

namespace Sys2Proof.Machine

/-! ### Format records -/

def recEf (r : Word) : Nat := bits r 63 60
def recBl (r : Word) : Nat := 2 ^ (4 + bits r 59 58)
def recSf (r : Word) : Nat := bits r 57 56
def recW (r : Word) : Nat := if bit r 48 then 16 else 8
def recScale (r : Word) : Nat := bits r 23 0
/-- Bytes of an element (R420) and of a scale (R244). -/
def recEsz (r : Word) : Nat := if recEf r = 4 ∨ recEf r = 5 then 2 else 1
def recSsz (r : Word) : Nat := if recSf r = 2 then 2 else 1

/-- A record that is ill-formed on its own for a K extent (R243). -/
def recBad (r : Word) (k : Nat) : Bool :=
  decide (5 < recEf r) || recSf r == 3 || bits r 55 49 != 0 || bits r 47 24 != 0
    || (recW r == 8 && (recEf r == 4 || recEf r == 5)) || (recEf r == 3 && recSf r != 0) || decide (k % recBl r ≠ 0)

/-- Two records that make an ill-formed pair (R243, R421). -/
def pairBad (a b : Word) : Bool :=
  ((recEf a == 3) != (recEf b == 3)) || recW a != recW b || recBl a != recBl b

/-! ### Elements and scales -/

/-- The value of an element code (R242). -/
def elemVal (ef c : Nat) : FVal :=
  match ef with
  | 0 => mk8Dec c
  | 1 => e4m3.dec (c % 256)
  | 2 => e5m2.dec (c % 256)
  | 3 => let v := sext 8 c; .fin (decide (v < 0)) v.natAbs 0 false
  | 4 => bf16.dec (c % 65536)
  | _ => fp16.dec (c % 65536)

/-- The exponent e of R245's Decode: of the leading bit, and for a subnormal the smallest normal exponent. -/
def elemExp (ef m : Nat) (e : Int) : Int :=
  match ef with
  | 0 => e + Nat.log2 m
  | 1 => e + e4m3.fb
  | 2 => e + e5m2.fb
  | 4 => e + bf16.fb
  | 5 => e + fp16.fb
  | _ => 0

/-- The value of a scale code (R241); 1.0 under SF 0. -/
def scaleVal (sf c : Nat) : FVal :=
  match sf with
  | 1 => if c % 256 = 128 then .nan else .fin false 1 (sext 8 c) false
  | 2 => match bf16.dec (c % 65536) with
    | .inf _ => .nan
    | x => x
  | _ => .fin false 1 0 false

/-! ### Alignment and block terms (R245) -/

/-- emax of a block. -/
def blockMax (ef : Nat) (vs : List FVal) : Int :=
  let es := vs.filterMap fun v => match v with
    | .fin _ m e _ => if m = 0 then none else some (elemExp ef m e)
    | _ => none
  match es with
  | [] => 0
  | e :: t => t.foldl max e

/-- The aligned value of an element: truncated toward zero. -/
def alignOne (w : Nat) (emax : Int) (v : FVal) : Int :=
  match v with
  | .fin neg m e _ =>
    let sh := e - emax + (w : Int) - 2
    let a : Nat := if 0 ≤ sh then m * 2 ^ sh.toNat else m / 2 ^ (-sh).toNat
    if neg then -(a : Int) else a
  | _ => 0

/-- The sum of products of two lists. -/
def dot : List Int → List Int → Int
  | a :: s, b :: t => a * b + dot s t
  | _, _ => 0

/-- The pairs of a block that hold an infinity, multiplied. -/
def infPairs : List FVal → List FVal → List FVal
  | a :: s, b :: t =>
    let isInf (v : FVal) : Bool := match v with | .inf _ => true | _ => false
    if isInf a || isInf b then a.mul b :: infPairs s t else infPairs s t
  | _, _ => []

/-- The FP32 term of a block, as a code. -/
def blockTerm (w efA efB : Nat) (as bs : List FVal) (sa sb : FVal) : Nat :=
  if as.any (·.isNan) || bs.any (·.isNan) || sa.isNan || sb.isNan then fp32.nanC
  else match infPairs as bs with
    | x :: t =>
      if x.isNan || t.any (·.isNan) || t.any (·.isNeg != x.isNeg) then fp32.nanC
      else fp32.enc .rne (x.mul (sa.mul sb))
    | [] =>
      let ea := blockMax efA as
      let eb := blockMax efB bs
      let p := dot (as.map (alignOne w ea)) (bs.map (alignOne w eb))
      let x := (FVal.fin (decide (p < 0)) p.natAbs (ea + eb - 2 * ((w : Int) - 2)) false).mul (sa.mul sb)
      if x.isZero then fp32.top else fp32.enc .rne x

/-- One block added to an FP32 accumulator. -/
def addTerm (acc term : Nat) : Nat := fp32.enc .rne ((fp32.dec acc).add .rne (fp32.dec term))

/-- Saturate32 (R246). -/
def sat32 (v : Int) : Int := max (-(2 ^ 31)) (min (2 ^ 31 - 1) v)

/-- One block of products added to an accumulator element (R245, R246). -/
def accBlock (int8 : Bool) (w efA efB : Nat) (ca cb : List Nat) (sa sb : FVal) (acc : Lane) : Lane :=
  if int8 then BitVec.ofInt 32 (sat32 (acc.toInt + dot (ca.map (sext 8)) (cb.map (sext 8))))
  else w32 (addTerm acc.toNat (blockTerm w efA efB (ca.map (elemVal efA)) (cb.map (elemVal efB)) sa sb))

end Sys2Proof.Machine
end

