-- ==== Sys2Proof/Machine/Matrix.lean ====
section
/-! DEFINITION. The accumulator store, the B banks and the matrix queue (R152 to R156), and class 7 (R416 to R433). -/

namespace Sys2Proof.Machine

/-! ### Windows (R154) and the store -/

/-- A window: its element kind (true INT32), its first gang row and column, and its size. -/
structure Win where
  ek : Bool
  row : Nat
  col : Nat
  rows : Nat
  cols : Nat
  deriving DecidableEq, Repr, Inhabited

/-- The legal window that a handle names for a gang that holds `n` granules (R154). -/
def winOf (n : Nat) (h : Word) : Option Win :=
  let w : Win := { ek := bit h 57, row := 16 * bits h 56 52 + bits h 47 39, col := bits h 38 32,
                   rows := bits h 31 22, cols := bits h 21 14 }
  if bits h 63 58 = 0 ∧ bits h 51 48 = 0 ∧ bits h 13 0 = 0 ∧ w.rows ≠ 0 ∧ w.cols ≠ 0
      ∧ w.row + w.rows ≤ 16 * n ∧ w.col + w.cols ≤ 128 then some w else none

def Win.size (w : Win) : Nat := w.rows * w.cols
/-- Row and column of element `e` (R432). -/
def Win.pos (w : Win) (e : Nat) : Nat × Nat := (w.row + e / w.cols, w.col + e % w.cols)
/-- The granules that a window covers. -/
def Win.granules (w : Win) : List Nat := upto (w.row / 16) ((w.row + w.rows - 1) / 16 - w.row / 16 + 1)

def GangCore.elem (c : GangCore) (row col : Nat) : Lane := Tab.get 0 c.acc (128 * row + col)
def GangCore.setElem (c : GangCore) (row col : Nat) (v : Lane) : GangCore :=
  { c with acc := Tab.set 0 c.acc (128 * row + col) v }
def GangCore.setElems (c : GangCore) : List ((Nat × Nat) × Lane) → GangCore
  | [] => c
  | (p, v) :: t => GangCore.setElems (c.setElem p.1 p.2 v) t
/-- Mark granules invalid (R155). -/
def GangCore.spoil (c : GangCore) (gs : List Nat) : GangCore :=
  { c with accInvalid := gs.foldl (fun l g => addNat g l) c.accInvalid }
/-- R432: a write that has reached all 16 rows of a granule clears its invalid bit. -/
def GangCore.freshen (c : GangCore) (rows : List Nat) : GangCore :=
  { c with accInvalid := c.accInvalid.filter fun g => !(upto (16 * g) 16).all (mem? · rows) }

/-- What the current group's gang holds on the group's core. -/
def State.myCore (s : State) : GangCore := s.myGang.on (s.myGang.coreIx s.me.gid)
def State.modMyCore (s : State) (f : GangCore → GangCore) : State :=
  modMyGang s fun g => g.setOn (g.coreIx s.me.gid) (f (g.on (g.coreIx s.me.gid)))
def State.modCore (s : State) (c : Nat) (f : Core → Core) : State := s.setCore c (f (s.core c))
def Core.bank (k : Core) (b : Bool) : Bank := if b then k.mb1 else k.mb0
def Core.setBank (k : Core) (b : Bool) (v : Bank) : Core := if b then { k with mb1 := v } else { k with mb0 := v }

/-- The current group's window under a handle. -/
def State.win? (s : State) (h : Word) : Option Win := winOf s.myCore.granules h

/-- Lane `j` of the lanes that a queued instruction read. -/
def MEntry.lane (e : MEntry) (j : Nat) : Lane := (e.lanes.drop j).headD 0
/-- The guard that lane `j` read. -/
def MEntry.guard (e : MEntry) (j : Nat) : LVal := (e.guards.drop j).headD {}
def MEntry.active (e : MEntry) : List Nat := (upto 0 32).filter fun l => bit e.mask l

/-! ### Local reads -/

/-- `n` codes of `esz` bytes at local address `a`, `step` bytes apart. -/
def localCodes (s : State) (a esz step n : Nat) : List Nat :=
  (upto 0 n).map fun i => (localLoad s (a + i * step) esz).1

/-- Whether a line of a local range is poisoned; an empty range has none. -/
def localTainted (s : State) (a n : Nat) : Bool := decide (n ≠ 0) && (localLoad s a n).2

/-- The scale array of a record is out of range or misaligned (code 4, R420, R421). -/
def scaleBad (s : State) (r : Word) (a n : Nat) : Bool :=
  recSf r != 0 && (decide (recSf r = 2 ∧ a % 2 ≠ 0) || localDenied s a (recSsz r * n))

/-! ### Passes (R421 to R424) -/

/-- A pass: its record and window, the addresses of A and of its scales, the row offset, the bank, K and N, and
whether it is MMA.BD's. -/
structure Pass where
  rec_ : Word
  w : Win
  a : Nat
  sb : Nat
  off : Nat
  bank : Bool
  k : Nat
  n : Nat
  bd : Bool := false
  ic : Word := 0                -- of its instruction

def Pass.nb (p : Pass) : Nat := p.k / recBl p.rec_
/-- Steps of a pass: its blocks, one after another; MMA.BD's products are of different elements. -/
def Pass.steps (p : Pass) : Nat := if p.bd then 1 else max 1 p.nb
/-- The positions that the granules of a pass's window hold, 16 rows of 128 columns each (R152). -/
def Pass.positions (p : Pass) : List (Nat × Nat) :=
  (Win.granules p.w).flatMap fun g => (upto (16 * g) 16).flatMap fun r => (upto 0 128).map fun c => (r, c)

/-- Loop word fields (R423). -/
def loopCount (l : Word) : Nat := bits l 63 56
def loopK (l : Word) : Nat := 64 * (bits l 32 31 + 1)
def loopN (l : Word) : Nat := 8 * (bits l 30 27 + 1)
def loopA (l : Word) (p : Nat) : Nat := bits l 23 0 + 128 * bits l 55 44 * p
def loopOff (l : Word) (p : Nat) : Nat := bits l 43 35 * p
def loopBank (l : Word) (p : Nat) : Bool := bit l 33 != (bit l 34 && p % 2 == 1)

/-- Pass `p` of a queued instruction on window `w`. -/
def passOf (e : MEntry) (w : Win) (p : Nat) : Pass :=
  match e.i with
  | .mma _ bank kc nm _ _ _ =>
    { rec_ := e.a, w, a := e.b.toNat, sb := recScale e.a, off := 0, bank, k := 64 * (kc.val + 1), n := 8 * (nm.val + 1), ic := e.ic }
  | .mmaBd _ bank _ _ _ =>
    { rec_ := e.a, w, a := e.b.toNat, sb := recScale e.a, off := 0, bank, k := 256, n := 8, bd := true, ic := e.ic }
  | _ =>
    let k := loopK e.a
    { rec_ := e.b, w, a := loopA e.a p, sb := recScale e.b + p * 16 * (k / recBl e.b) * recSsz e.b,
      off := loopOff e.a p, bank := loopBank e.a p, k, n := loopN e.a, ic := e.ic }
def passCount (e : MEntry) : Nat :=
  match e.i with
  | .mloop .. => loopCount e.a
  | _ => 1

/-- The error code that a pass meets: 1, 3 or 4 (R421, R424, R428); 0 for none. -/
def passError (s : State) (p : Pass) : Nat :=
  let b := ((s.core s.me.seat.core).bank p.bank).record
  if recBad p.rec_ p.k then 1
  else if (p.bd && recBl p.rec_ != 16) || p.w.ek != (recEf p.rec_ == 3)
      || (b.map (pairBad p.rec_)).getD false then 3
  else if scaleBad s p.rec_ p.sb (16 * p.nb) then 4 else 0

/-- The codes of block `b` of bank column `c`, and its scale (R420, R421). -/
def bankBlock (bk : Bank) (bl c b : Nat) : List Nat :=
  (upto (b * bl) bl).map fun r => if r < bk.k then Tab.get 0 bk.codes (128 * r + c) else 0
def bankScale (bk : Bank) (bl c b : Nat) : FVal :=
  match bk.record with
  | some r => if b * bl < bk.k then scaleVal (recSf r) (Tab.get 0 bk.scales (128 * b + c)) else scaleVal 0 0
  | none => scaleVal 0 0

/-- An element after block `b` of a pass: A's row `r`, B's column `c`. -/
def elemStep (s : State) (p : Pass) (bk : Bank) (r c b : Nat) (acc : Lane) : Lane :=
  let bl := recBl p.rec_
  let esz := recEsz p.rec_
  let ef := recEf p.rec_
  let sa := if recSf p.rec_ = 0 then scaleVal 0 0 else
    scaleVal (recSf p.rec_) (localLoad s (p.sb + recSsz p.rec_ * (r * p.nb + b)) (recSsz p.rec_)).1
  accBlock (ef == 3) (recW p.rec_) ef ((bk.record.map recEf).getD ef)
    (localCodes s (p.a + esz * (r * p.k + b * bl)) esz esz bl) (bankBlock bk bl c b) sa (bankScale bk bl c b) acc

/-- The elements that block step `b` of a pass updates: A row, bank column, block, gang row and gang column. -/
def passElems (p : Pass) (b : Nat) : List (Nat × Nat × Nat × Nat × Nat) :=
  if p.bd then
    (upto 0 16).flatMap fun j => (upto 0 16).flatMap fun r => (upto 0 8).map fun c =>
      (r, 8 * j + c, j, p.w.row + 16 * j + r, p.w.col + c)
  else
    (upto 0 16).flatMap fun r => (upto 0 p.n).map fun c => (r, c, b, p.w.row + p.off + r, p.w.col + c)

/-- Whether a pass reads an invalid bank or a poisoned line (R421). -/
def passTainted (s : State) (p : Pass) : Bool :=
  ((s.core s.me.seat.core).bank p.bank).invalid || localTainted s p.a (16 * p.k * recEsz p.rec_)
    || (recSf p.rec_ != 0 && localTainted s p.sb (16 * p.nb * recSsz p.rec_))

/-- One block step of a pass. A pass over poison leaves unspecified values in the granules that its window covers, and these
invalid (R155, R421). -/
def passStep (s : State) (p : Pass) (b : Nat) : State :=
  let bk := (s.core s.me.seat.core).bank p.bank
  if passTainted s p then
    s.modMyCore fun c => (c.setElems (p.positions.map fun x =>
      (x, Config.failedElement (s.momentAt p.ic) (128 * x.1 + x.2)))).spoil (Win.granules p.w)
  else
    s.modMyCore fun c => c.setElems ((passElems p b).map fun x =>
      ((x.2.2.2.1, x.2.2.2.2), elemStep s p bk x.1 x.2.1 x.2.2.1 (c.elem x.2.2.2.1 x.2.2.2.2)))

/-! ### Loading a bank (R420) -/

/-- K of MB.LD. -/
def mbK (kc : Fin 4) : Nat := 64 * (kc.val + 1)

/-- The bank that MB.LD loads from local address `a` under record `r`. -/
def loadBank (s : State) (a : Nat) (r : Word) (k : Nat) : Bank :=
  let esz := recEsz r
  let nb := k / recBl r
  let ssz := recSsz r
  let codes := (upto 0 (128 * k)).foldl (fun m i => Tab.set 0 m i (localLoad s (a + i * esz) esz).1) []
  let scales := if recSf r = 0 then [] else
    (upto 0 128).foldl (fun m c => (upto 0 nb).foldl (fun m b =>
      Tab.set 0 m (128 * b + c) (localLoad s (recScale r + ssz * (c * nb + b)) ssz).1) m) []
  { record := some r, k, codes, scales,
    invalid := localTainted s a (k * 128 * esz)
      || (recSf r != 0 && localTainted s (recScale r) (128 * nb * ssz)) }

/-! ### Moves (R432, R433) -/

/-- Elements read by ACC.RD: lane and element. -/
def movedElems (e : MEntry) (w : Win) : List (Nat × Nat) :=
  e.active.filterMap fun l => if e.b.toNat + l < w.size then some (l, e.b.toNat + l) else none

/-- The lanes that ACC.RD writes. -/
def accRdLanes (s : State) (e : MEntry) (w : Win) : State × List (Nat × LVal) :=
  let c := s.myCore
  let es := movedElems e w
  let bad (x : Nat × Nat) : Bool := mem? ((w.pos x.2).1 / 16) c.accInvalid
  let n := if es.any bad then noteLoad s e.ic (some (6, 0)) else (s, (0 : BitVec 3))
  (n.1, es.map fun x => (x.1,
    if bad x then { v := (Config.poisonValue (s.momentAt e.ic) x.1).setWidth 32, p := true, o := n.2 }
    else lanePoison (c.elem (w.pos x.2).1 (w.pos x.2).2) [e.guard x.1]))

/-- ACC.ST's bytes of an element, and whether they come from an invalid granule. -/
def stElem (c : GangCore) (w : Win) (dt e : Nat) : List Byte × Bool :=
  let p := w.pos e
  let v := (c.elem p.1 p.2).toNat
  let bs := match dt with
    | 0 => leBytes 4 v
    | 1 => leBytes 2 (convertNum .rne .f32 .bf16 (fp32.dec v)).1
    | _ => leBytes 2 (convertNum .rne .f32 .f16 (fp32.dec v)).1
  (bs, mem? (p.1 / 16) c.accInvalid)

/-- Write ACC.ST's elements, `n` a line. -/
def stLines (s : State) (x : By) (ic : Word) (n : Nat) : (lines va : Nat) → List (List Byte × Bool) → State
  | 0, _, _ => s
  | k + 1, va, es =>
    stLines (engineWrite s x ic va (es.take n)) x ic n k (va + 128) (es.drop n)

/-- An accumulator move of the current group with its operands. -/
def moveDo (s : State) (e : MEntry) : State :=
  match s.win? e.a with
  | none => s
  | some w =>
    let rows := upto w.row w.rows
    match e.i with
    | .accZero .. =>
      s.modMyCore fun c => (c.setElems ((upto 0 w.size).map fun x => (w.pos x, 0))).freshen rows
    | .accRd _ d _ _ => let r := accRdLanes s e w; putV r.1 d r.2
    | .accWr .. =>
      let ws := (movedElems e w).map fun x => (w.pos x.2, e.lane x.1)
      s.modMyCore fun c => (c.setElems ws).freshen (ws.map (·.1.1))
    | .accLd .. =>
      let src (x : Nat) : Nat × Bool := localLoad s (e.b.toNat + 4 * x) 4
      let bad := (upto 0 w.size).filter fun x => (src x).2
      s.modMyCore fun c => ((c.setElems ((upto 0 w.size).map fun x => (w.pos x, w32 (src x).1))).freshen rows).spoil
        (bad.map fun x => (w.pos x).1 / 16)
    | .accSt _ dt _ _ =>
      let esz := if dt = 0 then 4 else 2
      stLines s { w := .matrix s.me.seat.core, num := some (e.no + 1) } e.ic (128 / esz) (ceilDiv (esz * w.size) 128) e.b.toNat
        ((upto 0 w.size).map (stElem s.myCore w dt))
    | .accRscl .. =>
      let act := e.active.filter fun l => decide (l < min w.rows 16)
      s.modMyCore fun c => c.setElems (act.flatMap fun i => (upto 0 w.cols).map fun j =>
        ((w.row + i, w.col + j), w32 (fp32.enc .rne
          ((fp32.dec (c.elem (w.row + i) (w.col + j)).toNat).mul (fp32.dec (e.lane i).toNat)))))
    | _ => s

/-! ### The queue (R418, R426) -/

/-- The target granules of an instruction that writes the store (R426): those that its window covers. -/
def targetGranules (s : State) (e : MEntry) : List Nat :=
  let w (h : Word) : List Nat := ((s.win? h).map Win.granules).getD []
  match e.i with
  | .mma .. | .mmaBd .. | .mloop .. => w e.d
  | .accZero .. | .accWr .. | .accLd .. | .accRscl .. => w e.a
  | _ => []

/-- A group that waited for its queued ACC.RD goes on: its quantum or its single step may end there (R263, R345). -/
def resumeAfter (s : State) : State :=
  if s.me.status = .wait .accRead then
    let s1 := reenter (s.modMe fun g => { g with status := .run }) s.me.key
    stepPark (quantumEnd s1 {} s1.me.key (quantumLen s1) s1.inDet) s1.me.key
  else s

/-- Discard an instruction (R426); its group has the turn. -/
def discardEntry (s : State) (e : MEntry) : State :=
  let s1 := (s.modMyCore (·.spoil (targetGranules s e))).modCore s.me.seat.core fun k =>
    { k with disc := min (k.disc + 1) 0xFFFF }
  match e.i with
  | .mbLd _ bank _ _ _ => s1.modCore s.me.seat.core fun k => k.setBank bank { k.bank bank with invalid := true }
  | .accRd _ d _ _ =>
    let n := if e.active.isEmpty then (s1, (0 : BitVec 3)) else noteLoad s1 e.ic (some (6, 0))
    resumeAfter (putV n.1 d (e.active.map fun l =>
      (l, { v := (Config.poisonValue (s.momentAt e.ic) l).setWidth 32, p := true, o := n.2 })))
  | _ => s1

def discardAll (s : State) : List MEntry → State
  | [] => s
  | e :: t => discardAll (asGroup s e.key fun u => discardEntry u e) t

/-- The queue halts at an instruction (R426, R428). -/
def haltQueue (s : State) (core code : Nat) (e : MEntry) : State :=
  let q := (s.core core).queue
  let s1 := s.modCore core fun k =>
    { k with halted := true, code, errOp := (TForm.ofWord ((encode e.i).getD 0)).op.toNat, errGid := e.gid, errIc := e.ic,
             queue := [] }
  discardAll s1 q

/-- An instruction of a queue is done. -/
def leaveQueue (s : State) (core : Nat) (e : MEntry) : State :=
  s.modCore core fun k => { k with queue := k.queue.filter (·.no != e.no) }

/-- The bank that an MB.LD loads. -/
def MEntry.loads : MEntry → Option Bool
  | { i := .mbLd _ bank _ _ _, .. } => some bank
  | _ => none

/-- The banks that the passes left of an instruction read, the next one's first; none for an instruction that is not of
passes. Under a window that the queue no longer finds there is none. -/
def banksLeft (s : State) (e : MEntry) : List Bool :=
  match e.i with
  | .mma .. | .mmaBd .. | .mloop .. =>
    match (s.turn e.key).win? e.d with
    | none => []
    | some w =>
      let p := e.step / (passOf e w 0).steps
      (upto p (passCount e - p)).map fun p => (passOf e w p).bank
  | _ => []

/-- Whether an instruction may run beside an earlier one of its queue: an MB.LD beside passes that no longer read its
bank, and a pass beside an MB.LD into the other bank (R156, R418, R423). -/
def beside (s : State) (old e : MEntry) : Bool :=
  match old.loads, e.loads with
  | none, some b => !(banksLeft s old).isEmpty && !(banksLeft s old).contains b
  | some b, none => match banksLeft s e with
    | b1 :: _ => b1 != b
    | [] => false
  | _, _ => false

/-- The first instruction that may run beside all those before it. -/
def firstBeside (s : State) : (olds : List MEntry) → List MEntry → Option MEntry
  | _, [] => none
  | olds, e :: t => if olds.all (beside s · e) then some e else firstBeside s (olds ++ [e]) t

/-- The instruction of a queue that takes the next step: the oldest, or one beside it (free). -/
def nextEntry (s : State) : List MEntry → Option MEntry
  | [] => none
  | e :: t => if Config.stepsBeside s.tick then some ((firstBeside s [e] t).getD e) else some e

/-- One step of an instruction; its group has the turn. The code of an error, or the state after it. -/
def queueStep (s : State) (e : MEntry) : Nat ⊕ State :=
  let core := s.me.seat.core
  match e.i with
  | .mbLd _ bank kc _ _ =>
    let k := mbK kc
    if recBad e.b k then .inl 2
    else if scaleBad s e.b (recScale e.b) (128 * (k / recBl e.b)) then .inl 4
    else .inr (leaveQueue (s.modCore core fun c => c.setBank bank (loadBank s e.a.toNat e.b k)) core e)
  | .mma .. | .mmaBd .. | .mloop .. =>
    match s.win? e.d with
    | none => .inr (leaveQueue s core e)
    | some w =>
      let n := (passOf e w 0).steps
      let p := passOf e w (e.step / n)
      let c := if e.step % n = 0 then passError s p else 0
      if c ≠ 0 then .inl c
      else
        let s1 := passStep s p (e.step % n)
        if e.step + 1 < n * passCount e then
          .inr (s1.modCore core fun k => { k with queue := k.queue.map fun x =>
            if x.no = e.no then { x with step := x.step + 1 } else x })
        else .inr (leaveQueue s1 core e)
  | _ => .inr (resumeAfter (leaveQueue (moveDo s e) core e))

/-- MATRIX_QUEUE_EXECUTE: the queue of a core takes a step. -/
def stepQueue (s : State) (core : Nat) : State :=
  match nextEntry s (s.core core).queue with
  | none => s
  | some e =>
    match queueStep (s.turn e.key) e with
    | .inl code => haltQueue s core code e
    | .inr t => t.turn s.me.key

def execMatrixQueueExecute (core : Fin 256) (s : State) : Host.Outcome State Fault Refusal := .next (stepQueue s core)

/-! ### Issuing class 7 (R417) -/

/-- The entry of an instruction with its operands as read at issue. -/
def mkEntry (s : State) (i : Instr) (d a b : Word) (mask : BitVec 32) (lanes : List Lane) : MEntry :=
  { no := (s.core s.me.seat.core).entered, i, gang := s.me.gang, gid := s.me.gid, key := s.me.key, core := s.myGang.coreIx s.me.gid, ic := s.me.hist.ic,
    d, a, b, mask, lanes }

/-- Enter the queue; a halted queue discards what it receives. -/
def enqueue (s : State) (e : MEntry) : State :=
  let s1 := s.modCore s.me.seat.core fun k => { k with entered := k.entered + 1 }
  if (s.core s.me.seat.core).halted then discardEntry s1 e
  else s1.modCore s.me.seat.core fun k => { k with queue := k.queue ++ [e] }

/-- A full queue is waited for (R418). -/
def queueWait (s : State) : Option Wait :=
  let k := s.core s.me.seat.core
  if !k.halted && decide (32 ≤ k.queue.length) then some .queueFull else none

/-- A matrix-role group queues a move; a vector-role group makes it at once (R418). -/
def moveOrQueue (t : State) (e : MEntry) : State :=
  if t.me.role = .matrix then
    let halted := (t.core t.me.seat.core).halted
    let t1 := enqueue t e
    match e.i with
    | .accRd .. => if halted then t1 else t1.modMe fun g => { g with status := .wait .accRead }
    | _ => t1
  else moveDo t e

def moveWait (s : State) : Option Wait := if s.me.role = .matrix then queueWait s else none

/-- ACCESS with a handle in the address word (R417). -/
def winTrap (s : State) (h : Word) (fits : Win → Bool) : Option Trap :=
  match s.win? h with
  | some w => if fits w then none else access 1 h.toNat
  | none => access 1 h.toNat

/-- A local range at issue (R417): ACCESS when it leaves the reservation, ALIGN when it is not 128-aligned. -/
def rangeTrap (s : State) (a n : Nat) : Option Trap :=
  if localDenied s a n then access 1 a else if a % 128 ≠ 0 then some { code := 6, addr := a } else none

/-- The first trap of a list of checks. -/
def firstOf : List (Option Trap) → Option Trap
  | [] => none
  | some t :: _ => some t
  | none :: r => firstOf r

/-- MB.LD (R420). -/
def execMbLd (h : Hd) (bank : Bool) (kc : Fin 4) (a b : Reg) (s : State) : Host.Outcome State Fault Refusal :=
  let la := (srcS s a).v.toNat
  let r := (srcS s b).v
  let n := mbK kc * 128 * recEsz r
  syncDo { h, reads := [a, b], roles := rolesMatrix, horizon := true, lateGuard := true, wait := queueWait s,
           trap := firstOf [rangeTrap s la n,
             if localTainted s la n then some { code := 4, lanes := 1, addr := s.pcN } else none] }
    (fun t => enqueue t (mkEntry s (.mbLd h bank kc a b) 0 (srcS s a).v r 0 [])) s

/-- MMA (R422). -/
def execMma (h : Hd) (bank : Bool) (kc : Fin 4) (nm : Fin 16) (d a b : Reg) (s : State) :
    Host.Outcome State Fault Refusal :=
  let k := 64 * (kc.val + 1)
  let n := 8 * (nm.val + 1)
  let hd := (srcS s d).v
  syncDo { h, reads := [a, b, d], roles := rolesMatrix, horizon := true, lateGuard := true, wait := queueWait s,
           trap := firstOf [winTrap s hd fun w => decide (16 ≤ w.rows ∧ n ≤ w.cols),
             rangeTrap s (srcS s b).v.toNat (16 * k * recEsz (srcS s a).v)] }
    (fun t => enqueue t (mkEntry s (.mma h bank kc nm d a b) hd (srcS s a).v (srcS s b).v 0 [])) s

/-- MLOOP (R423). Its traps are tried in the order in which the entry names them (R302): every pass's A range, the window's fit,
(COUNT − 1) × WINC + 16 ≤ ROWS, and the loop word. -/
def execMloop (h : Hd) (d a b : Reg) (s : State) : Host.Outcome State Fault Refusal :=
  let l := (srcS s a).v
  let r := (srcS s b).v
  let hd := (srcS s d).v
  let k := loopK l
  syncDo { h, reads := [a, b, d], roles := rolesMatrix, horizon := true, lateGuard := true, wait := queueWait s,
           trap := firstOf ((upto 0 (loopCount l)).map (fun p => rangeTrap s (loopA l p) (16 * k * recEsz r)) ++
             [winTrap s hd fun w => decide (loopOff l (loopCount l) + 16 ≤ w.rows + bits l 43 35 ∧ loopN l ≤ w.cols),
              if loopCount l = 0 ∨ bits l 26 24 ≠ 0 then access 1 (bits l 23 0) else none]) }
    (fun t => enqueue t (mkEntry s (.mloop h d a b) hd l r 0 [])) s

/-- MMA.BD (R424). -/
def execMmaBd (h : Hd) (bank : Bool) (d a b : Reg) (s : State) : Host.Outcome State Fault Refusal :=
  let hd := (srcS s d).v
  syncDo { h, reads := [a, b, d], roles := rolesMatrix, horizon := true, lateGuard := true, wait := queueWait s,
           trap := firstOf [winTrap s hd fun w => decide (256 ≤ w.rows ∧ 8 ≤ w.cols),
             rangeTrap s (srcS s b).v.toNat (16 * 256 * recEsz (srcS s a).v)] }
    (fun t => enqueue t (mkEntry s (.mmaBd h bank d a b) hd (srcS s a).v (srcS s b).v 0 [])) s

/-- The positions of GBASE, ROW0 and COL0, and of ROWS and COLS (R429). -/
def placementMask : Word := w64 (0x1F * 2 ^ 52 + 0x1FF * 2 ^ 39 + 0x7F * 2 ^ 32)
def sizeMask : Word := w64 (0x3FF * 2 ^ 22 + 0xFF * 2 ^ 14)

/-- ACC.ALLOC (R429). -/
def execAccAlloc (h : Hd) (ek : Bool) (d a b : Reg) (s : State) : Host.Outcome State Fault Refusal :=
  let x := (srcS s a).v
  let y := (srcS s b).v
  let w := x ||| y ||| (if ek then bitAt 57 else 0)
  syncDo { h, reads := [a, b], writes := [d], roles := rolesMatrix, horizon := true, lateGuard := true,
           trap := firstOf [accessHere s (x &&& ~~~placementMask != 0 || y &&& ~~~sizeMask != 0),
             winTrap s w fun _ => true] }
    (fun t => putS t d { v := w }) s

/-- Give the current gang `n` more granules on the group's core (R430). -/
def growCore (s : State) (n : Nat) : State :=
  (s.modCore s.me.seat.core fun k => { k with free := k.free - n }).modMyCore fun c =>
    { c with granules := c.granules + n }

/-- ACC.GROW (R430). -/
def execAccGrow (h : Hd) (bit : Fin 32) (d a : Reg) (s : State) : Host.Outcome State Fault Refusal :=
  let n := (srcS s a).v.toNat
  let ok := decide (n = 0) ||
    (decide (n ≤ (s.core s.me.seat.core).free) && decide (s.myCore.granules + n ≤ 32))
  syncDo { h, reads := [a, d], writes := [d], roles := rolesMatrix, horizon := true, lateGuard := true }
    (fun t => putBit (if ok then growCore t n else t) s d bit ok) s

/-- Take the last `n` granules from the current gang on the group's core (R431). With its last granule there a gang that
holds the B banks and the queue gives them back (R156). -/
def freeCore (s : State) (n : Nat) : State :=
  let last := n != 0 && s.myCore.granules == n && holdsQueue s s.myGang (s.myGang.coreIx s.me.gid)
  (s.modCore s.me.seat.core (·.release n last)).modMyCore fun c =>
    let m := c.granules - n
    { c with granules := m, acc := c.acc.filter fun x => decide (x.1 < 2048 * m),
             accInvalid := c.accInvalid.filter fun g => decide (g < m) }

/-- ACC.FREE (R431). -/
def execAccFree (h : Hd) (a : Reg) (s : State) : Host.Outcome State Fault Refusal :=
  let n := (srcS s a).v.toNat
  let busy := !(s.core s.me.seat.core).queue.isEmpty
  syncDo { h, reads := [a], roles := rolesMatrix, horizon := true, lateGuard := true,
           wait := if busy then some .queueEmpty else none,
           trap := accessHere s (!busy && decide (s.myCore.granules < n)) }
    (fun t => freeCore t n) s

/-- The shared form of the moves with a scalar guard. -/
def moveScalar (h : Hd) (i : Instr) (reads : List Reg) (a b : Word) (trap : Option Trap) (s : State) :
    Host.Outcome State Fault Refusal :=
  syncDo { h, reads, roles := rolesAcc, horizon := true, lateGuard := true, wait := moveWait s, trap }
    (fun t => moveOrQueue t (mkEntry s i 0 a b 0 [])) s

/-- ACC.ZERO (R432). -/
def execAccZero (h : Hd) (a : Reg) (s : State) : Host.Outcome State Fault Refusal :=
  let hd := (srcS s a).v
  moveScalar h (.accZero h a) [a] hd 0 (winTrap s hd fun _ => true) s

/-- ACC.LD (R432). -/
def execAccLd (h : Hd) (a b : Reg) (s : State) : Host.Outcome State Fault Refusal :=
  let hd := (srcS s a).v
  moveScalar h (.accLd h a b) [a, b] hd (srcS s b).v
    (firstOf [winTrap s hd fun _ => true,
      rangeTrap s (srcS s b).v.toNat (4 * ((s.win? hd).map Win.size).getD 0)]) s

/-- ACC.ST (R432). -/
def execAccSt (h : Hd) (dt : Fin 4) (a b : Reg) (s : State) : Host.Outcome State Fault Refusal :=
  let hd := (srcS s a).v
  let va := (srcS s b).v.toNat
  let n := (if dt = 0 then 4 else 2) * ((s.win? hd).map Win.size).getD 0
  moveScalar h (.accSt h dt a b) [a, b] hd (srcS s b).v
    (firstOf [winTrap s hd fun _ => true,
      if va % 128 ≠ 0 then some { code := 6, addr := va } else none,
      (engineDenied s va n).bind fun x => access 1 x,
      accessHere s (dt != 0 && ((s.win? hd).map (·.ek)).getD false)]) s

/-- The shared form of the moves that act in lanes: `limit` bounds the lanes whose data are consumed. -/
def moveLanes (h : Hd) (i : Instr) (reads : List Reg) (writes : List Reg) (data : Option Reg) (limit : Nat)
    (a b : Word) (trap : Option Trap) (s : State) : Host.Outcome State Fault Refusal :=
  let act := lanesOn s h
  issue { h, reads := reads ++ data.toList, writes, roles := rolesAcc, horizon := true, vec := true }
    { poison := lanesPoison (act.map fun l => (l, reads.map (fun r => srcL s r l) ++
        (match data with
         | some d => if l < limit then [srcL s d l, srcL s h.gr l] else []
         | none => []))),
      trap := if act.isEmpty then none else trap,
      wait := if act.isEmpty then none else moveWait s }
    (fun t =>
      if act.isEmpty then t
      else moveOrQueue t { mkEntry s i 0 a b (maskOf act)
        (match data with | some d => (upto 0 32).map fun l => (srcL s d l).v | none => []) with
        guards := (upto 0 32).map fun l => srcL s h.gr l }) s

/-- ACC.RD (R418, R432). -/
def execAccRd (h : Hd) (d a b : Reg) (s : State) : Host.Outcome State Fault Refusal :=
  let hd := (srcS s a).v
  moveLanes h (.accRd h d a b) [a, b] [d] none 32 hd (srcS s b).v (winTrap s hd fun _ => true) s

/-- ACC.WR (R432). -/
def execAccWr (h : Hd) (d a b : Reg) (s : State) : Host.Outcome State Fault Refusal :=
  let hd := (srcS s a).v
  moveLanes h (.accWr h d a b) [a, b] [] (some d) 32 hd (srcS s b).v (winTrap s hd fun _ => true) s

/-- ACC.RSCL (R433). -/
def execAccRscl (h : Hd) (a b : Reg) (s : State) : Host.Outcome State Fault Refusal :=
  let hd := (srcS s a).v
  moveLanes h (.accRscl h a b) [a] [] (some b) 16 hd 0
    (firstOf [winTrap s hd fun _ => true, accessHere s (((s.win? hd).map (·.ek)).getD false)]) s

/-- The word of MWAIT (R427). -/
def mwaitWord (k : Core) : Word := if k.halted then w64 (2 ^ 63 + k.disc * 2 ^ 32 + k.code * 2 ^ 24) else 0

/-- MWAIT (R427): it covers what had entered the queue at its first attempt, and acquires the effects of that (R253). -/
def execMwait (h : Hd) (d : Reg) (s : State) : Host.Outcome State Fault Refusal :=
  let k := s.core s.me.seat.core
  let n := s.me.mtarget.getD k.entered
  syncDo { h, writes := [d], roles := rolesMatrix, horizon := true, lateGuard := true,
           wait := if k.left < n then some (.queueLeft n) else none, covers := some n }
    (fun t =>
      putS (((t.modMe fun g => { g with mtarget := none }).learn { known := [(.matrix s.me.seat.core, n)] }).modCore s.me.seat.core fun c =>
        if c.halted then { c with halted := false, disc := 0 } else c) d { v := mwaitWord k }) s

/-- The words of MSTAT (R428). -/
def mstatWord (s : State) (w : Nat) : Word :=
  let k := s.core s.me.seat.core
  let left := match k.queue.find? fun e => e.step != 0 && (match e.i with | .mloop .. => true | _ => false) with
    | some e => (banksLeft s e).length
    | none => 0
  match w with
  | 0 => w64 (k.queue.length * 2 ^ 56 + left * 2 ^ 48 + b2n k.halted * 2 ^ 47 + k.free * 2 ^ 36
      + s.myCore.granules * 2 ^ 30 + b2n k.mb1.invalid * 2 + b2n k.mb0.invalid)
  | 1 => w64 (k.code * 2 ^ 56 + k.errOp * 2 ^ 43 + k.errGid * 2 ^ 36)
  | _ => k.errIc

/-- MSTAT (R428). -/
def execMstat (h : Hd) (w : Fin 4) (d : Reg) (s : State) : Host.Outcome State Fault Refusal :=
  syncDo { h, writes := [d], roles := rolesMatrix, horizon := true, lateGuard := true }
    (fun t => putS t d { v := mstatWord s w }) s

end Sys2Proof.Machine
end

