-- ==== Sys2Proof/Machine/Reverse.lean ====
section
/-! DEFINITION. Reverse execution (R116 to R138, R324, R341): what each instruction's crumbs restore, the inverses of
the invertible instructions, the walk over blocks and the come-from chain. -/

namespace Sys2Proof.Machine

/-- The trap of a pop that fails (R109, R126). -/
def corrupt (s : State) : Trap := { code := 8, addr := s.me.hp }

/-- Words of a payload as lanes, two a word. -/
def unpackLanes : List Word → List Lane
  | [] => []
  | w :: t => w.setWidth 32 :: (w >>> 32).setWidth 32 :: unpackLanes t

/-- Bytes of a payload. -/
def payloadBytes (ws : List Word) : List Byte := wordsBytes ws

/-- The lanes of a mask. -/
def maskLanes (m : BitVec 32) : List Nat := (upto 0 32).filter fun l => bit m l

/-- Pop the top crumb of the current group, which stands at the ic being restored (R126). -/
def popCrumb (s : State) (kinds : List Nat) : Trap ⊕ (Crumb × State) :=
  match s.me.hist.crumbs with
  | [] => .inl (corrupt s)
  | c :: t =>
    let top := s.me.hp
    let low := (top - c.bytes) / 128
    let bad := !s.me.isControl && (upto low ((top - 1) / 128 - low + 1)).any fun line => s.homePoisoned (128 * line)
    if c.iclo = s.me.hist.ic.setWidth 26 ∧ mem? c.kind.toNat kinds ∧ bad = false then
      .inr (c, s.modMe fun g => { g with hist := { g.hist with crumbs := t } })
    else .inl (corrupt s)

/-- What a crumb of an instruction restores: a scalar, one bit of it, a pair, a name pair with the count that a TOOK
of KIND 0x0B stands for, a vector register, one bit of its lanes, or the memory that accesses wrote. -/
inductive Pop where
  | scalar (d : Reg)
  | bit (d : Reg)
  | pair (d : Reg)
  | name (d : Reg) (r : Nat) (put ref : Bool) (h : Hd)
  | vec (d : Reg)
  | vbit (d : Reg)
  | mem (sp : Space) (m : Addr) (n step : Nat) (use : Use) (queued : Bool)
  deriving Repr

/-- Kinds that a pop accepts. -/
def Pop.kinds : Pop → List Nat
  | .scalar _ => [0x01, 0x0B]
  | .bit _ => [0x03, 0x0B]
  | .pair _ => [0x09, 0x0B]
  | .name .. => [0x07, 0x0B]
  | .vec _ => [0x02, 0x08, 0x0A]
  | .vbit _ => [0x03, 0x08, 0x0A]
  | .mem sp _ _ _ _ _ => [if sp = .lmem then 0x06 else 0x05]

/-- A scalar with the poison nibble `n` of KIND 0x0B. -/
def oldScalar (v : Word) (n : Nat) : SVal := { v, p := nbit n 3, o := BitVec.ofNat 3 n }

/-- Restore one or two scalar registers from KIND 0x01, 0x07, 0x09 or 0x0B. -/
def restoreScalars (s : State) (d : Reg) (c : Crumb) (pair : Bool) : State :=
  let w := wordAt c.payload
  let tail := if c.kind = 0x0B then (w (if pair then 2 else 1)).toNat else 0
  let s1 := putS s d (oldScalar (w 0) (tail % 16))
  if pair then putS s1 (Reg.next d) (oldScalar (w 1) (tail / 16)) else s1

/-- Restore the lanes of a vector register from KIND 0x02, 0x08 or 0x0A. -/
def restoreLanes (s : State) (d : Reg) (c : Crumb) : State :=
  let ls := maskLanes c.arg
  if c.kind = 0x08 then putV s d (ls.map fun l => (l, {}))
  else
    let k := (ls.length + 1) / 2
    let vs := unpackLanes (c.payload.take k)
    let tail := if c.kind = 0x0A then (wordAt c.payload k).toNat + 2 ^ 64 * (wordAt c.payload (k + 1)).toNat else 0
    putV s d ((ls.zip vs).map fun x =>
      (x.1, { v := x.2, p := nbit tail (96 + x.1), o := BitVec.ofNat 3 (tail / 2 ^ (3 * x.1)) }))

/-- Restore one bit of a scalar (KIND 0x03); every lane's bit of a vector. -/
def restoreBit (s : State) (d : Reg) (c : Crumb) : State :=
  let n := bits c.arg 21 16
  let x := readS s s.me d
  putS s d { x with v := bitWord x.v n (bit (wordAt c.payload 0) 0) }
def restoreVBit (s : State) (d : Reg) (c : Crumb) : State :=
  let n := bits c.arg 21 16
  putV s d ((upto 0 32).map fun l =>
    let x := readL s s.me d l
    (l, { x with v := setLaneBit x.v n (bit (wordAt c.payload 0) l) }))

/-- R266: the current group's buffered bytes and queued atomics of its instruction at the present ic are dropped. -/
def dropBuffered (s : State) : State :=
  if s.inDet then
    s.modLaunch s.myP s.myGang.task.launch fun l =>
      { l with ds := { l.ds with
          buffer := l.ds.buffer.filter fun b =>
            !(b.ic == s.me.hist.ic + 1 && b.tid / 32 == s.myGang.inst * 128 + s.me.gid),
          serial := l.ds.serial.filter fun q => !(q.key == s.me.key && q.ic == s.me.hist.ic) } }
  else s

/-- Mark the lines that accesses name poisoned again (R380). -/
def taintAccs (s : State) (sp : Space) : List Acc → State
  | [] => s
  | a :: t =>
    let s1 := match sp with
      | .mem => match a.look with
        | .ok (.dev pa) _ => { s with mem := s.mem.taint pa }
        | _ => s
      | .lmem => s.modGang s.me.gang fun g =>
          let ix := localCore a.va
          g.setOn ix { g.on ix with lpoison := addNat (localOff a.va / 128) (g.on ix).lpoison }
      | .ctl => s
    taintAccs s1 sp t

/-- Restore memory from KIND 0x05 or 0x06 (R126, R133, R380): the address is recomputed, the reverse stores are
checked as the forward access was, and the old bytes go back in descending lane order; they wait for acknowledgements as
stores do (R258). In a DET launch the buffered bytes are gone already, and a queued atomic has written nothing. -/
def restoreMem (s : State) (sp : Space) (m : Addr) (n step : Nat) (use : Use) (queued : Bool) (c : Crumb) :
    Trap ⊕ State :=
  let ls := maskLanes c.arg
  match ls with
  | [] => .inr (dropBuffered s)
  | l :: _ =>
    let as := ls.map (mkAcc s sp m n step .write)
    let w0 := (wordAt c.payload 0).toNat
    let keep := if sp = .lmem then 2 ^ 24 else 2 ^ 56
    if w0 % keep ≠ addrOf s m l step % keep then .inl (corrupt s)
    else match accTrap s sp use as with
      | some t => .inl t
      | none =>
        let bs := payloadBytes (c.payload.drop 1)
        let ws := (as.zip (upto 0 as.length)).map fun x => (x.1, (bs.drop (n * x.2)).take n)
        let s0 := dropBuffered (beginSpace s sp .atomic m as)
        let s1 := roomForAcks s0 (trafficOf s0 (locsOf as)).length
        let skip := s.inDet && queued
        let ws1 := ws.filter fun w => match w.1.look with
          | .ok loc _ => !buffered s1 loc
          | .bad _ => sp != .mem
        let s2 := if skip then s1 else writeSpace s1 sp .store ws1.reverse
        .inr (if w0 / 2 ^ 63 = 1 && !skip then taintAccs s2 sp as else s2)

/-- R227: the count that CN.PUT or CN.ROOT.ref took goes back. -/
def dropTaken (s : State) (d : Reg) (r : Nat) : State :=
  let x := readS s s.me d
  let y := readS s s.me (Reg.next d)
  let n := pairName x y
  if n = 0 ∨ x.p ∨ y.p then s
  else match cnReg? s s.myP r with
    | some q => ((cnDropAt { s := s } q n (some s.me.key)).map (·.s)).getD s
    | none => s

/-- Restore what one crumb holds. -/
def restore (s : State) (p : Pop) (c : Crumb) : Trap ⊕ State :=
  match p with
  | .scalar d => .inr (restoreScalars s d c false)
  | .bit d => .inr (if c.kind = 0x03 then restoreBit s d c else restoreScalars s d c false)
  | .pair d => .inr (restoreScalars s d c true)
  | .name d r put ref h =>
    let s1 := restoreScalars s d c true
    let took := if c.kind = 0x07 then bit c.arg 0 else (put || ref) && guardS s1 h
    .inr (if took then restoreScalars (dropTaken s d r) d c true else s1)
  | .vec d => .inr (restoreLanes s d c)
  | .vbit d => .inr (if c.kind = 0x03 then restoreVBit s d c else restoreLanes s d c)
  | .mem sp m n step use queued => restoreMem s sp m n step use queued c

/-- Pop and restore the crumbs of one instruction, the last pushed first. A pop that fails leaves the state reached
before it; a reverse store that is denied leaves everything (R133). -/
def popAll (orig : State) (s : State) : List Pop → State × Option Trap
  | [] => (s, none)
  | p :: t =>
    match popCrumb s p.kinds with
    | .inl e => (s, some e)
    | .inr (c, s1) =>
      match restore s1 p c with
      | .inl e => if e.code = 8 then (s, some { e with addr := s.me.hp }) else (orig, some e)
      | .inr s2 => popAll orig s2 t

/-! ### Inverses (R119, R324) -/

/-- The inverse of a scalar update form that ran as invertible. -/
def undoScalar (s : State) (h : Hd) (d : Reg) (reads : List Reg) (inv : Bool) (v : Word) : Option State :=
  if inv && !mustPush s h d reads then some (if guardS s h then putS s d { v } else s) else none

/-- The inverse of a vector update form that ran as invertible: `f` gives D's old lane. -/
def undoVec (s : State) (h : Hd) (d a : Reg) (b : BOp) (inv : Bool) (f : Lane → Lane → Lane) : Option State :=
  if inv && vInvNow s h a b d then
    some (putV s d ((lanesOn s h).map fun l => (l, { v := f (srcL s d l).v (srcB s b l).v })))
  else none

/-- The other source of an update form that may name D on either side. -/
def otherOf (d a b : Reg) : Reg := if d == a then b else a
def otherB (d a : Reg) (b : BOp) : BOp := if d == a then b else .reg a

/-- The inverse of an exchange that kept no record: the exchange again. -/
def undoXchg (s : State) (x : Plain) : Option State :=
  let as := x.accs s
  let dirty := (x.acts s).any fun l => if x.vec then (srcL s x.d l).p else (srcS s x.d).p
  if x.exInv dirty then
    let sp := spaceOf s x.loc
    let s1 := beginSpace s sp .atomic x.m as
    let rs := as.map fun a => (a, readAcc s1 sp .atomic a)
    let data := as.map fun a => (a, x.data s a)
    let s2 := dropBuffered s1
    let ws := data.filter fun w => match w.1.look with
      | .ok loc _ => !buffered s2 loc
      | .bad _ => sp != .mem
    let s3 := writeSpace (roomForAcks s2 (trafficOf s2 (locsOf as)).length) sp .atomic ws
    some (s3.modMe (·.deliver
      (if x.vec then { lanes := loadedLanes s.moment x.n x.un 0 (Reg.vIx x.d) rs }
       else if x.d.isS then { scalars := rs.map fun y => (Reg.sIx x.d, loadedScalar s.moment x.n x.un 0 y) }
       else {})))
  else none

/-- Check and undo an exchange: its reverse store is checked first (R133). -/
def undoXchgChecked (s : State) (x : Plain) : Option (State × Option Trap) :=
  match undoXchg s x with
  | none => none
  | some t => match accTrap s (spaceOf s x.loc) .atomic (x.accs s) with
    | some e => some (s, some e)
    | none => some (t, none)

/-- The reverse of CN.REF and CN.DROP (R227): in a DET launch the queued operation is dropped. -/
def undoCount (s : State) (h : Hd) (r : Nat) (d : Reg) (wasRef : Bool) : State × Option Trap :=
  if !guardS s h then (s, none)
  else if s.inDet then (dropBuffered s, none)
  else match cnReg? s s.myP r with
    | none => (s, access 1 s.pcN)
    | some q =>
      let b : Book := { s := s }
      let r1 := if wasRef then cnDropAt b q (nameIn s d) (some s.me.key) else cnRevive b q (nameIn s d) s.me.key
      match r1 with
      | some b1 => (b1.s, none)
      | none => (s, access 1 s.pcN)

/-- The pops of a plain access, the last pushed first (R380). -/
def plainPops (s : State) (x : Plain) : List Pop :=
  let regs := (x.dests.filterMap fun d =>
    if x.vec then (if d.isV then some (Pop.vec d) else none) else if d.isS then some (Pop.scalar d) else none).reverse
  (if x.rd then regs else []) ++
    (if x.wr then [Pop.mem (spaceOf s x.loc) x.m x.n x.step x.use false] else [])

def popS (d : Reg) : List Pop := if d.isS then [.scalar d] else []
def popBit (d : Reg) : List Pop := if d.isS then [.bit d] else []
def popV (d : Reg) : List Pop := if d.isV then [.vec d] else []
def popVBit (d : Reg) : List Pop := if d.isV then [.vbit d] else []

/-- How an instruction is undone: by an inverse, or by pops; none for one that no reversal meets. -/
inductive Undo where
  | inverse (s : State) (t : Option Trap)
  | pops (ps : List Pop)
  | never

/-- An invertible pattern, or else the crumb of its destination. -/
def orPops (x : Option State) (ps : List Pop) : Undo :=
  match x with
  | some s => .inverse s none
  | none => .pops ps

def orPopsX (x : Option (State × Option Trap)) (ps : List Pop) : Undo :=
  match x with
  | some (s, t) => .inverse s t
  | none => .pops ps

/-- The plain access that a class-5 instruction makes. -/
def plainOf : Instr → Option Plain
  | .ld h sz un d m => some { h, d, m, n := szBytes sz, un, rd := true }
  | .st h sz d m => some { h, d, m, n := szBytes sz, wr := true }
  | .xchg h sz un d m => some { h, d, m, n := szBytes sz, un, wr := true, rd := true }
  | .vld h sz un d m => some { h, d, m, n := vecBytes sz m, un, vec := true, rd := true }
  | .vst h sz d m => some { h, d, m, n := vecBytes sz.sz m, vec := true, wr := true }
  | .vxchg h d m => some { h, d, m, n := 4, vec := true, wr := true, rd := true }
  | .ldl h sz un d m => some { h, d, m, n := szBytes sz, un, loc := true, rd := true }
  | .stl h sz d m => some { h, d, m, n := szBytes sz, loc := true, wr := true }
  | .vldl h sz un d m => some { h, d, m, n := vecBytes sz m, un, loc := true, vec := true, rd := true }
  | .vstl h sz d m => some { h, d, m, n := vecBytes sz.sz m, loc := true, vec := true, wr := true }
  | .ldd h sz un d m => some { h, d, m, n := vecBytes sz m, un, vec := true, rd := true, split := true }
  | .gath h sz un d a b => some { h, d, m := .lane a b, n := szBytes sz, un, vec := true, rd := true, split := true }
  | _ => none

/-- Class 0 (R327). -/
def undo0 (s : State) (i : Instr) : Undo :=
  let v (r : Reg) : Word := (srcS s r).v
  match i with
  | .add h t d a b => orPops (undoScalar s h d [a, b] (t.w == 64 && updAB d a b) (v d - v (otherOf d a b))) (popS d)
  | .sub h t d a b => orPops (undoScalar s h d [a, b] (t.w == 64 && updA d a b) (v d + v b)) (popS d)
  | .addi h d a imm => orPops (undoScalar s h d [a] (d == a) (v d - imm.signExtend 64)) (popS d)
  | .mulodd h _ d a b => orPops (undoScalar s h d [a, b] (updA d a b) (v d * invOdd (oddOf (v b)))) (popS d)
  | .xor h t d a b => orPops (undoScalar s h d [a, b] (t.w == 64 && updAB d a b) (v d ^^^ v (otherOf d a b))) (popS d)
  | .not h t d a => orPops (undoScalar s h d [a] (t.w == 64 && d == a) (~~~(v d))) (popS d)
  | .neg h t d a => orPops (undoScalar s h d [a] (t.w == 64 && d == a) (-(v d))) (popS d)
  | .rol h t d a b => orPops (undoScalar s h d [a, b] (t.w == 64 && updA d a b) (t.ror (v d) (v b))) (popS d)
  | .ror h t d a b => orPops (undoScalar s h d [a, b] (t.w == 64 && updA d a b) (t.rol (v d) (v b))) (popS d)
  | .bflip h n d a b => orPops (undoScalar s h d [a, b] (updA d a b) (v d ^^^ bitAt (bitIndex s n b))) (popS d)
  | .swap h d a =>
    .inverse (if guardS s h && d != a then putS (putS s d (srcS s a)) a (srcS s d) else s) none
  | .cmp _ _ _ d _ _ => .pops (popBit d)
  | .bset _ _ d a b => .pops (if updA d a b then popBit d else popS d)
  | .bclr _ _ d a b => .pops (if updA d a b then popBit d else popS d)
  | .mul _ _ d _ _ => .pops (popS d)
  | .mulh _ _ d _ _ => .pops (popS d)
  | .div _ _ d _ _ => .pops (popS d)
  | .rem _ _ d _ _ => .pops (popS d)
  | .and _ _ d _ _ => .pops (popS d)
  | .or _ _ d _ _ => .pops (popS d)
  | .andn _ _ d _ _ => .pops (popS d)
  | .shl _ _ d _ _ => .pops (popS d)
  | .shr _ _ d _ _ => .pops (popS d)
  | .sar _ _ d _ _ => .pops (popS d)
  | .clz _ _ d _ => .pops (popS d)
  | .ctz _ _ d _ => .pops (popS d)
  | .popc _ _ d _ => .pops (popS d)
  | .min _ _ d _ _ => .pops (popS d)
  | .max _ _ d _ _ => .pops (popS d)
  | .bext _ _ _ _ d _ => .pops (popS d)
  | .bins _ _ _ d _ => .pops (popS d)
  | .mov _ _ d _ => .pops (popS d)
  | .sel _ _ d _ _ => .pops (popS d)
  | .setk _ d _ _ => .pops (popS d)
  | _ => .never

/-- Class 1 (R337, R338, R343): what is no horizon. -/
def undo1 (s : State) (i : Instr) : Undo :=
  match i with
  | .br .. => .inverse s none
  | .ret .. => .inverse s none
  | .nop .. => .inverse s none
  | .yield .. => .inverse s none
  | .loop h d _ => orPops (undoScalar s h d [d] true ((srcS s d).v + 1)) (popS d)
  | .call _ d _ => .pops (popS d)
  | .xsrRd _ _ d _ => .pops (popS d)
  | _ => .never

/-- Class 2 (R359, R361 to R364). -/
def undo2 (s : State) (i : Instr) : Undo :=
  let z : BOp := .reg .z
  match i with
  | .vadd h d a b => orPops (undoVec s h d a (otherB d a b) (vupdAB d a b) fun x y => x - y) (popV d)
  | .vsub h d a b => orPops (undoVec s h d a b (vupdA d a b) fun x y => x + y) (popV d)
  | .vaddi h d a imm => orPops (undoVec s h d a z (d == a) fun x _ => x - imm.signExtend 32) (popV d)
  | .vmulodd h d a b => orPops (undoVec s h d a b (vupdA d a b) fun x y => x * invOdd32 (y ||| 1)) (popV d)
  | .vxor h d a b => orPops (undoVec s h d a (otherB d a b) (vupdAB d a b) fun x y => x ^^^ y) (popV d)
  | .vnot h d a => orPops (undoVec s h d a z (d == a) fun x _ => ~~~x) (popV d)
  | .vneg h d a => orPops (undoVec s h d a z (d == a) fun x _ => -x) (popV d)
  | .vrol h d a b => orPops (undoVec s h d a b (vupdA d a b) fun x y => vror x y) (popV d)
  | .vbflip h d a b =>
    orPops (undoVec s h d a b (vupdA d a b) fun x y => x ^^^ w32 (2 ^ (y.toNat % 32))) (popV d)
  | .vswap h d a =>
    .inverse (if d = a then s else
      putV (putV s d ((lanesOn s h).map fun l => (l, srcL s a l))) a ((lanesOn s h).map fun l => (l, srcL s d l))) none
  | .vcmp _ _ _ d _ _ => .pops (popVBit d)
  | .vmul _ d _ _ => .pops (popV d)
  | .vmulh _ _ d _ _ => .pops (popV d)
  | .vmad _ d _ _ => .pops (popV d)
  | .vand _ d _ _ => .pops (popV d)
  | .vor _ d _ _ => .pops (popV d)
  | .vandn _ d _ _ => .pops (popV d)
  | .vshl _ d _ _ => .pops (popV d)
  | .vshr _ d _ _ => .pops (popV d)
  | .vsar _ d _ _ => .pops (popV d)
  | .vmin _ _ d _ _ => .pops (popV d)
  | .vmax _ _ d _ _ => .pops (popV d)
  | .vabs _ d _ => .pops (popV d)
  | .vsel _ d _ _ => .pops (popV d)
  | .vmov _ d _ => .pops (popV d)
  | .vclz _ d _ => .pops (popV d)
  | .vpopc _ d _ => .pops (popV d)
  | .vbext _ _ _ _ d _ => .pops (popV d)
  | .vbins _ _ _ d _ => .pops (popV d)
  | .vbcast _ _ d _ => .pops (popV d)
  | _ => .never

/-- Classes 3 and 4 (R365, R372): all destructive. -/
def undo34 (i : Instr) : Undo :=
  match i with
  | .fcmp _ _ _ d _ _ => .pops (popVBit d)
  | .fadd _ _ d _ _ => .pops (popV d)
  | .fsub _ _ d _ _ => .pops (popV d)
  | .fmul _ _ d _ _ => .pops (popV d)
  | .ffma _ _ d _ _ => .pops (popV d)
  | .fmin _ d _ _ => .pops (popV d)
  | .fmax _ d _ _ => .pops (popV d)
  | .fexp2 _ _ d _ => .pops (popV d)
  | .flog2 _ _ d _ => .pops (popV d)
  | .frcp _ _ d _ => .pops (popV d)
  | .frsq _ _ d _ => .pops (popV d)
  | .fsqrt _ _ d _ => .pops (popV d)
  | .fdiv _ _ d _ _ => .pops (popV d)
  | .frint _ _ d _ => .pops (popV d)
  | .fscale _ _ d _ _ => .pops (popV d)
  | .cvt _ _ _ _ _ _ d _ => .pops (popV d)
  | .hadd2 _ _ _ d _ _ => .pops (popV d)
  | .hmul2 _ _ _ d _ _ => .pops (popV d)
  | .hfma2 _ _ _ d _ _ => .pops (popV d)
  | .hmax2 _ _ d _ _ => .pops (popV d)
  | .lperm _ d _ _ => .pops (popV d)
  | .lshuf _ _ d _ => .pops (popV d)
  | .lrot _ _ d _ _ => .pops (popV d)
  | .lbcast _ _ d _ _ => .pops (popV d)
  | .lred _ _ _ _ d _ => .pops (popV d ++ popS d)
  | .lscan _ _ _ _ d _ => .pops (popV d)
  | .lbits _ _ d _ => .pops (popS d)
  | .lspread _ _ d _ => .pops (popVBit d)
  | _ => .never

/-- Pops of AMO and CAS at .grp (R380). -/
def rmwPops (s : State) (sz : Fin 4) (pair : Bool) (d a : Reg) : List Pop :=
  (if d.isS then [if pair then Pop.pair d else Pop.scalar d] else []) ++
    [.mem (spaceOf s false) (.imm a 0) (amoBytes sz) 0 .atomic true]

/-- Classes 5 and 6 (R227, R380, R393). -/
def undo56 (s : State) (i : Instr) : Undo :=
  match i with
  | .xchg h sz un d m =>
    let x : Plain := { h, d, m, n := szBytes sz, un, wr := true, rd := true }
    orPopsX (undoXchgChecked s x) (plainPops s x)
  | .vxchg h d m =>
    let x : Plain := { h, d, m, n := 4, vec := true, wr := true, rd := true }
    orPopsX (undoXchgChecked s x) (plainPops s x)
  | .amo _ op _ sc sz d a _ => if sc = .grp then .pops (rmwPops s sz (sz == 3 || op == .addb) d a) else .never
  | .cas _ _ sc sz d a _ => if sc = .grp then .pops (rmwPops s sz (sz == 3) d a) else .never
  | .red _ _ _ sc _ a b => if sc = .grp then .pops [.mem (spaceOf s false) (.lane a b) 4 0 .atomic true] else .never
  | .stMc _ n _ a off =>
    .pops (((upto 0 (n.val + 1)).map fun k =>
      let r : Reg := match a with
        | .s j => if hj : j.val + k < 128 then .s ⟨j.val + k, hj⟩ else a
        | _ => a
      Pop.mem (spaceOf s false) (.imm r off) 4 4 .atomic false).reverse)
  | .fence _ _ sc => if sc = .grp then .inverse s none else .never
  | .wpWait .. => .inverse s none
  | .sbWait .. => .inverse s none
  | .tcPf .. => .inverse s none
  | .tcSub .. => .inverse s none
  | .tcKeep .. => .inverse s none
  | .tcProbe _ _ d _ _ => .pops (popBit d)
  | .cnPut h _ r d _ => .pops [.name d r.val true false h]
  | .cnRoot h ref r d _ => .pops [.name d r.val false ref h]
  | .cnGet _ _ d _ => .pops (popV d)
  | .cnRef h r d => let u := undoCount s h r.val d true; .inverse u.1 u.2
  | .cnDrop h r d => let u := undoCount s h r.val d false; .inverse u.1 u.2
  | i => match plainOf i with
    | some x => .pops (plainPops s x)
    | none => .never

/-- The first way of undoing that applies. -/
def Undo.orElse : Undo → Undo → Undo
  | .never, u => u
  | u, _ => u

/-- How a decoded instruction is undone on the state just after it. -/
def undoOf (s : State) (i : Instr) : Undo :=
  (undo0 s i).orElse ((undo1 s i).orElse ((undo2 s i).orElse ((undo34 i).orElse (undo56 s i))))

/-- Undo one instruction of the current group (R132): ic and qi go back by 1 with it, and stay when it fails. -/
def undoInstr (s : State) (i : Instr) : State × Option Trap :=
  let s1 := s.modMe fun g => { g with hist := { g.hist with ic := g.hist.ic - 1 }, qi := g.qi - 1 }
  let r := match undoOf s1 i with
    | .inverse t e => (t, e)
    | .pops ps => popAll s1 s1 ps
    | .never => (s1, some (corrupt s1))
  match r.2 with
  | none => r
  | some e => (r.1.modMe fun g => { g with hist := { g.hist with ic := s.me.hist.ic }, qi := s.me.qi }, some e)

/-! ### The walk (R132) -/

/-- Whether an instruction is REV, which reversal steps over (R341). -/
def isRev : Instr → Bool
  | .revC .. => true
  | .revP .. => true
  | _ => false

/-- One step of the walk from the word at `rp`: the next state and rp, or the trap that ends it. -/
def walkBack (s : State) (rp : Word) : State × Word × Option Trap :=
  match fetchAt s rp with
  | .inl t => (s, rp, some t)
  | .inr w =>
    if isHeader w then
      if hdrJoin w then
        match popCrumb s [0x04] with
        | .inl e => (s, rp, some e)
        | .inr (c, s1) =>
          let src := s.me.hist.cf
          (s1.modMe fun g => { g with hist := { g.hist with cf := wordAt c.payload 0 } },
            if src != 0 then src else rp - 8, none)
      else (s, rp - 8, none)
    else match decode w with
      | none => (s, rp, some (corrupt s))
      | some i =>
        if isRev i then (s, rp - 8, none)
        else
          let u := undoInstr s i
          match u.2 with
          | none => (u.1, rp - 8, none)
          | some e => (u.1, rp, some e)

/-- The walk until the target ic. -/
def walkTo (t : Word) : (fuel : Nat) → State → Word → State × Word × Option Trap
  | 0, s, rp => (s, rp, some (corrupt s))
  | n + 1, s, rp =>
    if s.me.hist.ic.toNat ≤ t.toNat then (s, rp, none)
    else match walkBack s rp with
      | (s1, rp1, none) => walkTo t n s1 rp1
      | r => r

/-- The header of the block that holds the word at `va`: its VA and the header, scanning downward. -/
def blockOf (s : State) : (n : Nat) → (va : Word) → Word × Word
  | 0, va => (va, 0)
  | n + 1, va =>
    match fetchAt s va with
    | .inr w => if isHeader w then (va, w) else blockOf s n (va - 8)
    | .inl _ => (va, 0)

/-- R123, R132: reversal waits for all that is outstanding, which is then written; scoreboard slots are released. -/
def Group.quiet (g : Group) : Group :=
  { (g.sb.foldl (fun g x => g.deliver x.res) g) with sb := [], awaited := [], unwaited := [], hostLoad := none }

/-- Reverse the current group to `t`, with `rp` the VA just below the next word that would execute. The group then
stands at the word above where the walk ended. -/
def reverseTo (s : State) (t rp : Word) : State × Option Trap :=
  let s1 := s.modMe fun g => { g.quiet with marks := { g.marks with dir := true } }
  let fuel := ((s.me.hist.ic - t).toNat + s.me.hist.crumbs.length + 1) * 2 ^ 54
  let r := walkTo t fuel s1 rp
  let b := blockOf r.1 257 r.2.1
  (r.1.modMe fun g =>
    { g with marks := { g.marks with dir := false },
             at_ := { pc := r.2.1 + 8, hva := b.1, hdr := b.2, fresh := false } }, r.2.2)

/-- Whether a target lies in [hz, ic] (R134). -/
def inReach (g : Group) (t : Word) : Bool := decide (g.hist.hz.toNat ≤ t.toNat ∧ t.toNat ≤ g.hist.ic.toNat)

end Sys2Proof.Machine
end

