-- ==== Sys2Proof/Machine/Control.lean ====
section
/-! DEFINITION. Class 1: transfers of control, NOP, YIELD, HALT, TRAP, COMMIT, REV and the register quotas
(R130, R131, R134, R337 to R342, R346, R106 to R108). -/

namespace Sys2Proof.Machine

/-! ### Transfers (R130, R131, R337) -/

/-- What a taken transfer to `va` finds: the header of the block that it enters, or the trap. -/
def target (s : State) (va : Word) (call : Bool) : Trap ⊕ Word :=
  match fetchAt s va with
  | .inl t => .inl t
  | .inr w =>
    if !isHeader w || headerBad w || !hdrJoin w || (call && !hdrEntry w) then .inl { code := 3, addr := va.toNat }
    else .inr w

/-- The target of a J-form instruction: its own VA plus 8 × OFF. -/
def jumpVa (s : State) (off : BitVec 27) : Word := s.me.at_.pc + off.signExtend 64 * 8

/-- The FRAME among what a taken transfer finds (R131, R302). -/
def frameIn (taken : Bool) (tgt : Trap ⊕ Word) : Option Trap :=
  match tgt with
  | .inl t => if taken && t.code == 3 then some t else none
  | .inr _ => none

/-- A transfer: `taken` says whether control goes to `tgt`, `eff` what else it does. -/
def transferDo (h : Hd) (reads writes : List Reg) (crumbs : List Crumb) (taken : Bool) (tgt : Trap ⊕ Word)
    (va : Word) (eff : State → State) (s : State) : Host.Outcome State Fault Refusal :=
  let src := s.me.at_.pc
  issue { h, reads, writes, roles := rolesAll }
    { crumbs, frame := frameIn taken tgt,
      poison := consume (srcS s h.gr :: (if guardS s h then reads.map (srcS s) else [])),
      trap := if taken then (match tgt with | .inl t => some t | .inr _ => none) else none }
    (fun t => match tgt with
      | .inr w => if taken then (eff t).modMe (·.enter va w src) else eff t
      | .inl _ => eff t) s

/-- BR (R337). -/
def execBr (h : Hd) (off : BitVec 27) (s : State) : Host.Outcome State Fault Refusal :=
  let va := jumpVa s off
  transferDo h [] [] [] (guardS s h) (target s va false) va (fun t => t) s

/-- CALL (R337): the link is the VA after the CALL; its crumb is pushed in any case. -/
def execCall (h : Hd) (d : Reg) (off : BitVec 27) (s : State) : Host.Outcome State Fault Refusal :=
  let va := jumpVa s off
  transferDo h [] [d] (crumbS s d false) (guardS s h) (target s va true) va
    (fun t => if guardS s h then putS t d { v := s.me.at_.pc + 8 } else t) s

/-- What RET finds at the VA in A. -/
def retTarget (s : State) (va : Word) : Trap ⊕ Word :=
  if va.toNat % 8 ≠ 0 then .inl { code := 3, addr := va.toNat } else target s va false

/-- RET (R337). -/
def execRet (h : Hd) (a : Reg) (s : State) : Host.Outcome State Fault Refusal :=
  let va := (srcS s a).v
  transferDo h [a] [] [] (guardS s h) (retTarget s va) va (fun t => t) s

/-- LOOP (R337): the counter goes down by 1 and control transfers while it is not 0. -/
def execLoop (h : Hd) (d : Reg) (off : BitVec 27) (s : State) : Host.Outcome State Fault Refusal :=
  let va := jumpVa s off
  let n := (srcS s d).v - 1
  transferDo h [d] [d] (if mustPush s h d [d] then crumbS s d false else [])
    (guardS s h && n != 0) (target s va false) va
    (fun t => if guardS s h then putS t d { v := n } else t) s

/-- The registers that a transfer's FRAME depends on. -/
def frameRegs (i : Instr) : List Reg :=
  match i with
  | .br h _ => [h.gr]
  | .call h _ _ => [h.gr]
  | .ret h a => [h.gr, a]
  | .loop h d _ => [h.gr, d]
  | _ => []

/-- A scoreboard slot guards a register that a transfer's FRAME depends on: the transfer waits for it (R104), and until then it is
not known whether FRAME or BREAK comes. In hazard-checked mode it does not wait, and meets no FRAME. -/
def frameGuarded (s : State) (i : Instr) : Bool := (frameRegs i).any fun r => s.me.sb.any fun x => x.regs.any (· == r)
def frameWaits (s : State) (i : Instr) : Bool := !hazardOpen s && frameGuarded s i

/-- The FRAME that the instruction at the pc meets (R302): it comes before every other trap. -/
def frameOf (s : State) (i : Instr) : Option Trap :=
  if frameGuarded s i then none
  else match i with
  | .br h off => frameIn (guardS s h) (target s (jumpVa s off) false)
  | .call h _ off => frameIn (guardS s h) (target s (jumpVa s off) true)
  | .ret h a => frameIn (guardS s h) (retTarget s (srcS s a).v)
  | .loop h d off => frameIn (guardS s h && (srcS s d).v - 1 != 0) (target s (jumpVa s off) false)
  | _ => none

/-! ### NOP, YIELD, HALT, TRAP and COMMIT (R338 to R340, R342) -/

/-- NOP. -/
def execNop (h : Hd) (s : State) : Host.Outcome State Fault Refusal :=
  issue { h, roles := rolesAll } {} (fun t => t) s

/-- YIELD: not ready for the next clock, and its ready age starts again behind it: each group that is ready by then is
picked first (R100). -/
def execYield (h : Hd) (s : State) : Host.Outcome State Fault Refusal :=
  issue { h, roles := rolesAll } {}
    (fun t => if guardS s h then
      t.modMe fun g => { g with seat := { g.seat with age := t.tick + 2 } } else t) s

/-- Whether the current group has matrix instructions queued (R339). -/
def queuedMine (s : State) : Bool :=
  !s.me.isControl && (s.core s.me.seat.core).queue.any (·.key == s.me.key)

/-- HALT: waits for all earlier work, then ends the group. -/
def execHalt (h : Hd) (s : State) : Host.Outcome State Fault Refusal :=
  let ok := guardS s h
  issue { h, roles := rolesAll, horizon := true }
    { quantum := ok,
      wait := if ok && (s.owing || !s.me.sb.isEmpty || queuedMine s) then some .halt else none }
    (fun t => if ok then haltGroup t t.me.key else t) s

/-- TRAP: completes as a horizon and parks the group with SOFT. R110 puts "the ic of the trapping instruction" in word 2
and R109 makes TRAP an exception that completes: the record holds ic as it stands after TRAP, so that the handler's
resume goes on behind it (the model's choice, log entry 78). -/
def execTrap (h : Hd) (_imm : BitVec 17) (s : State) : Host.Outcome State Fault Refusal :=
  let pc := s.pcN
  issue { h, roles := rolesAll, horizon := true } {}
    (fun t => if guardS s h then
      trapMe (t.modMe Group.horizon) { code := 13, addr := pc, lanes := 1 } else t) s

/-- COMMIT: a horizon and nothing else. -/
def execCommit (h : Hd) (s : State) : Host.Outcome State Fault Refusal :=
  issue { h, roles := rolesAll, horizon := true } {} (fun t => t) s

/-! ### REV (R134, R341) -/

/-- REV neither counts nor pushes: the group steps over its word. -/
def Group.stepOver (g : Group) (mark : Bool) : Group :=
  Group.settle { g with at_ := { g.at_ with pc := g.at_.pc + 8, fresh := false },
                        marks := { g.marks with skipBrk := false }, hostLoad := none } mark []

/-- REV.p parks with BREAK at the instruction that stands at the target. -/
def revEnd (p : Bool) (s : State) : State :=
  if p then trapMe s { code := 12, addr := (standingAt s s.me.at_.pc).toNat, lanes := 1 } else s

def revDo (h : Hd) (p : Bool) (a : Reg) (s : State) : Host.Outcome State Fault Refusal :=
  let ok := guardS s h
  let t := (srcS s a).v
  let f : Info := { h, reads := [a], roles := rolesAll }
  let pre : Pre :=
    { poison := consume (srcS s h.gr :: (if ok then [srcS s a] else [])),
      trap := if ok && !inReach s.me t then some { code := 9, addr := t.toNat } else none }
  match stopOf f pre s with
  | some (.inl e) => .next (trapMe s (if e.code = 4 then e else { e with lanes := guardLanes s h false }))
  | some (.inr w) => .next (waitMe s w)
  | none =>
    if !ok then .next (s.modMe (·.stepOver h.mark))
    else if t = s.me.hist.ic then .next (revEnd p (s.modMe (·.stepOver h.mark)))
    else
      let r := reverseTo s t (s.me.at_.pc - 8)
      match r.2 with
      | some e => .next (trapMe r.1 { e with lanes := standingLanes r.1 })
      | none => .next (revEnd p r.1)

/-- REV.c and REV.p. -/
def execRevC (h : Hd) (a : Reg) (s : State) : Host.Outcome State Fault Refusal := revDo h false a s
def execRevP (h : Hd) (a : Reg) (s : State) : Host.Outcome State Fault Refusal := revDo h true a s

/-! ### Register quotas (R106 to R108, R346) -/

/-- Groups that hold registers of a core. -/
def onCore (s : State) (c : Nat) : List Group :=
  s.groups.filter fun g => !g.isControl && g.seat.core == c && g.status != .saved && g.status != .halted

/-- Registers that no resident group of a core holds. -/
def corePool (s : State) (c : Nat) : Nat := 12288 - (onCore s c).foldl (fun n g => n + g.regs.quota) 0

/-- Whether an older request for registers waits on the core of group `g` (R107); `rank` is the request's place. -/
def olderGrow (s : State) (g : Group) (rank : Nat) : Bool :=
  (onCore s g.seat.core).any fun x =>
    x.key != g.key && x.growRank != 0 && x.status != .parked && (rank == 0 || decide (x.growRank < rank))

/-- Registers free for a request of the current group: the core's pool, in a DET launch as of the last boundary, less what
has been granted since (R263). -/
def growRoom (s : State) : Nat :=
  let now := corePool s s.me.seat.core
  if s.inDet then Tab.get now s.myLaunch.ds.pool s.me.seat.core else now

/-- A grant in a DET launch is taken off the pool of the boundary. -/
def poolLess (s : State) (n : Nat) : State :=
  if s.inDet then
    s.modLaunch s.myP s.myGang.task.launch fun l =>
      { l with ds := { l.ds with pool := Tab.set 0 l.ds.pool s.me.seat.core (growRoom s - n) } }
  else s

/-- Registers `q` and above of a group read 0 again. -/
def Group.clearFrom (g : Group) (q : Nat) : Group :=
  { g with regs := { g.regs with v := g.regs.v.filter fun x => decide (x.1 < 32 * q) } }

/-- REG.GROW. In a DET launch registers that were free at the boundary may have gone to another launch's group since:
the group then stands until they are free. -/
def execRegGrow (h : Hd) (d a : Reg) (s : State) : Host.Outcome State Fault Refusal :=
  let n := roundUp (srcS s a).v.toNat 8
  let q := s.me.regs.quota
  let short := n != 0 && (decide (growRoom s < n) || olderGrow s s.me s.me.growRank)
  syncDo { h, reads := [a], writes := [d], roles := rolesAll, horizon := true, blocking := true,
           trap := if 768 < q + n then some { code := 10, addr := s.pcN } else none,
           wait := if short then some (.grow n) else none,
           hold := s.inDet && !short && decide (corePool s s.me.seat.core < n) }
    (fun t => putS ((poolLess t n).modMe fun g =>
      { Group.clearFrom g q with growRank := 0, regs := { (Group.clearFrom g q).regs with quota := q + n } }) d
        { v := w64 (q + n) }) s

/-- REG.SHRINK. -/
def execRegShrink (h : Hd) (d a : Reg) (s : State) : Host.Outcome State Fault Refusal :=
  let n := (srcS s a).v.toNat / 8 * 8
  let q := s.me.regs.quota
  syncDo { h, reads := [a], writes := [d], roles := rolesAll, horizon := true,
           trap := if q < n + 8 then some { code := 10, addr := s.pcN } else none }
    (fun t => putS (t.modMe fun g =>
      { Group.clearFrom g (q - n) with regs := { (Group.clearFrom g (q - n)).regs with quota := q - n } }) d
        { v := w64 (q - n) }) s

end Sys2Proof.Machine
end

