-- ==== Sys2Proof/Machine/Extents.lean ====
section
/-! DEFINITION. Operand declarations and extent tables (R71 to R75), holding a task (R74, R110) and TASK_EXTENT_WALK;
walking a page's slots again after its leaf changed (R207). -/

namespace Sys2Proof.Machine

/-- A range as it is walked: its extents, newest first, its pages, and the permissions that all pages share. -/
structure Ranged where
  runs : List (Nat × Nat) := []
  pages : List (Nat × Nat × Word) := []
  read : Bool := true
  write : Bool := true
  deriving DecidableEq, Repr

/-- Add `n` bytes at `pa` to the extents: physically adjacent ones join (log entry 24). -/
def Ranged.add (r : Ranged) (off pa n : Nat) (leaf : Word) : Ranged :=
  { runs := match r.runs with
      | (a, len) :: t => if a + len = pa then (a, len + n) :: t else (pa, n) :: (a, len) :: t
      | [] => [(pa, n)],
    pages := (off, n, leaf) :: r.pages,
    read := r.read && grants leaf .read,
    write := r.write && grants leaf .write }

/-- Walk `[va, stop)`: the range, or the VA whose walk fails (R73, R201). -/
def walkRange (s : State) (p asid base stop : Nat) : (fuel va : Nat) → Ranged → Nat ⊕ Ranged
  | 0, _, r => .inr r
  | n + 1, va, r =>
    if stop ≤ va then .inr r
    else match walk s p asid va with
      | none => .inl va
      | some l =>
        let size := 2 ^ l.off
        let next := min stop ((va / size + 1) * size)
        walkRange s p asid base stop n next
          (r.add (va - base) (bits l.word 51 0 + va % size) (next - va) l.word)

/-- Pages that a range can need, at 64 KiB each, and one more step. -/
def pagesOf (va len : Nat) : Nat := (va + len) / 65536 - va / 65536 + 2

/-- Declaration i of a node (R71). -/
def operW (img : List Byte) (n i j : Nat) : Word := imgW img (nodeOpOff img n + 16 * i + 8 * j)

/-- The base of slot i for instance `inst` (R72). -/
def operBase (l : Launch) (n i inst : Nat) : Word :=
  let w := operW l.img n i 0
  Tab.get 0 l.params (bits w 63 59) + BitVec.ofInt 64 ((inst : Int) * sext 48 (bits w 47 0))

/-- What a walk of a task's ranges gives: its slots, a hold with ADDR and CAUSE, or more than 64 extents. -/
inductive Walked where
  | slots (xs : List Slot)
  | hold (va cause : Nat)
  | over
  deriving DecidableEq, Repr

/-- One slot. -/
def walkSlot (s : State) (l : Launch) (t : TaskId) (i : Nat) : (Nat × Nat) ⊕ Slot :=
  let w := operW l.img t.node i 0
  let len := bits (operW l.img t.node i 1) 39 0
  let base := operBase l t.node i t.inst
  let kind := bits w 58 57
  if base.toNat ≥ 2 ^ 56 then .inl (base.toNat % 2 ^ 56, 6)
  else match walkRange s t.part l.asid base.toNat (base.toNat + len) (pagesOf base.toNat len) base.toNat {} with
    | .inl va => .inl (va, 1)
    | .inr r => .inr
      { base, len, kind, reuse := bits w 56 55, write := kind != 0 && r.write, read := kind != 1 && r.read,
        extents := r.runs.reverse, pages := r.pages.reverse }

/-- The slots in order; the first fault ends the walk. -/
def walkSlots (s : State) (l : Launch) (t : TaskId) : List Nat → (Nat × Nat) ⊕ List Slot
  | [] => .inr []
  | i :: rest => match walkSlot s l t i with
    | .inl e => .inl e
    | .inr x => match walkSlots s l t rest with
      | .inl e => .inl e
      | .inr xs => .inr (x :: xs)

/-- The range of the copy completion records (R74). -/
def walkRecords (s : State) (l : Launch) (t : TaskId) : Option Nat :=
  let g : Gang := { desc := nodeRec l.img t.node }
  let len := 16 * g.csCount
  if len = 0 then none
  else
    let pages := (upto (g.crva / 65536) ((g.crva + len - 1) / 65536 - g.crva / 65536 + 1)).map fun p =>
      max g.crva (65536 * p)
    pages.find? fun va => match walk s t.part l.asid va with
      | none => true
      | some x => !grants x.word .write

/-- All ranges of a task (R73, R74). -/
def walkTask (s : State) (t : TaskId) : Walked :=
  let l := s.launch t.part t.launch
  match walkSlots s l t (upto 0 (nodeOpers l.img t.node)) with
  | .inl (va, c) => .hold va c
  | .inr xs =>
    if 64 < xs.foldl (fun n x => n + x.extents.length) 0 then .over
    else match walkRecords s l t with
      | some va => .hold va 1
      | none => .slots xs

/-- Hold a task under a new park slot (R74, R110). -/
def holdTask (s : State) (t : TaskId) (va cause : Nat) : State :=
  let n := freePark (s.part t.part).parks 65535 (s.part t.part).nextPark
  let l := s.launch t.part t.launch
  let ws := [w64 (5 * 2 ^ 56 + cause * 2 ^ 52 + 2 ^ 51), 0, w64 (va % 2 ^ 56), taskRecord l t, 0, 0, 0]
  (fileRecord s t.part (.hold t) false ws).modTask t fun x => { x with life := .held n, walked := false }

/-- The declared ranges of a task of a DET launch (R265). A range that cannot be walked covers no line until the task's own
walk (R74). -/
def declsOf (s : State) (l : Launch) (t : Task) : List Decl :=
  (upto 0 (nodeOpers l.img t.id.node)).filterMap fun i =>
    match walkSlot s l t.id i with
    | .inr x => some { task := t.id, extents := x.extents, kind0 := x.kind == 0,
                       gang := if nodeGangs l.img t.id.node = 1 then some t.firstInst else none }
    | .inl _ => none

/-- A task's declared ranges as they are walked now take the place of those known before. -/
def redeclare (s : State) (t : TaskId) : State :=
  let l := s.launch t.part t.launch
  if l.det then
    s.modLaunch t.part t.launch fun x =>
      { x with ds := { x.ds with decls := x.ds.decls.filter (·.task != t) ++ declsOf s l (s.task t) } }
  else s

/-- Walk a queued task's ranges: build its extent table, hold it, or drop it. -/
def walkNow (s : State) (t : TaskId) : State :=
  match walkTask s t with
  | .slots xs => (redeclare s t).modTask t fun x => { x with walked := true, slots := xs }
  | .hold va c => holdTask s t va c
  | .over => dropTask s t

/-- TASK_EXTENT_WALK (R73, R74): due for a queued task that is not walked yet. -/
def execTaskExtentWalk (t : TaskId) (s : State) : Host.Outcome State Fault Refusal :=
  let x := s.task t
  if (s.task? t).isSome && x.life == .queued && !x.walked then .next (walkNow s t) else .next s

/-- R207, step 4: the slots of the ASID that cover a page are walked again and reinstated; one whose walk fails stays
revoked. -/
def rewalkPage (s : State) (p asid page : Nat) : State :=
  { s with launches := s.launches.map fun l =>
      if l.part = p ∧ l.asid = asid then
        { l with tasks := l.tasks.map fun t =>
            { t with slots := (t.slots.zip (upto 0 t.slots.length)).map fun (x, i) =>
                if x.covers page then
                  match walkSlot s l t.id i with
                  | .inr y => y
                  | .inl _ => { x with revoked := true }
                else x } }
      else l }

end Sys2Proof.Machine
end

