-- ==== Sys2Proof/Machine/Place.lean ====
section
/-! DEFINITION. Placing gangs (R70, R82 to R85, R91, R94, R95, R106, R118, R127, R144, R145, R152, R156) and the events
GANG_PLACE, AGEING_STEP and SPAN_RESERVATION; dispatch traces (R91). -/

namespace Sys2Proof.Machine

/-! ### Lists in order -/

/-- Insert by a key; equal keys keep their order. -/
def insertBy (f : α → Nat) (x : α) : List α → List α
  | [] => [x]
  | y :: t => if f x < f y then x :: y :: t else y :: insertBy f x t

/-- A list by rising key. -/
def sortBy (f : α → Nat) (l : List α) : List α := l.foldl (fun acc x => insertBy f x acc) []

/-! ### History regions (R127) -/

/-- Blocks of the partition's first ordinary range that a new history region keeps clear of. -/
def takenBlocks (s : State) (p : Nat) : List (Nat × Nat) :=
  let q := s.part p
  [(q.ttBase, 64 * 65536), (q.asidtBase, 8 * 4096)] ++
    (s.groups.filter fun g => !g.isControl && (s.gang g.gang).task.part == p && (s.gang g.gang).life != .ended).map
      fun g => (g.hist.base, 2 ^ g.hist.log)

/-- Where firmware puts a region of 2^log bytes: the first place, from one that firmware favours, that is aligned to
the size, lies below the context area and meets nothing (log entry 26). -/
def pickRegion (s : State) (p log : Nat) (more : List (Nat × Nat)) : Option Nat :=
  let size := 2 ^ log
  let (base, len) := (s.part p).firstOrdinary
  let top := base + len - 2 ^ 26
  let taken := takenBlocks s p ++ more
  let start := base + Config.firmwareLayout p (2 + log) % (len + 1)
  let cands := roundUp start size :: roundUp base size :: taken.map fun b => roundUp (b.1 + b.2) size
  cands.find? fun a => decide (base ≤ a ∧ a + size ≤ top) &&
    taken.all fun b => decide (a + size ≤ b.1 ∨ b.1 + b.2 ≤ a)

/-- Regions for `n` groups. -/
def pickRegions (s : State) (p log : Nat) : (n : Nat) → List (Nat × Nat) → Option (List Nat)
  | 0, _ => some []
  | n + 1, more =>
    match pickRegion s p log more with
    | none => none
    | some a => (pickRegions s p log n ((a, 2 ^ log) :: more)).map (a :: ·)

/-! ### What a gang needs (R67 to R70) -/

def roleOf (code : Nat) : Role :=
  match code with
  | 1 => .vector
  | 2 => .matrix
  | 3 => .copy
  | _ => .control

/-- Role and quota of each group, in index order (R68). -/
def gangPlan (g : Gang) : List (Role × Nat) :=
  let runs := ((upto 0 8).map g.run).takeWhile fun r => r.1 != 0
  runs.flatMap fun r => List.replicate r.2.1 (roleOf r.1, r.2.2)

/-- The gangs that hold resources on a core. -/
def gangsOn (s : State) (c : Nat) : List Gang :=
  s.gangs.filter fun g => g.life == .live && (upto 0 (g.spw * g.sph)).any fun ix => g.coreNum ix == c

/-- Whether every resource that R70 reserves for gang `g` on core `ix` of its span can be reserved, and R156 lets its
matrix groups hold the core. `plan` gives each group its role and the registers that it needs now. -/
def fitsCore (s : State) (g : Gang) (plan : List (Role × Nat)) (ix : Nat) : Bool :=
  let c := g.coreNum ix
  let mine := ((plan.zip (upto 0 plan.length)).filter fun x => g.coreIx x.2 == ix).map (·.1)
  let held := gangsOn s c
  decide ((slotsOn s c).length + mine.length ≤ 256)
    && decide (mine.foldl (fun n x => n + x.2) 0 ≤ corePool s c)
    && decide (held.foldl (fun n x => n + x.lmemBytes) 0 + g.lmemBytes ≤ 768 * 1024)
    && decide ((g.on ix).granules ≤ (s.core c).free)
    && !(mine.any (·.1 == .matrix) && (slotsOn s c).any (·.role == .matrix))

/-- Whether an island is powered (R10). -/
def islandOn (s : State) (i : Nat) : Bool := (Tab.get {} s.module.islands i).on

/-- Whether the host reaches the PF, and Zalius behind its DOE mailbox: the PCIe link has trained, and the control
island and the host PHY are powered (R10, R11, R22, R24). -/
def hostUp (s : State) : Bool := s.module.visible && islandOn s 0 && islandOn s 6

/-- Whether every core quadrant that a partition's rectangle includes is powered (R10, R12). -/
def partPowered (s : State) (p : Nat) : Bool :=
  let q := s.part p
  (upto 0 16).all fun k =>
    let x := 4 * (k % 4)
    let y := 4 * (k / 4)
    !decide (x < q.ox + 2 ^ q.wl ∧ q.ox < x + 4 ∧ y < q.oy + 2 ^ q.hl ∧ q.oy < y + 4) || islandOn s (8 + k)

/-- Whether a gang can be placed on its span now: its partition's quadrants are powered and everything fits. -/
def fits (s : State) (g : Gang) (plan : List (Role × Nat)) : Bool :=
  partPowered s g.task.part && (upto 0 (g.spw * g.sph)).all (fitsCore s g plan)

/-- The origins of the aligned spans in a gang's launch rectangle, by cy and then by cx (R84, R94). -/
def spansOf (s : State) (g : Gang) : List (Nat × Nat) :=
  let p := s.part g.task.part
  let x0 := p.ox + bits (wordAt g.desc 7) 11 8
  let y0 := p.oy + bits (wordAt g.desc 7) 7 4
  let w := 2 ^ bits (wordAt g.desc 7) 19 16
  let h := 2 ^ bits (wordAt g.desc 7) 15 12
  (upto 0 (h / g.sph)).flatMap fun j => (upto 0 (w / g.spw)).map fun i => (x0 + i * g.spw, y0 + j * g.sph)

/-- Cores of a span. -/
def spanCores (g : Gang) : List Nat := (upto 0 (g.spw * g.sph)).map g.coreNum

/-! ### Starting a gang -/

/-- The proto-gang of a task's gang `ix`. -/
def protoGang (s : State) (t : TaskId) (ix cx cy : Nat) : Gang :=
  let l := s.launch t.part t.launch
  let g : Gang := { task := t, ix, inst := (s.task t).firstInst + ix, desc := nodeRec l.img t.node, cx, cy,
                    policy := (s.part t.part).policy.mask, age := s.tick }
  { g with cores := (upto 0 (g.spw * g.sph)).map fun i => (i, { granules := g.accg }) }

/-- The ring table that the declarations build (R69, R145). -/
def ringsOf (img : List Byte) (g : Gang) : List (Nat × Ring) :=
  let off := bits (wordAt g.desc 4) 31 0
  let ids := (upto 0 8).filter g.ringBit
  (ids.zip (upto 0 ids.length)).map fun x => (x.1, { decl := imgW img (off + 8 * x.2) })

/-- The key of group `gid` of the gang with a uid: unique among groups, above the control cores' 0 to 3. -/
def groupKeyOf (uid gid : Nat) : Nat := 4 + 128 * uid + gid

/-- The groups of a gang as they start (R95, R106, R116 to R118, R204); in a DET launch their first quantum begins at
step 9 of the boundary (R264). Each knows what the task's dependences and its launch's trigger publish (R253). -/
def startGroups (tick : Nat) (view : View) (g : Gang) (proof det : Bool) (held : List Group) :
    List ((Role × Nat) × Nat × Nat) → List Group
  | [] => []
  | (rq, gid, base) :: t =>
    let core := g.coreNum (g.coreIx gid)
    let x : Group :=
      { key := groupKeyOf g.uid gid, gang := g.uid, gid, role := rq.1, status := if det then .wait .boundary else .run, view,
        seat := seatFor (held.filter (·.seat.core == core)) core tick,
        regs := { quota := rq.2 }, baseQuota := rq.2,
        at_ := { pc := w64 g.entryVa, hva := w64 g.entryVa - 8, hdr := 0 },
        hist := { base, log := g.hlog }, marks := { proof } }
    x :: startGroups tick view g proof det (x :: held) t

/-- A gang that fits starts: its groups, rings and granules (R70). -/
def startGang (s : State) (g0 : Gang) (bases : List Nat) : State :=
  let l := s.launch g0.task.part g0.task.launch
  let cores := spanCores g0
  let g := { g0 with uid := s.nextGang, rings := ringsOf l.img g0, order := (s.core (cores.headD 0)).orders }
  let plan := gangPlan g
  let held := s.groups.filter fun x => !x.isControl && (s.gang x.gang).life == .live
  let gs := startGroups s.tick (s.task g.task).view g (s.task g.task).proofing l.det held (plan.zip ((upto 0 plan.length).zip bases))
  let s1 := cores.foldl (fun s c =>
    s.setCore c { s.core c with free := (s.core c).free - g.accg, orders := (s.core c).orders + 1 }) s
  { s1 with gangs := s1.gangs ++ [g], rest := s1.rest ++ gs, nextGang := s.nextGang + 1 }.modTask g.task
    fun x => { x with placed := x.placed + 1, life := .running }

/-! ### Dispatch traces (R91) -/

def traceVa (l : Launch) : Nat := bits (imgW l.img 32) 55 0
def traceCap (l : Launch) : Nat := bits (imgW l.img 40) 31 0

/-- The record of a placed gang. -/
def traceRecord (l : Launch) (g : Gang) : List Byte :=
  wordsBytes [w64 (l.seq * 2 ^ 32 + g.inst), w64 (g.cx * 2 ^ 56 + g.cy * 2 ^ 48 + g.order)]

/-- Record `i` of the trace as memory holds it; none at or beyond the capacity. -/
def traceAt (s : State) (l : Launch) (i : Nat) : Option (Word × Word) :=
  if traceVa l = 0 ∨ traceCap l ≤ i then none
  else match lookIn s l.part l.asid (traceVa l + 16 * i) .read with
    | .ok loc _ => some (s.wordAt loc 0, s.wordAt loc 1)
    | .bad _ => none

/-- Every gang of a launch is killed and its tasks are done with; the launch completes with status 1, or 2 (R91,
R272). -/
def abandonLaunch (s : State) (p n : Nat) (mismatch : Bool) : State :=
  let l := s.launch p n
  let s1 := l.tasks.foldl (fun s t => dropParks s p (.hold t.id)) s
  let s2 := (s1.gangs.filter fun g => g.task.part == p && g.task.launch == n && g.life != .ended).foldl
    (fun s g => killGang s g.uid) s1
  s2.modLaunch p n fun l =>
    { l with killed := l.killed || !mismatch, abandoned := l.abandoned || mismatch,
             tasks := l.tasks.map fun t => { t with life := .complete }, ds := {} }

/-- After a RECORD launch placed a gang: its record, or the overflow of TRCAP. A launch without a trace buffer writes
none, none is written while the partition's policy keeps TRACE closed (R54), and a record whose line is not mapped for
writing when the gang is placed is left out while the launch goes on (the model's choice, log entry 27). -/
def recordPlace (s : State) (uid : Nat) : State :=
  let g := s.gang uid
  let l := s.launch g.task.part g.task.launch
  if !l.record || traceVa l == 0 then s
  else if traceCap l ≤ l.tracePos then abandonLaunch s l.part l.num false
  else
    let s1 := s.modLaunch l.part l.num fun l => { l with tracePos := l.tracePos + 1 }
    if !bit (s.part l.part).policy.mask 2 then s1
    else match lookIn s l.part l.asid (traceVa l + 16 * l.tracePos) .write with
      | .ok loc _ => s1.poke loc (traceRecord l g)
      | .bad _ => s1

/-! ### Replays (R91) -/

/-- What a trace says of an instance: its span origin and its placement order there. -/
def traceSpan (s : State) (l : Launch) (inst : Nat) : (fuel i : Nat) → Option ((Nat × Nat) × Nat)
  | 0, _ => none
  | n + 1, i =>
    match traceAt s l i with
    | none => none
    | some (w0, w1) =>
      if bits w0 31 0 = inst then some ((bits w1 63 56, bits w1 55 48), bits w1 31 0) else traceSpan s l inst n (i + 1)

/-- Every gang of a launch's graph, with its instance. -/
def allGangs (s : State) (l : Launch) : List Gang :=
  l.tasks.flatMap fun t => (upto 0 (nodeGangs l.img t.id.node)).map fun ix => protoGang s t.id ix 0 0

/-- Whether every gang of a launch that the trace puts on cores of a span with a lower order has been placed. -/
def lowerPlaced (s : State) (l : Launch) (g : Gang) (order : Nat) : Bool :=
  (allGangs s l).all fun x => match traceSpan s l x.inst (traceCap l) 0 with
    | some (o, n) =>
      !decide (n < order) || !(spanCores { x with cx := o.1, cy := o.2 }).any (fun c => mem? c (spanCores g))
        || decide (x.ix < (s.task x.task).placed)
    | none => true

/-- Where a replay places a gang: its recorded span, once the gangs before it there are placed; none when the trace runs
out or disagrees with the graph. -/
inductive Replayed where
  | at_ (cx cy : Nat)
  | later
  | mismatch
  deriving DecidableEq, Repr

def replaySpan (s : State) (l : Launch) (g0 : Gang) : Replayed :=
  match traceSpan s l g0.inst (traceCap l) 0 with
  | none => .mismatch
  | some (o, n) =>
    if !(spansOf s g0).any (· == o) then .mismatch
    else if lowerPlaced s l { g0 with cx := o.1, cy := o.2 } n then .at_ o.1 o.2 else .later

/-- Place gang `ix` of a task at a span, when it is free for it. -/
def placeAt (s : State) (t : TaskId) (ix cx cy : Nat) : Option State :=
  let g := protoGang s t ix cx cy
  let plan := gangPlan g
  if !fits s g plan then none
  else (pickRegions s t.part g.hlog plan.length []).map fun bases =>
    recordPlace (startGang s g bases) s.nextGang

/-! ### Choosing the next gang (R82 to R85) -/

/-- Whether a task has gangs that wait for a span. -/
def Task.waits (l : Launch) (t : Task) : Bool :=
  (t.life == .queued || t.life == .running) && t.walked && decide (t.placed < nodeGangs l.img t.id.node)

/-- The partition's tasks with gangs that wait, in the order they dispatch: priority, then the order they were queued.
DET launches place at boundaries alone (R273). -/
def waitingTasks (s : State) (p : Nat) : List Task :=
  let ts := (s.launches.filter fun l => l.part == p && !l.det).flatMap fun l => l.tasks.filter (Task.waits l)
  sortBy (fun t => (7 - t.prio) * 2 ^ 64 + t.order) ts

/-- The partition's saved gangs (R92). -/
def savedGangs (s : State) (p : Nat) : List Gang :=
  s.gangs.filter fun g => g.task.part == p && g.life == .saved

/-- A saved gang on a span: what its groups need there. -/
def savedPlan (s : State) (g : Gang) : List (Role × Nat) :=
  (upto 0 g.gcount).map fun gid =>
    match (groupsOf s g.uid).find? (·.gid == gid) with
    | some x => (x.role, if x.status == .halted then 0 else x.regs.quota)
    | none => (.vector, 0)

/-- What waits for a span in a partition's queues (R82 to R84, R92): a task's next gang, or a saved gang. -/
inductive Waiter where
  | task (t : Task)
  | gang (g : Gang)
  deriving DecidableEq, Repr

/-- Effective priority, place in the order of arrival, the gang at a span and what its groups need there, and the cost. -/
def Waiter.prio (s : State) : Waiter → Nat
  | .task t => t.prio
  | .gang g => (s.task g.task).prio
def Waiter.order : Waiter → Nat
  | .task t => t.order
  | .gang g => g.qorder
def Waiter.gangAt (s : State) (x y : Nat) : Waiter → Gang
  | .task t => protoGang s t.id t.placed x y
  | .gang g => { g with cx := x, cy := y }
def Waiter.plan (s : State) : Waiter → List (Role × Nat)
  | .task t => gangPlan (protoGang s t.id t.placed 0 0)
  | .gang g => savedPlan s g
def Waiter.cost (s : State) (w : Waiter) : Nat := let g := w.gangAt s 0 0; g.spw * g.sph

/-- What waits in a partition, as it dispatches: by priority; a saved gang stands at the head, the one that came back last
first (R92); then the tasks in the order they were queued. -/
def waiters (s : State) (p : Nat) : List Waiter :=
  sortBy (fun w => (7 - w.prio s) * 2 ^ 65 + (match w with
    | .task t => 2 ^ 64 + t.order
    | .gang g => 2 ^ 64 - 1 - g.qorder)) ((savedGangs s p).map .gang ++ (waitingTasks s p).map .task)

/-- The spans that a waiting gang may take (R84, R91, R92): those of its rectangle, its recorded one in a replay, its own
in a DET launch. -/
def Waiter.spans (s : State) (w : Waiter) : List (Nat × Nat) :=
  let g := w.gangAt s 0 0
  let l := s.launch g.task.part g.task.launch
  match w with
  | .gang x => if l.det then [(x.cx, x.cy)] else spansOf s g
  | .task _ =>
    if l.replay then (match replaySpan s l g with | .at_ x y => [(x, y)] | _ => []) else spansOf s g

/-- Whether the history regions that a waiting gang needs can be reserved (R70); a saved gang has its own. -/
def Waiter.roomy (s : State) (w : Waiter) : Bool :=
  match w with
  | .task t => (pickRegions s t.id.part (w.gangAt s 0 0).hlog (w.plan s).length []).isSome
  | .gang _ => true

/-- The first free span for a waiting gang that keeps clear of some cores. -/
def Waiter.free (s : State) (w : Waiter) (clear : List Nat) : Option (Nat × Nat) :=
  if !w.roomy s then none
  else (w.spans s).find? fun o =>
    let g := w.gangAt s o.1 o.2
    fits s g (w.plan s) && !(spanCores g).any fun c => mem? c clear

/-- What holds the partition's reservation (R84). -/
def reservedWaiter (s : State) (p : Nat) : Option Waiter :=
  match (s.part p).reserved with
  | some r => (waiters s p).find? fun w => w.order == r.1
  | none => none

/-- The reservation takes the next span of its shape that frees; one whose gang waits no more ends (R84). -/
def settleReservation (s : State) (p : Nat) : State :=
  match (s.part p).reserved with
  | none => s
  | some (n, sp) => match reservedWaiter s p with
    | none => s.modPart p fun q => { q with reserved := none }
    | some w => match sp, w.free s [] with
      | none, some (x, y) => s.modPart p fun q => { q with reserved := some (n, some (16 * y + x)) }
      | _, _ => s

/-- The cores that a reservation keeps free of other gangs. -/
def reservedCores (s : State) (p : Nat) : List Nat :=
  match (s.part p).reserved, reservedWaiter s p with
  | some (_, some c), some w => spanCores (w.gangAt s (c % 16) (c / 16))
  | _, _ => []

/-- The span that a waiting gang may take now: the reserved one for the gang that holds the reservation. -/
def spanFor (s : State) (p : Nat) (w : Waiter) : Option (Nat × Nat) :=
  match (s.part p).reserved with
  | some (n, some c) =>
    if n = w.order then
      let o := (c % 16, c / 16)
      if w.roomy s && (w.spans s).any (· == o) && fits s (w.gangAt s o.1 o.2) (w.plan s) then some o else none
    else w.free s (reservedCores s p)
  | _ => w.free s []

/-- The next gang of a partition that has a span. -/
def nextGangOf (s : State) (p : Nat) : Option (Waiter × Nat × Nat) :=
  (waiters s p).findSome? fun w => (spanFor s p w).map fun o => (w, o.1, o.2)

/-- The first partition that has both a gang to place and the credit (R83). -/
def pickPlace (s : State) (ps : List Nat) : Option (Nat × Waiter × Nat × Nat) :=
  ps.findSome? fun p =>
    match nextGangOf s p with
    | some (w, x, y) => if w.cost s ≤ (s.part p).credit then some (p, w, x, y) else none
    | none => none

/-- Whether a partition's queues hold anything (R83): a saved gang, or a task that is queued or has gangs left to place. -/
def queuesBusy (s : State) (p : Nat) : Bool :=
  !(savedGangs s p).isEmpty || s.launches.any fun l => l.part == p
    && l.tasks.any fun t => t.life == .queued || Task.waits l t

/-- Reservations settle, and the credits of a new round come when no partition has both a gang to place and the credit
(R83, R84). -/
def dispatchRound (s : State) : State :=
  let ps := upto 0 16
  let s0 := ps.foldl settleReservation s
  let busy := ps.filter (queuesBusy s0)
  let s1 := ps.foldl (fun s p =>
    if mem? p busy || (s.part p).credit == 0 then s else s.modPart p fun q => { q with credit := 0 }) s0
  if (pickPlace s1 busy).isSome then s1
  else busy.foldl (fun s p => s.modPart p fun q => { q with credit := q.credit + 2 ^ q.wl * 2 ^ q.hl }) s1

/-- What the engine places next, after `dispatchRound`. -/
def dispatchPick (s : State) : Option (Nat × Waiter × Nat × Nat) := pickPlace s ((upto 0 16).filter (queuesBusy s))

/-- A placed gang has cost its span's cores, and its reservation ends. -/
def chargeFor (s : State) (p order cost : Nat) : State :=
  s.modPart p fun q =>
    { q with credit := q.credit - cost,
             reserved := match q.reserved with
               | some (n, sp) => if n = order then none else some (n, sp)
               | none => none }

/-- A waiting task of a replay whose trace runs out or disagrees with the graph (R91). -/
def badReplay (s : State) : Option Launch :=
  s.launches.find? fun l => l.replay && !l.det && l.tasks.any fun t =>
    Task.waits l t && replaySpan s l (protoGang s t.id t.placed 0 0) == .mismatch

/-- Place at most one gang (R59, R83 to R85). -/
def gangPlace (s : State) : State :=
  if s.quiesced then s
  else match badReplay s with
    | some l => abandonLaunch s l.part l.num false
    | none =>
      let s1 := dispatchRound s
      match dispatchPick s1 with
      | some (p, .task t, x, y) => match placeAt s1 t.id t.placed x y with
        | some s2 => chargeFor s2 p t.order (Waiter.cost s1 (.task t))
        | none => s1
      | _ => s1

/-- GANG_PLACE: the next gang, unless it is a saved one, which GANG_RESUME places. -/
def execGangPlace (s : State) : Host.Outcome State Fault Refusal := .next (gangPlace s)

/-- AGEING_STEP (R82): a queued task has waited another full 2 ms. -/
def execAgeingStep (t : TaskId) (s : State) : Host.Outcome State Fault Refusal :=
  let l := s.launch t.part t.launch
  let x := s.task t
  if (s.task? t).isSome && (x.life == .queued || Task.waits l x) then
    .next (s.modTask t fun x => { x with prio := min 7 (x.prio + 1) })
  else .next s

/-- SPAN_RESERVATION (R84): the oldest waiting gang has waited more than 64 µs; it takes the partition's one
reservation. -/
def execSpanReservation (part : Fin 16) (s : State) : Host.Outcome State Fault Refusal :=
  if (s.part part).reserved.isSome then .next s
  else match sortBy Waiter.order (waiters s part) with
    | [] => .next s
    | w :: _ => .next (settleReservation (s.modPart part fun q => { q with reserved := some (w.order, none) }) part)

/-! ### The context area (R92, R108) -/

/-- Firmware writes `n` bytes of saved state into the partition's context area: the top 64 MiB of its first ordinary range.
The spec gives their place there and their layout nowhere, so both are free; the state itself is kept in State, and comes
back from there (log entry 45). -/
def contextWrite (s : State) (p what n : Nat) : State :=
  let (base, len) := (s.part p).firstOrdinary
  if len < 2 ^ 26 then s
  else s.pokeDev (base + len - 2 ^ 26 + Config.contextPlace p what % (2 ^ 26 - n + 1))
    ((upto 0 n).map (Config.contextByte s.tick))

/-- Bytes of a group's vector registers below `q`, with their poison bits and origin indices, and of its scalars. -/
def vectorBytes (q : Nat) : Nat := q * 144
def scalarBytes (n : Nat) : Nat := 8 * n + 64

end Sys2Proof.Machine
end

