-- ==== Sys2Proof/Machine/Handlers.lean ====
section
/-! DEFINITION. What a handler does with a parked group or a held task (R38, R39, R74, R114, R129, R133, R137, R141,
R347 to R349), shared by the SVC instructions and the host's commands. -/

namespace Sys2Proof.Machine

/-- A park slot that an action can still find (R39). -/
def parkAt (s : State) (p slot : Nat) : Option Park :=
  (s.part p).parks.find? fun x => x.slot == slot && x.due.isNone

/-- An action consumes its slot (R347). -/
def takePark (s : State) (p slot : Nat) : State :=
  s.modPart p fun q => { q with parks := q.parks.filter (·.slot != slot) }

/-- CODE of a record. -/
def Park.code (x : Park) : Nat := bits (wordAt x.words 0) 63 56

/-- A parked group runs again, or stands at the boundary when it had ended its quantum; with `brk` its first instruction
meets no breakpoint (R114). -/
def unpark (s : State) (key : Nat) (brk : Bool) : State :=
  reenter (s.modGroup key fun g =>
    { g with status := if g.arrived then .wait .boundary else .run, arrived := false,
             marks := { g.marks with skipBrk := brk } }) key

/-- A new history region for a group: the stack keeps its offsets (R129). None when it is too small, or when there is
no room. -/
def changeRegion (s : State) (p key hlog : Nat) : Option State :=
  match s.group? key with
  | none => none
  | some g =>
    if 2 ^ hlog < g.hp - g.hist.base + 16 then none
    else (pickRegion s p hlog []).map fun a =>
      s.modGroup key fun g => { g with hist := { g.hist with base := a, log := hlog } }

/-- A parked group reverses to `t`; a target equal to its ic reverses nothing (R132, R134). -/
def reverseParked (s : State) (key : Nat) (t : Word) : State × Option Trap :=
  let back := s.me.key
  let s1 := s.turn key
  let r := if t = s1.me.hist.ic then (s1, none) else reverseTo s1 t (s1.me.at_.pc - 8)
  (r.1.turn back, r.2)

/-- Park a group with a trap at the word that it stands at; its LANES are that word's. -/
def parkStanding (s : State) (key : Nat) (t : Trap) : State :=
  asGroup s key fun s => parkGroup s s.me.key { t with lanes := standingLanes s }

def setRevd (s : State) (key : Nat) : State :=
  s.modGroup key fun g => { g with marks := { g.marks with revd := true } }

/-- The reverse actions: a reverse store that fails parks the group again (R133). -/
def reverseAct (s : State) (key : Nat) (t : Word) (go : Bool) : State :=
  let r := reverseParked s key t
  match r.2 with
  | some e => setRevd (parkStanding r.1 key e) key
  | none =>
    if go then setRevd (unpark r.1 key false) key
    else
      setRevd (asGroup r.1 key fun s => parkGroup s s.me.key
        { code := 12, addr := (standingAt s s.me.at_.pc).toNat, lanes := standingLanes s }) key

/-- The commit action: the same record again, with the new HZ (R114, R135). -/
def commitAct (s : State) (p key : Nat) (x : Park) : State :=
  let s1 := s.modGroup key Group.horizon
  match s1.group? key with
  | none => s1
  | some g => fileRecord s1 p (.group key) (isService s1 g) (x.words.take 6 ++ [g.hist.hz])

/-- An accepted action on a parked group, whose slot it has consumed. -/
def actNow (s : State) (p key : Nat) (x : Park) (a : Handler) : State :=
  match a with
  | .resume _ => unpark s key (x.code == 12)
  | .reverseGo _ t => reverseAct s key t true
  | .reversePark _ t => reverseAct s key t false
  | .commit => commitAct s p key x
  | .kill => killWhenDone s key
  | .step => (unpark s key true).modGroup key fun g => { g with marks := { g.marks with step := true } }

/-- The new HLOG that an action asks for, and the ic that it reverses to. -/
def Handler.hlog : Handler → Nat
  | .resume n => n
  | .reverseGo n _ => n
  | .reversePark n _ => n
  | _ => 0
def Handler.goal : Handler → Option Word
  | .reverseGo _ t => some t
  | .reversePark _ t => some t
  | _ => none

/-- Why an action on a parked group is not accepted: 3 for a reversal of a BREAK park while REVERSE is closed (R141)
and for a commit of a proofing group (R137, log entry 28); 2 for a target outside [hz, ic]. -/
def actCheck (s : State) (g : Group) (x : Park) (a : Handler) : Nat :=
  match a.goal with
  | some t =>
    if x.code == 12 && !policyOpen s (s.gang g.gang) 3 then 3
    else if !inReach g t then 2 else 0
  | none => if a == .commit && g.marks.proof then 3 else 0

/-- An action on the group of a park slot. One that is pre-empted keeps its slot and the action waits (R111, R347). -/
def actOn (s : State) (p : Nat) (x : Park) (key : Nat) (a : Handler) : Nat × State :=
  match s.group? key with
  | none => (1, s)
  | some g =>
    let c := actCheck s g x a
    if c ≠ 0 then (c, s)
    else
      match (if a.hlog = 0 then some s else changeRegion s p key a.hlog) with
      | none => (3, s)
      | some s1 =>
        if g.status == .saved then
          (0, s1.modPart p fun q => { q with parks := q.parks.map fun y =>
            if y.slot = x.slot then { y with due := some a } else y })
        else (0, actNow (takePark s1 p x.slot) p key x a)

/-- An action on a held task (R74, R348, R349). -/
def actHold (s : State) (p slot : Nat) (t : TaskId) (a : Handler) : Nat × State :=
  match a with
  | .resume n =>
    if n = 0 then (0, (takePark s p slot).modTask t fun x => { x with life := .queued, walked := false })
    else (3, s)
  | .kill => (0, dropTask s t)
  | _ => (3, s)

/-- A handler's action on a park slot of a partition, with its result code (R38, R347). -/
def handle (s : State) (p slot : Nat) (a : Handler) : Nat × State :=
  match parkAt s p slot with
  | none => (1, s)
  | some x => match x.who with
    | .hold t => actHold s p slot t a
    | .group key => actOn s p x key a

/-- The same of a handler that publishes `v` with it: the first instruction that the acted-on group, or the task once it
starts, executes afterwards is an acquire at .dev (R347). -/
def handleWith (s : State) (p slot : Nat) (a : Handler) (v : View) : Nat × State :=
  let r := handle s p slot a
  if r.1 ≠ 0 then r
  else match parkAt s p slot with
    | none => r
    | some x => match x.who with
      | .group key => (0, r.2.modGroup key fun g => { g with view := g.view.join v })
      | .hold t => (0, r.2.modTask t fun y => { y with view := y.view.join v })

end Sys2Proof.Machine
end

