-- ==== Sys2Proof/Machine/Groups.lean ====
section
/-! DEFINITION. The steps of the issue partitions and of the arbiters that act on groups: waits that come to an end,
results that arrive, exchanges of the active and the pending set, quota swaps, breakpoints and acknowledgements (R101,
R102, R104, R107, R108, R202, R258, R345). A step that is not due changes nothing (log entry 5). -/

namespace Sys2Proof.Machine

/-! ### WAIT_SATISFIED -/

/-- Whether what the current group waits for has come to hold. A group whose condition only its instruction can judge
looks again. -/
def waitDone (s : State) (w : Wait) : Bool :=
  let g := s.me
  let k := s.core g.seat.core
  match w with
  | .slot => decide (g.sb.length < 8)
  | .guarded r => !g.sb.any fun x => x.regs.any (· == r)
  | .allSlots => g.sb.isEmpty
  | .barrier n ph => decide (ph < (s.myGang.bar n).phase)
  | .ringFree r => let q := s.myGang.ring r; q.isFree q.tail && q.turnOf (.group g.key)
  | .ringFull r => (s.myGang.ring r).canTake
  | .wp c off => decide (off ≤ Tab.get 0 (s.myGang.on (s.myGang.coreIx g.gid)).wp c)
  | .grow n => decide (n ≤ growRoom s) && !olderGrow s g g.growRank
  | .acks => !s.owing
  | .halt => !s.owing && g.sb.isEmpty && !queuedMine s
  | .queueFull => decide (k.queue.length < 32) || k.halted
  | .queueEmpty => k.queue.isEmpty
  | .queueLeft n => decide (n ≤ k.left)
  | .proof => !g.marks.proof
  | .result => true
  | .accRead => false
  | .boundary => false
  | .flowPut | .flowGet | .migTable | .sweep | .mailbox | .dispatch | .ackRoom => true

/-- A group that has just issued a switch marker may have to wait for a result of memory (R101, R103). -/
def lateResult (s : State) (key : Nat) : State :=
  s.modGroup key fun g =>
    if !g.isControl && g.status == .run && g.seat.marked && g.seat.loaded then
      { g with status := .wait .result, seat := { g.seat with loaded := false } }
    else g

/-- A blocked group becomes ready when its condition holds (R101); one that a handler has killed ends (R114). -/
def waitStep (s : State) (key : Nat) : State :=
  asGroup s key fun t =>
    match t.me.status with
    | .wait w =>
      if t.me.key = key ∧ waitDone t w = true then
        (if t.me.marks.killed then haltGroup t key else reenter (t.modMe fun g => { g with status := .run }) key)
      else t
    | _ => t

def execWaitSatisfied (group : Nat) (s : State) : Host.Outcome State Fault Refusal := .next (waitStep s group)

/-! ### SPLIT_PHASE_RESULT (R104) -/

def execSplitPhaseResult (group slot : Nat) (s : State) : Host.Outcome State Fault Refusal :=
  .next (s.modGroup group fun g =>
    match g.sb.find? fun x => x.slot == slot && !x.late with
    | some x => g.endSlot x
    | none => g)

/-! ### ISSUE_SWAP and FORCED_SWAP (R101, R102) -/

/-- Long-latency events (R101). -/
def longWait : Wait → Bool
  | .slot | .guarded _ | .allSlots | .barrier _ _ | .ringFree _ | .ringFull _ | .wp _ _ | .grow _ => true
  | .queueLeft _ | .accRead | .boundary | .result => true
  | _ => false

/-! ### The pick of an issue partition (R100, R338) -/

/-- The groups of the current group's issue partition that are ready and in its active set. -/
def readyActive (s : State) : List Group :=
  s.groups.filter fun g => !g.isControl && g.seat.core == s.me.seat.core && g.seat.ipart == s.me.seat.ipart
    && g.status == .run && g.seat.active

/-- How far a slot lies behind the one that the partition picked last. -/
def slotAfter (s : State) (g : Group) : Nat :=
  (g.seat.slot + 16 - (Tab.get 0 (s.core g.seat.core).picked g.seat.ipart + 1) % 16) % 16

/-- The group that the current group's issue partition picks: the one that has been ready longest, and among those that
became ready together the next in round-robin order. A control core that runs issues for itself, while its island is on. -/
def issuePick (s : State) : Option Group :=
  if s.me.isControl then (if s.me.status == .run && islandOn s 0 then some s.me else none)
  else (sortBy (fun g => g.seat.age * 16 + slotAfter s g) (readyActive s)).head?

/-- A group has the turn and issues: its partition has picked it last, and it is ready again from the next clock on. -/
def State.issuing (s : State) (g : Group) : State :=
  let t := s.turn g.key
  if g.isControl then t
  else
    let c := t.core g.seat.core
    (t.setCore g.seat.core { c with picked := Tab.set 0 c.picked g.seat.ipart g.seat.slot }).modMe fun x =>
      { x with seat := { x.seat with age := s.tick + 1 } }

/-- The groups of one issue partition. -/
def inPartition (s : State) (g : Group) : List Group :=
  (slotsOn s g.seat.core).filter (·.seat.ipart == g.seat.ipart)

/-- Whether a pending group is the one that has been ready longest. -/
def readyLongest (s : State) (g : Group) : Bool :=
  pendingReady g && (inPartition s g).all fun x => !pendingReady x || decide (g.seat.age ≤ x.seat.age)

/-- A group enters the active set, or leaves it. -/
def activate (s : State) (key : Nat) : State :=
  s.modGroup key fun g => { g with seat := { g.seat with active := true, since := s.tick } }
def deactivate (s : State) (key : Nat) : State :=
  s.modGroup key fun g => { g with seat := { g.seat with active := false, age := s.tick } }

/-- ISSUE_SWAP: the longest-ready pending group takes the place of one that waits on a long-latency event, or one
that a group left behind. -/
def issueSwap (s : State) (out inn : Nat) : State :=
  match s.group? inn with
  | none => s
  | some n =>
    if !readyLongest s n then s
    else if activeRoom s n then activate s inn
    else match s.group? out with
      | none => s
      | some o =>
        let waits := match o.status with
          | .wait w => longWait w
          | _ => false
        if (inPartition s n).any (·.key == out) && o.seat.active && waits then activate (deactivate s out) inn else s

def execIssueSwap (out inn : Nat) (s : State) : Host.Outcome State Fault Refusal := .next (issueSwap s out inn)

/-- FORCED_SWAP: the active group that has spent longest in the active set goes, after a switch marker, or at once when
it is not ready. -/
def forcedSwap (s : State) (inn : Nat) : State :=
  match s.group? inn with
  | none => s
  | some n =>
    if !pendingReady n then s
    else match sortBy (·.seat.since) ((inPartition s n).filter (·.seat.active)) with
      | [] => s
      | o :: _ => if o.status != .run || o.seat.marked then activate (deactivate s o.key) inn else s

def execForcedSwap (inn : Nat) (s : State) : Host.Outcome State Fault Refusal := .next (forcedSwap s inn)

/-! ### QUOTA_SWAP_OUT and QUOTA_RESTORE (R107, R108) -/

/-- Whether a group waits for registers, swapped out or not. -/
def growWaits (g : Group) : Bool :=
  match g.status with
  | .wait (.grow _) => true
  | .wait .boundary => g.growRank != 0
  | .swapped _ => true
  | _ => false

/-- Registers that a waiting group's request needs from the pool: its base quota too when it is swapped out. -/
def growTotal (g : Group) : Nat :=
  match g.status with
  | .swapped n => g.baseQuota + n
  | _ => g.growNeed

/-- Whether the oldest request of a core can be met. -/
def oldestMet (s : State) (gs : List Group) (core : Nat) : Bool :=
  match sortBy (·.growRank) gs with
  | [] => true
  | g :: _ => decide (growTotal g ≤ corePool s core)

/-- The youngest waiting group that still holds its registers, by gang launch order and then by group index. -/
def youngestGrow (gs : List Group) : Option Group :=
  ((sortBy (fun g => g.gang * 128 + g.gid) (gs.filter fun g => match g.status with
    | .swapped _ => false
    | _ => true)).reverse).head?

/-- A group leaves its registers to the arbiter: those that VLIVE covers are kept (R108, R286). -/
def Group.swapOut (g : Group) : Group :=
  { Group.clearFrom g (min (hdrVlive g.at_.hdr) g.regs.quota) with
    status := .swapped g.growNeed, baseQuota := g.regs.quota,
    regs := { (Group.clearFrom g (min (hdrVlive g.at_.hdr) g.regs.quota)).regs with quota := 0 },
    seat := { g.seat with active := false } }

/-- Whether a group belongs to a DET launch. -/
def ofDet (s : State) (g : Group) : Bool :=
  let t := (s.gang g.gang).task
  !g.isControl && (s.launch t.part t.launch).det

/-- The arbiter breaks the wait of a core: the youngest waiting group leaves its registers (R108). -/
def quotaSwapOut (s : State) (core : Nat) : State :=
  let gs := (onCore s core).filter (·.status != .parked)
  if gs.isEmpty || !gs.all growWaits || oldestMet s gs core then s
  else match youngestGrow gs with
    | some g =>
      (contextWrite s (s.gang g.gang).task.part g.key (vectorBytes (min (hdrVlive g.at_.hdr) g.regs.quota))).modGroup g.key
        Group.swapOut
    | none => s

/-- QUOTA_SWAP_OUT. On a core with groups of a DET launch the arbiter acts at the launch's boundaries, so that two runs
agree (R261, R263). -/
def execQuotaSwapOut (core : Fin 256) (s : State) : Host.Outcome State Fault Refusal :=
  .next (if (onCore s core).any (ofDet s) then s else quotaSwapOut s core)

/-- The waiting REG.GROW of the current group completes. -/
def growNow (s : State) : State :=
  match fetchAt s s.me.at_.pc with
  | .inl _ => s
  | .inr w => match decode w with
    | some (.regGrow h d a) => match execRegGrow h d a s with
      | .next t => t
      | _ => s
    | _ => s

/-- A swapped-out group gets its registers, its base quota and the grant; in a DET launch the grant itself comes with its
next quantum (R263). -/
def quotaRestore (s : State) (key : Nat) : State :=
  match s.group? key with
  | none => s
  | some g => match g.status with
    | .swapped n =>
      if corePool s g.seat.core < g.baseQuota + n || olderGrow s g g.growRank then s
      else
        let back (st : Status) := s.modGroup key fun g => { g with status := st, regs := { g.regs with quota := g.baseQuota } }
        if (s.launch (s.gang g.gang).task.part (s.gang g.gang).task.launch).det then back (.wait .boundary)
        else asGroup (reenter (back .run) key) key growNow
    | _ => s

/-- QUOTA_RESTORE; groups of a DET launch are restored at its boundaries. -/
def execQuotaRestore (group : Nat) (s : State) : Host.Outcome State Fault Refusal :=
  .next (if ((s.group? group).map (ofDet s)).getD false then s else quotaRestore s group)

/-! ### BREAKPOINT_HIT (R345) -/

/-- The current group, about to execute a word at an enabled breakpoint, parks with BREAK, unless that word's FRAME comes
or may come first (R302). -/
def breakNow (s : State) : State :=
  if s.me.status != .run then s
  else match fallIn s with
    | .inl _ => s
    | .inr t =>
      let first := match fetchAt t t.me.at_.pc with
        | .inr w => (decode w).elim false fun i => (frameOf t i).isSome || frameWaits t i
        | .inl _ => false
      if breakDue t && !first then trapMe t { code := 12, addr := t.pcN, lanes := standingLanes t } else s

def execBreakpointHit (group : Nat) (s : State) : Host.Outcome State Fault Refusal :=
  .next (asGroup s group fun t => if t.me.key = group then breakNow t else t)

/-! ### Completions of data traffic (R202, R258) -/

def execWriteAcknowledge (group : Nat) (s : State) : Host.Outcome State Fault Refusal := .next (acknowledge s group)

/-- The lanes of a load whose completion failed read as poison (R202, R204, R206): in the registers, or in the result
that a scoreboard slot still guards. -/
def spoilLoad (s : State) (ls : List Nat) (h : HostLoad) : State :=
  match (h.accs.filter fun x => mem? x.1 ls).head? with
  | none => s
  | some x =>
    let r := noteLoad s h.ic (some (5, x.2))
    let bad := (h.accs.filter fun y => mem? y.1 ls).map (·.1)
    let spoilS (i : Nat) : SVal := { v := Config.poisonValue s.tick i, p := true, o := r.2 }
    let spoilL (l : Nat) : LVal := { v := (Config.poisonValue s.tick l).setWidth 32, p := true, o := r.2 }
    let ss := h.ds.filterMap fun d => match d with | .s i => some (i.val, spoilS i.val) | _ => none
    let vs := h.ds.flatMap fun d => match d with
      | .v i => bad.map fun l => (32 * i.val + l, spoilL l)
      | _ => []
    if r.1.me.sb.any (·.ic == h.ic) then
      r.1.modMe fun g => { g with sb := g.sb.map fun b =>
        if b.ic = h.ic then { b with res :=
          { scalars := b.res.scalars.map fun y => if ss.any (·.1 == y.1) then (y.1, spoilS y.1) else y,
            lanes := b.res.lanes.map fun y => if vs.any (·.1 == y.1) then (y.1, spoilL (y.1 % 32)) else y } }
        else b }
    else r.1.modMe fun g => (g.putScalars ss).putLanes vs

/-- HOST_COMPLETION_ERROR: the last load, which read host or peer memory, is poisoned with cause 5; a store's error is
counted, and its write is acknowledged. -/
def completionError (s : State) (key : Nat) (store : Bool) (lanes : BitVec 32) : State :=
  if store then
    if s.unacked.any (·.key == key) then acknowledge (s.countErr 9) key else s
  else asGroup s key fun t =>
    if t.me.key != key then t
    else match t.me.hostLoad with
      | some h => (spoilLoad t ((upto 0 32).filter fun l => nbit lanes.toNat l) h).modMe
          fun g => { g with hostLoad := none }
      | none => t

def execHostCompletionError (group : Nat) (store : Bool) (lanes : BitVec 32) (s : State) :
    Host.Outcome State Fault Refusal := .next (completionError s group store lanes)

end Sys2Proof.Machine
end

