-- ==== Sys2Proof/Machine/System.lean ====
section
/-! DEFINITION. Class 1: the control registers (R343 to R345, R443) and the service gang's instructions (R113, R203,
R207, R347 to R351, R437). -/

namespace Sys2Proof.Machine

/-! ### Control registers (R343) -/

/-- GRP_STATUS (R117). -/
def grpStatus (g : Group) (parked : Bool) : Word :=
  let swapped := match g.status with | .swapped _ => true | _ => false
  w64 (b2n g.marks.dir * 128 + b2n g.marks.proof * 64 + b2n g.marks.revd * 32 + b2n swapped * 16
    + b2n parked * 8 + b2n (g.status == .halted) * 4)

/-- A word of the poison-origin table (R204). -/
def potWord (g : Group) (i w : Nat) : Word :=
  let e : Origin := Tab.get {} g.pot i
  if w = 0 then e.oic
  else w64 (b2n e.valid * 2 ^ 63 + b2n e.multi * 2 ^ 62 + e.cause * 2 ^ 56 + e.va % 2 ^ 56)

/-- The parked group that a park slot of the current group's partition names. -/
def debugGroup (s : State) (slot : Nat) : Option Group :=
  match s.myPart.parks.find? (·.slot == slot) with
  | some x => match x.who with
    | .group key => s.group? key
    | .hold _ => none
  | none => none

/-- The words of a crumb stack in memory, from HIST_BASE up: payload, then header (R124). -/
def crumbWords (cs : List Crumb) : List Word :=
  cs.reverse.flatMap fun c =>
    c.payload ++ [w64 (c.kind.toNat * 2 ^ 58 + c.iclo.toNat * 2 ^ 32 + c.arg.toNat)]

/-- DBG_REG of a group (R345); hp reads 0 while REVERSE is closed (R141). -/
def debugReg (s : State) (g : Group) (rev : Bool) (a : Word) : Word :=
  match Reg.ofCode (a.extractLsb' 16 10) with
  | none => 0
  | some .hp => if rev then w64 g.hp else 0
  | some (.v i) =>
    let x := g.getV i (bits a 30 26)
    w64 (x.v.toNat + b2n x.p * 2 ^ 63)
  | some r => (readS s g r).v

/-- DBG_STAT of a group. -/
def debugStat (s : State) (g : Group) (open3 : Bool) (w : Nat) : Word :=
  match w with
  | 0 => g.hist.ic
  | 1 => g.hist.hz
  | 2 => g.hist.cf
  | 3 => if open3 then w64 g.hp else 0
  | 4 => grpStatus g true
  | 5 => standingAt (s.turn g.key) g.at_.pc
  | _ => 0

/-- Index entries of a region in test naming (R443). -/
def debugCn (s : State) (r : Nat) (a : Word) (w : Nat) : Word :=
  match cnReg? s s.myP r with
  | some x =>
    if x.test && bit s.myPart.policy.mask 5 && decide (a.toNat < x.n) then s.homeWord (x.entry a.toNat + 8 * w) else 0
  | none => 0

/-- A read of a debug register by a service group. R145 speaks of ring entries that the debug registers read whole; R343 and
R345 list no register that names a ring, so that there is none here (log entry 80). The value is 0 while DEBUG is closed for the partition, or for the gang of the
group that it names (R57, R141, R345). -/
def debugRead (s : State) (x : Xsr) (a : Word) : Word :=
  if !bit s.myPart.policy.mask 0 then 0
  else if x.num = 0x040 then Tab.get 0 s.myPart.brk x.idx.toNat
  else if x.num = 0x045 then debugCn s x.idx.toNat a x.word.toNat
  else match debugGroup s (bits a 15 0) with
    | none => 0
    | some g =>
      let a0 := s.gang g.gang
      let rev := policyOpen s a0 3
      if !policyOpen s a0 0 then 0
      else if x.num = 0x042 then (if g.marks.revd && !rev then 0 else debugReg s g rev a)
      else if x.num = 0x043 then
        (if !rev || bits a 63 16 % 8 != 0 then 0 else wordAt (crumbWords g.hist.crumbs) (bits a 63 16 / 8))
      else debugStat s g rev x.word.toNat

/-- The poison of a scalar register that DBG_REG reads goes with it into D, where a debugger finds it (R345, R439; DEDUCED, log
entry 80). -/
def debugSpoil (s : State) (x : Xsr) (a : Word) : List SVal :=
  match debugGroup s (bits a 15 0), Reg.ofCode (a.extractLsb' 16 10) with
  | some g, some (.s i) =>
    let a0 := s.gang g.gang
    if x.num = 0x042 ∧ bit s.myPart.policy.mask 0 ∧ policyOpen s a0 0 ∧ (g.marks.revd = false ∨ policyOpen s a0 3 = true) then
      [readS s g (.s i)] else []
  | _, _ => []

/-- The value that XSR.RD reads (R343). -/
def xsrValue (s : State) (x : Xsr) (a : Word) : Word :=
  let mesh (v : Word) : Word := if s.me.isControl then 0 else v
  match x.num.toNat with
  | 0x001 => grpStatus s.me false
  | 0x002 => w64 s.me.hist.base
  | 0x003 => w64 s.me.hlimit
  | 0x004 => w64 s.me.fpflags.toNat
  | 0x005 => mesh (w64 s.myPart.ttBase)
  | 0x006 => mesh (w64 s.myPart.asidtBase)
  | 0x008 => mesh (w64 s.myAsid)
  | 0x010 => potWord s.me x.idx.toNat x.word.toNat
  | 0x018 => mesh (Tab.get 0 s.myPart.keep (4 * x.idx.toNat + x.word.toNat))
  | 0x020 => mesh s.myPart.parkq
  | 0x030 => s.me.bootCause
  | _ => debugRead s x a

/-- The trap of a debug register: another group than the service gang's, or a reserved selector bit (R345, R443). -/
def debugTrap (s : State) (x : Xsr) (a : Word) : Option Trap :=
  if !x.isDebug then none
  else if !isService s s.me then access 5 s.pcN
  else if x.num = 0x045 ∧ bits a 63 40 ≠ 0 then access 1 s.pcN
  else none

/-- XSR.RD. -/
def execXsrRd (h : Hd) (x : Xsr) (d a : Reg) (s : State) : Host.Outcome State Fault Refusal :=
  let ok := guardS s h
  let vs := [srcS s a, srcS s h.gr] ++ debugSpoil s x (srcS s a).v
  issue { h, reads := [a], writes := [d], roles := rolesAll }
    { illegal := x.num == 0x030 && !s.me.isControl,
      crumbs := crumbS s d (vs.any (·.p)),
      trap := if ok then debugTrap s x (srcS s a).v else none }
    (fun t => if ok then putS t d (withPoison (xsrValue s x (srcS s a).v) vs) else t) s

/-- Why a write of PARKQ is denied (R344): the cause of its ACCESS. -/
def parkqDenied (s : State) (v : Word) : Option Nat :=
  let va := bits v 55 0
  if s.me.isControl || (groupsOf s s.me.gang).any (·.role != .vector) then some 5
  else if s.myPart.service.isSome && s.myPart.service != some s.me.gang then some 5
  else if v = 0 then none
  else if bits v 63 59 < 6 ∨ 12 < bits v 63 59 ∨ bits v 58 56 ≠ 0 ∨ va % 64 ≠ 0 then some 1
  else if (engineDenied s va (64 + 64 * 2 ^ bits v 63 59)).isSome then some 1 else none

/-- Writing PARKQ registers the gang, and 0 ends the registration. -/
def setParkq (s : State) (v : Word) : State :=
  s.modPart s.myP fun p => { p with parkq := v, service := if v = 0 then none else some s.me.gang }

/-- DBG_STEP: a BREAK-parked group runs one counted instruction (R345), one that is pre-empted once it is restored. -/
def debugStep (s : State) (slot : Nat) : State :=
  match parkAt s s.myP slot with
  | some x => match x.who with
    | .group key =>
      match s.group? key with
      | some g =>
        if x.code == 12 && policyOpen s (s.gang g.gang) 0 then (actOn s s.myP x key .step).2 else s
      | none => s
    | .hold _ => s
  | none => s

/-- What XSR.WR does. -/
def xsrStore (s : State) (x : Xsr) (v : Word) : State :=
  match x.num.toNat with
  | 0x004 => s.modMe fun g => { g with fpflags := writeFlags v }
  | 0x020 => setParkq s v
  | 0x040 =>
    if bit s.myPart.policy.mask 0 then
      s.modPart s.myP fun p => { p with brk := Tab.set 0 p.brk x.idx.toNat (v &&& 0x80FFFFFFFFFFFFF8) }
    else s
  | 0x041 => if bit s.myPart.policy.mask 0 then debugStep s (bits v 15 0) else s
  | _ => s

/-- XSR.WR. -/
def execXsrWr (h : Hd) (x : Xsr) (a : Reg) (s : State) : Host.Outcome State Fault Refusal :=
  let v := (srcS s a).v
  syncDo { h, reads := [a], roles := rolesAll, horizon := true,
           trap := if x.num = 0x020 then
               (match parkqDenied s v with | some c => access c s.pcN | none => none)
             else debugTrap s x 0 }
    (fun t => xsrStore t x v) s

/-! ### Slot instructions (R347 to R349) -/

/-- An SVC instruction: only the service gang may issue it, and it waits as a release at .dev does (R113, R347). `leaf` is
where it reads a page's leaf. -/
def svcDo (h : Hd) (reads writes : List Reg) (trap : Option Trap) (wait : Option Wait) (eff : State → State)
    (s : State) (revokes : Option (Nat × Nat) := none) (leaf : Option Loc := none) : Host.Outcome State Fault Refusal :=
  syncDo { h, reads, writes, roles := rolesVector, horizon := true, revokes,
           foreign := leaf.any (privateOther s), touch := leaf.toList,
           trap := if !isService s s.me then access 5 s.pcN else trap,
           wait := match releaseWait s true .dev with | some w => some w | none => wait } eff s

/-- An action on the park slot in A, its code into D; it is a release at .dev, with which the acted-on group synchronises. -/
def svcSlot (h : Hd) (d a : Reg) (more : List Reg) (act : Handler) (s : State) :
    Host.Outcome State Fault Refusal :=
  let slot := bits (srcS s a).v 15 0
  svcDo h (a :: more) [d] none none
    (fun t => let u := t.release .dev; let r := handleWith u s.myP slot act (u.publishes u.me); putS r.2 d { v := w64 r.1 }) s

/-- SVC.RESUME, its reverse modes, SVC.KILL and SVC.COMMIT. -/
def execSvcResume (h : Hd) (hlog : BitVec 5) (d a : Reg) (s : State) : Host.Outcome State Fault Refusal :=
  svcSlot h d a [] (.resume hlog.toNat) s
def execSvcResumeC (h : Hd) (hlog : BitVec 5) (d a b : Reg) (s : State) : Host.Outcome State Fault Refusal :=
  svcSlot h d a [b] (.reverseGo hlog.toNat (srcS s b).v) s
def execSvcResumeP (h : Hd) (hlog : BitVec 5) (d a b : Reg) (s : State) : Host.Outcome State Fault Refusal :=
  svcSlot h d a [b] (.reversePark hlog.toNat (srcS s b).v) s
def execSvcKill (h : Hd) (d a : Reg) (s : State) : Host.Outcome State Fault Refusal := svcSlot h d a [] .kill s
def execSvcCommit (h : Hd) (d a : Reg) (s : State) : Host.Outcome State Fault Refusal := svcSlot h d a [] .commit s

/-! ### Purging and migrating (R203, R207, R350, R351, R437) -/

/-- A purge of a range of 64-KiB pages: the cached entries of every level that cover a page of it are forgotten, and the
L1s write back and drop its lines; of every ASID of the partition when `asid` is none. -/
def purge (s : State) (p : Nat) (asid : Option Nat) (first last : Nat) : State :=
  purgeLines { s with cached := s.cached.filter fun c =>
      !(c.part == p && (match asid with | some a => c.asid == a | none => true)
        && decide (first * 65536 < (c.ix + 1) * 2 ^ c.sh ∧ c.ix * 2 ^ c.sh < (last + 1) * 65536)) } p first last

/-- A frame lies in an ordinary range of the partition. -/
def inOrdinary (q : Part) (pa n : Nat) : Bool :=
  (upto 1 7).any fun i => let r := q.range i; r.1 == 1 && decide (r.2.1 ≤ pa ∧ pa + n ≤ r.2.1 + r.2.2)

/-- Where the level-1 entry of a page lies. -/
def leafPlace (s : State) (p asid page : Nat) : Option Loc :=
  ((walkPath s p asid page).find? (·.1 == 16)).map fun e => .dev e.2.1

/-- The walk of a page whose level-1 entry is read as a load of the current group (R437). -/
def walkOwn (s : State) (p asid page : Nat) : Option Leaf :=
  match leafPlace s p asid page with
  | some (.dev pa) =>
    let bs := if s.inDet then (upto pa 8).map fun a => (detByte s a).1 else loadBytes s 0 (s.cells (.dev pa) 8)
    let t := homeLine s (.dev pa)
    walk (t.setMem (t.mem.setBytes (.dev pa) bs)) p asid page
  | _ => walk s p asid page

/-- What SVC.MIGRATE finds: its trap, or the leaf that it rewrites. -/
def migrateLeaf (s : State) (done page : Nat) (b : Word) : Trap ⊕ Leaf :=
  let acc (a : Nat) : Trap := { code := 5, cause := 1, addr := a }
  let frame := bits b 51 16 * 65536
  if done % 8 ≠ 0 then .inl { code := 6, addr := done }
  else if page % 65536 ≠ 0 then .inl { code := 6, addr := page }
  else if ((look s done .write).storeDenied s 8).isSome then .inl (acc done)
  else match walkOwn s s.myP (bits b 63 52) page with
    | none => .inl (acc page)
    | some l =>
      if l.off ≠ 16 ∨ bit l.word 55 then .inl (acc page)
      else if frame = bits l.word 51 0 ∨ inOrdinary s.myPart frame 65536 = false ∨ bits b 15 0 ≠ 0 then
        .inl (acc s.pcN)
      else .inr l

/-- The leaf with a new frame and MIG = 1; every other bit is kept (R437). -/
def migratedLeaf (w : Word) (frame : Nat) : Word :=
  (w &&& 0xFFF0000000000000) ||| w64 frame ||| bitAt 55

/-- A place of a frame that moves. -/
def movedPa (old new pa : Nat) : Nat := if old ≤ pa ∧ pa < old + 65536 then new + (pa - old) else pa
def movedLine (old new line : Nat) : Nat := movedPa old new (128 * line) / 128

/-- What a deterministic launch keeps of a frame's places moves with it. -/
def Det.moved (old new : Nat) (d : Det) : Det :=
  let a := movedPa old new
  let l := movedLine old new
  { d with
    buffer := d.buffer.map fun b => { b with pa := a b.pa },
    serial := d.serial.map fun q => { q with lanes := q.lanes.map fun x => (x.1, x.2.1, a x.2.2.1, x.2.2.2) },
    held := d.held.map fun h => { h with bytes := h.bytes.map fun x => (a x.1, x.2), lines := h.lines.map fun x => (l x.1, x.2) },
    owners := d.owners.map fun x => (l x.1, x.2), touched := d.touched.map fun x => (l x.1, x.2),
    stored := d.stored.map l, asOf := d.asOf.map fun x => (a x.1, x.2),
    decls := d.decls.map fun x => { x with extents := x.extents.flatMap fun (e : Nat × Nat) =>
      if e.1 < old + 65536 ∧ old < e.1 + e.2 then
        let hi := min (e.1 + e.2) (old + 65536)
        let lo := max e.1 old
        [(e.1, lo - e.1), (a lo, hi - lo), (hi, e.1 + e.2 - hi)].filter fun y => decide (0 < y.2)
      else [e] } }

/-- The old frame is not written any more (R208): what the dies and the caches hold of it goes home first, and what is on
its way to it goes to the new frame. -/
def leaveFrame (s : State) (old new : Nat) : State :=
  let s1 := (s.coh.contended.filter fun c => decide (old ≤ 128 * c.line ∧ 128 * c.line < old + 65536)).foldl
    (fun s c => mergeLine s c.line) s
  { s1 with
    mem := { s1.mem with back := s1.mem.back.filter fun e => !decide (old ≤ e.1 ∧ e.1 < old + 65536) },
    launches := s1.launches.map fun l => { l with ds := l.ds.moved old new },
    messages := s1.messages.map fun m => if m.flow < devTop then { m with flow := movedPa old new m.flow } else m,
    delivered := s1.delivered.map fun x => (movedPa old new x.1, x.2) }

/-- R207, steps 2 to 4. -/
def migrate (s : State) (p asid page frame done : Nat) (l : Leaf) : State :=
  let old := bits l.word 51 0
  let m : Migration := { part := p, asid, va := page, old, new := frame, leafPa := l.at_,
                         word := done, wordAsid := s.myAsid }
  let s1 := (leaveFrame s old frame).pokeWord (.dev l.at_) (migratedLeaf l.word frame)
  let s2 := purge { s1 with migrations := s1.migrations ++ [m] } p (some asid) (page / 65536) (page / 65536)
  rewalkPage s2 p asid (page / 65536)

/-- SVC.MIGRATE: the first attempt revokes the slots that cover the page, and accesses through them poison until the
instruction has gone on; it does when the die's migration table has room. It orders as FENCE.ar at .dev (R350). -/
def execSvcMigrate (h : Hd) (d a b : Reg) (s : State) : Host.Outcome State Fault Refusal :=
  let done := (srcS s d).v.toNat
  let page := (srcS s a).v.toNat
  let w := (srcS s b).v
  let asid := bits w 63 52
  let frame := bits w 51 16 * 65536
  let m := migrateLeaf s done page w
  let key := (asid, page / 65536)
  let first := s.me.revoking != some key
  let full := decide (64 ≤ (s.migrations.filter fun x => homeDie x.new == homeDie frame).length)
  svcDo h [a, b, d] [] (match m with | .inl t => some t | .inr _ => none)
    (if first || full then some .migTable else none)
    (fun t => match m with
      | .inr l =>
        let seen := (leafPlace s s.myP asid page).elim [] fun l => loadSources s 0 (s.cells l 8)
        (migrate ((t.see seen).fenceAr .dev) s.myP asid page frame done l).modMe fun g => { g with revoking := none }
      | .inl _ => t) s (if first then some key else none) (leafPlace s s.myP asid page)

/-- SVC.PURGE; it orders as FENCE.ar at .dev (R351). -/
def execSvcPurge (h : Hd) (all : Bool) (a b : Reg) (s : State) : Host.Outcome State Fault Refusal :=
  let va := (srcS s a).v.toNat
  let w := (srcS s b).v
  let len := bits w 39 0
  svcDo h [a, b] [] (accessHere s (decide (2 ^ 56 ≤ va) || bits w 51 40 != 0 || (all && bits w 63 52 != 0))) none
    (fun u => let t := u.fenceAr .dev; if len = 0 then t
      else purge t s.myP (if all then none else some (bits w 63 52)) (va / 65536) ((va + len - 1) / 65536)) s

end Sys2Proof.Machine
end

