-- ==== Sys2Proof/Machine/Firmware.lean ====
section
/-! DEFINITION. The control cores' firmware instructions (R352 to R356), Zalius's replies (R47, R354, R448, R450), the
watchdog (R51, R449), FW_CTL (R48 to R50) and the firmware debugger's commands (R452). -/

namespace Sys2Proof.Machine

/-! ### Instructions (R353 to R356) -/

/-- QCTL.rd, .q and .r (R353). Every step of the model is whole, so no packet or placement is ever half done. -/
def execQctlRd (h : Hd) (d : Reg) (s : State) : Host.Outcome State Fault Refusal :=
  syncDo { h, writes := [d], roles := rolesControl, horizon := true }
    (fun t => putS t d { v := w64 (b2n s.quiesced) }) s
def execQctlQ (h : Hd) (d : Reg) (s : State) : Host.Outcome State Fault Refusal :=
  syncDo { h, writes := [d], roles := rolesControl, horizon := true }
    (fun t => putS { t with quiesced := true } d { v := 1 }) s
def execQctlR (h : Hd) (d : Reg) (s : State) : Host.Outcome State Fault Refusal :=
  syncDo { h, writes := [d], roles := rolesControl, horizon := true }
    (fun t => putS { t with quiesced := false } d { v := 0 }) s

/-- Whether a core has a request outstanding, replied to or not. -/
def mailboxBusy (s : State) (c : Nat) : Bool :=
  s.zal.requests.any (·.1 == c) || s.zal.replies.any (·.1 == c)

/-- An offset that a mailbox message may not lie at. -/
def mailboxBad (s : State) (a : Nat) (write : Bool) : Bool :=
  decide (a % 128 ≠ 0) || !ctlOk s.me.key a 128 write

/-- MBOX.SEND (R354). -/
def sendDo (h : Hd) (a : Reg) (s : State) : Host.Outcome State Fault Refusal :=
  let at_ := (srcS s a).v.toNat
  syncDo { h, reads := [a], roles := rolesControl, horizon := true,
           trap := if mailboxBad s at_ false then some { code := 14, addr := at_ } else none,
           wait := if mailboxBusy s s.me.key then some .mailbox else none }
    (fun t => { t with zal := { t.zal with
      requests := t.zal.requests ++ [(t.me.key, bytesWords 16 (ctlRead s at_ 128))],
      touched := delNat t.me.key t.zal.touched } }) s

def execMboxSendVerify (h : Hd) (a : Reg) (s : State) : Host.Outcome State Fault Refusal := sendDo h a s
def execMboxSendMeas (h : Hd) (a : Reg) (s : State) : Host.Outcome State Fault Refusal := sendDo h a s

/-- MBOX.RECV (R354). -/
def execMboxRecv (h : Hd) (d a : Reg) (s : State) : Host.Outcome State Fault Refusal :=
  let at_ := (srcS s a).v.toNat
  let rep := s.zal.replies.find? (·.1 == s.me.key)
  let busy := mailboxBusy s s.me.key
  syncDo { h, reads := [a], writes := [d], roles := rolesControl, horizon := true,
           trap := if busy && mailboxBad s at_ true then some { code := 14, addr := at_ } else none,
           wait := if busy && rep.isNone then some .mailbox else none }
    (fun t => match rep with
      | some r =>
        let t1 := ctlWrite t at_ (wordsBytes r.2)
        putS { t1 with zal := { t1.zal with replies := t1.zal.replies.filter (·.1 != t.me.key) } } d
          { v := w64 (bits (wordAt r.2 0) 7 0) }
      | none => putS t d { v := 0xFE }) s

/-- WDOG.KICK (R355): the first one after a slot switch makes it final, unless it falls in the window's last tick: that one
and what comes after it do not count, and the rollback follows (R449). -/
def execWdogKick (h : Hd) (a : Reg) (s : State) : Host.Outcome State Fault Refusal :=
  let n := (srcS s a).v.toNat
  syncDo { h, reads := [a], roles := rolesControl, horizon := true,
           trap := if n ≠ 0 ∧ (n < 1000 ∨ 1000000 < n) then some { code := 14, addr := s.pcN } else none }
    (fun t => { t with zal := { t.zal with
      period := if n = 0 then t.zal.period else n,
      windowOpen := t.zal.windowOpen && (t.zal.windowLast || Config.lastWindowTick s.tick),
      windowLast := t.zal.windowOpen && (t.zal.windowLast || Config.lastWindowTick s.tick) } }) s

/-- SLOT.SEL (R356, R449): a refusal writes D; an accepted switch restarts every control core instead of completing. -/
def execSlotSel (h : Hd) (d a : Reg) (s : State) : Host.Outcome State Fault Refusal :=
  let v := (srcS s a).v
  let slot := bit v 0
  let code := if !s.zal.verified slot then 1 else if !s.quiesced then 2 else if slot == s.zal.active then 3 else 0
  let x : Sync := { h, reads := [a], writes := if code = 0 then [] else [d], roles := rolesControl, horizon := true,
                    trap := if bits v 63 1 ≠ 0 then some { code := 14, addr := s.pcN } else none }
  syncDo x (fun t =>
    if code = 0 then restartCores s slot 1 else putS t d { v := w64 code }) s

/-! ### Zalius's replies (R47, R354, R448, R450) -/

/-- A measurement by index (R47). -/
def measurement (s : State) (i : Nat) : Option Nat :=
  let z := s.zal
  match i with
  | 1 => some Config.romMeasurement
  | 2 => some (if z.verA then z.measA else 0)
  | 3 => some (if z.verB then z.measB else 0)
  | 4 => some z.log
  | 5 => some (Config.fusedConfig Config.islandEnables z.fusedSvn Config.fwDebugFuse)
  | i =>
    if 16 ≤ i ∧ i < 32 then
      let b := (s.part (i - 16)).policy.blob
      some (if b.isEmpty then 0 else sha512 b)
    else none

/-- A reply: the words that R354 names, and zeros (R450). -/
def replyWords (w0 w1 w2 : Nat) (value : Nat) : List Word :=
  [w64 w0, w64 w1, w64 w2, 0, 0, 0, 0, 0] ++ bytesWords 8 (leBytes 64 value)

/-- The reply to a request and what it changes. -/
def zaliusAnswer (s : State) (c : Nat) (req : List Word) : List Word × Zalius :=
  let z := s.zal
  let code := bits (wordAt req 0) 7 0
  if code = 1 ∧ (wordAt req 1).toNat < 2 then
    let slot := bit (wordAt req 1) 0
    let bs := z.slot slot
    let r := if slot == z.active then (3, z)
      else if mem? c z.touched then (1, z) else z.verify slot
    (replyWords r.1 (imgSvn bs) z.fusedSvn (if imgHeaderOk bs then sha512 (imgWhole bs) else 0), r.2)
  else if code = 2 then
    match measurement s (wordAt req 1).toNat with
    | some v => (replyWords 0 0 0 v, z)
    | none => (replyWords 5 0 0 0, z)
  else (replyWords 0xFF 0 0 0, z)

/-- ZALIUS_REPLY: due for a core with a request outstanding, while Zalius is powered. -/
def execZaliusReply (core : Fin 4) (s : State) : Host.Outcome State Fault Refusal :=
  match s.zal.requests.find? (·.1 == core.val) with
  | none => .next s
  | some q =>
    let r := zaliusAnswer s core q.2
    if !islandOn s 0 then .next s
    else .next { s with zal := { r.2 with requests := r.2.requests.filter (·.1 != core.val),
                                          replies := r.2.replies ++ [(core.val, r.1)],
                                          touched := delNat core r.2.touched } }

/-! ### The watchdog (R51, R352, R449) -/

/-- Whether the control cores run: the watchdog counts, as no core is stopped for the debugger (R452). -/
def watchdogRuns (s : State) : Bool :=
  islandOn s 0 && s.fwd.mask.isEmpty && s.groups.any fun g => g.isControl && g.status != .stopped

/-- FIRST_KICK_TIMEOUT: due while the window of a slot switch is open. -/
def execFirstKickTimeout (s : State) : Host.Outcome State Fault Refusal :=
  if s.zal.windowOpen && watchdogRuns s then .next (restartCores s s.zal.prev 2) else .next s

/-- WATCHDOG_PERIOD_EXPIRY: due outside the window. -/
def execWatchdogPeriodExpiry (s : State) : Host.Outcome State Fault Refusal :=
  if !s.zal.windowOpen && watchdogRuns s then .next (restartCores s s.zal.active 3) else .next s

/-- Whether the word that the current group stands at traps as it is entered, fetched or decoded. -/
def fetchTraps (s : State) : Bool :=
  match fallIn s with
  | .inl _ => true
  | .inr s1 => match fetchAt s1 s1.me.at_.pc with
    | .inl _ => true
    | .inr w => (decode w).isNone

/-- CONTROL_CORE_TRAP: due for a core whose next word traps; a trap of an instruction comes with the instruction. -/
def execControlCoreTrap (core : Fin 4) (s : State) : Host.Outcome State Fault Refusal :=
  let s1 := s.turn core
  if s1.me.key == core.val && s1.me.isControl && s1.me.status == .run && islandOn s 0 && fetchTraps s1 then
    .next (watchdogTrap s1)
  else .next s

/-! ### FW_CTL (R48 to R50) -/

/-- A command of FW_CTL starts; a write while STATE reads 1 is dropped, and none comes while the host does not reach the PF
(R11, R22). -/
def fwStart (cmd : Nat) (ctl : Word) (s : State) : State :=
  if hostUp s = false ∨ s.zal.fwState = 1 ∨ bits ctl 63 60 ≠ cmd then s
  else { s with zal := { s.zal with fwState := 1, fwCause := 0, fwCmd := some ctl } }

def execFwStage (ctl : Word) (s : State) : Host.Outcome State Fault Refusal := .next (fwStart 1 ctl s)
def execFwVerify (ctl : Word) (s : State) : Host.Outcome State Fault Refusal := .next (fwStart 2 ctl s)
def execFwCommitSvn (ctl : Word) (s : State) : Host.Outcome State Fault Refusal := .next (fwStart 3 ctl s)

/-- Bytes of the staging buffer. -/
def fwBytes (z : Zalius) (n : Nat) : List Byte := (upto 0 n).map (Tab.get 0 z.fwData)

/-- The checks that every command makes first: a reserved bit, OFF and LEN (0 in every command but STAGE), and a VERIFY or a
switch in the way. -/
def fwRefused (z : Zalius) (ctl : Word) : Nat :=
  let cmd := bits ctl 63 60
  let off := bits ctl 50 32
  let len := bits ctl 14 0
  if bits ctl 59 51 ≠ 0 ∨ bits ctl 31 15 ≠ 0 then 7
  else if cmd ≠ 1 ∧ (off ≠ 0 ∨ len ≠ 0) then 1
  else if cmd = 1 ∧ (off % 8 ≠ 0 ∨ off ≥ 0x80000 ∨ len % 8 ≠ 0 ∨ len < 8 ∨ 16384 < len ∨ 0x80000 < off + len) then 1
  else if z.windowOpen ∨ (cmd ≠ 3 ∧ (z.verifying (!z.active)).isEmpty = false) then 5
  else 0

/-- What a command does: its cause, 0 when it is done. -/
def fwRun (z : Zalius) (ctl : Word) : Nat × Zalius :=
  let slot := !z.active
  match fwRefused z ctl with
  | 0 =>
    match bits ctl 63 60 with
    | 1 =>
      (0, (z.setSlot slot (spliceAt (z.slot slot) (bits ctl 50 32) (fwBytes z (bits ctl 14 0)))).setVerified slot false)
    | 2 =>
      let r := z.verify slot
      (match r.1 with | 0 => 0 | 1 => 2 | 2 => 3 | _ => 4, r.2)
    | _ =>
      let svn := imgSvn (z.slot z.active)
      if svn < z.fusedSvn then (6, z)
      else if svn = z.fusedSvn then (0, z)
      else (0, { z with fusedSvn := svn }.extend 4 z.active svn)
  | c => (c, z)

/-- FW_COMMAND_COMPLETE: due while STATE reads 1 and Zalius is powered. -/
def execFwCommandComplete (s : State) : Host.Outcome State Fault Refusal :=
  match s.zal.fwCmd with
  | none => .next s
  | some ctl =>
    let r := fwRun s.zal ctl
    if !islandOn s 0 then .next s
    else .next { s with zal := { r.2 with fwCmd := none, fwState := if r.1 = 0 then 2 else 3, fwCause := r.1 } }

/-! ### The firmware debugger (R452) -/

/-- FWD_CTL 1 and 2; without the fuse they are dropped. -/
def execFwdResume (s : State) : Host.Outcome State Fault Refusal :=
  if Config.fwDebugFuse && hostUp s then .next (resumeCores s) else .next s
def execFwdStop (s : State) : Host.Outcome State Fault Refusal :=
  if Config.fwDebugFuse && hostUp s then .next (stopCores s none) else .next s

/-- FWD_BREAK_HIT: due for a running core about to execute the word of an enabled break. -/
def execFwdBreakHit (core : Fin 4) (s : State) : Host.Outcome State Fault Refusal :=
  let s1 := s.turn core
  if s1.me.key == core.val && s1.me.isControl && s1.me.status == .run && islandOn s 0 then
    match fallIn s1 with
    | .inr s2 => if fwdDue s2 then .next (stopCores s2 (some core.val)) else .next s
    | .inl _ => .next s
  else .next s

end Sys2Proof.Machine
end

