-- ==== Sys2Proof/Machine/Preempt.lean ====
section
/-! DEFINITION. Pre-emption by rollback and by spill, and the restore (R92, R111, R139, R286, R347). What the context
area keeps is the state of the saved gang and its groups. A step that is not due changes nothing (log entry 5). -/

namespace Sys2Proof.Machine

/-! ### When, and which gang -/

/-- The partition's tasks with gangs that wait for a span, of DET launches too. -/
def allWaiting (s : State) (p : Nat) : List Task :=
  (s.launches.filter (·.part == p)).flatMap fun l => l.tasks.filter (Task.waits l)

/-- A task of effective priority 7 waits and no span is free for it. The other case of R92, a TDI stop in progress, comes
within the step of STOP_INTERFACE_REQUEST (`stopPreempt`). -/
def preemptDue (s : State) (p : Nat) : Bool :=
  ((savedGangs s p).map Waiter.gang ++ (allWaiting s p).map Waiter.task).any fun w =>
    decide (7 ≤ w.prio s) && (w.free s []).isNone

/-- The running gangs of a partition as they go: lowest priority first, then the youngest. -/
def leaving (s : State) (p : Nat) : List Gang :=
  sortBy (fun g => (s.task g.task).prio * 2 ^ 64 + (2 ^ 64 - 1 - g.uid))
    (s.gangs.filter fun g => g.task.part == p && g.life == .live)

/-- The running gang of lower priority that goes. -/
def victim (s : State) (p : Nat) : Option Gang := (leaving s p).find? fun g => decide ((s.task g.task).prio < 7)

/-- Whether the gang's matrix queues hold nothing of it any more. -/
def drained (s : State) (g : Gang) : Bool :=
  (spanCores g).all fun c => !(s.core c).queue.any (·.gang == g.uid)

/-- Whether every group of the gang is near enough to its horizon for a rollback. -/
def rollsBack (s : State) (g : Gang) : Bool :=
  (groupsOf s g.uid).all fun x =>
    x.status == .halted || decide (x.hist.ic.toNat - x.hist.hz.toNat ≤ 4096)

/-! ### Saving -/

/-- A group as it is saved: nothing outstanding, and no place in an issue partition. -/
def Group.save (g : Group) : Group :=
  if g.status == .halted then g
  else { g.quiet with
    arrived := g.arrived || g.status == .wait .boundary, status := .saved, growRank := 0, growNeed := 0, mtarget := none,
    regs := match g.status with
      | .swapped _ => { g.regs with quota := g.baseQuota }
      | _ => g.quiet.regs,
    seat := { g.seat with active := false } }

/-- Bytes that the context area takes for a gang (R92, R286). -/
def savedBytes (s : State) (g : Gang) : Nat :=
  (groupsOf s g.uid).foldl (fun n x => n + vectorBytes x.regs.quota + scalarBytes 128) 0
    + (upto 0 (g.spw * g.sph)).foldl (fun n ix => n + g.lmemBytes + 8192 * (g.on ix).granules) 0 + 64 * g.rings.length

/-- The gang leaves its cores and comes back to its queue: banks and queue state of a core that it holds go with it, and its
groups no longer wait for a ring's slot. -/
def saveGang (s0 : State) (uid : Nat) : State :=
  let p := (s0.gang uid).task.part
  let n := (s0.part p).nextOrder
  let s := ((contextWrite s0 p uid (savedBytes s0 (s0.gang uid))).modGang uid fun g =>
    { g with qorder := n, rings := g.rings.map fun r => (r.1, { r.2 with waiting := r.2.waiting.filter fun c => match c with
      | .group _ => false
      | _ => true }) }).modPart p fun q => { q with nextOrder := n + 1 }
  let g := s.gang uid
  let ixs := upto 0 (g.spw * g.sph)
  let s1 := s.modGang uid fun x => ixs.foldl (fun x ix =>
    x.setOn ix { x.on ix with kept := if holdsQueue s g ix then some (s.core (g.coreNum ix)) else none }) x
  let s2 := (freeGang s1 (s1.gang uid)).modGang uid fun x => { x with life := .saved }
  s2.modGroups fun x => if !x.isControl && x.gang == uid then x.save else x

/-- A group of the gang is reversed to its horizon (R139), one that is parked too; one whose reversal fails parks with that
trap, or stays parked under the slot that it has (R111). -/
def rollGroup (s : State) (x : Group) : State :=
  if x.status == .halted || x.marks.killed then s
  else
    let r := reverseParked s x.key x.hist.hz
    match r.2 with
    | some e => if x.status == .parked then r.1 else parkStanding r.1 x.key e
    | none => r.1.modGroup x.key fun g => { g with hist := { g.hist with crumbs := [] } }

/-- A rollback of a gang that is near enough to its horizons, once its matrix queues are drained. -/
def rollOut (s : State) (g : Gang) : State :=
  if rollsBack s g && drained s g then saveGang ((groupsOf s g.uid).foldl rollGroup s) g.uid else s

/-- PREEMPT_ROLLBACK. -/
def preemptRollback (s : State) (p : Nat) : State :=
  if !preemptDue s p then s else (victim s p).elim s (rollOut s)

def execPreemptRollback (part : Fin 16) (s : State) : Host.Outcome State Fault Refusal :=
  .next (preemptRollback s part)

/-- The header of the block that a group at a block's end opens next, when a spill may stop there (R285). -/
def spillHeader (s : State) (g : Group) : Option Word :=
  if !atBlockEnd g then none
  else match fetchAt (s.turn g.key) g.at_.pc with
    | .inr w => if isHeader w && !hdrNopre w then some w else none
    | .inl _ => none

/-- Whether a group has stopped for a spill. -/
def spillReady (s : State) (g : Group) : Bool :=
  match g.status with
  | .halted | .parked => true
  | .run | .wait .boundary => (spillHeader s g).isSome
  | _ => false

/-- What a spill keeps of a group's registers (R286). -/
def Group.spill (g : Group) (hdr : Word) : Group :=
  let g1 := Group.clearFrom g.quiet (min (hdrVlive hdr) g.regs.quota)
  { g1 with regs := { g1.regs with s := g1.regs.s.filter fun x => decide (x.1 ≤ hdrSlive hdr) } }

/-- A spill of any other gang, once its matrix queues are drained and its groups have stopped. -/
def spillOut (s : State) (g : Gang) : State :=
  let gs := groupsOf s g.uid
  if !rollsBack s g && drained s g && gs.all (spillReady s) then
    saveGang (gs.foldl (fun s x =>
      if x.status == .halted || x.status == .parked then s
      else match spillHeader s x with
        | some w => s.modGroup x.key fun y => y.spill w
        | none => s) s) g.uid
  else s

/-- PREEMPT_SPILL. -/
def preemptSpill (s : State) (p : Nat) : State :=
  if !preemptDue s p then s else (victim s p).elim s (spillOut s)

/-- R92, a TDI stop in progress: the partition's running gangs are pre-empted in their order, those that can be at once. The
stop then kills all of them (R43). -/
def stopPreempt (s : State) (p : Nat) : State := (leaving s p).foldl (fun s g => spillOut (rollOut s g) (s.gang g.uid)) s

def execPreemptSpill (part : Fin 16) (s : State) : Host.Outcome State Fault Refusal := .next (preemptSpill s part)

/-! ### The restore -/

/-- The groups of a gang take seats on its new span, in index order. -/
def reseat (tick : Nat) (g : Gang) (held : List Group) : List Group → List Group
  | [] => []
  | x :: t =>
    let c := g.coreNum (g.coreIx x.gid)
    let y := { x with seat := seatFor (held.filter (·.seat.core == c)) c tick }
    y :: reseat tick g (y :: held) t

/-- A restored group: halted and parked groups stay so, one that had ended its quantum waits for the boundary. -/
def Group.restore (parks : List Park) (g : Group) : Group :=
  if g.status == .halted then { g with seat := { g.seat with active := false } }
  else if parks.any (·.who == .group g.key) then
    { g with status := .parked, seat := { g.seat with active := false } }
  else if g.marks.killed then { g with status := .wait .halt, arrived := false }
  else { g with status := if g.arrived then .wait .boundary else .run, arrived := false }

/-- A core takes back what a saved gang kept of its banks and its queue. -/
def takeBack (s : State) (g : Gang) (ix : Nat) : State :=
  let c := g.coreNum ix
  let k := s.core c
  let base := match (g.on ix).kept with
    | some x => { x with queue := [], entered := k.entered, free := k.free, orders := k.orders, picked := k.picked }
    | none => k
  s.setCore c { base with free := base.free - (g.on ix).granules, orders := base.orders + 1 }

/-- A saved gang goes on at a span. -/
def resumeGang (s : State) (uid cx cy : Nat) : State :=
  let g := { s.gang uid with cx, cy, life := .live }
  let p := g.task.part
  let held := s.groups.filter fun x => !x.isControl && (s.gang x.gang).life == .live
  let gs := (reseat s.tick g held (sortBy (·.gid) (groupsOf s uid))).map (Group.restore (s.part p).parks)
  let s1 := (upto 0 (g.spw * g.sph)).foldl (fun s ix => takeBack s g ix) s
  let s2 := s1.modGang uid fun _ => { g with cores := g.cores.map fun c => (c.1, { c.2 with kept := none }) }
  let s3 := gs.foldl (fun s x => s.modGroup x.key fun _ => x) s2
  let due := (s3.part p).parks.filter fun x => x.due.isSome && match x.who with
    | .group k => gs.any (·.key == k)
    | .hold _ => false
  due.foldl (fun s x => match x.who, x.due with
    | .group k, some a => actNow (takePark s p x.slot) p k x a
    | _, _ => s) s3

/-- GANG_RESUME: the saved gang of the partition that the engine places next (R83, R84, R92). -/
def gangResume (s : State) (p : Nat) : State :=
  if s.quiesced then s
  else
    let s1 := dispatchRound s
    match dispatchPick s1 with
    | some (q, .gang g, x, y) =>
      if q = p then chargeFor (resumeGang s1 g.uid x y) p g.qorder (Waiter.cost s1 (.gang g)) else s1
    | _ => s1

def execGangResume (part : Fin 16) (s : State) : Host.Outcome State Fault Refusal := .next (gangResume s part)

end Sys2Proof.Machine
end

