-- ==== Sys2Proof/Machine/Tile.lean ====
section
/-! DEFINITION. The tile-cache instructions (R159 to R165, R404 to R408, R454). -/

namespace Sys2Proof.Machine

/-! ### Descriptors (R159, R454) -/

/-- The strides nest (R454). -/
def tNests (w : List Word) : Bool :=
  let e (k : Nat) : Nat := if k = 1 then roundUp (tDim w 1) (tRows w) else tDim w k
  (!tUsed w 1 || decide (roundUp (tDim w 0 * tEsz w) (tRow w) ≤ tStride w 1))
    && (!tUsed w 2 || decide (tStride w 1 * e 1 ≤ tStride w 2))
    && (!tUsed w 3 || decide (tStride w 2 * e 2 ≤ tStride w 3))

/-- Reserved fields of a descriptor are zero. -/
def tReservedOk (w : List Word) : Bool :=
  bits (wordAt w 0) 63 56 == 0 && bits (wordAt w 1) 43 0 == 0 && bits (wordAt w 4) 63 48 == 0
    && bits (wordAt w 5) 63 48 == 0 && bits (wordAt w 6) 63 48 == 0 && bits (wordAt w 7) 63 40 == 0

/-- A new descriptor is refused (R404). -/
def bindBad (s : State) (p id : Nat) (w : List Word) : Bool :=
  tValid w &&
    (bit (wordAt w 1) 62 || decide (2 ≤ bits (wordAt w 1) 61 60) || decide (tTrb w < 7 ∨ 11 < tTrb w)
      || decide (tBase w % 128 ≠ 0) || (upto 1 3).any (fun k => decide (tStride w k % 128 ≠ 0))
      || !tReservedOk w || !tNests w
      || (boundIds s p).any fun j => j != id &&
          (let o := descWords s p j
           decide (0 < tLen w ∧ 0 < tLen o ∧ tBase w < tBase o + tLen o ∧ tBase o < tBase w + tLen w)))

/-! ### Generations (R161) -/

/-- What the caches hold dirty under a tensor's keys is written back, or dropped: each byte then holds one of the values
that R161 allows. -/
def settleTensor (s : State) (p id : Nat) (discard : Bool) : State :=
  let mine (e : Nat × Back) : Bool := e.2.key.part == p && e.2.key.tensor == id
  let hit := s.mem.back.filter mine
  let mem1 := { s.mem with back := s.mem.back.filter fun e => !mine e }
  let mem2 := if discard then
      hit.foldl (fun m e =>
        let cur := m.byte (.dev e.1)
        let k := Config.discardPick s.moment e.1 % (e.2.olds.length + 1)
        (m.log (By.past {} (s.stamp + 1)) (.dev e.1) 1).setByte (.dev e.1) (((cur :: e.2.olds).drop k).headD cur)) mem1
    else mem1
  { s with mem := mem2, stamp := s.stamp + 1 }

/-- The words of a tensor's descriptor are written: by TC.BIND, and GEN by TC.INV. -/
def writeDesc (s : State) (p id : Nat) (ws : List Word) : State :=
  (homeLine s (.dev (descAt s p id))).write {} (.dev (descAt s p id)) (wordsBytes ws)

/-- GEN advances by 1 modulo 256 and the sweep of the old generation starts (R161): what the group has written reaches the
caches first; accesses from here on miss every line of the old generation. -/
def advanceGen (s : State) (p id : Nat) (discard : Bool) : State :=
  let s1 := settleTensor (pushDie s s.myDie) p id discard
  let w := descWords s1 p id
  let gone (k : TileKey) : Bool := k.part == p && k.tensor == id
  { writeDesc s1 p id (w.take 1 ++ [bins (wordAt w 1) (w64 ((tGen w + 1) % 256)) 48 7] ++ w.drop 2) with
    sweeps := s1.sweeps ++ [{ part := p, tensor := id, discard }],
    tiles := s1.tiles.filter fun t => !gone t.key, l1 := s1.l1.filter fun x => !gone x.key }

/-- A previous sweep of the tensor still runs. -/
def sweeping (s : State) (p id : Nat) : Bool := s.sweeps.any fun x => x.part == p && x.tensor == id

/-- Words from pairs of lanes of a vector register (R404, R408). -/
def laneWords (s : State) (a : Reg) (n : Nat) : List Word :=
  (upto 0 n).map fun w => w64 ((srcL s a (2 * w)).v.toNat + 2 ^ 32 * (srcL s a (2 * w + 1)).v.toNat)

/-- The descriptor that TC.BIND writes: the source with the table's GEN; an unbind keeps GEN alone (R404). -/
def boundWords (w : List Word) (gen : Nat) : List Word :=
  if tValid w then
    (upto 0 8).map fun i => if i = 1 then bins (wordAt w 1) (w64 gen) 48 7 else wordAt w i
  else (upto 0 8).map fun i => if i = 1 then w64 (gen * 2 ^ 48) else 0

/-! ### Instructions -/

/-- TC.BIND (R404). -/
def execTcBind (h : Hd) (a b : Reg) (s : State) : Host.Outcome State Fault Refusal :=
  let id := (srcS s b).v.toNat
  let w := laneWords s a 8
  let p := s.myP
  let old := descWords s p id
  syncDo { h, reads := [b], vecs := [a], roles := rolesVector, horizon := true,
           trap := accessHere s (decide (65536 ≤ id) || id == 0 || isClassId id || bindBad s p id w),
           wait := if tValid old && sweeping s p id then some .sweep else releaseWait s true .dev }
    (fun t =>
      let t1 := if tValid old then (advanceGen t p id false).fenceAr .dev else t
      let gen := tGen (descWords t1 p id)
      writeDesc t1 p id (boundWords w gen)) s

/-- Whether the home slice holds a line of a tile; a line outside the extents is never fetched (R160). -/
def tileHeld (s : State) (id : Nat) (c : Nat × Nat × Nat × Nat) (l : Nat) : Option TileLine :=
  s.tiles.find? fun t => t.key.part == s.myP && t.key.tensor == id && t.key.gen == tGen (descWords s s.myP id)
    && t.key.coord == (coordWord c).toNat && t.key.line == l

/-- What TC.PROBE finds: all 16 lines held. A line in the ways of a retention register stays until another one replaces it;
whether the others are still there is timing (Config.tileResident). -/
def probe (s : State) (id : Nat) (c : Nat × Nat × Nat × Nat) : Bool :=
  let ls := (upto 0 16).map (tileHeld s id c)
  decide (id < 65536) && ls.all (·.isSome)
    && (ls.all (fun l => (l.map (·.reg.isSome)).getD false) || Config.tileResident s.tick)

/-- TC.PROBE (R405): 0 in a DET launch. -/
def execTcProbe (h : Hd) (bit : Fin 32) (d a b : Reg) (s : State) : Host.Outcome State Fault Refusal :=
  syncDo { h, reads := [a, b], bits := [d], roles := rolesVector, crumbs := crumbBit s d bit false }
    (fun t => putBit t s d bit (!s.inDet && probe s (srcS s a).v.toNat (coordOf (srcS s b).v))) s

/-- An id that names no valid descriptor (R406, R407). -/
def idBad (s : State) (id : Nat) : Bool :=
  decide (65536 ≤ id) || id == 0 || !tValid (descWords s s.myP id)

/-- A neighbour of a tile (R162); a coordinate has 16 bits. -/
def neighbour (c : Nat × Nat × Nat × Nat) (i : Nat) : Option (Nat × Nat × Nat × Nat) :=
  let d : Int × Int := match i with
    | 0 => (0, -1) | 1 => (0, 1) | 2 => (-1, 0) | 3 => (1, 0)
    | 4 => (-1, -1) | 5 => (1, -1) | 6 => (-1, 1) | _ => (1, 1)
  let x : Int := c.1 + d.1
  let y : Int := c.2.1 + d.2
  if x < 0 ∨ y < 0 ∨ 65535 < x ∨ 65535 < y then none else some (x.toNat, y.toNat, c.2.2)

/-- A tile outside the tensor's extents. -/
def tileOutside (w : List Word) (c : Nat × Nat × Nat × Nat) : Bool := !tileLineIn w c 0

/-- The tiles that SELF and MASK select, in delivery order (R406). -/
def tilesOf (w : List Word) (c : Nat × Nat × Nat × Nat) (self : Bool) (mask : Nat) : List Word :=
  (if self then [coordWord c] else []) ++
    (upto 0 8).filterMap fun i =>
      if nbit mask i then match neighbour c i with
        | some x => if tileOutside w x then none else some (coordWord x)
        | none => none
      else none

/-- The lines of a tile within the extents, with their VAs (R160). -/
def tileVas (w : List Word) (c : Nat × Nat × Nat × Nat) : List Nat :=
  ((upto 0 16).filter (tileLineIn w c)).map (tileLineVa w c)

/-- A unit other than a group's lanes meets a line that it reads: the translation stays cached (R203), the line is settled at
its home (R182, R195, R208), and the tile cache takes it, of a memory-side page excepted (R157, R176). -/
def engineMeet (s : State) (va : Nat) : State :=
  let t := s.noteLeaf s.myP s.myAsid va
  match look t va .read with
  | .ok (.dev pa) leaf =>
    let u := homeLine t (.dev pa)
    if bit leaf 58 then u else touchTile u u.myAsid va (pa / 128)
  | _ => t

/-- A descriptor is read at its line's home. -/
def meetDesc (s : State) (id : Nat) : State := homeLine s (.dev (descAt s s.myP id))

/-- The tile cache takes the lines of a tile that are mapped to storage. -/
def fetchTile (s : State) (id : Nat) (c : Nat × Nat × Nat × Nat) : State :=
  (tileVas (descWords s s.myP id) c).foldl engineMeet (meetDesc s id)

/-- TC.PF (R406): the selected tiles are fetched into the tile cache. -/
def execTcPf (h : Hd) (self : Bool) (mask : BitVec 8) (d a : Reg) (s : State) : Host.Outcome State Fault Refusal :=
  let id := (srcS s d).v.toNat
  let tiles := tilesOf (descWords s s.myP id) (coordOf (srcS s a).v) self mask.toNat
  syncDo { h, reads := [d, a], roles := rolesVector, trap := accessHere s (idBad s id) }
    (fun t => tiles.foldl (fun t c => fetchTile t id (coordOf c)) t) s

/-- An ill-formed destination of TC.SUB (R406). -/
def subBad (s : State) (b : Word) : Bool :=
  bits b 62 56 != 0 || bits b 46 27 != 0 ||
    (if bit b 63 then
      bits b 23 0 != 0 || !s.myGang.ringBit (bits b 26 24) || decide ((s.myGang.ring (bits b 26 24)).slotBytes < 2048)
    else decide (4 ≤ bits b 26 24))

/-- TC.SUB (R406, R163): one subscription for each selected tile, on the issuing core. -/
def execTcSub (h : Hd) (d a b : Reg) (s : State) : Host.Outcome State Fault Refusal :=
  let id := (srcS s d).v.toNat
  let dst := (srcS s b).v
  let tiles := tilesOf (descWords s s.myP id) (coordOf (srcS s a).v) (bit dst 47) (bits dst 55 48)
  let ix := s.myGang.coreIx s.me.gid
  syncDo { h, reads := [d, a, b], roles := rolesVector, trap := accessHere s (idBad s id || subBad s dst) }
    (fun t => modMyGang t fun g =>
      { g with subs := g.subs ++ (tiles.zip (upto 0 tiles.length)).map fun x =>
          ({ core := ix, tensor := id, coord := x.1,
             ring := if bit dst 63 then some (bits dst 26 24) else none,
             chan := bits dst 26 24, addr := (bits dst 23 0 + 2048 * x.2) % 2 ^ 24 } : Subscription) }) s

/-- TC.INV (R161, R407). -/
def execTcInv (h : Hd) (discard : Bool) (a : Reg) (s : State) : Host.Outcome State Fault Refusal :=
  let id := (srcS s a).v.toNat
  syncDo { h, reads := [a], roles := rolesVector, horizon := true,
           trap := accessHere s (idBad s id || isClassId id),
           wait := if sweeping s s.myP id then some .sweep else releaseWait s true .dev }
    (fun t =>
      let u := advanceGen t s.myP id discard
      if discard then u.release .dev else u.fenceAr .dev) s

/-- A KEEP register's words are refused (R164, R165). -/
def keepBad (p : Part) (i : Nat) (w : List Word) : Bool :=
  let ways (x : Word) : Nat := bits x 61 58
  let w0 := wordAt w 0
  let others := ((upto 0 8).filter (· != i)).foldl (fun n j =>
    let x := Tab.get 0 p.keep (4 * j)
    if bit x 63 then n + ways x else n) 0
  decide (12 < ways w0) || decide (256 < bits w0 57 49) || bits w0 48 16 != 0
    || bits (wordAt w 1) 63 56 != 0 || bits (wordAt w 2) 63 56 != 0 || wordAt w 3 != 0
    || (bit w0 62 && bits (wordAt w 1) 15 0 != 0)
    || (bit w0 63 && decide (p.kways < others + ways w0))

/-- TC.KEEP (R408). Lines that the register retained under its old words lie in unreserved ways from then on (log
entry 76). -/
def execTcKeep (h : Hd) (i : Fin 8) (a : Reg) (s : State) : Host.Outcome State Fault Refusal :=
  let w := laneWords s a 4
  syncDo { h, vecs := [a], roles := rolesVector, trap := accessHere s (keepBad s.myPart i w) }
    (fun t =>
      let t1 := { t with tiles := t.tiles.map fun (x : TileLine) =>
        if x.key.part = s.myP ∧ x.reg = some i.val then { x with reg := none } else x }
      t1.modPart s.myP fun p =>
        { p with keep := (upto 0 4).foldl (fun k j => Tab.set 0 k (4 * i.val + j) (wordAt w j)) p.keep }) s

end Sys2Proof.Machine
end

