-- ==== Sys2Proof/Machine/Copy.lean ====
section
/-! DEFINITION. The loaders and storers: copy releases with their conversions, failures and completion records
(R76 to R80, R146 to R148, R178 to R180, R189, R190, R238, R240, R440), the deliveries of TC.SUB (R163, R406), and the
end of a TC.INV sweep (R161). A release takes many steps; one that is not due changes nothing. -/

namespace Sys2Proof.Machine

/-! ### Copy entries (R76) -/

/-- The words of entry `k` of a gang's copy schedule. -/
def copyWords (s : State) (g : Gang) (k : Nat) : List Word :=
  let img := (s.launch g.task.part g.task.launch).img
  (upto 0 4).map fun i => imgW img (g.csOff + 32 * k + 8 * i)

def ceTensor (w : List Word) : Nat := bits (wordAt w 0) 63 48
def ceStage (w : List Word) : Nat := bits (wordAt w 0) 47 40
def ceOp (w : List Word) : Nat := bits (wordAt w 0) 39 38
def ceRc (w : List Word) : Nat := bits (wordAt w 0) 37 35
def ceTiles (w : List Word) : Nat := bits (wordAt w 0) 34 27
def ceSrc (w : List Word) : Nat := bits (wordAt w 0) 26 24
def ceDst (w : List Word) : Nat := bits (wordAt w 0) 23 21
def ceRnd (w : List Word) : RM :=
  match bits (wordAt w 0) 20 19 with
  | 0 => .rne
  | 1 => .rtz
  | 2 => .rup
  | _ => .rdn
def ceSatc (w : List Word) : Bool := bit (wordAt w 0) 18
def ceBar (w : List Word) : Nat := bits (wordAt w 0) 17 14
def ceBarv (w : List Word) : Bool := bit (wordAt w 0) 13
def ceRel (w : List Word) : Nat := bits (wordAt w 3) 63 56
def ceDest (w : List Word) : Nat := bits (wordAt w 3) 55 32
def ceLen (w : List Word) : Nat := bits (wordAt w 3) 31 0
def ceLoad (w : List Word) : Bool := ceOp w % 2 == 0
def ceRing (w : List Word) : Bool := decide (ceOp w < 2)

/-- Type and bytes of an element format code (R76, R80). -/
def ceTy : Nat → Ty
  | 1 => .bf16
  | 2 => .e4m3
  | 3 => .e5m2
  | _ => .mk8
def ceBytes (code : Nat) : Nat := if code = 1 then 2 else 1

/-- Coordinate `i` of tile `t` of release `j`, as an integer (R78). -/
def ceCoord (w : List Word) (j t i : Nat) : Int :=
  (bits (wordAt w 1) (16 * i + 15) (16 * i) : Int) + j * sext 16 (bits (wordAt w 2) (16 * i + 15) (16 * i))
    + (if i = 0 then (t : Int) else 0)
def ceTile (w : List Word) (j t : Nat) : Nat × Nat × Nat × Nat :=
  ((ceCoord w j t 0).toNat, (ceCoord w j t 1).toNat, (ceCoord w j t 2).toNat, (ceCoord w j t 3).toNat)

/-- A release that is ill-formed at run time (R78, R80). -/
def ceIll (s : State) (w : List Word) (j : Nat) : Bool :=
  let d := descWords s s.myP (ceTensor w)
  let fmt := if ceLoad w then ceSrc w else ceDst w
  !tValid d || bit (wordAt d 1) 62 || isClassId (ceTensor w) || (fmt != 0 && tEsz d != ceBytes fmt)
    || (upto 0 (ceTiles w)).any fun t => (upto 0 4).any fun i =>
        decide (ceCoord w j t i < 0 ∨ 65535 < ceCoord w j t i)

/-- The lines of a tile in order: its VA, or none for a line outside the extents (R160). -/
def tileLines (d : List Word) (c : Nat × Nat × Nat × Nat) : List (Option Nat) :=
  (upto 0 16).map fun l => if tileLineIn d c l then some (tileLineVa d c l) else none

/-- The memory lines of a release in order. -/
def ceLines (s : State) (w : List Word) (j : Nat) : List (Option Nat) :=
  (upto 0 (ceTiles w)).flatMap fun t => tileLines (descWords s s.myP (ceTensor w)) (ceTile w j t)

/-! ### Conversion (R77, R238, R240) -/

/-- Convert `n` elements: the bytes and how many saturated. -/
def convElems (rm : RM) (st dt : Ty) (ss ds : Nat) : (n : Nat) → List Byte → List Byte × Nat
  | 0, _ => ([], 0)
  | n + 1, bs =>
    let c := convertNum rm st dt (tyRead st (ofLe (bs.take ss)))
    let r := convElems rm st dt ss ds n (bs.drop ss)
    (leBytes ds c.1 ++ r.1, b2n c.2 + r.2)

/-- The bytes of the other side for some bytes of the source side. -/
def ceConv (w : List Word) (bs : List Byte) : List Byte × Nat :=
  if ceSrc w = 0 then (bs, 0)
  else convElems (ceRnd w) (ceTy (ceSrc w)) (ceTy (ceDst w)) (ceBytes (ceSrc w)) (ceBytes (ceDst w))
    (bs.length / ceBytes (ceSrc w)) bs

/-! ### Memory lines for an engine -/

/-- A line that an engine has met: its bytes as its key has them, or the status of the failure (R150, R187, R189). -/
def engineLine (s : State) (va : Nat) : Nat ⊕ List Byte :=
  let lk := look s va .read
  match lk with
  | .bad _ => .inl 3
  | .ok l _ =>
    if lk.loadTrap s 128 then .inl 3
    else
      let t := homeLine s l
      if t.taintedAt l then .inl 1
      else .inr (match l with
        | .dev pa => t.keyBytes va pa 128
        | _ => t.mem.bytes l 128)

/-- Whether an engine may write `n` bytes at a VA. -/
def engineMay (s : State) (va n : Nat) : Bool := ((look s va .write).storeDenied s n).isNone

/-- An engine takes every token of a line that it writes, from the other dies and the cores' L1s; one that it writes whole is not
copied first (R179, R197, R208). -/
def engineTake (s : State) (va n : Nat) (l : Loc) (leaf : Word) : State :=
  match l with
  | .dev pa =>
    let t := if n = 128 then mergeLine (claimLine s l) (pa / 128) else homeLine s l
    if bit leaf 58 then t
    else
      let k := keyOf t t.myP va
      let u := freezeOthers (touchTile t t.myAsid va (pa / 128)) k (pa / 128)
      { u with mem := u.mem.noteBack k pa n, l1 := takeL1 u none k true }
  | _ => s

/-- A write of an engine may be data traffic of the group (R258), for whose acknowledgement a release of entry `e` waits, and it
is the gang's store (R90, R265, R274). -/
def engineSent (s0 : State) (e : Option Nat) (va n : Nat) (l : Loc) : State :=
  let ds := if dataTraffic s0 va l then [l] else []
  let s := roomForAcks s0 ds.length
  let t := countLines s ds
  let mine := (t.unacked.drop s.unacked.length).map fun u => { u with entry := e }
  let u : State := { t with unacked := s.unacked ++ mine }
  noteProofing ((u.touchLoc l).storeLoc l) va n

/-- Entry `k` of the current group's gang as a writer. -/
def State.byEntry (s : State) (k : Nat) : By := { w := .entry s.me.gang k }

/-- The engine of entry `k` writes at a VA that it may write: the line is dirty in the tile cache under its key. `e` names the
entry whose release waits for the acknowledgement. -/
def enginePoke (s0 : State) (k : Nat) (e : Option Nat) (va : Nat) (bs : List Byte) : State :=
  let s := s0.noteLeaf s0.myP s0.myAsid va
  match look s va .write with
  | .bad _ => s
  | .ok l leaf =>
    let t := engineTake s va bs.length l leaf
    engineSent (patchKey (t.poke l bs (t.byEntry k)) l va bs) e va bs.length l

/-- The engine of entry `k` writes a line poisoned. -/
def engineTaint (s0 : State) (k va : Nat) : State :=
  let s := s0.noteLeaf s0.myP s0.myAsid va
  match look s va .write with
  | .ok (.dev pa) leaf =>
    let t := engineTake s (va / 128 * 128) 128 (.dev (pa / 128 * 128)) leaf
    engineSent { t with mem := t.mem.taint pa } (some k) (va / 128 * 128) 128 (.dev pa)
  | _ => s

/-- Poison some bytes' lines of local memory, and clear the poison of lines that have been written whole. -/
def localTaint (s : State) (addr n : Nat) : State :=
  s.modGang s.me.gang fun g =>
    let c := g.on (localCore addr)
    let o := localOff addr
    g.setOn (localCore addr)
      { c with lpoison := (upto (o / 128) ((n + 127) / 128)).foldl (fun l x => addNat x l) c.lpoison }
def localWhole (s : State) (addr n : Nat) : State :=
  s.modGang s.me.gang fun g =>
    let c := g.on (localCore addr)
    let o := localOff addr
    g.setOn (localCore addr)
      { c with lpoison := c.lpoison.filter fun line => !decide (o ≤ 128 * line ∧ 128 * line + 128 ≤ o + n) }

/-- A tile's line as an engine reads it: zeros outside the extents (R160). -/
def lineFor (s : State) (v : Option Nat) : Nat ⊕ List Byte :=
  match v with
  | none => .inr (leBytes 128 0)
  | some va => engineLine s va

/-- A channel advances by the bytes delivered, and stops at a failure (R147, R148, R189). -/
def advanceWp (s : State) (core chan n : Nat) (bad : Bool) : State :=
  modMyGang s fun g =>
    let c := g.on core
    g.setOn core { c with wp := Tab.set 0 c.wp chan ((Tab.get 0 c.wp chan + n) % 2 ^ 64),
                          dead := if bad then addNat chan c.dead else c.dead }

/-- Do `f` with the turn given to a group of the gang. -/
def asGang (s : State) (uid : Nat) (f : State → State) : State :=
  match groupsOf s uid with
  | [] => s
  | x :: _ => asGroup s x.key f

/-! ### Subscriptions (R163, R406) -/

/-- A tile's bytes and its poisoned lines, for a subscriber. -/
def tileBytes (s : State) (x : Subscription) : List Byte × List Nat :=
  let ls := (tileLines (descWords s s.myP x.tensor) (coordOf x.coord)).map (lineFor s)
  (ls.flatMap fun l => match l with | .inr bs => bs | .inl _ => leBytes 128 0,
   ((ls.zip (upto 0 16)).filterMap fun y => match y.1 with | .inl _ => some y.2 | .inr _ => none))

/-- The tile reaches a local address; the tile cache holds it from then on. R163 and R406 leave open what an ADDR outside
the reservation, or with bits [21:20] set, does, and what a source line that is poisoned, unmapped or denied does: nothing
is written there, with no trap; and that line's destination line is written poisoned while the others are delivered (the
model's choices, log entry 79). -/
def deliverTile (s : State) (w : By) (x : Subscription) (addr : Nat) : State :=
  let s0 := fetchTile s x.tensor (coordOf x.coord)
  if localDenied s0 addr 2048 then s0
  else
    let t := tileBytes s0 x
    t.2.foldl (fun s l => localTaint s (addr + 128 * l) 128) (localStoreAll s0 w [(addr, t.1)])

/-- The channel of a core of the current group's gang as a writer: its bytes are numbered as its write pointer counts them
(R147, R148). -/
def State.byChannel (s : State) (core chan : Nat) : By :=
  { w := .channel s.me.gang core chan, num := some (Tab.get 0 (s.myGang.on core).wp chan + 1) }

/-- The loaders of the current group's gang as a writer, and what the arrival of their bytes publishes. -/
def State.byLoader (s : State) : By := { w := .loader s.me.gang }
def By.published (x : By) (s : State) : View := { known := [(x.w, s.stamp)] }

/-- Whether two subscriptions deliver into one ring, or one channel of one core. -/
def Subscription.sameWay (x y : Subscription) : Bool :=
  match x.ring, y.ring with
  | some a, some b => a == b
  | none, none => x.core == y.core && x.chan == y.chan
  | _, _ => false

/-- Deliver a subscription of the current group's gang; none while its ring has no free slot for it or its channel has
stopped. The bytes go to the core that ADDR names and wp advances on the issuing core, also where ADDR names another one,
and also where nothing is written (the model's choice, log entry 79). -/
def deliverNow (s : State) (x : Subscription) : Option State :=
  let g := s.myGang
  match x.ring with
  | some r =>
    let q := g.ring r
    let c := Claimer.sub x.tensor x.coord
    if q.isFree q.tail && q.turnOf c then
      let s1 := deliverTile (modMyGang s fun g => g.setRing r ((q.claim).served c)) s.byLoader x (q.slotAddr q.tail)
      some (modMyGang s1 fun g => g.setRing r ((g.ring r).put q.tail (s.byLoader.published s1)))
    else none
  | none =>
    if mem? x.chan (g.on x.core).dead then none
    else some (advanceWp (deliverTile s (s.byChannel x.core x.chan) x x.addr) x.core x.chan 2048 false)

/-- A subscription that has to wait for a slot of its ring takes its place among those who do. -/
def joinRing (s : State) (x : Subscription) : State :=
  match x.ring with
  | some r => if s.inDet then s else modMyGang s fun g => g.setRing r ((g.ring r).join (.sub x.tensor x.coord))
  | none => s

/-- The subscription at an index of a gang is delivered, when none before it goes the same way; it then ends. -/
def subStep (s : State) (uid i : Nat) : State :=
  let g := s.gang uid
  match g.subs.drop i with
  | [] => s
  | x :: _ =>
    if (g.subs.take i).any (·.sameWay x) then s
    else asGang s uid fun t => match deliverNow t x with
      | some u => modMyGang u fun g => { g with subs := g.subs.take i ++ g.subs.drop (i + 1) }
      | none => joinRing t x

/-- The subscriptions of a gang from index `i` on that name a tile are served, up to `n` of them; with how many more may be. -/
def serveGang (uid tensor : Nat) (coord : Word) : List Subscription → (i n : Nat) → State → State × Nat
  | [], _, n, s => (s, n)
  | x :: t, i, n, s =>
    if n = 0 ∨ x.tensor ≠ tensor ∨ x.coord ≠ coord then serveGang uid tensor coord t (i + 1) n s
    else
      let u := subStep s uid i
      serveGang uid tensor coord t (if (u.gang uid).subs.length < (s.gang uid).subs.length then i else i + 1) (n - 1) u

/-- One delivery of a tile serves its subscribers, up to `n` of them, of every gang of the partition (R163, R178). -/
def serveTile (p tensor : Nat) (coord : Word) (n : Nat) (s : State) : State :=
  (s.gangs.foldl (fun (r : State × Nat) g =>
    if g.task.part = p ∧ g.life = .live ∧ (s.launch g.task.part g.task.launch).det = false then
      serveGang g.uid tensor coord (r.1.gang g.uid).subs 0 r.2 r.1
    else r) (s, n)).1

/-- SUBSCRIPTION_DELIVERY: the tile goes to this subscription, and with it to the tile's other subscribers, 8 in all. -/
def execSubscriptionDelivery (gang index : Nat) (s : State) : Host.Outcome State Fault Refusal :=
  let g := s.gang gang
  .next (if g.life != .live || (s.launch g.task.part g.task.launch).det then s
    else match g.subs.drop index with
      | [] => s
      | x :: _ => serveTile g.task.part x.tensor x.coord 7 (subStep s gang index))

/-! ### The units of a release

A load release delivers unit by unit: the lines of one unit are read and converted together, at least 128 bytes of the
destination, which then arrive in ascending order and as finely as wp shows (R148). A store release writes one line of
memory after the other (R179). A failure stops at the unit's first byte, which is R189's F. -/

/-- Bytes of the destination that one line of the source gives. -/
def lineGives (w : List Word) : Nat := if ceSrc w = 0 then 128 else 128 / ceBytes (ceSrc w) * ceBytes (ceDst w)

/-- Lines of the source in one unit, and the unit's bytes. -/
def unitLines (w : List Word) : Nat := max 1 (128 / lineGives w)
def unitBytes (w : List Word) : Nat := unitLines w * lineGives w

/-- The bytes that some source lines give, until one fails: bytes, saturations and the status. -/
def pullLines (s : State) (w : List Word) : List (Option Nat) → List Byte × Nat × Nat
  | [] => ([], 0, 0)
  | v :: t =>
    match lineFor s v with
    | .inl st => ([], 0, st)
    | .inr bs =>
      let c := ceConv w bs
      let r := pullLines s w t
      if r.2.2 = 0 then (c.1 ++ r.1, c.2 + r.2.1, 0) else r

/-- The next unit of a load is read, into the tile cache and into the release. -/
def loadUnit (s : State) (w : List Word) (j : Nat) (r : CopyRun) : State × CopyRun :=
  let ls := ((ceLines s w j).drop (r.done / unitBytes w * unitLines w)).take (unitLines w)
  let s1 := (ls.filterMap id).foldl engineMeet s
  let x := pullLines s1 w ls
  (s1, if x.2.2 = 0 then { r with rest := x.1, sat := r.sat + x.2.1 } else { r with status := x.2.2 })

/-- Up to `cut` bytes of the unit in hand are delivered at their local address. -/
def deliverUnit (s : State) (x : By) (w : List Word) (addr cut : Nat) (r : CopyRun) : State × CopyRun :=
  let bs := (r.rest.take cut).take (ceLen w - r.done)
  let s1 := localStoreAll s x [(addr + r.done, bs)]
  let whole := r.done / 128 * 128
  let n := r.done + bs.length
  (localWhole s1 (addr + whole) (n / 128 * 128 - whole), { r with done := n, rest := r.rest.drop bs.length })

/-- A failed load: the line at F is written poisoned, and in a ring's slot those behind it (R189, R190). -/
def failLoad (s : State) (addr : Nat) (room : Option Nat) (r : CopyRun) : State :=
  localTaint s (addr + r.done) (match room with | some m => m - r.done | none => 128)

/-- The local bytes behind the next line of memory that a store writes; none when a line of them is poisoned. -/
def storeBytes (s : State) (w : List Word) (addr : Nat) (r : CopyRun) : Option (List Byte × Nat) :=
  let c := s.myGang.on (localCore addr)
  let need := if ceSrc w = 0 then 128 else 128 / ceBytes (ceDst w) * ceBytes (ceSrc w)
  let o := localOff addr + r.done / 128 * need
  if c.poisoned (o / 128 * 128) (o % 128 + need) then none else some (ceConv w (c.bytes o need))

/-- Whether an engine's write of a line has to wait, while 255 writes of the group are unacknowledged (R258). In a deterministic
launch a release is whole within a boundary (R274), and the oldest write is acknowledged first. -/
def storeWaits (s : State) (va : Nat) : Bool :=
  !s.inDet && decide (255 ≤ s.me.acks) && match look s va .write with
    | .ok l _ => dataTraffic s va l
    | .bad _ => false

/-- The next line of a store; none while its write has to wait. -/
def storeLine (s : State) (w : List Word) (j k addr : Nat) (r : CopyRun) : Option (State × CopyRun) :=
  let v := ((ceLines s w j).drop (r.done / 128)).headD none
  match storeBytes s w addr r, v with
  | none, some va => if storeWaits s va then none
    else some (if engineMay s va 128 then engineTaint s k va else s, { r with status := 1 })
  | none, none => some (s, { r with status := 1 })
  | some x, none => some (s, { r with done := r.done + 128, sat := r.sat + x.2 })
  | some x, some va =>
    if !engineMay s va 128 then some (s, { r with status := 3 })
    else if storeWaits s va then none
    else some (enginePoke s k (some k) va x.1, { r with done := r.done + 128, sat := r.sat + x.2 })

/-! ### The end of a release (R79, R80, R180, R189) -/

/-- What a release did: its status, its saturation count and word 1's number. -/
structure Ended where
  status : Nat
  sat : Nat
  done : Nat

/-- The completion record, when it may be written (R79). -/
def writeRecord (s : State) (w : List Word) (k j : Nat) (r : Ended) : State × Bool :=
  let va := s.myGang.crva + 16 * k
  if engineMay s va 16 then
    (enginePoke s k none va (leBytes 8 ((if ceSatc w then min r.sat 0xFFFFFFFF else 0) * 2 ^ 32 + j * 2 ^ 16 + r.status * 2 ^ 8)
      ++ leBytes 8 (r.done % 2 ^ 32)), true)
  else (s, false)

/-- What the arrival of a release publishes: its writes, of a channel the bytes that it has delivered (R180, R253). -/
def runView (s : State) (w : List Word) (k : Nat) : View :=
  let v := (s.byEntry k).published s
  if ceOp w = 2 then
    let core := localCore (ceDest w)
    v.learn (.channel s.me.gang core (ceRc w)) (Tab.get 0 (s.myGang.on core).wp (ceRc w))
  else v

/-- The end of a release: its record, its arrival, and what a failure stops. -/
def endRelease (s : State) (w : List Word) (k j : Nat) (r : Ended) : State :=
  let x := writeRecord s w k j r
  modMyGang x.1 fun g =>
    let g1 := if ceBarv w then
        g.setBar (ceBar w) ((g.bar (ceBar w)).arrive (r.status != 0 || !x.2) (runView x.1 w k)) else g
    let c := Tab.get {} g1.copies k
    { g1 with copies := Tab.set {} g1.copies k
                { c with next := j + 1, failed := c.failed || r.status == 1 || r.status == 3, run := none },
              copyHalted := g1.copyHalted || r.status == 2 || !x.2 }

/-! ### One step of a release -/

/-- Where a release's local bytes lie. -/
def runAddr (s : State) (w : List Word) (j : Nat) (r : CopyRun) : Nat :=
  if ceRing w then (s.myGang.ring (ceRc w)).slotAddr r.slot else ceDest w + j * ceLen w

/-- A release starts: it claims its ring's slot, or takes one; none while it must wait for it. -/
def startRun (s : State) (w : List Word) (k : Nat) : Option (State × CopyRun) :=
  if !ceRing w then some (s, {})
  else
    let q := s.myGang.ring (ceRc w)
    if ceLoad w then
      if q.isFree q.tail && q.turnOf (.entry k) then
        some (modMyGang s fun g => g.setRing (ceRc w) ((q.claim).served (.entry k)), { slot := q.tail })
      else none
    else if q.canTake then some (modMyGang s fun g => g.setRing (ceRc w) q.take, { slot := q.head })
    else none

/-- The tiles of a load whose last byte lies between two offsets of its destination. -/
def tilesDone (w : List Word) (before after : Nat) : List Nat :=
  let n := 16 * lineGives w
  (upto 0 (ceTiles w)).filter fun t => decide (before < n * (t + 1) ∧ n * (t + 1) ≤ after)

/-- A load goes on by up to `cut` bytes; a tile that has been delivered whole goes to its subscribers too (R178). -/
def stepLoad (s : State) (w : List Word) (k j cut : Nat) (r : CopyRun) : State :=
  let addr := runAddr s w j r
  let x := if r.rest.isEmpty && decide (r.done < ceLen w) then loadUnit s w j r else (s, r)
  let b := if ceRing w then s.byEntry k else s.byChannel (localCore addr) (ceRc w)
  let y := if x.2.status = 0 then deliverUnit x.1 b w addr cut x.2 else x
  let room := if ceRing w then some (s.myGang.ring (ceRc w)).slotBytes else none
  let s1 := if y.2.status = 0 then y.1 else failLoad y.1 addr room y.2
  let s2 := if ceRing w then s1
    else advanceWp s1 (localCore addr) (ceRc w) (y.2.done - r.done) (y.2.status != 0)
  let s3 := (tilesDone w r.done y.2.done).foldl (fun s t =>
    serveTile s.myP (ceTensor w) (coordWord (ceTile w j t)) 8 s) s2
  if y.2.status ≠ 0 ∨ ceLen w ≤ y.2.done then
    let s4 := if ceRing w then modMyGang s3 fun g => g.setRing (ceRc w) ((g.ring (ceRc w)).put r.slot (b.published s3)) else s3
    endRelease s4 w k j { status := y.2.status, sat := y.2.sat, done := y.2.done }
  else modMyGang s3 fun g =>
    { g with copies := Tab.set {} g.copies k { Tab.get {} g.copies k with run := some y.2 } }

/-- A store goes on by one line; its ring slot is drained once its bytes are read (R146, R179), and it ends once its writes are
acknowledged (R180). -/
def stepStore (s : State) (w : List Word) (k j : Nat) (r : CopyRun) : Option State :=
  let addr := runAddr s w j r
  let keep (s : State) (r : CopyRun) : State := modMyGang s fun g =>
    let c := { g with copies := Tab.set {} g.copies k { Tab.get {} g.copies k with run := some r } }
    if ceRing w && (r.status != 0 || decide (2048 * ceTiles w ≤ r.done)) then
      c.setRing (ceRc w) ((c.ring (ceRc w)).done r.slot {})
    else c
  if r.status = 0 ∧ r.done < 2048 * ceTiles w then (storeLine s w j k addr r).map fun x => keep x.1 x.2
  else if s.unacked.any (fun u => u.key == s.me.key && u.entry == some k) && !s.inDet then none
  else some (endRelease s w k j { status := r.status, sat := r.sat, done := r.done })

/-- Release `j` of entry `k` of the current group's gang goes on by one step, a load by up to `cut` bytes; none while it
waits for its ring or for acknowledgements. -/
def releaseStep (s : State) (k j cut : Nat) : Option State :=
  let g := s.myGang
  let w := copyWords s g k
  let c : CopyState := Tab.get {} g.copies k
  match c.run with
  | some r => if ceLoad w then some (stepLoad s w k j cut r) else stepStore s w k j r
  | none =>
    if c.failed then some (endRelease s w k j { status := 1, sat := 0, done := 0 })
    else if ceIll s w j then some (endRelease s w k j { status := 2, sat := 0, done := 0 })
    else (startRun (meetDesc s (ceTensor w)) w k).bind fun x =>
      if ceLoad w then some (stepLoad x.1 w k j cut x.2) else stepStore x.1 w k j x.2

/-- A whole release, as a boundary of a deterministic launch performs it (R274); none while it must wait. -/
def releaseNow (k j : Nat) : (fuel : Nat) → State → Option State
  | 0, s => some s
  | n + 1, s =>
    match releaseStep s k j 2048 with
    | none => none
    | some t => if (Tab.get ({} : CopyState) t.myGang.copies k).run.isSome then releaseNow k j n t else some t

/-! ### Which release is next (R78, R178) -/

/-- What keeps releases in order: a ring's claims, a ring's drains, or a channel of a core. -/
def ceWay (w : List Word) : Nat :=
  if ceRing w then 8 * ceOp w + ceRc w else 16 + 4 * localCore (ceDest w) + ceRc w

/-- The due releases of a gang that are not done: (STAGE + j, k, j), in the order in which they issue. -/
def allDue (s : State) (g : Gang) : List (Nat × Nat × Nat) :=
  let ds := (upto 0 g.csCount).flatMap fun k =>
    let w := copyWords s g k
    let j0 := (Tab.get {} g.copies k).next
    (upto j0 (ceRel w - j0)).filterMap fun j => if ceStage w + j ≤ g.stage then some (ceStage w + j, k, j) else none
  sortBy (fun x => x.1 * 4096 + x.2.1) ds

/-- The next due release of each entry. -/
def dueReleases (s : State) (g : Gang) : List (Nat × Nat × Nat) :=
  (allDue s g).filter fun x => x.2.2 == (Tab.get {} g.copies x.2.1).next

/-- Whether a channel has stopped; its entries that have not failed deliver nothing further (R189). -/
def wayDead (g : Gang) (w : List Word) : Bool := !ceRing w && mem? (ceRc w) (g.on (localCore (ceDest w))).dead

/-- The releases that head their ring or channel. -/
def headReleases (s : State) (g : Gang) : List (Nat × Nat × Nat) :=
  let ds := (dueReleases s g).filter fun x =>
    !wayDead g (copyWords s g x.2.1) || (Tab.get {} g.copies x.2.1).failed
  ds.filter fun x => ds.all fun y =>
    ceWay (copyWords s g y.2.1) != ceWay (copyWords s g x.2.1) || decide (x.1 * 4096 + x.2.1 ≤ y.1 * 4096 + y.2.1)

/-- Whether a gang has a release in progress on a kind of engine, and one that could start there. -/
def usesEngine (s : State) (g : Gang) (load : Bool) : Nat :=
  (g.copies.filter fun c => c.2.run.isSome && ceLoad (copyWords s g c.1) == load).length
def wantsEngine (s : State) (g : Gang) (load : Bool) : Bool :=
  g.life == .live && !g.copyHalted && !(s.launch g.task.part g.task.launch).det &&
    (headReleases s g).any fun x => ceLoad (copyWords s g x.2.1) == load && (Tab.get {} g.copies x.2.1).run.isNone

/-- The die whose base dies serve a gang. -/
def gangDie (g : Gang) : Nat := dieOf (16 * g.cy + g.cx)

/-- R178: a release may start while the die has a loader or a storer free, 8 of each on its three base dies, and when its
gang is next in the round of the gangs that have one to start: the first with a uid above the one served last, else the
first of all. -/
def engineTurn (s : State) (g : Gang) (load : Bool) : Bool :=
  let mine := s.gangs.filter fun a => gangDie a == gangDie g
  let busy := mine.foldl (fun n a => n + usesEngine s a load) 0
  let last := Tab.get 0 s.served (gangDie g + (if load then 0 else 4))
  let ask := (mine.filter (wantsEngine s · load)).map (·.uid)
  decide (busy < 24) && ((ask.find? fun u => decide (last < u)).orElse fun _ => ask.head?) == some g.uid

/-- How many bytes of the unit in hand arrive next: at least one (free; R148). -/
def copyCut (s : State) (w : List Word) : Nat := 1 + Config.copyCut s.tick % unitBytes w

/-- A release of a gang is started or goes on; one that must wait for a slot takes its place among those who do. -/
def copyStep (s : State) (uid k : Nat) : State :=
  match s.gang? uid with
  | none => s
  | some g =>
    let w := copyWords s g k
    if g.life != .live || g.copyHalted || (s.launch g.task.part g.task.launch).det then s
    else match (headReleases s g).find? (·.2.1 == k) with
      | none => s
      | some x =>
        if (Tab.get {} g.copies k).run.isSome then asGang s uid fun t => (releaseStep t k x.2.2 (copyCut t w)).getD t
        else if !engineTurn s g (ceLoad w) then s
        else
          let s1 := { s with served := Tab.set 0 s.served (gangDie g + (if ceLoad w then 0 else 4)) uid }
          asGang s1 uid fun t => match releaseStep t k x.2.2 (copyCut t w) with
            | some u => u
            | none => if ceRing w && ceLoad w then
                modMyGang t fun g => g.setRing (ceRc w) ((g.ring (ceRc w)).join (.entry k)) else t

/-- COPY_RELEASE: the next step of the release that heads its ring or channel. -/
def execCopyRelease (gang entry : Nat) (s : State) : Host.Outcome State Fault Refusal := .next (copyStep s gang entry)

/-! ### TC_INV_SWEEP_COMPLETE (R161) -/

/-- The oldest sweep of a tensor is over. -/
def dropSweep (p id : Nat) : List Sweep → List Sweep
  | [] => []
  | x :: t => if x.part = p ∧ x.tensor = id then t else x :: dropSweep p id t

def execTcInvSweepComplete (part : Fin 16) (tensor : Nat) (s : State) : Host.Outcome State Fault Refusal :=
  .next { s with sweeps := dropSweep part tensor s.sweeps }

end Sys2Proof.Machine
end

