-- ==== Sys2Proof/Machine/Launch.lean ====
section
/-! DEFINITION. Launches from their triggers to their completion (R28, R35, R63, R81, R88, R91, R265) and proofing
launches (R89, R90). A step that is not due changes nothing (log entry 5). -/

namespace Sys2Proof.Machine

/-! ### Interrupts (R26) -/

/-- Whether a vector of a function is masked in its table (R26). -/
def Fn.masked (x : Fn) (vec : Nat) : Bool :=
  match x.msixTable.find? (·.1 == vec) with
  | some e => bit e.2.2 32
  | none => false

/-- Send an MSI-X message of a function; that of a masked vector is pending (R26). -/
def sendVec (s : State) (f : Option Nat) (vec : Nat) : State :=
  match f with
  | some n => s.modFn n fun x =>
      if x.masked vec then { x with msixPending := addNat vec x.msixPending } else { x with msix := vec :: x.msix }
  | none => s

/-- The host writes a vector's entry: a message that is pending goes out once its vector is not masked. -/
def msixSet (s : State) (f vec : Nat) (addr data : Word) : State :=
  if vec < (if f = 0 then 128 else 120) then
    s.modFn f fun x =>
      let y := { x with msixTable := (x.msixTable.filter (·.1 != vec)) ++ [(vec, addr, data)] }
      if mem? vec y.msixPending && !bit data 32 then
        { y with msixPending := delNat vec y.msixPending, msix := vec :: y.msix }
      else y
  else s

/-! ### TRIGGER_DEQUEUE (R34, R59, R81) -/

/-- A launch's parameters: the image's defaults with the trigger's patches, the later one of an index winning (R32). -/
def paramsOf (img : List Byte) (patches : List Word) : List (Nat × Word) :=
  let ks := (upto 0 32).foldl (fun m i => Tab.set 0 m i (imgW img (64 + 8 * i))) []
  patches.foldl (fun m w => Tab.set 0 m (bits w 63 56) (w64 (bits w 55 0))) ks

/-- The tasks of a launch in task order, with their counters and the instances of their first gangs (R86, R91). -/
def tasksOf (part num : Nat) (img : List Byte) (prio : Nat) : List Task :=
  let ids := (upto 0 (imgNodes img)).flatMap fun n => (upto 0 (nodeInsts img n)).map fun i => (n, i)
  (ids.foldl (fun (r : List Task × Nat) (n, i) =>
    ({ id := { part, launch := num, node := n, inst := i }, counter := startCounter img n i, prio,
       firstInst := r.2 } :: r.1, r.2 + nodeGangs img n)) ([], 0)).1.reverse

/-- The launch of an accepted trigger. -/
def launchOf (s : State) (p : Nat) (t : Trig) : Launch :=
  let num := (s.part p).nextLaunch
  let prio := bits t.hdr 18 16
  let l : Launch :=
    { part := p, num, handle := bits t.hdr 15 0, graph := t.graph, img := t.img, seq := bits t.hdr 63 48, prio,
      det := bit t.hdr 24, record := bit t.hdr 25, replay := bit t.hdr 26,
      params := paramsOf t.img t.patches, tasks := tasksOf p num t.img prio }
  if l.det then { l with ds := { placing := true, decls := l.tasks.flatMap (declsOf s l) } } else l

/-- TRIGGER_DEQUEUE: the oldest accepted trigger becomes a launch, whose tasks without dependences are queued. -/
def dequeue (s : State) (p : Nat) : State :=
  let q := s.part p
  match q.fifo with
  | [] => s
  | t :: rest =>
    if s.quiesced || decide (256 ≤ (s.launches.filter (·.part == p)).length) then s
    else
      let l0 := launchOf s p t
      let l := { l0 with tasks := l0.tasks.map fun x => { x with view := s.hostView } }
      let s1 := { s.modPart p fun q => { q with fifo := rest, nextLaunch := q.nextLaunch + 1 } with
        launches := s.launches ++ [l] }
      (l.tasks.filter (·.counter == 0)).foldl (fun s x => queueTask s x.id) s1

def execTriggerDequeue (part : Fin 16) (s : State) : Host.Outcome State Fault Refusal := .next (dequeue s part)

/-! ### LAUNCH_COMPLETE (R35, R63, R88) -/

/-- The graph of a launch: the resident one, or the one that was removed while it ran. -/
def Graph.of (g : Graph) (l : Launch) : Bool := g.handle == l.handle && g.id == l.graph

/-- Whether nothing of a launch is left to do. -/
def launchDone (s : State) (l : Launch) : Bool :=
  l.tasks.all (·.life == .complete) && l.ds.fired.isEmpty && l.ds.buffer.isEmpty && l.ds.serial.isEmpty
    && l.ds.held.isNone
    && s.gangs.all fun g => !(g.task.part == l.part && g.task.launch == l.num) || (g.life == .ended && g.outs.isEmpty)

/-- Forget a removed graph that no launch or accepted trigger uses any more. -/
def dropGraphs (s : State) (p : Nat) : State :=
  let used (q : Part) (g : Graph) : Bool :=
    s.launches.any (fun l => l.part == p && g.of l)
      || q.fifo.any fun t => bits t.hdr 15 0 == g.handle && t.graph == g.id
  s.modPart p fun q => { q with graphs := q.graphs.filter fun g => !g.removed || used q g }

/-- The semaphore word of a launch (R35). -/
def semaphore (l : Launch) (count : Nat) : Word :=
  let status := if l.abandoned then 2 else if l.killed then 1 else 0
  w64 (l.seq * 2 ^ 48 + status * 2 ^ 32 + count % 2 ^ 32)

/-- LAUNCH_COMPLETE. The write of the semaphore is a release at .sys, to the host and to what it triggers next (R34, R253). -/
def completeLaunch (s : State) (p n : Nat) : State :=
  match s.launch? p n with
  | none => s
  | some l =>
    if !launchDone s l then s
    else
      let count := (((s.part p).graphs.find? (·.of l)).map (·.count)).getD 0 + 1
      let bump (g : Graph) : Graph := if g.of l then { g with count } else g
      let s1 := s.modPart p fun q => { q with graphs := q.graphs.map bump }
      let s2 := s1.pokeWord (.host (imgW l.img 16).toNat) (semaphore l count)
      let s3 := sendVec s2 (driverOf s2 p) (bits (imgW l.img 24) 10 0)
      dropGraphs { s3 with launches := s3.launches.filter fun x => !(x.part == p && x.num == n),
                           gangs := s3.gangs.filter fun g => !(g.task.part == p && g.task.launch == n),
                           hostView := l.tasks.foldl (fun v x => v.join x.out) s3.hostView } p

def execLaunchComplete (part : Fin 16) (launch : Nat) (s : State) : Host.Outcome State Fault Refusal :=
  .next (completeLaunch s part launch)

/-! ### Proofing launches (R89, R90) -/

/-- Whether an edge from task `y` has decremented its destinations (R86, R87). -/
def edgeMet (y : Task) (e : Word) : Bool :=
  if edgeOnDone e then y.life == .complete else mem? (edgePoint e) y.fired

/-- The unmet edges into a task, with their sources. -/
def unmetEdges (l : Launch) (x : Task) : List (Task × Word) :=
  l.tasks.flatMap fun y => ((nodeEdges l.img y.id.node).filter fun e =>
    edgeDest e == x.id.node && edgeFrom e y.id.inst x.id.inst != 0 && !edgeMet y e).map fun e => (y, e)

/-- PROOFING_LAUNCH: the only unmet dependences are OPT edges whose points have fired. -/
def proofLaunch (s : State) (t : TaskId) : State :=
  let l := s.launch t.part t.launch
  let x := s.task t
  let es := unmetEdges l x
  if (s.task? t).isNone || x.life != .waiting || l.det || es.isEmpty
      || !es.all (fun y => edgeOpt y.2 && edgePoint y.2 != 0 && mem? (edgePoint y.2) y.1.fired) then s
  else
    let slots : List Slot := (upto 0 (nodeOpers l.img t.node)).map fun i =>
      { base := operBase l t.node i t.inst, len := bits (operW l.img t.node i 1) 39 0 }
    (queueTask s t).modTask t fun x =>
      { x with proofing := true, touched := false, conflict := false, slots, sources := (es.map (·.1.id)).eraseDups }

def execProofingLaunch (t : TaskId) (s : State) : Host.Outcome State Fault Refusal := .next (proofLaunch s t)

/-- PROOFING_CONFLICT: a write of a source has touched a declared range. -/
def execProofingConflict (t : TaskId) (s : State) : Host.Outcome State Fault Refusal :=
  let x := s.task t
  .next (if x.proofing && x.touched then s.modTask t fun x => { x with conflict := true } else s)

/-- Every group of a task is reversed to ic 0, and its gangs are gone with their parks (R90, R111). -/
def unplace (s : State) (t : TaskId) : State :=
  let gs := (gangsOf s t).flatMap fun g => groupsOf s g.uid
  let s1 := gs.foldl (fun s g => dropParks (reverseParked s g.key 0).1 t.part (.group g.key)) s
  let s2 := (gangsOf s1 t).foldl freeGang s1
  let ids := (gangsOf s2 t).map (·.uid)
  let mine := !s2.me.isControl && mem? s2.me.gang ids
  let s3 := { s2 with gangs := s2.gangs.filter fun g => !mem? g.uid ids,
                      me := if mine then { s2.me with status := .halted } else s2.me,
                      rest := s2.rest.filter fun g => g.isControl || !mem? g.gang ids }
  s3.modPart t.part fun p => if (p.service.map fun u => mem? u ids).getD false then
    { p with service := none, parkq := 0 } else p

/-- PROOFING_RESOLVE: every OPT source has completed. -/
def proofResolve (s : State) (t : TaskId) : State :=
  let x := s.task t
  if !x.proofing || !(x.life == .queued || x.life == .running) || !x.sources.all (fun y => (s.task y).life == .complete) then s
  else if x.touched || x.conflict then
    let s1 := (unplace s t).modTask t fun x =>
      { x with life := .waiting, proofing := false, touched := false, conflict := false, sources := [], placed := 0,
               walked := false, slots := [] }
    if x.counter = 0 then queueTask s1 t else s1
  else
    let ids := (gangsOf s t).map (·.uid)
    (s.modTask t fun x => { x with proofing := false, sources := [] }).modGroups fun g =>
      if !g.isControl && mem? g.gang ids then
        { g with marks := { g.marks with proof := false }, view := g.view.join x.view } else g

def execProofingResolve (t : TaskId) (s : State) : Host.Outcome State Fault Refusal := .next (proofResolve s t)

end Sys2Proof.Machine
end

