-- ==== Sys2Proof/Machine/Det.lean ====
section
/-! DEFINITION. The boundaries of a deterministic launch: reaching one, the merge, the serial atomics, ownership, the
digest, the host's decision, placement, copy releases and the next quantum (R263 to R274). -/

namespace Sys2Proof.Machine

/-! ### Reaching a boundary (R263, R264, R267) -/

/-- The gangs of a launch by instance, and their groups. -/
def launchGangs (s : State) (p n : Nat) : List Gang :=
  sortBy (·.inst) (s.gangs.filter fun g => g.task.part == p && g.task.launch == n)
def launchGroups (s : State) (p n : Nat) : List Group := (launchGangs s p n).flatMap fun g => groupsOf s g.uid

/-- Whether a group has reached the boundary; its arrival acts as FENCE.ar at .dev. -/
def hasReached (g : Group) : Bool :=
  match g.status with
  | .wait .boundary => g.acks == 0
  | .swapped _ | .halted => true
  | _ => false

/-- An ACC.ST of the launch still stands in a matrix queue. -/
def storesQueued (s : State) (p n : Nat) : Bool :=
  (launchGangs s p n).any fun g => g.life == .live && (spanCores g).any fun c => (s.core c).queue.any fun e =>
    e.gang == g.uid && match e.i with
      | .accSt .. => true
      | _ => false

def boundaryReached (s : State) (p n : Nat) : Bool := (launchGroups s p n).all hasReached && !storesQueued s p n

/-! ### Step 1: the merge (R267) -/

/-- The buffered byte that wins a place: the highest logical thread index, and of one writer the last write. -/
def winner (pa : Nat) : List BufByte → Option BufByte
  | [] => none
  | b :: t =>
    match winner pa t with
    | none => if b.pa = pa then some b else none
    | some w => if b.pa = pa ∧ w.tid ≤ b.tid then some b else some w

/-- A state on which a boundary's writes are tried out, with the places written, each with its VA if it has one, and
the results of returning atomics. -/
structure Trial where
  s : State
  wrote : List (Nat × Option Nat) := []
  res : List DetResult := []

/-- The lines of some places, rising. -/
def linesOf (ps : List Nat) : List Nat := ps.foldl (fun l pa => addNat (pa / 128) l) []

/-- Lines as their homes have them: copies recalled and migrating lines settled (R195, R197, R208). -/
def homeLines (s : State) (lines : List Nat) : State := lines.foldl (fun s l => homeLine s (.dev (128 * l))) s

/-- Merge a launch's buffers. -/
def mergeAll (s : State) (buf : List BufByte) : Trial :=
  let pas := buf.foldl (fun l b => addNat b.pa l) []
  let ws := pas.filterMap fun pa => winner pa buf
  let mem1 := ws.foldl (fun m b => m.setByte (.dev b.pa) b.v) s.mem
  let mem2 := (linesOf pas).foldl (fun m line =>
    let here := ws.filter fun b => b.pa / 128 == line
    if here.any (·.p) then m.taint (128 * line)
    else if here.length = 128 then m.clear (128 * line) else m) mem1
  { s := { s with mem := mem2 }, wrote := ws.map fun b => (b.pa, some b.va) }

/-! ### Step 2: serial atomics (R269) -/

/-- Write `n` bytes of a location at its VA. -/
def Trial.write (t : Trial) (pa va : Nat) (bs : List Byte) : Trial :=
  { t with s := t.s.poke (.dev pa) bs,
           wrote := t.wrote ++ (upto 0 bs.length).map fun i => (pa + i, some (va + i)) }

/-- AMO and CAS at their place in the serial order. -/
def serialRmw (t : Trial) (q : Serial) (x : Rmw) : Trial :=
  match q.lanes with
  | (_, va, pa, _) :: _ =>
    let n := amoBytes x.sz
    let wide := decide (x.sz = 3)
    let d := Reg.sIx x.d
    if t.s.homePoisoned pa then
      if x.returns then
        { t with res := t.res ++ [{ key := q.key, ic := q.ic, poison := some ((homeLine t.s (.dev pa)).mem.cause pa, va),
                                    regs := (d, 0) :: (if x.pair then [(d + 1, 0)] else []) }] }
      else t
    else
      let old := ofLe (t.s.read (.dev pa) n)
      let new := x.apply old (pairVal q.d q.d2 wide) (pairVal q.b q.b2 wide) q.b2.v.toNat
      let t1 := match new with
        | some v => t.write pa va (leBytes n v)
        | none => t
      if x.returns then
        { t1 with res := t1.res ++ [{ key := q.key, ic := q.ic,
                                      regs := (amoResult x.sz x.addb d old new.isNone).map fun y => (y.1, y.2.v) }] }
      else t1
  | [] => t

/-- RED: its lanes in ascending order; a lane whose line is poisoned by then changes nothing. -/
def serialRed (op : AOp) : List (Nat × Nat × Nat × Lane) → Trial → Trial
  | [], t => t
  | (_, va, pa, v) :: rest, t =>
    if t.s.homePoisoned pa then serialRed op rest t
    else serialRed op rest (match amoOp op 32 (ofLe (t.s.read (.dev pa) 4)) v.toNat 0 with
      | some x => t.write pa va (leBytes 4 x)
      | none => t)

/-- A CN operation: a check of the region's state that fails leaves poison of cause 7 in a returning one's pair. -/
def serialCn (t : Trial) (q : Serial) (p r : Nat) (d : Option Reg) (op : CnOp) : Trial :=
  match cnReg? t.s p r with
  | none => t
  | some x =>
    let cell := match q.lanes with
      | (_, va, pa, _) :: _ => some (va, pa)
      | [] => none
    let (b, res) := cnApply { s := t.s } x none op
    let vaOf (pa i : Nat) : Option Nat := match cell with
      | some (va, c) => if pa = c then some (va + i) else none
      | none => none
    let news := b.wrote.flatMap fun x => (upto 0 x.2).map fun i => (x.1 + i, vaOf x.1 i)
    let t1 : Trial := { t with s := b.s, wrote := t.wrote ++ news }
    match d with
    | none => t1
    | some d =>
      let k := Reg.sIx d
      let va := (cell.map (·.1)).getD 0
      let out (regs : List (Nat × Word)) (poison : Option (Nat × Nat)) : Trial :=
        { t1 with res := t1.res ++ [{ key := q.key, ic := q.ic, regs, poison }] }
      match res with
      | .name n => out [(k, w64 n), (k + 1, w64 (n / 2 ^ 64))] none
      | .poison c => out [(k, 0), (k + 1, 0)] (some (c, va))
      | .refused => out [(k, 0), (k + 1, 0)] (some (7, va))
      | .done => t1

/-- One queued atomic. -/
def serialStep (p : Nat) (t : Trial) (q : Serial) : Trial :=
  let cell := match q.lanes with
    | (_, _, pa, _) :: _ => pa
    | [] => 0
  match q.i with
  | .amo h op ord sc sz d a b => serialRmw t q { h, cas := false, op, ord, sc, sz, d, a, b }
  | .cas h ord sc sz d a b => serialRmw t q { h, cas := true, op := .exch, ord, sc, sz, d, a, b }
  | .red _ op _ _ _ _ _ => serialRed op q.lanes t
  | .cnPut _ node r d _ => serialCn t q p r (some d) (.put node q.line)
  | .cnRef _ r _ => serialCn t q p r none (.ref (pairName q.d q.d2))
  | .cnDrop _ r _ => serialCn t q p r none (.drop (pairName q.d q.d2))
  | .cnRoot _ ref r d _ => serialCn t q p r (some d) (.root ref cell)
  | .cnSwap _ r d _ _ => serialCn t q p r (some d) (.swap cell (pairName q.d q.d2) (pairName q.b q.b2))
  | _ => t

/-- The queue in the serial order: gang instance, group, program order. -/
def serialAll (p : Nat) (t : Trial) (qs : List Serial) : Trial :=
  (sortBy (fun q => q.inst * 128 + q.gid) qs).foldl (serialStep p) t

/-! ### Step 3: ownership (R265) -/

/-- The owner of a line after a boundary at which `stored` says whether any gang has stored to it. -/
def nextOwner (d : Det) (line : Nat) (stored : Bool) : Option Owner :=
  let gangs := ((d.touched.filter (·.1 == line)).map (·.2)).eraseDups
  match d.owner line with
  | some .read => if stored then some .shared else some .read
  | some (.priv g) => if gangs.any (· != g) then some .shared else some (.priv g)
  | some .shared => some .shared
  | none => match gangs with
    | [] => none
    | [g] => some (.priv g)
    | _ => some .shared

/-- The transitions of a boundary that merged some lines; engines and flows have stored to others since the last. -/
def transitions (d : Det) (merged : List Nat) : Det :=
  let stored := d.stored.foldl (fun l x => addNat x l) merged
  let ls := d.touched.foldl (fun l x => addNat x.1 l) stored
  let news := ls.filterMap fun line => (nextOwner d line (mem? line stored)).map fun o => (line, o)
  { d with owners := news ++ d.owners.filter (fun x => !mem? x.1 ls), stored := [] }

/-! ### Step 4: the digest (R271) -/

/-- The record key of a line of a content-named region. -/
def cnRecord (s : State) (p pa : Nat) : Nat :=
  ((upto 0 7).findSome? fun i => match cnReg? s p i with
    | some r =>
      if r.base ≤ pa ∧ pa < r.base + r.len / 4 then some (0xC2 * 2 ^ 56 + i * 2 ^ 52 + (pa - r.base) / 128)
      else if r.base + r.len / 4 ≤ pa ∧ pa < r.base + r.len then
        some (0xC1 * 2 ^ 56 + i * 2 ^ 52 + (pa - r.base - r.len / 4) / 128)
      else none
    | none => none).getD 0

/-- Records of the written lines in ascending order of their keys: key, line, and the places written. -/
def digestRecords (s : State) (p : Nat) (wrote : List (Nat × Option Nat)) : List (Nat × Nat × List Nat) :=
  let recs := (linesOf (wrote.map (·.1))).map fun line =>
    let here := wrote.filter fun x => x.1 / 128 == line
    let vas := here.filterMap fun x => x.2.map fun va => va / 128 * 128 % 2 ^ 56
    let key := match vas with
      | [] => cnRecord s p (128 * line)
      | v :: t => t.foldl min v
    (key, line, here.foldl (fun l x => addNat x.1 l) [])
  sortBy (·.1) recs

/-- The hashed bytes of a boundary. -/
def digestInput (s : State) (k : Nat) (recs : List (Nat × Nat × List Nat)) : List Byte :=
  leBytes 8 k ++ recs.flatMap fun (key, line, pas) =>
    leBytes 8 key ++ leBytes 16 (pas.foldl (fun m pa => m + 2 ^ (pa % 128)) 0)
      ++ (upto (128 * line) 128).map fun pa => if mem? pa pas then s.mem.byte (.dev pa) else 0

/-! ### Steps 5 and 6: the decision and the commit (R264, R272) -/

/-- What the trial gives, to be committed later. -/
def Trial.staged (t : Trial) : Staged :=
  let pas := t.wrote.foldl (fun l x => addNat x.1 l) []
  { bytes := pas.map fun pa => (pa, (t.wrote.find? (·.1 == pa)).bind (·.2), t.s.mem.byte (.dev pa)),
    lines := (linesOf pas).map fun l => (l, t.s.mem.poisoned (128 * l)),
    results := t.res,
    drops := (t.s.groups.filter fun g => !g.drops.isEmpty).map fun g => (g.key, g.drops) }

/-- A cached page: its writes may stay dirty (R161, R176). -/
def cachedPage (s : State) (p asid va : Nat) : Bool :=
  match lookIn s p asid va .read with
  | .ok _ leaf => !bit leaf 58
  | .bad _ => true

/-- A byte of a boundary reaches memory; under its key it is dirty in the tile cache, and other keys' lines stay (R150). -/
def commitByte (p asid : Nat) (s0 : State) (x : Nat × Option Nat × Byte) : State :=
  let (pa, va, b) := x
  let s := noteAsOf s0 pa 1
  match va with
  | some v =>
    if cachedPage s p asid v then
      let k := keyOf s p v
      let t := freezeOthers s k (pa / 128)
      patchStale (State.write { t with mem := t.mem.noteBack k pa 1 } {} (.dev pa) [b]) p v pa [b]
    else s.write {} (.dev pa) [b]
  | none => s.write {} (.dev pa) [b]

/-- The merged bytes and the atomics' results reach memory. -/
def applyStaged (s : State) (p asid : Nat) (x : Staged) : State :=
  let s1 := x.bytes.foldl (commitByte p asid) (homeLines s (x.lines.map (·.1)))
  let mark (m : Mem) (l : Nat × Bool) : Mem := if l.2 then m.taint (128 * l.1) else m.clear (128 * l.1)
  let s2 : State := { s1 with mem := x.lines.foldl mark s1.mem }
  s2.modGroups fun g => if g.drops.isEmpty then g else
    { g with drops := g.drops.filter fun d => x.drops.any fun y => y.1 == g.key && y.2.contains d }

/-- A result reaches its registers, or poison does, and the slot that guarded them is free. -/
def deliverResult (s : State) (r : DetResult) : State :=
  asGroup s r.key fun t0 =>
    let t := t0.modMe fun g => match g.sb.find? fun x => x.late && x.ic == r.ic with
      | some x => g.endSlot x
      | none => g
    match r.poison with
    | none => t.modMe (·.putScalars (r.regs.map fun x => (x.1, { v := x.2 })))
    | some (c, va) =>
      let n := noteLoad t r.ic (some (c, va))
      n.1.modMe (·.putScalars (r.regs.map fun x =>
        (x.1, { v := Config.poisonValue (t.momentAt r.ic) x.1, p := true, o := n.2 })))

/-- Change the deterministic state of a launch. -/
def modDet (s : State) (p n : Nat) (f : Det → Det) : State := s.modLaunch p n fun l => { l with ds := f l.ds }

/-- Step 6, and the dependences of step 7: the edges of every HALT and EARLY.TRIG of the quantum act. -/
def commitStaged (s : State) (p n : Nat) (x : Staged) : State :=
  let l := s.launch p n
  let s1 := x.results.foldl deliverResult (applyStaged s p l.asid x)
  let s2 := modDet s1 p n fun d => { d with held := none, placing := true, fired := [] }
  l.ds.fired.foldl (fun s (t, pt) => fireEdges s t ((s.task t).viewAt pt) (if pt = 0 then edgeOnDone else edgeOnPoint pt)) s2

/-- The digest record of a step boundary, and its interrupt. -/
def sendDigest (s : State) (l : Launch) (k digest nrec : Nat) : State :=
  let w0 := w64 (l.seq * 2 ^ 48 + k % 2 ^ 32)
  let bs := leBytes 8 w0.toNat ++ leBytes 32 digest ++ leBytes 8 nrec
  sendVec (s.poke (.host ((imgW l.img 16).toNat + 64)) bs) (driverOf s l.part) (bits (imgW l.img 24) 10 0)

/-- Steps 1 to 5, and 6 unless the boundary holds. -/
def mergeBoundary (s0 : State) (p n : Nat) : State :=
  let s := (launchGangs s0 p n).foldl (fun s g => g.outs.foldl (fun s o => doCopyOut s g.uid o) s) s0
  let l := s.launch p n
  let s1 := homeLines s (linesOf (l.ds.buffer.map (·.pa)))
  let t := serialAll p (mergeAll s1 l.ds.buffer) l.ds.serial
  let k := l.ds.k + 1
  let recs := digestRecords t.s p t.wrote
  let digest := blake3 (((s.part p).keys.map (·.digest)).getD 0) (digestInput t.s k recs)
  let step := bits (imgW l.img 24) 31 16
  let s2 := modDet s1 p n fun d =>
    { transitions d (linesOf (t.wrote.map (·.1))) with buffer := [], serial := [], k, digest, nrec := recs.length }
  if step ≠ 0 ∧ k % step = 0 then
    modDet (sendDigest s2 l k digest recs.length) p n fun d => { d with held := some t.staged }
  else commitStaged s2 p n t.staged

/-! ### Step 7: placement (R273) -/

/-- The task of the next gang to place: the lowest instance, in a replay of those whose turn has come (R91). -/
def nextDetGang (s : State) (l : Launch) : Option Task :=
  (sortBy (fun t => t.firstInst + t.placed) (l.tasks.filter (Task.waits l))).find? fun t =>
    !l.replay || replaySpan s l (protoGang s t.id t.placed 0 0) != .later

/-- Whether a gang of the same launch holds a core of a span. -/
def spanOwn (s : State) (p n : Nat) (g : Gang) : Bool :=
  (launchGangs s p n).any fun x => x.life == .live && (spanCores x).any fun c => (spanCores g).any (· == c)

/-- The state with the gangs of one launch alone. -/
def ownOnly (s : State) (p n : Nat) : State :=
  { s with gangs := s.gangs.map fun g => if g.task.part = p ∧ g.task.launch = n then g else { g with life := .ended } }

/-- What becomes of the next gang: it is placed; it waits for a span that another launch holds, for its partition's credit
(R83), or for the queues to go on (R85); it finds no span, or no room for its history regions, that this launch leaves free;
or its trace does not fit the graph. -/
inductive DetPlace where
  | placed (s : State)
  | blocked
  | full
  | mismatch

/-- The next gang at a boundary. It may take a span that is reserved for another launch's gang: R84 places no other gang on
one, R273 says that R84's reservation does not apply, and the model reads that of every reservation (DESIGN CHOICE, log entry
85). -/
def placeNext (s : State) (l : Launch) (t : Task) : DetPlace :=
  let g0 := protoGang s t.id t.placed 0 0
  let at_ (o : Nat × Nat) : Gang := { g0 with cx := o.1, cy := o.2 }
  let go (o : Nat × Nat) : DetPlace :=
    let cost := g0.spw * g0.sph
    if s.quiesced || decide ((s.part l.part).credit < cost) then .blocked
    else match placeAt s t.id t.placed o.1 o.2 with
      | some s1 => .placed (chargeFor s1 l.part t.order cost)
      | none =>
        if (pickRegions (ownOnly s l.part l.num) l.part g0.hlog (gangPlan g0).length []).isNone then .full else .blocked
  if l.replay then
    match replaySpan s l g0 with
    | .mismatch => .mismatch
    | .later => .full
    | .at_ cx cy => if spanOwn s l.part l.num (at_ (cx, cy)) then .full else go (cx, cy)
  else match (spansOf s g0).find? fun o => !spanOwn s l.part l.num (at_ o) with
    | none => .full
    | some o => go o

/-- Place what the boundary can place; true when no gang waits for a span of another launch. -/
def placeAll (p n : Nat) : (fuel : Nat) → State → State × Bool
  | 0, s => (s, true)
  | f + 1, s =>
    match s.launch? p n with
    | none => (s, true)
    | some l => match nextDetGang s l with
      | none => (s, true)
      | some t => match placeNext s l t with
        | .placed s1 => placeAll p n f s1
        | .blocked => (s, false)
        | .full => (s, true)
        | .mismatch => (abandonLaunch s p n false, true)

/-! ### Steps 8 and 9 (R263, R274) -/

/-- Steps that a whole release takes at most: one for each line of its tiles, and its end. -/
def releaseFuel (w : List Word) : Nat := 16 * ceTiles w + 2

/-- A due release of a gang at its turn: it is performed, unless it has to wait, or one before it on its ring or channel
has. `r` is the state with the rings and channels whose releases wait. -/
def detRelease (uid : Nat) (r : State × List Nat) (x : Nat × Nat × Nat) : State × List Nat :=
  let (s, held) := r
  let g := s.gang uid
  let w := copyWords s g x.2.1
  let c : CopyState := Tab.get {} g.copies x.2.1
  if g.life != .live || g.copyHalted || c.next != x.2.2 || mem? (ceWay w) held || (wayDead g w && !c.failed) then r
  else match groupsOf s uid with
    | [] => r
    | y :: _ =>
      match releaseNow x.2.1 x.2.2 (releaseFuel w) (s.turn y.key) with
      | some t => (t.turn s.me.key, held)
      | none => (s, addNat (ceWay w) held)

/-- Step 8 for a gang: its due releases one after another, each once; one that waits is tried again at the next
boundary. -/
def detReleases (s : State) (uid : Nat) : State := ((allDue s (s.gang uid)).foldl (detRelease uid) (s, [])).1

/-- Every subscription of a gang that can be delivered, in order. -/
def detSubs (uid : Nat) : (n i : Nat) → State → State
  | 0, _, s => s
  | n + 1, i, s =>
    let t := subStep s uid i
    if (t.gang uid).subs.length < (s.gang uid).subs.length then detSubs uid n i t else detSubs uid n (i + 1) t

/-- The arbiter acts on a core at a boundary (R107, R108): it swaps out what it must, and restores in the order of the requests
what fits. -/
def arbitrate (s : State) (core : Nat) : State :=
  let t := (onCore s core).foldl (fun s _ => quotaSwapOut s core) s
  (sortBy (·.growRank) (onCore t core)).foldl (fun s g => if ofDet s g then quotaRestore s g.key else s) t

/-- The next quantum begins: what waits are judged on is noted. A group that is parked or saved, although it has ended its
quantum, begins it too. -/
def beginQuantum (s0 : State) (p n : Nat) : State :=
  let cores := (launchGangs s0 p n).foldl (fun l g => (spanCores g).foldl (fun l c => addNat c l) l) []
  let s := cores.foldl arbitrate s0
  let gs := launchGangs s p n
  let s1 := modDet s p n fun d =>
    { d with placing := false, snap := gs, pool := cores.map fun c => (c, corePool s c), began := s.tick, asOf := [] }
  (launchGroups s1 p n).foldl (fun s g =>
    if g.status == .wait .boundary then
      reenter (s.modGroup g.key fun x => { x with status := .run, qi := 0 }) g.key
    else s.modGroup g.key fun x => { x with qi := 0, arrived := false }) s1

/-- Steps 7 to 9: the boundary stays at step 7 while a gang waits for a span of another launch. Boundary 0 has no step 8. -/
def finishBoundary (s : State) (p n : Nat) : State :=
  let unwalked := ((s.launch p n).tasks.filter fun t => t.life == .queued && !t.walked).map (·.id)
  let s1 := unwalked.foldl walkNow s
  let total := (s1.launch p n).tasks.foldl (fun c t => c + nodeGangs (s1.launch p n).img t.id.node) 0
  let r := placeAll p n (total + 1) s1
  if !r.2 then r.1
  else if (r.1.launch p n).ds.k = 0 then beginQuantum r.1 p n
  else
    let ids := (launchGangs r.1 p n).map (·.uid)
    let s2 := ids.foldl detReleases r.1
    let s3 := ids.foldl (fun s u => detSubs u (s.gang u).subs.length 0 s) s2
    beginQuantum s3 p n

/-- DET_BOUNDARY (R264). -/
def boundary (s : State) (p n : Nat) : State :=
  match s.launch? p n with
  | none => s
  | some l =>
    if !l.det || l.ds.held.isSome || launchDone s l then s
    else if l.ds.placing then finishBoundary s p n
    else if !boundaryReached s p n then s
    else
      let s1 := mergeBoundary s p n
      if (s1.launch p n).ds.placing then finishBoundary s1 p n else s1

def execDetBoundary (part : Fin 16) (launch : Nat) (s : State) : Host.Outcome State Fault Refusal :=
  .next (boundary s part launch)

/-- DET_DECISION_POLL (R272). -/
def decide272 (s : State) (p n : Nat) : State :=
  match s.launch? p n with
  | none => s
  | some l => match l.ds.held with
    | none => s
    | some x =>
      let w := s.wordAt (.host ((imgW l.img 16).toNat + 128)) 0
      if bits w 63 48 ≠ l.seq ∨ bits w 47 16 ≠ l.ds.k % 2 ^ 32 ∨ bits w 15 2 ≠ 0 then s
      else if bits w 1 0 = 1 then finishBoundary (commitStaged s p n x) p n
      else if bits w 1 0 = 2 then abandonLaunch s p n true
      else s

def execDetDecisionPoll (part : Fin 16) (launch : Nat) (s : State) : Host.Outcome State Fault Refusal :=
  .next (decide272 s part launch)

end Sys2Proof.Machine
end

