-- ==== Sys2Proof/Machine/Upload.lean ====
section
/-! DEFINITION. Graph upload: the checks of an image and the events GUP_CHUNK, GUP_DISCARD, GUP_PARTIAL_TIMEOUT and
GUP_CHUNK_TAKEN_IN (R60 to R63, R65 to R69, R71, R76, R77, R86, R93). -/

namespace Sys2Proof.Machine

/-! ### The fields of an image (R62, cause 5) -/

/-- An offset of the image with `n` bytes of content: 8-aligned, inside and after the node table (R64). -/
def inImage (img : List Byte) (off n : Nat) : Bool :=
  off % 8 == 0 && decide (320 + 128 * imgNodes img ≤ off ∧ off + n ≤ img.length)

/-- The header but for MAGIC, VERSION and SHAPE (R65); `vecs` is how many MSI-X vectors the function has. -/
def headerOk (img : List Byte) (vecs : Nat) : Bool :=
  let w (i : Nat) : Word := imgW img (8 * i)
  bits (w 0) 23 13 == 0 && decide (imgNodes img ≤ 4096) && bits (w 1) 63 32 == 0 && (w 2).toNat % 8 == 0
    && bits (w 3) 63 32 == 0 && bits (w 3) 15 11 == 0 && decide (bits (w 3) 10 0 < vecs)
    && bits (w 4) 63 56 == 0 && bits (w 4) 55 0 % 64 == 0 && bits (w 5) 63 32 == 0 && bits (w 6) 63 8 == 0
    && w 7 == 0

/-- The role runs (R68): all runs after the first one of ROLE 0 are zero; the quotas are in range and the counts add
up. -/
def runsOk (g : Gang) : Bool :=
  let w (j : Nat) : Nat := bits (wordAt g.desc (2 + j / 4)) (16 * (j % 4) + 15) (16 * (j % 4))
  let used := ((upto 0 8).takeWhile fun j => w j / 2 ^ 14 != 0)
  used.all (fun j => decide (1 ≤ w j % 128 ∧ w j % 128 ≤ 96))
    && (upto (used.length + 1) (7 - used.length)).all (fun j => w j == 0)
    && used.foldl (fun n j => n + w j / 128 % 128 + 1) 0 == g.gcount

/-- A ring declaration (R69). -/
def ringDeclOk (g : Gang) (w : Word) : Bool :=
  let r : Ring := { decl := w }
  decide (2 ≤ r.nslot ∧ r.nslot ≤ 64) && r.slotBytes != 0 && bits w 46 24 == 0
    && r.addr % 128 == 0 && r.addr / 2 ^ 20 % 4 == 0 && decide (localCore r.addr < g.spw * g.sph)
    && decide (localOff r.addr + r.nslot * r.slotBytes ≤ g.lmemBytes)

/-- The declaration words of a gang's rings, by ring. -/
def ringDecls (img : List Byte) (g : Gang) : List (Nat × Word) := (ringsOf img g).map fun r => (r.1, r.2.decl)

/-- A copy entry (R76 to R78). -/
def copyOk (img : List Byte) (g : Gang) (w : List Word) : Bool :=
  let sf := ceSrc w
  let df := ceDst w
  let pair := (sf == 0 && df == 0) || (sf == 1 && decide (2 ≤ df ∧ df ≤ 4)) || (df == 1 && decide (2 ≤ sf ∧ sf ≤ 4))
  let memF := if ceLoad w then sf else df
  let locF := if ceLoad w then df else sf
  let len := if sf = 0 then ceTiles w * 2048 else ceTiles w * 2048 * ceBytes locF / ceBytes memF
  ceTiles w != 0 && ceRel w != 0 && bits (wordAt w 0) 12 0 == 0 && pair && ceLen w == len
    && (if ceRing w then
        ceDest w == 0 && match (ringDecls img g).find? (·.1 == ceRc w) with
          | some (_, d) => decide (ceLen w ≤ Ring.slotBytes { decl := d })
          | none => false
      else
        decide (ceRc w < 4) && ceDest w / 2 ^ 20 % 4 == 0 && decide (localCore (ceDest w) < g.spw * g.sph)
          && decide (localOff (ceDest w) + ceRel w * ceLen w ≤ g.lmemBytes))

/-- The gang launch record of a node (R67 to R69, R76). -/
def recordOk (p : Part) (img : List Byte) (g : Gang) : Bool :=
  let w (i : Nat) : Word := wordAt g.desc i
  let rings := ((upto 0 8).filter g.ringBit).length
  let lw := 2 ^ bits (w 7) 19 16
  let lh := 2 ^ bits (w 7) 15 12
  let lox := bits (w 7) 11 8
  let loy := bits (w 7) 7 4
  decide (1 ≤ g.gcount ∧ g.gcount ≤ 128) && decide (12 ≤ g.hlog ∧ g.hlog ≤ 24) && decide (g.accg ≤ 32)
    && decide (g.lmemBytes ≤ 6144 * 128) && bits (w 0) 5 0 == 0 && bits (w 1) 63 56 == 0 && g.entryVa % 8 == 0
    && runsOk g
    && (if rings = 0 then bits (w 4) 31 0 == 0 else inImage img (bits (w 4) 31 0) (8 * rings))
    && (ringDecls img g).all (fun r => ringDeclOk g r.2)
    && bits (w 5) 63 56 == 0 && g.crva % 16 == 0 && bits (w 6) 63 12 == 0
    && (g.csCount == 0 || inImage img g.csOff (32 * g.csCount))
    && (upto 0 g.csCount).all (fun k => copyOk img g ((upto 0 4).map fun i => imgW img (g.csOff + 32 * k + 8 * i)))
    && bits (w 7) 63 20 == 0 && bits (w 7) 3 0 == 0 && decide (bits (w 7) 19 16 ≤ 4 ∧ bits (w 7) 15 12 ≤ 4)
    && lox % lw == 0 && loy % lh == 0 && decide (lox + lw ≤ 2 ^ p.wl ∧ loy + lh ≤ 2 ^ p.hl)
    && decide (g.spw ≤ lw ∧ g.sph ≤ lh)

/-- An operand declaration and an out-edge (R71, R86). -/
def operOk (img : List Byte) (n i : Nat) : Bool :=
  let w := operW img n i 0
  bits w 58 57 != 3 && bits w 54 48 == 0 && bits (operW img n i 1) 63 40 == 0 && bits (operW img n i 1) 39 0 != 0
def edgeOk (img : List Byte) (n : Nat) (e : Word) : Bool :=
  decide (edgeDest e < imgNodes img) && edgeMap e != 3 && decide (edgePoint e ≤ nodePoints img n) && bits e 41 32 == 0

/-- A node record (R66) with all that it names. -/
def nodeOk (p : Part) (img : List Byte) (n : Nat) : Bool :=
  let w (i : Nat) : Word := nodeW img n i
  nodeGangs img n != 0 && bits (w 8) 47 32 == 0 && nodeInsts img n != 0 && decide (nodeOpers img n ≤ 16)
    && decide (nodePoints img n ≤ 4) && decide (10 ≤ nodeQl img n ∧ nodeQl img n ≤ 20) && bits (w 10) 42 0 == 0
    && (upto 11 5).all (fun i => w i == 0)
    && (nodeOpers img n == 0 || inImage img (nodeOpOff img n) (16 * nodeOpers img n))
    && (bits (w 10) 63 56 == 0 || inImage img (bits (w 9) 31 0) (8 * bits (w 10) 63 56))
    && (upto 0 (nodeOpers img n)).all (operOk img n)
    && (nodeEdges img n).all (edgeOk img n)
    && recordOk p img { desc := nodeRec img n }

/-- Why an image is refused when it is complete; 0 when it is taken (R62, R63). -/
def imageCause (s : State) (p : Nat) (vecs handle : Nat) (img : List Byte) : Nat :=
  let q := s.part p
  let resident := q.graphs.any fun g => g.handle == handle && !g.removed
  let shape := bits (imgW img 48) 7 0
  if imgW img 0 >>> 24 ≠ 0x4C51473101 then 1
  else if imgNodes img = 0 then (if resident && headerOk img vecs then 0 else 5)
  else if resident then 2
  else if 256 ≤ (upto 0 16).foldl (fun n i => n + ((s.part i).graphs.filter (!·.removed)).length) 0 then 4
  else if !(headerOk img vecs && decide (320 + 128 * imgNodes img ≤ img.length) && (upto 0 (imgNodes img)).all (nodeOk q img)) then 5
  else if shape ≠ 0xFF ∧ shape ≠ 16 * q.wl + q.hl then 6
  else 0

/-! ### Scheduler memory (R60, R61) -/

/-- Bytes that resident graphs and images being assembled hold. -/
def schedHeld (s : State) : Nat :=
  (upto 0 16).foldl (fun n i => (s.part i).graphs.foldl (fun n g => n + g.img.length) n) 0
    + (upto 0 17).foldl (fun n i => n + (((s.fn i).upload.map (·.imglen)).getD 0)) 0

/-- The partition that a function's registers act for (R28). -/
def actsFor (s : State) (f : Nat) : Nat := if f = 0 then (s.fn 0).psel else f - 1

/-- Whether a function drives the partition that it acts for, for triggers and uploads (R33, R62). -/
def drives (s : State) (f : Nat) : Bool :=
  let q := s.part (actsFor s f)
  q.valid && (if f = 0 then q.tdi == .unlocked else q.tdi == .run)

/-- Whether a write of the host reaches a function's window (R22, R27). -/
def reaches (s : State) (f : Nat) : Bool :=
  hostUp s && (f == 0 || (s.module.up && (s.part (f - 1)).valid))

/-! ### Chunks (R61) -/

/-- Bytes of a staging buffer. -/
def staged (cells : List Host.Cell) (n : Nat) : List Byte := (upto 0 n).map fun i => Tab.get 0 cells i

/-- The image that a chunk goes on, or starts: the cause that refuses it, or the image as it then stands. -/
def takeChunk (s : State) (f handle len : Nat) : Nat ⊕ Partial :=
  let p := actsFor s f
  let data := staged (s.fn f).gupData len
  if !drives s f then .inl 8
  else if len % 8 ≠ 0 ∨ 4096 < len then .inl 7
  else
    let old := match (s.fn f).upload with
      | some u => if u.handle = handle ∧ u.part = p then some u else none
      | none => none
    match old with
    | some u => if u.imglen < u.bytes.length + len then .inl 7 else .inr { u with bytes := u.bytes ++ data }
    | none =>
      let n := leAt data 8 4
      if len < 64 ∨ n < len then .inl 7
      else if 12 * 2 ^ 20 < schedHeld (s.modFn f fun x => { x with upload := none }) + n then .inl 3
      else .inr { handle, part := p, imglen := n, bytes := data }

/-- GUP_CHUNK: a chunk of a nonzero length starts to be taken in; while one is, the write is dropped. -/
def chunkWrite (s : State) (f : Nat) (ctl : Word) : State :=
  if (s.fn f).gupState = 1 then s
  else match takeChunk s f (bits ctl 63 48) (bits ctl 31 0) with
    | .inl c => s.modFn f fun x => { x with gupCtl := ctl, gupState := 1, gupCause := 0, upload := none, chunk := some c }
    | .inr u => s.modFn f fun x => { x with gupCtl := ctl, gupState := 1, gupCause := 0, upload := some u, chunk := some 0 }

def execGupChunk (fn : Fin 17) (ctl : Word) (s : State) : Host.Outcome State Fault Refusal :=
  .next (if reaches s fn && bit ctl 47 && bits ctl 31 0 != 0 then chunkWrite s fn ctl else s)

/-- GUP_DISCARD: the partial image goes, and GUP_STAT reads 0. -/
def discardWrite (s : State) (f : Nat) (ctl : Word) : State :=
  if (s.fn f).gupState = 1 then s
  else s.modFn f fun x => { x with gupCtl := ctl, gupState := 0, gupCause := 0, upload := none }

def execGupDiscard (fn : Fin 17) (ctl : Word) (s : State) : Host.Outcome State Fault Refusal :=
  .next (if reaches s fn && bit ctl 47 && bits ctl 31 0 == 0 then discardWrite s fn ctl else s)

/-- GUP_PARTIAL_TIMEOUT: 1 s without a chunk. -/
def execGupPartialTimeout (fn : Fin 17) (s : State) : Host.Outcome State Fault Refusal :=
  let x := s.fn fn
  .next (if x.upload.isSome && x.chunk.isNone then
    s.modFn fn fun x => { x with gupState := 3, gupCause := 9, upload := none } else s)

/-- A whole image is installed, removes its graph, or is refused. -/
def validate (s : State) (f : Nat) (u : Partial) : State :=
  let vecs := if f = 0 then 128 else 120
  let c := if !(s.part u.part).valid || driverOf s u.part != some f then 8 else imageCause s u.part vecs u.handle u.bytes
  let s1 := s.modFn f fun x => { x with upload := none, gupState := if c = 0 then 2 else 3, gupCause := c }
  if c ≠ 0 then s1
  else if imgNodes u.bytes = 0 then
    dropGraphs (s1.modPart u.part fun q => { q with graphs := q.graphs.map fun g =>
      if g.handle = u.handle then { g with removed := true } else g }) u.part
  else s1.modPart u.part fun q =>
    { q with graphs := q.graphs ++ [{ handle := u.handle, id := q.nextGraph, img := u.bytes }], nextGraph := q.nextGraph + 1 }

/-- GUP_CHUNK_TAKEN_IN. -/
def takenIn (s : State) (f : Nat) : State :=
  let x := s.fn f
  match x.chunk with
  | none => s
  | some c =>
    let s1 := s.modFn f fun x => { x with chunk := none, gupState := if c = 0 then 2 else 3, gupCause := c }
    match x.upload with
    | some u => if c = 0 ∧ u.bytes.length = u.imglen then validate s1 f u else s1
    | none => s1

def execGupChunkTakenIn (fn : Fin 17) (s : State) : Host.Outcome State Fault Refusal := .next (takenIn s fn)

end Sys2Proof.Machine
end

