-- ==== Sys2Proof/Machine/Host.lean ====
section
/-! DEFINITION. The host's registers that launch and handle: triggers (R32 to R34), the fault queue (R36, R37), the park
queue (R112, R344) and FQ_CMD (R38, R39). -/

namespace Sys2Proof.Machine

/-! ### Triggers (R32 to R34) -/

/-- Why a trigger is dropped, 0 when it is accepted. One of a function that does not drive the partition is dropped with
cause 7 whatever else it holds (R28); the other causes are tried in the table's order (log entry 54). -/
def triggerCause (s : State) (f off : Nat) (split : Bool) (data : List Byte) : Nat :=
  let hdr := w64 (leAt data 0 8)
  let n := bits hdr 23 19
  let q := s.part (actsFor s f)
  if !drives s f then 7
  else if data.length < 8 + 8 * n ∨ split then 1
  else if off ≠ 0x100 then 2
  else if !(q.graphs.any fun g => g.handle == bits hdr 15 0 && !g.removed) then 3
  else if (upto 0 n).any (fun i => decide (31 < leAt data (8 + 8 * i + 7) 1)) then 4
  else if ((bit hdr 25 || bit hdr 26) && !bit hdr 24) || (bit hdr 25 && bit hdr 26) then 5
  else if bits hdr 47 27 ≠ 0 then 6
  else if 64 ≤ q.fifo.length then 8
  else 0

/-- TRIG_DROP counts a dropped trigger. -/
def dropTrigger (s : State) (f c : Nat) : State :=
  s.modFn f fun x => { x with dropCause := c, dropCount := min (x.dropCount + 1) (2 ^ 32 - 1) }

/-- A write to the trigger window. -/
def triggerWrite (s : State) (f off : Nat) (split : Bool) (data : List Byte) : State :=
  if !reaches s f || !decide (0x100 ≤ off ∧ off < 0x200) then s
  else
    let hdr := w64 (leAt data 0 8)
    let c := triggerCause s f off split data
    if c ≠ 0 then dropTrigger s f c
    else
      let ps := (upto 0 (bits hdr 23 19)).map fun i => w64 (leAt data (8 + 8 * i) 8)
      s.modPart (actsFor s f) fun q =>
        let g := (q.graphs.find? fun g => g.handle == bits hdr 15 0 && !g.removed).getD {}
        { q with fifo := q.fifo ++ [{ hdr, patches := ps, img := g.img, graph := g.id }] }

def execTrigger (fn : Fin 17) (off : Nat) (split : Bool) (data : List Byte) (s : State) :
    Host.Outcome State Fault Refusal := .next (triggerWrite s fn off split data)

/-! ### The fault queue (R36, R37) -/

/-- Whether a function's ring has no room. FQ_PROD and FQ_CONS run modulo 2^64. -/
def ringFull (x : Fn) : Bool :=
  x.fqSize == 0 || decide (x.fqSize ≤ (w64 x.fqProd - w64 x.fqCons).toNat)

/-- An entry is written and FQ_PROD advances. -/
def ringPush (s : State) (f : Nat) (ws : List Word) : State :=
  let x := s.fn f
  let s1 := s.write {} (.host (x.fqBase.toNat + 64 * (x.fqProd % x.fqSize))) (wordsBytes ws)
  s1.modFn f fun x => { x with fqProd := (x.fqProd + 1) % 2 ^ 64 }

/-- The records that a partition holds for a function, then one TYPE 3 entry, as far as the function's ring has room. -/
def flushPart (s : State) (f p : Nat) : (records : List (Nat × List Word)) → State
  | [] =>
    if (s.part p).ovf ≠ some f ∨ ringFull (s.fn f) = true then s
    else (ringPush s f [entryWord0 3 0 p, w64 (s.part p).discarded, 0, 0, 0, 0, 0, 0]).modPart p fun q =>
      { q with ovf := none, discarded := 0 }
  | r :: t =>
    if ringFull (s.fn f) then s
    else flushPart ((ringPush s f r.2).modPart p fun q => { q with heldRecs := q.heldRecs.erase r }) f p t

/-- What a function's ring takes in once it has room, partition by partition. -/
def flushHeld (s : State) (f : Nat) : State :=
  (upto 0 16).foldl (fun s p => flushPart s f p ((s.part p).heldRecs.filter (·.1 == f))) s

/-- FQ_BASE. -/
def fqBaseSet (s : State) (f : Nat) (v : Word) : State :=
  if reaches s f && v.toNat % 4096 == 0 then s.modFn f fun x => { x with fqBase := v } else s
def execFqBaseWrite (fn : Fin 17) (val : Word) (s : State) : Host.Outcome State Fault Refusal :=
  .next (fqBaseSet s fn val)

/-- Whether a value is a legal FQ_SIZE. -/
def fqSizeOk (v : Word) : Bool := (upto 6 11).any fun k => v.toNat == 2 ^ k

/-- FQ_SIZE: a legal size also lets held records go (DEDUCED from "until a legal FQ_SIZE is written"). -/
def fqSizeSet (s : State) (f : Nat) (v : Word) : State :=
  if reaches s f && fqSizeOk v then flushHeld (s.modFn f fun x => { x with fqSize := v.toNat }) f else s
def execFqSizeWrite (fn : Fin 17) (val : Word) (s : State) : Host.Outcome State Fault Refusal :=
  .next (fqSizeSet s fn val)

/-- FQ_CONS: it reads 0 until a legal FQ_SIZE is written. -/
def fqConsSet (s : State) (f : Nat) (v : Word) : State :=
  if reaches s f && (s.fn f).fqSize != 0 then flushHeld (s.modFn f fun x => { x with fqCons := v.toNat }) f else s
def execFqConsWrite (fn : Fin 17) (val : Word) (s : State) : Host.Outcome State Fault Refusal :=
  .next (fqConsSet s fn val)

/-- The first entry on its way to a queue of some kind, taken out of the entries. -/
def takeEntry (host : Bool) : List Entry → Option (Entry × List Entry)
  | [] => none
  | e :: t =>
    if e.toHost == host then some (e, t)
    else match takeEntry host t with
      | some (x, r) => some (x, e :: r)
      | none => none

/-- A 257th record that has no room: what it describes is killed. -/
def killParked (s : State) (p slot : Nat) : State :=
  match (s.part p).parks.find? (·.slot == slot) with
  | none => s
  | some x => match x.who with
    | .group key => killWhenDone s key
    | .hold t => dropTask s t

/-- A host-bound record reaches the fault queue of the function that drove its partition when it was produced (R28). -/
def faultRecord (s : State) (f p : Nat) (e : Entry) : State :=
  let hot := bits (wordAt e.words 0) 63 56 == 2
  if !ringFull (s.fn f) && !(s.part p).heldRecs.any (·.1 == f) then ringPush s f e.words
  else
    let s1 := s.modPart p fun q => { q with ovf := some f }
    if hot then s1.modPart p fun q => { q with discarded := q.discarded + 1 }
    else if (s.part p).heldRecs.length < 256 then s1.modPart p fun q => { q with heldRecs := q.heldRecs ++ [(f, e.words)] }
    else killParked s1 p e.slot

/-- FAULT_QUEUE_WRITE: due for a partition with a host-bound record. One produced while no function drove the partition has
no queue to go to. -/
def execFaultQueueWrite (part : Fin 16) (s : State) : Host.Outcome State Fault Refusal :=
  match takeEntry true (s.part part).entries with
  | some (e, rest) =>
    let s1 := s.modPart part fun q => { q with entries := rest }
    match e.fn with
    | some f => .next (faultRecord s1 f part e)
    | none => .next s1
  | none => .next s

/-! ### The park queue (R112, R344) -/

/-- The entry's place and the control line, when a service gang is registered and its queue has room and is writable. -/
def parkQueueAt (s : State) (p : Nat) : Option (Loc × Loc) :=
  let q := s.part p
  match q.service with
  | none => none
  | some uid =>
    let a := s.gang uid
    let asid := (s.launch a.task.part a.task.launch).asid
    let va := bits q.parkq 55 0
    match lookIn s p asid va .write with
    | .ok ctl _ =>
      let prod := ofLe (s.mem.bytes ctl 8)
      let cons := ofLe (s.mem.bytes (ctl.plus 8) 8)
      let n := 2 ^ bits q.parkq 63 59
      if (w64 prod - w64 cons).toNat ≥ n then none
      else match lookIn s p asid (va + 64 + 64 * (prod % n)) .write with
        | .ok l _ => some (ctl, l)
        | .bad _ => none
    | .bad _ => none

/-- PARK_QUEUE_WRITE: the whole entry, and then the producer index. A record that the queue cannot take goes to the
host. -/
def parkRecord (s : State) (p : Nat) (e : Entry) : State :=
  match parkQueueAt s p with
  | some (ctl, l) =>
    let s1 := s.poke l (wordsBytes e.words)
    s1.pokeWord ctl (w64 (ofLe (s.mem.bytes ctl 8) + 1))
  | none => s.modPart p fun q => { q with entries := q.entries ++ [{ e with toHost := true }] }

def execParkQueueWrite (part : Fin 16) (s : State) : Host.Outcome State Fault Refusal :=
  match takeEntry false (s.part part).entries with
  | some (e, rest) => .next (parkRecord (s.modPart part fun q => { q with entries := rest }) part e)
  | none => .next s

/-! ### FQ_CMD (R38, R39) -/

/-- An action through FQ_CMD, with its result in FQ_RES. A slot of a partition that another function drives is not
there (R28). -/
def fqCommand (s : State) (f slot : Nat) (a : Handler) : State :=
  if !reaches s f then s
  else
    let p := actsFor s f
    if driverOf s p ≠ some f then s.modFn f fun x => { x with fqRes := 1 }
    else
      let r := handleWith s p slot a s.hostView
      r.2.modFn f fun x => { x with fqRes := r.1 }

/-- FQ_CMD 1 to 5. -/
def execFqCmdResume (fn : Fin 17) (slot : BitVec 16) (s : State) : Host.Outcome State Fault Refusal :=
  .next (fqCommand s fn slot.toNat (.resume 0))
def execFqCmdReverseContinue (fn : Fin 17) (slot : BitVec 16) (s : State) : Host.Outcome State Fault Refusal :=
  .next (fqCommand s fn slot.toNat (.reverseGo 0 (s.fn fn).fqArg))
def execFqCmdReversePark (fn : Fin 17) (slot : BitVec 16) (s : State) : Host.Outcome State Fault Refusal :=
  .next (fqCommand s fn slot.toNat (.reversePark 0 (s.fn fn).fqArg))
def execFqCmdCommit (fn : Fin 17) (slot : BitVec 16) (s : State) : Host.Outcome State Fault Refusal :=
  .next (fqCommand s fn slot.toNat .commit)
def execFqCmdKill (fn : Fin 17) (slot : BitVec 16) (s : State) : Host.Outcome State Fault Refusal :=
  .next (fqCommand s fn slot.toNat .kill)

/-- Whether a value of FQ_CMD is none of the five commands. -/
def fqCmdBad (v : Word) : Bool := !(decide (1 ≤ bits v 63 60 ∧ bits v 63 60 ≤ 5) && bits v 59 16 == 0)

def execFqCmdRejected (fn : Fin 17) (val : Word) (s : State) : Host.Outcome State Fault Refusal :=
  .next (if reaches s fn && fqCmdBad val then s.modFn fn fun x => { x with fqRes := 3 } else s)

/-- Any write of FQ_CMD. -/
def fqCmdWrite (s : State) (f : Nat) (v : Word) : State :=
  if fqCmdBad v then (if reaches s f then s.modFn f fun x => { x with fqRes := 3 } else s)
  else
    let a : Handler := match bits v 63 60 with
      | 1 => .resume 0
      | 2 => .reverseGo 0 (s.fn f).fqArg
      | 3 => .reversePark 0 (s.fn f).fqArg
      | 4 => .commit
      | _ => .kill
    fqCommand s f (bits v 15 0) a

end Sys2Proof.Machine
end

