-- ==== Sys2Proof/Machine/Window.lean ====
section
/-! DEFINITION. PART_CFG and a partition's preparation (R40 to R42, R52), the debug policy (R54 to R57), and the control
window as a whole: what its registers read as and what a write of one does (R21, R29 to R31, R50, R185, R452). -/

namespace Sys2Proof.Machine

/-! ### Ending a partition's work (R43) -/

/-- Every launch of a partition ends with its gangs killed, and its triggers are gone. -/
def endPartition (s : State) (p : Nat) : State :=
  let s1 := ((s.launches.filter (·.part == p)).map (·.num)).foldl (fun s n => abandonLaunch s p n false) s
  s1.modPart p fun q => { q with fifo := [] }

/-! ### Keys and ranges (R52) -/

/-- Bytes, poison and pending write-backs of a range are gone. -/
def Mem.wipe (m : Mem) (base len : Nat) : Mem :=
  let keep (a : Nat) : Bool := !decide (base ≤ a ∧ a < base + len)
  { m with dev := m.dev.filter fun c => keep c.1,
           poison := m.poison.filter fun l => keep (128 * l),
           back := m.back.filter fun c => keep c.1,
           failed := m.failed.filter fun l => keep (128 * l),
           past := m.past.filter fun c => c.1 % 4 != 0 || keep (c.1 / 4),
           faulty := m.faulty.filter fun d => keep (128 * d.line) }

/-- Every range of a partition is wiped, and no cache keeps a line of it or one tagged with the partition, in a range of now
or of an earlier PART_CFG (R43). -/
def wipeRanges (s0 : State) (p : Nat) : State :=
  let s := { s0 with tiles := s0.tiles.filter fun t => t.key.part != p, l1 := s0.l1.filter fun x => x.part != p,
                      il1 := s0.il1.filter fun x => x.part != p }
  (upto 1 7).foldl (fun s i =>
    let (kind, base, len) := (s.part p).range i
    let keep (line : Nat) : Bool := !decide (base ≤ 128 * line ∧ 128 * line < base + len)
    if kind = 0 then s
    else { s with mem := s.mem.wipe base len, tiles := s.tiles.filter fun t => keep t.line,
                  l1 := s.l1.filter fun x => keep x.line,
                  coh := { s.coh with contended := s.coh.contended.filter fun c => keep c.line } }) s

/-- A key version, as Zalius draws it with draw number `n` of a tick. -/
def drawKey (tick n : Nat) : KeySlot :=
  { xts := Config.random (64 * tick + n) % 2 ^ 512, tag := Config.random (64 * tick + n + 1) % 2 ^ 256 }

/-- Fresh keys: both slots, the naming key and the digest key. -/
def freshKeys (tick : Nat) : Keys :=
  { mem := { k0 := drawKey tick 0, k1 := drawKey tick 2 },
    naming := Config.random (64 * tick + 4) % 2 ^ 256, digest := Config.random (64 * tick + 5) % 2 ^ 256 }

/-- Where firmware puts the tensor table and the ASID table inside the first ordinary range: below the context area, on
64-KiB boundaries, apart from each other. -/
def tablesOf (q : Part) (p : Nat) : Nat × Nat :=
  let (base, len) := q.firstOrdinary
  let room := (len - 2 ^ 26 - 2 ^ 23) / 65536
  let tt := base + Config.firmwareLayout p 0 % (room + 1) * 65536
  let a := base + Config.firmwareLayout p 1 % (room + 1) * 65536
  (tt, if tt ≤ a + 65535 ∧ a < tt + 2 ^ 22 then tt + 2 ^ 22 else a)

/-- PARTITION_PREPARE_DONE: fresh keys, zeroed ranges, VALID reads 1. R40 and R165 do not say what becomes of the retention
registers when KWAYS changes with it: they are at their reset values (DESIGN CHOICE, log entry 76). -/
def prepareDone (s : State) (p : Nat) : State :=
  match (s.part p).preparing with
  | none => s
  | some w =>
    let s1 := s.modPart p fun q =>
      let q1 := { q with preparing := none, cfg := Tab.set 0 q.cfg 0 w }
      let t := tablesOf q1 p
      { q1 with keys := some (freshKeys s.tick), kver := 0, keep := [], ttBase := t.1, asidtBase := t.2 }
    wipeRanges s1 p

def execPartitionPrepareDone (part : Fin 16) (s : State) : Host.Outcome State Fault Refusal :=
  .next (prepareDone s part)

/-! ### PART_CFG (R40 to R42) -/

/-- A partition that exists, or that is being prepared: its words. -/
def Part.claimed (q : Part) : Option (List Word) :=
  let ws (w0 : Word) := w0 :: (upto 1 7).map q.word
  match q.preparing with
  | some w => some (ws w)
  | none => if q.valid then some (ws (q.word 0)) else none

/-- Origin and size of the rectangle that word 0 gives. -/
def rectOf (w : Word) : Nat × Nat × Nat × Nat :=
  (4 * bits w 3 0, 4 * bits w 7 4, 2 ^ bits w 15 12, 2 ^ bits w 11 8)

/-- The ranges that words 1 to 7 give, in GiB. -/
def rangesOf (ws : List Word) : List (Nat × Nat) :=
  ((ws.drop 1).filter fun w => bits w 63 62 != 0).map fun w => (bits w 43 22, bits w 21 0)

/-- Whether two intervals meet. -/
def meets (a n b m : Nat) : Bool := decide (a < b + m ∧ b < a + n)

/-- Whether two partitions' rectangles or ranges overlap. -/
def overlapParts (a b : List Word) : Bool :=
  let (ax, ay, aw, ah) := rectOf (wordAt a 0)
  let (bx, by', bw, bh) := rectOf (wordAt b 0)
  (meets ax aw bx bw && meets ay ah by' bh)
    || (rangesOf a).any fun x => (rangesOf b).any fun y => meets x.1 x.2 y.1 y.2

/-- Whether a partition has a range in a die region (R167). -/
def inRegion (ws : List Word) (d : Nat) : Bool := (rangesOf ws).any fun x => meets x.1 x.2 (180 * d) 180

/-- The conditions of R41 on the words of partition `p`. -/
def cfgOk (s : State) (p : Nat) (ws : List Word) : Bool :=
  let w := wordAt ws 0
  let (x, y, wd, ht) := rectOf w
  let others := ((upto 0 16).filter (· != p)).filterMap fun i => (s.part i).claimed
  let shape := (bits w 15 12, bits w 11 8)
  [(2, 2), (2, 3), (3, 2), (3, 3), (3, 4), (4, 3), (4, 4)].contains shape
    && x % wd == 0 && y % ht == 0 && decide (x + wd ≤ 16 ∧ y + ht ≤ 16)
    && !others.any (overlapParts ws)
    && (rangesOf ws).all (fun r => decide (r.1 + r.2 ≤ 720))
    && decide (bits w 19 16 ≤ 12)
    && (upto 0 4).all fun d => !inRegion ws d
        || decide (bits w 19 16 + ((others.filter (inRegion · d)).foldl (fun n o => n + bits (wordAt o 0) 19 16) 0) ≤ 12)

/-- The words of PART_CFG as they read come into force. -/
def Part.adopt (q : Part) : Part :=
  { q with cfg := (upto 1 7).foldl (fun c i => Tab.set 0 c i (q.reg i)) q.cfg, staged := [] }

/-- VALID is cleared: the partition's work ends and its keys are destroyed (R52). -/
def unmakePart (s : State) (p : Nat) : State :=
  (if (s.part p).valid then
    (endPartition s p).modPart p fun q => { q with cfg := Tab.set 0 q.cfg 0 (q.word 0 &&& 0x7FFFFFFFFFFFFFFF),
                                                   keys := none, policy := {}, nonce := none }
  else s.modPart p fun q => { q with preparing := none }).modPart p Part.adopt

/-- A write of word 0 of an unlocked partition. Setting VALID starts the preparation of R52, that of a partition which is
valid already too: its work ends first (log entry 53). One that fails R41 is discarded and VALID reads 0; R41 says no more
of a partition that was valid or in preparation: the model ends its work and destroys its keys, or cancels its
preparation, as when VALID is cleared (DESIGN CHOICE, log entry 53). -/
def cfgWord0 (s : State) (p : Nat) (v0 : Word) : State :=
  let v := v0 &&& 0x80000000000FFFFF
  let q := s.part p
  if bit v 63 then
    if !cfgOk s p (v :: (upto 1 7).map q.reg) then unmakePart s p
    else (unmakePart s p).modPart p fun q =>
      { q with preparing := some v, cfg := Tab.set 0 q.cfg 0 (v &&& 0x7FFFFFFFFFFFFFFF) }
  else if 12 < bits v 19 16 then s
  else (unmakePart s p).modPart p fun q => { q with cfg := Tab.set 0 q.cfg 0 v }

/-- A write of a range word: it acts at once where the partition is neither valid nor in preparation, else at its next
preparation. -/
def cfgRange (s : State) (p word : Nat) (v0 : Word) : State :=
  let v := v0 &&& 0xC0000FFFFFFFFFFF
  s.modPart p fun q =>
    if q.valid || q.preparing.isSome then { q with staged := q.staged.filter (·.1 != word) ++ [(word, v)] }
    else { q with cfg := Tab.set 0 q.cfg word v }

/-- A TDI in CONFIG_LOCKED or RUN moves to ERROR: the gangs are killed and the triggers dropped (R42, R43). -/
def tdiError (s : State) (p : Nat) : State :=
  match (s.part p).tdi with
  | .locked | .run => (endPartition s p).modPart p fun q => { q with tdi := .error }
  | _ => s

/-- A write of PART_CFG. -/
def partCfgSet (s : State) (p word : Nat) (v : Word) : State :=
  if !reaches s 0 then s
  else if (s.part p).tdi != .unlocked then tdiError s p
  else if word = 0 then cfgWord0 s p v
  else cfgRange s p word v

def execPartCfgWrite (part : Fin 16) (word : Fin 8) (val : Word) (s : State) : Host.Outcome State Fault Refusal :=
  .next (partCfgSet s part word val)

/-! ### The debug policy (R54 to R57) -/

/-- DP_CTL: DP_BLOB is submitted, unless a submission is being verified. -/
def dpSubmit (s : State) (p : Nat) : State :=
  if !reaches s (p + 1) || (s.fn (p + 1)).dpState == 1 then s
  else s.modFn (p + 1) fun x => { x with dpState := 1, dpCause := 0, dpSent := staged x.dpBlob 128 }

def execDpCtlSubmit (vf : Fin 16) (s : State) : Host.Outcome State Fault Refusal := .next (dpSubmit s vf)

/-- The signature of a policy blob: Ed25519 over bytes 0 to 63 by the tenant's key (R55). -/
def policySigned (key : Nat) (blob : List Byte) : Bool := ed25519Verify key (blob.take 64) ((blob.drop 64).take 64)

/-- The first condition of R56 that a blob fails, or 0. -/
def policyCause (q : Part) (p : Nat) (blob : List Byte) : Nat :=
  let mask := w64 (leAt blob 48 8)
  if q.tdi != .locked && q.tdi != .run then 1
  else if leAt blob 0 4 ≠ 0xD0B15A40 ∨ leAt blob 4 2 ≠ 1 then 2
  else if !(match q.tenantKey with | some k => policySigned k.toNat blob | none => false) then 3
  else if leAt blob 6 2 ≠ p then 4
  else if q.nonce ≠ some (leAt blob 8 32) then 5
  else if !q.policy.blob.isEmpty && decide (leAt blob 40 8 ≤ q.policy.counter) then 6
  else if bits mask 63 6 ≠ 0 ∨ leAt blob 56 8 ≠ 0 then 7
  else if bit mask 3 && !bit mask 0 then 8
  else 0

/-- A policy comes into force (R57): what it closes is closed for every gang that is there, and stays so for it whatever a
later blob opens. -/
def adoptPolicy (s : State) (p : Nat) (x : Policy) : State :=
  { s.modPart p fun q => { q with policy := x } with
    gangs := s.gangs.map fun g => if g.task.part = p then { g with policy := g.policy &&& x.mask } else g }

/-- POLICY_VERIFY_COMPLETE: an accepted blob replaces the policy in force. -/
def policyDone (s : State) (p : Nat) : State :=
  let x := s.fn (p + 1)
  if x.dpState ≠ 1 then s
  else
    let c := policyCause (s.part p) p x.dpSent
    let s1 := s.modFn (p + 1) fun x => { x with dpState := if c = 0 then 2 else 3, dpCause := c }
    if c ≠ 0 then s1
    else adoptPolicy s1 p { mask := w64 (leAt x.dpSent 48 8), counter := leAt x.dpSent 40 8, blob := x.dpSent }

def execPolicyVerifyComplete (vf : Fin 16) (s : State) : Host.Outcome State Fault Refusal := .next (policyDone s vf)

/-! ### Reading the control window (R29 to R31, R21, R50, R185, R452) -/

/-- FN_STAT (R30). -/
def fnStat (s : State) (f : Nat) : Word :=
  let q := s.part (f - 1)
  let ovf := (upto 0 16).any fun p => (s.part p).ovf == some f
  let tdi := match q.tdi with | .unlocked => 0 | .locked => 1 | .run => 2 | .error => 3
  w64 ((if f = 0 then 0xFF else f - 1) * 2 ^ 24 + (if f = 0 then 0 else tdi * 2 ^ 20) + b2n s.quiesced * 2 ^ 19
    + b2n ovf * 2 ^ 18 + (if f = 0 then b2n s.module.recovery * 2 ^ 17 else 0)
    + (if f = 0 then 0 else q.kver % 256 * 2 ^ 8) + (if f = 0 then s.module.fail % 256 else 0))

/-- A replay is outstanding on a port, in either direction. -/
def Port.replaying (p : Port) : Bool := !p.asked.isEmpty || p.served.isSome

/-- Whether a repair of a port waits behind a replay (R18, DEFER of R21). -/
def Port.defers (p : Port) : Bool := !p.deferred.isEmpty && p.replaying

/-- FLK_STAT of a port (R21). -/
def flkStat (p : Port) : Nat :=
  min p.lasting 255 * 2 ^ 8 + b2n p.defers * 2 ^ 7 + b2n p.spareIn * 2 ^ 6 + b2n p.fecIl * 2 ^ 5
    + b2n p.lanes4 * 2 ^ 4 + b2n p.half * 2 ^ 3 + p.state % 8

/-- MEM_STAT of a stack (R185). -/
def memStat (s : State) (n : Nat) : Word :=
  let k := s.stack n
  w64 (s.module.scrubHours * 2 ^ 56 + k.wm / 2 ^ 22 * 2 ^ 32 + k.passes % 256 * 2 ^ 24 + b2n k.done * 2 ^ 23 + k.spares)

/-- A sensor's reading of 16 or 32 bits. -/
def reading (s : State) (what n : Nat) : Nat := Config.sensor what s.tick % 2 ^ n

/-- The highest reading of a sensor from tick `a` on, over `n` ticks, by a measure of readings. -/
def highest (what bits_ : Nat) (f : Nat → Int) : (n a : Nat) → Nat
  | 0, a => Config.sensor what a % 2 ^ bits_
  | n + 1, a =>
    let x := Config.sensor what a % 2 ^ bits_
    let y := highest what bits_ f n (a + 1)
    if f x ≤ f y then y else x

/-- The peak of the module's power since the last read of PWR, and the highest reading of temperature sensor `t`, a
signed number, since bring-up. -/
def powerPeak (s : State) : Nat := highest 1 32 (·) (s.tick - s.module.peakFrom) s.module.peakFrom
def tempHigh (s : State) (t : Nat) : Nat := highest (400 + t) 16 (sext 16) (s.tick - s.module.upFrom) s.module.upFrom

/-- TELEM (R31). -/
def telem (s : State) (o : Nat) : Word :=
  if o = 0 then w64 (powerPeak s * 2 ^ 32 + reading s 1 32)
  else if o < 0xC8 then
    let i := (o - 8) / 8
    let x := Tab.get {} s.module.islands i
    w64 (reading s (100 + i) 16 * 2 ^ 48 + x.mhz % 2 ^ 16 * 2 ^ 16 + x.mv % 2 ^ 16)
  else if 0x100 ≤ o ∧ o < 0x188 then
    let t := (o - 0x100) / 8
    w64 (tempHigh s t * 2 ^ 16 + reading s (400 + t) 16)
  else if 0x200 ≤ o ∧ o < 0x260 then memStat s ((o - 0x200) / 8)
  else if 0x280 ≤ o ∧ o < 0x2D0 then
    let c := (o - 0x280) / 8
    w64 (Tab.get 0 s.module.lasting c * 2 ^ 32 + Tab.get 0 s.module.errs c)
  else 0

/-- FW_CTL as it reads (R50). -/
def fwCtlRead (z : Zalius) : Word :=
  let other := !z.active
  w64 (z.fwState * 2 ^ 62 + z.fwCause * 2 ^ 48 + z.fusedSvn * 2 ^ 32
    + (if z.verified other then imgSvn (z.slot other) else 0) * 2 ^ 24 + imgSvn (z.slot z.active) * 2 ^ 16
    + b2n (z.verified other) * 2 + b2n z.active)

/-- FWD_STAT, FWD_REG and FWD_DATA (R452). -/
def fwdStat (s : State) : Word := w64 (s.fwd.first * 2 ^ 8 + s.fwd.mask.foldl (fun n c => n + 2 ^ c) 0)
def fwdReg (s : State) : Word :=
  let c := bits s.fwd.sel 63 62
  match s.group? c, Reg.ofCode (s.fwd.sel.extractLsb' 0 10) with
  | some g, some r => if mem? c s.fwd.mask then (readS s g r).v else 0
  | _, _ => 0
def fwdData (s : State) : Word :=
  let a := s.fwd.addr.toNat
  if a % 8 = 0 ∧ ctlOk 0 a 8 false = true then w64 (ofLe (ctlRead s a 8)) else 0

/-- A register of the firmware debugger, with the fuse. -/
def fwdRead (s : State) (o : Nat) : Word :=
  if !Config.fwDebugFuse then 0
  else if o = 0x108 then fwdStat s
  else if 0x110 ≤ o ∧ o < 0x130 then Tab.get 0 s.fwd.brk ((o - 0x110) / 8)
  else if o = 0x130 then s.fwd.sel
  else if o = 0x138 then fwdReg s
  else if o = 0x140 then s.fwd.addr
  else if o = 0x148 then fwdData s
  else 0

/-- The registers that only the PF has. -/
def pfRead (s : State) (o : Nat) : Word :=
  if o = 0x20 then w64 (s.fn 0).psel
  else if 0x8000 ≤ o ∧ o < 0x8400 then (s.part ((o - 0x8000) / 64)).reg ((o - 0x8000) % 64 / 8)
  else if 0x9000 ≤ o ∧ o < 0x9040 then
    w64 (flkStat (s.port ((o - 0x9000) / 4)) + flkStat (s.port ((o - 0x9000) / 4 + 1)) * 2 ^ 32)
  else if 0xA000 ≤ o ∧ o < 0xA400 then telem s (o - 0xA000)
  else if o = 0xB000 then fwCtlRead s.zal
  else if 0xB100 ≤ o ∧ o < 0xB150 then fwdRead s (o - 0xB000)
  else 0

/-- The eight bytes at an 8-aligned offset of a function's window; a 4-byte read takes its half of them. A VF whose TDI is
in ERROR reads 0 (R43). -/
def windowRead (s : State) (f o : Nat) : Word :=
  let x := s.fn f
  if f ≠ 0 ∧ (s.part (f - 1)).tdi = .error then 0
  else match o with
    | 0x0 => w64 (0x5A401F6D * 2 ^ 32 + 2 ^ 16 + imgBuild (s.zal.slot s.zal.active))
    | 0x8 => fnStat s f
    | 0x10 => w64 (x.dropCause * 2 ^ 32 + x.dropCount)
    | 0x200 => x.gupCtl
    | 0x208 => w64 (x.gupCause * 2 ^ 8 + x.gupState)
    | 0x300 => x.fqBase
    | 0x308 => w64 x.fqSize
    | 0x310 => w64 x.fqProd
    | 0x318 => w64 x.fqCons
    | 0x320 => x.fqArg
    | 0x330 => w64 x.fqRes
    | 0x488 => if f = 0 then 0 else w64 (x.dpCause * 2 ^ 8 + x.dpState)
    | o => if f = 0 then pfRead s o else 0

/-- PWR_PEAK_READ: the peak starts again from the power at the read. -/
def execPwrPeakRead (s : State) : Host.Outcome State Fault Refusal :=
  .next { s with module := { s.module with peakFrom := s.tick } }

/-! ### Writing the control window (R29) -/

/-- Put bytes into a staging buffer. -/
def putStaged (cells : List Host.Cell) (o : Nat) : List Byte → List Host.Cell
  | [] => cells
  | b :: t => putStaged (Tab.set 0 cells o b) (o + 1) t

/-- GUP_CTL: bit 47 starts an upload or, with LENGTH 0, discards one; without it the value is kept. -/
def gupCtlWrite (s : State) (f : Nat) (v : Word) : State :=
  if bit v 47 then (if bits v 31 0 = 0 then discardWrite s f v else chunkWrite s f v)
  else if (s.fn f).gupState = 1 then s else s.modFn f fun x => { x with gupCtl := v }

/-- FW_CTL: a command starts. -/
def fwCtlWrite (s : State) (v : Word) : State :=
  if 1 ≤ bits v 63 60 ∧ bits v 63 60 ≤ 3 then fwStart (bits v 63 60) v s else s

/-- A register of the firmware debugger (R452). -/
def fwdWrite (s : State) (o : Nat) (v : Word) : State :=
  if !Config.fwDebugFuse then s
  else if o = 0x100 then (match bits v 63 60 with | 1 => resumeCores s | 2 => stopCores s none | _ => s)
  else if 0x110 ≤ o ∧ o < 0x130 then
    { s with fwd := { s.fwd with brk := Tab.set 0 s.fwd.brk ((o - 0x110) / 8) (v &&& 0x8000000000FFFFF8) } }
  else if o = 0x130 then { s with fwd := { s.fwd with sel := v &&& 0xC0000000000003FF } }
  else if o = 0x140 then { s with fwd := { s.fwd with addr := v } }
  else s

/-- A register that only the PF has. -/
def pfWrite (s : State) (o : Nat) (v : Word) : State :=
  if o = 0x20 then s.modFn 0 fun x => { x with psel := bits v 3 0 }
  else if 0x8000 ≤ o ∧ o < 0x8400 then partCfgSet s ((o - 0x8000) / 64) ((o - 0x8000) % 64 / 8) v
  else if o = 0xB000 then fwCtlWrite s v
  else if 0xB100 ≤ o ∧ o < 0xB150 then fwdWrite s (o - 0xB000) v
  else s

/-- A write of the eight bytes at an 8-aligned offset. -/
def windowWrite (s : State) (f o : Nat) (v : Word) : State :=
  match o with
  | 0x200 => gupCtlWrite s f v
  | 0x300 => fqBaseSet s f v
  | 0x308 => fqSizeSet s f v
  | 0x318 => fqConsSet s f v
  | 0x320 => s.modFn f fun x => { x with fqArg := v }
  | 0x328 => fqCmdWrite s f v
  | 0x480 => if f ≠ 0 ∧ bit v 0 = true then dpSubmit s (f - 1) else s
  | o => if f = 0 then pfWrite s o v else s

/-- The registers that a 4-byte write merges into: those that a read gives back as they were written. -/
def merges (o : Nat) : Bool :=
  mem? o [0x20, 0x200, 0x300, 0x308, 0x318, 0x320, 0xB130, 0xB140] || decide (0x8000 ≤ o ∧ o < 0x8400)
    || decide (0xB110 ≤ o ∧ o < 0xB130)

/-- The value that a 4-byte write at `o` gives its register. -/
def merged (s : State) (f o : Nat) (v : Word) : Word :=
  let old := if merges (o / 8 * 8) then windowRead s f (o / 8 * 8) else 0
  if o % 8 = 0 then w64 (old.toNat / 2 ^ 32 * 2 ^ 32 + v.toNat % 2 ^ 32)
  else w64 (old.toNat % 2 ^ 32 + v.toNat % 2 ^ 32 * 2 ^ 32)

/-- One aligned write into the control window. -/
def registerSet (s : State) (f o : Nat) (eight : Bool) (v : Word) : State :=
  let n := if eight then 8 else 4
  let bs := leBytes n v.toNat
  if !reaches s f then s
  else if 0x100 ≤ o ∧ o < 0x200 then triggerWrite s f o false bs
  else if o % n ≠ 0 then s
  else if 0x400 ≤ o ∧ o < 0x480 then
    (if f = 0 then s else s.modFn f fun x => { x with dpBlob := putStaged x.dpBlob (o - 0x400) bs })
  else if 0x1000 ≤ o ∧ o < 0x2000 then s.modFn f fun x => { x with gupData := putStaged x.gupData (o - 0x1000) bs }
  else if 0xC000 ≤ o then
    (if f = 0 then { s with zal := { s.zal with fwData := putStaged s.zal.fwData (o - 0xC000) bs } } else s)
  else windowWrite s f (o / 8 * 8) (if eight then v else merged s f o v)

/-- REGISTER_WRITE. -/
def execRegisterWrite (w : WinAddr) (eight : Bool) (val : Word) (s : State) : Host.Outcome State Fault Refusal :=
  .next (registerSet s w.fn w.off.toNat eight val)

end Sys2Proof.Machine
end

