-- ==== Sys2Proof/Machine/Tdi.lean ====
section
/-! DEFINITION. TDISP and SPDM requests: a partition's owner, its keys and its end (R26, R28, R42 to R47, R52, R212,
R270). Every other request is answered with an error and changes nothing. -/

namespace Sys2Proof.Machine

/-! ### TDISP (R43, R44) -/

/-- Zalius's TDISP answer to a request for partition `p`, with what the request does. -/
def tdisp (s : State) (p : Nat) (a : TdispAnswer) : State := s.modPart p fun q => { q with tdisp := some a }

/-- A TDISP request reaches Zalius only while the host reaches the PF; one that `ok` refuses is answered with a TDISP
error and changes nothing. Whether what VENDOR_DEFINED carries (TDISP, SET_TENANT_KEY) needs a finished negotiation, R46 does
not say: here it does not (DESIGN CHOICE, log entry 83). -/
def request (s : State) (p : Nat) (ok : Bool) (a : TdispAnswer) (eff : State → State) : State :=
  if !hostUp s then s else if ok then tdisp (eff s) p a else tdisp s p .error

/-- SET_TENANT_KEY: until the lock. -/
def execSetTenantKey (part : Fin 16) (key : BitVec 256) (s : State) : Host.Outcome State Fault Refusal :=
  .next (request s part ((s.part part).tdi == .unlocked) .done fun s =>
    s.modPart part fun q => { q with tenantKey := some key })

/-- Whether SET_DIGEST_KEY is taken (R270): over a secured session, before START, for a partition that has keys. -/
def digestKeyOk (s : State) (p : Nat) : Bool :=
  let q := s.part p
  !s.zal.sessions.isEmpty && (q.tdi == .locked || (q.tdi == .unlocked && q.valid))

/-- SET_DIGEST_KEY (R270). -/
def execSetDigestKey (part : Fin 16) (key : BitVec 256) (s : State) : Host.Outcome State Fault Refusal :=
  .next (request s part (digestKeyOk s part) .done fun s =>
    s.modPart part fun q => { q with keys := q.keys.map fun k => { k with digest := key.toNat } })

/-- The descriptors of the class ids (R212): VALID and CNC, every other field 0. -/
def bindClassIds (s : State) (p : Nat) : State :=
  (upto 1 7).foldl (fun s w =>
    if ((s.part p).cnRegion (w - 1)).isSome then
      s.write {} (.dev ((s.part p).ttBase + 64 * (0xFFF7 + w) + 8)) (leBytes 8 0xC000000000000000)
    else s) s

/-- Whether a lock is refused because work is left, or because records are held for the partition, whose owner then does not
change (R28; log entry 56). -/
def lockBusy (s : State) (p : Nat) : Bool :=
  !(s.part p).heldRecs.isEmpty || s.launches.any (·.part == p) || (s.part p).parks.any fun x => match x.who with
    | .group _ => true
    | .hold _ => false

/-- Whether a lock is taken (R28, R43, R44). -/
def lockOk (s : State) (p : Nat) : Bool :=
  let q := s.part p
  q.tdi == .unlocked && q.valid && q.tenantKey.isSome && !lockBusy s p

/-- The nonce of a lock. -/
def lockNonce (tick : Nat) : Nat := Config.random (64 * tick + 6) % 2 ^ 256

/-- A lock: fresh keys, zeroed ranges, a nonce (R43, R52). -/
def lockPart (s : State) (p : Nat) : State :=
  let s1 := s.modPart p fun q =>
    let t := tablesOf q p
    { q with tdi := .locked, keys := some (freshKeys s.tick), kver := 0, policy := {},
             nonce := some (lockNonce s.tick), ttBase := t.1, asidtBase := t.2 }
  bindClassIds (wipeRanges s1 p) p

/-- LOCK_INTERFACE_REQUEST: the response carries the nonce. -/
def execLockInterfaceRequest (part : Fin 16) (s : State) : Host.Outcome State Fault Refusal :=
  .next (request s part (lockOk s part) (.lock (lockNonce s.tick)) fun s => lockPart s part)

/-- START_INTERFACE_REQUEST with the lock's nonce. -/
def execStartInterfaceRequest (part : Fin 16) (nonce : Nat) (s : State) : Host.Outcome State Fault Refusal :=
  let q := s.part part
  .next (request s part (q.tdi == .locked && q.nonce == some nonce) .done fun s =>
    s.modPart part fun q => { q with tdi := .run })

/-- STOP_INTERFACE_REQUEST: the gangs are pre-empted (R92) and killed; keys, tenant key, policy and what no key reads any more are gone. -/
def stopPart (s : State) (p : Nat) : State :=
  (wipeRanges (endPartition (stopPreempt s p) p) p).modPart p fun q =>
    { q with tdi := .unlocked, keys := none, tenantKey := none, nonce := none, policy := {}, brk := [],
             parks := [], entries := [], heldRecs := [], ovf := none, discarded := 0, service := none, parkq := 0 }

def execStopInterfaceRequest (part : Fin 16) (s : State) : Host.Outcome State Fault Refusal :=
  .next (request s part true .done fun s => stopPart s part)

/-- The events that move a locked TDI to ERROR. -/
def execTdiErrorEvent (part : Fin 16) (_cause : TdiCause) (s : State) : Host.Outcome State Fault Refusal :=
  .next (tdiError s part)

/-! ### SPDM (R45 to R47) -/

/-- Zalius's last answer to a request. -/
def Zalius.answer (z : Zalius) (code value : Nat) : Zalius :=
  { z with answers := Tab.insert code value (Tab.erase code z.answers) }

/-- A request reaches the responder (R11, R22, R46), which does `f`. -/
def spdm (s : State) (f : Zalius → Zalius) : State := if hostUp s then { s with zal := f s.zal } else s

/-- What VERSION and ALGORITHMS say (R46): SPDM 1.3; measurement hash SHA-512, signatures Ed25519, hash SHA-512, key
exchange on P-384 and AES-256-GCM, each by the bit that the SPDM specification gives it (PRESUMED, log entry 75), one 32-bit
field each from bit 0 on. -/
def spdmVersion : Nat := 0x1300
def spdmAlgorithms : Nat := 8 + 2 ^ 32 * 2 ^ 10 + 2 ^ 64 * 4 + 2 ^ 96 * 2 ^ 4 + 2 ^ 128 * 2

/-- The certificate chain (R45): Dresan root, product intermediate, DeviceID, and this boot's Alias, carrying the
measurements that it was signed with. -/
def chain (s : State) : List Byte := Config.certificateChain s.zal.cdi s.zal.aliasMeas

/-- The bytes of a value that one data object of the DOE mailbox can carry: at most 64 KiB (R26). -/
def doeObject (bs : List Byte) : List Byte := bs.take 65536

/-- An answer of the identity layers, due once the negotiation is over (R46). -/
def identityAnswer (s : State) (code value : Nat) : State :=
  spdm s fun z => if z.spdm = 3 then z.answer code value else z

/-- A step of the negotiation: VERSION, CAPABILITIES, ALGORITHMS in order; a request out of order is refused. VERSION
starts the negotiation again, and the sessions are gone. -/
def negotiate (s : State) (from' code value : Nat) : State :=
  spdm s fun z => if z.spdm = from' then { z.answer code value with spdm := from' + 1 } else z

def execSpdmGetVersion (s : State) : Host.Outcome State Fault Refusal :=
  .next (spdm s fun z => { z.answer 0x84 spdmVersion with spdm := 1, sessions := [], pendingSessions := [], streams := [] })
def execSpdmGetCapabilities (s : State) : Host.Outcome State Fault Refusal :=
  .next (negotiate s 1 0xE1 (Config.identity 0xE1 0))
def execSpdmNegotiateAlgorithms (s : State) : Host.Outcome State Fault Refusal :=
  .next (negotiate s 2 0xE3 spdmAlgorithms)
def execSpdmGetDigests (s : State) : Host.Outcome State Fault Refusal :=
  .next (identityAnswer s 0x81 (sha512 (chain s)))
def execSpdmGetCertificate (s : State) : Host.Outcome State Fault Refusal :=
  .next (identityAnswer s 0x82 (ofLe (doeObject (chain s))))
def execSpdmChallenge (s : State) : Host.Outcome State Fault Refusal :=
  .next (identityAnswer s 0x83 (Config.identity 0x83 s.tick))

/-- GET_MEASUREMENTS: the value of an index of R47. R47 does not say what any other index gets; here it gets no answer
(DESIGN CHOICE, log entry 83). -/
def execGetMeasurements (index : Nat) (s : State) : Host.Outcome State Fault Refusal :=
  match measurement s index with
  | some v => .next (identityAnswer s 0xE0 v)
  | none => .next s

/-- The lowest session number that is not in use. -/
def freeSession (z : Zalius) : Nat :=
  ((upto 0 4).find? fun n => !mem? n z.sessions && !mem? n z.pendingSessions).getD 4

/-- KEY_EXCHANGE: a session is set up, while fewer than 4 are. What one beyond 4 gets, and FINISH, KEY_UPDATE, HEARTBEAT or
END_SESSION of a session that is not there, R46 does not say: here none of them is answered (DESIGN CHOICE, log entry 83). -/
def execSpdmKeyExchange (s : State) : Host.Outcome State Fault Refusal :=
  .next (spdm s fun z =>
    if z.spdm = 3 ∧ freeSession z < 4 then
      { z.answer 0xE4 (Config.identity 0xE4 s.tick) with pendingSessions := addNat (freeSession z) z.pendingSessions }
    else z)

/-- FINISH: the handshake of a session ends. -/
def execSpdmFinish (session : Nat) (s : State) : Host.Outcome State Fault Refusal :=
  .next (spdm s fun z =>
    if mem? session z.pendingSessions then
      { z.answer 0xE5 (Config.identity 0xE5 s.tick) with
        pendingSessions := delNat session z.pendingSessions, sessions := addNat session z.sessions }
    else z)

/-- KEY_UPDATE and HEARTBEAT of a session. -/
def sessionAnswer (s : State) (session code : Nat) : State :=
  spdm s fun z => if mem? session z.sessions then z.answer code (Config.identity code s.tick) else z
def execSpdmKeyUpdate (session : Nat) (s : State) : Host.Outcome State Fault Refusal :=
  .next (sessionAnswer s session 0xE9)
def execSpdmHeartbeat (session : Nat) (s : State) : Host.Outcome State Fault Refusal :=
  .next (sessionAnswer s session 0xE8)

/-- END_SESSION: the session's stream keys go with it. -/
def execSpdmEndSession (session : Nat) (s : State) : Host.Outcome State Fault Refusal :=
  .next (spdm s fun z =>
    if mem? session z.sessions then
      { z.answer 0xEC (Config.identity 0xEC s.tick) with
        sessions := delNat session z.sessions, streams := z.streams.filter (·.2 != session) }
    else z)

/-- IDE_KM: the keys of one of the 16 selective streams, over a session (R26). -/
def execIdeKm (session stream : Nat) (s : State) : Host.Outcome State Fault Refusal :=
  .next (spdm s fun z =>
    if mem? session z.sessions && decide (stream < 16) then
      { z with streams := Tab.insert stream session (Tab.erase stream z.streams) }
    else z)

/-- DOE discovery (R26): the mailbox carries discovery, SPDM and secured SPDM, types 0 to 2 of the PCI-SIG's vendor number
with the index of the next entry above them (PRESUMED, log entry 75). -/
def doeDiscover (s : State) (index : Nat) : State :=
  spdm s fun z => z.answer 0x200 (if index < 3 then 1 + 2 ^ 16 * index + 2 ^ 24 * ((index + 1) % 3) else 0xFFFF)

end Sys2Proof.Machine
end

