-- ==== Sys2Proof/Machine/Links.lean ====
section
/-! DEFINITION. The package: bring-up and standby (R10 to R13, R22 to R24), errors counted in windows (R14), and the
Flausk ports with their repairs (R15 to R21). A step that is not due changes nothing (log entry 5). -/

namespace Sys2Proof.Machine

/-! ### Negotiation (R16, R22, R23) -/

/-- What a port and its partner agree on; this port offers every rate, 8 lanes, interleaved FEC and its spare. A partner
that does not answer is asked again; one that fails leaves STATE 4. At 4 lanes lanes 0 to 3 carry the traffic (log
entry 60). -/
def negotiated (p : Port) (r : PartnerReply) : Port :=
  match r with
  | .silent => { p with state := 1 }
  | .failed => { p with state := 4 }
  | .offer fast wide il spare =>
    { p with state := 2, half := !fast, lanes4 := !wide, fecIl := il, spareOk := spare, spareIn := false,
             carry := upto 0 (if wide then 8 else 4) }

/-- A port fails: its outstanding writes are acknowledged as failed (R19, R258), and the messages that it was carrying
are lost; the FLOW.PUT of each then completes unsent (R391). -/
def portFails (s : State) (n : Nat) : State :=
  let mine := s.unacked.filter fun u => u.port == some n
  let s1 := s.setPort n { s.port n with state := 4, moving := none, deferred := [], asked := [], served := none, buffer := [] }
  let s2 := mine.foldl (fun s u => (s.countErr 8).modGroup u.key fun g => { g with acks := g.acks - 1 }) s1
  { s2 with unacked := s2.unacked.filter fun u => !(u.port == some n),
            messages := s2.messages.filter fun m => !(m.outPort == some n) }

/-- PEER_PORT_NEGOTIATION: due for a port that is down or negotiating, while the peer PHY is powered. -/
def negotiatePort (s : State) (n : Nat) (r : PartnerReply) : State :=
  if s.module.up && islandOn s 7 && decide ((s.port n).state ≤ 1) && (s.port n).failedLanes.isEmpty then
    (if r == .failed then portFails s n else s.setPort n (negotiated (s.port n) r))
  else s

def execPeerPortNegotiation (port : Fin 16) (reply : PartnerReply) (s : State) : Host.Outcome State Fault Refusal :=
  .next (negotiatePort s port reply)

/-- NEGOTIATION_RETRY_TIMER: the same again for a port whose partner did not answer. -/
def execNegotiationRetryTimer (port : Fin 16) (reply : PartnerReply) (s : State) : Host.Outcome State Fault Refusal :=
  .next (if (s.port port).state = 1 then negotiatePort s port reply else s)

/-! ### Power (R10 to R13) -/

/-- The highest frequency of an island in MHz, where the spec bounds it (R9, R13). -/
def capOf (i : Nat) : Option Nat :=
  if i = 1 then none else if i = 0 ∨ i = 6 ∨ i = 7 then some 1500 else some 2000

/-- A frequency under an island's bound. -/
def bounded (i mhz : Nat) : Nat :=
  match capOf i with
  | some c => min c mhz
  | none => mhz

def setIsland (s : State) (i : Nat) (x : Island) : State :=
  { s with module := { s.module with islands := Tab.set {} s.module.islands i x } }

/-- The voltage of an island, in mV, that firmware sets with a frequency: a free value. -/
def islandMv (s : State) (i : Nat) : Nat := Config.sensor (200 + i) s.tick % 2 ^ 16

/-- An island is powered on, at a frequency and a voltage that firmware sets. -/
def islandUp (s : State) (i : Nat) : State :=
  if islandOn s i then s
  else setIsland s i { on := true, mhz := bounded i (Config.sensor (500 + i) s.tick % 2 ^ 16), mv := islandMv s i }

/-- The place of an island in the power-on order (R10). -/
def islandRank (i : Nat) : Nat :=
  if i < 2 then i else if i < 6 then 2 else if i = 6 then 3 else if i = 7 then 4 else 5

/-- Whether the order of R10 lets an island be powered on: every island of an earlier place is on; and off: every island
of a later place is off. -/
def mayPowerOn (s : State) (i : Nat) : Bool :=
  (upto 0 24).all fun j => decide (islandRank i ≤ islandRank j) || islandOn s j
def mayPowerOff (s : State) (i : Nat) : Bool :=
  (upto 0 24).all fun j => decide (islandRank j ≤ islandRank i) || !islandOn s j

/-- What outlasts the loss of power: the firmware slots with their measurements, the fused version, and what is not the
module's (R11). -/
def unpowered (s : State) : State :=
  { (State.reset) with
    zal := { slotA := s.zal.slotA, slotB := s.zal.slotB, verA := s.zal.verA, verB := s.zal.verB, measA := s.zal.measA,
             measB := s.zal.measB, active := s.zal.active, fusedSvn := s.zal.fusedSvn },
    mem := { host := s.mem.host, peer := s.mem.peer },
    nextGang := s.nextGang, agenda := s.agenda, tick := s.tick }

/-- POWER_INPUT_REMOVED. -/
def execPowerInputRemoved (s : State) : Host.Outcome State Fault Refusal :=
  .next (if s.module.powered then unpowered s else s)

/-- ENTER_STANDBY: Zalius refuses while any partition is valid; otherwise every island is off and PWR_OFF_REQ stands. -/
def standby (s : State) : State :=
  if !s.module.powered then s
  else if (upto 0 16).any fun p => (s.part p).valid then { s with zal := s.zal.answer 0x100 1 }
  else
    let s1 := s.modGroups fun g => { g with status := .stopped }
    { s1 with zal := s.zal.answer 0x100 0,
              module := { s.module with islands := [], pwrOffReq := true, up := false, visible := false } }

def execEnterStandby (s : State) : Host.Outcome State Fault Refusal := .next (standby s)

/-- ISLAND_FREQUENCY_CHANGE: timing only; never above an island's bound. -/
def execIslandFrequencyChange (island : Fin 24) (mhz : Nat) (s : State) : Host.Outcome State Fault Refusal :=
  .next (if islandOn s island then
    setIsland s island { on := true, mhz := bounded island mhz, mv := islandMv s island } else s)

/-- Whether a gang stands on the cores of a quadrant. -/
def quadrantBusy (s : State) (i : Nat) : Bool :=
  s.gangs.any fun g => g.life == .live && (spanCores g).any fun c => 8 + (c % 16 / 4 + 4 * (c / 16 / 4)) == i

/-- ISLAND_POWER_OFF: in the reverse of the power-on order; a quadrant goes off once no gang stands on it. What an
island holds does nothing while it is off (log entry 74): the control cores and Zalius (0), the base dies (1), the host's
and the peers' links (6, 7), and the cores of a quadrant. -/
def execIslandPowerOff (island : Fin 24) (s : State) : Host.Outcome State Fault Refusal :=
  .next (if s.module.powered && mayPowerOff s island && !quadrantBusy s island then setIsland s island {} else s)

/-- ISLAND_POWER_ON, in the order of R10. -/
def execIslandPowerOn (island : Fin 24) (s : State) : Host.Outcome State Fault Refusal :=
  .next (if s.module.powered && !s.module.pwrOffReq && mayPowerOn s island then islandUp s island else s)

/-! ### Bring-up (R22, R24) -/

/-- Step 1: both slots are verified and measured; the active slot is the one that was, when it verifies, else the other
one; the event log starts, and the control cores do; the Alias certificate of this boot carries the measurements as they
then are (R45, R47, R352). At power-on no slot has been left, so that PREV reads its reset value. -/
def bootSlots (s : State) : State :=
  let z0 := { s.zal with fusedSvn := max s.zal.fusedSvn (min 64 Config.fusedSvnRaw) }
  let ok (b : Bool) : Bool := imgCheck z0 (z0.slot b) == 0
  let note (z : Zalius) (b : Bool) : Zalius :=
    if ok b then (z.setVerified b true).setMeas b (sha512 (imgWhole (z.slot b))) else z.setVerified b false
  let z1 := note (note z0 false) true
  let act := if ok z0.active then z0.active else !z0.active
  if !ok false && !ok true then { s with zal := z1, module := { s.module with recovery := true, fail := 1 } }
  else
    let svn := imgSvn (z1.slot act)
    let z2 := { z1 with active := act, prev := act, log := sha512 (leBytes 1 (b2n act) ++ leBytes 8 svn),
                        cdi := Config.compoundId (z1.meas act) }
    let z3 := { z2 with aliasMeas := (upto 1 5).map fun i => (measurement { s with zal := z2 } i).getD 0 }
    startCores { s with zal := z3 } (imgEntry (z1.slot act)) (w64 (b2n act * 2 ^ 8))

/-- Steps 2 and 3: the code of the failure that stops bring-up, or 0. -/
def trainingFail (badEdge badStack : Option Nat) : Nat :=
  match badEdge, badStack with
  | some e, _ => 0x10 + e
  | none, some k => 0x20 + k
  | none, none => 0

/-- The islands that are on: the quadrants only after the die-to-die links have trained (R22). -/
def islandsUp (s : State) (quadrants : Bool) : State :=
  (upto 0 (if quadrants then 24 else 8)).foldl islandUp s

/-- Step 5 for every port. -/
def portsUp (s : State) (partners : List PartnerReply) : State :=
  (upto 0 16).foldl (fun s n => s.setPort n (negotiated {} ((partners.drop n).headD .silent))) s

/-- Bring-up of an unpowered module. -/
def bringUp (s0 : State) (badEdge badStack : Option Nat) (pcieUp : Bool) (partners : List PartnerReply) : State :=
  let s1 := bootSlots (unpowered s0)
  let s2 := { s1 with module := { s1.module with powered := true, visible := pcieUp, upFrom := s0.tick, peakFrom := s0.tick,
                                                 modKeys := { k0 := drawKey s0.tick 8, k1 := drawKey s0.tick 10 } } }
  if s2.module.recovery then islandsUp s2 false
  else
    let f := trainingFail badEdge badStack
    let s3 := islandsUp s2 badEdge.isNone
    if f ≠ 0 then { s3 with module := { s3.module with fail := f } }
    else portsUp { s3 with module := { s3.module with up := true } } partners

/-- POWER_ON. -/
def execPowerOn (badEdge : Option (Fin 8)) (badStack : Option (Fin 12)) (pcieUp : Bool) (partners : List PartnerReply)
    (s : State) : Host.Outcome State Fault Refusal :=
  .next (if s.module.powered then s else bringUp s (badEdge.map (·.val)) (badStack.map (·.val)) pcieUp partners)

/-! ### The events of the classes (R14) -/

/-- ERROR_WINDOW_EXPIRY: the counter is cleared; a repair that is due stays due. -/
def execErrorWindowExpiry (cls : Fin 5) (resource : Nat) (s : State) : Host.Outcome State Fault Refusal :=
  .next (setWindow s cls resource 0)

/-- FABRIC_LANE_CRC_ERROR: at the threshold the lane's traffic goes to the redundant lane. -/
def execFabricLaneCrcError (lane : Nat) (s : State) : Host.Outcome State Fault Refusal :=
  let r := countFault s 1 lane 1
  .next (if r.2 then
    let t := repaired r.1 1 lane
    { t with module := { t.module with fabricSpare := addNat lane t.module.fabricSpare } }
  else r.1)

/-! ### Repairing a port (R17 to R19) -/

/-- The lowest-numbered lane of a port that works and carries no traffic. -/
def Port.freeLane (p : Port) : Option Nat :=
  (upto 0 9).find? fun l => !mem? l p.carry && !mem? l p.failedLanes && !mem? l p.deferred

/-- The repair of a lane starts: the spare at 8 lanes, a renegotiation at 4 lanes without one; at 4 lanes a working lane
that carries no traffic, provided the partner also has one, or the port fails. R19 fails the port when neither side has
such a lane and repairs it when both have; that it also fails when one side alone lacks one is the model's choice (log
entry 60). -/
def startRepair (s : State) (n lane : Nat) : State :=
  let p := s.port n
  let q := { p with deferred := p.deferred.filter (· != lane), failedLanes := addNat lane p.failedLanes }
  if p.state ≠ 2 then s
  else if !p.lanes4 then
    (if p.spareOk && !p.spareIn then s.setPort n { q with state := 3, moving := some lane }
     else s.setPort n { q with state := 1 })
  else if q.freeLane.isSome && Config.partnerLane n s.tick then s.setPort n { q with state := 3, moving := some lane }
  else portFails (s.setPort n q) n

/-- A lane has reached its threshold; with a replay outstanding the repair waits (R18), and behind another repair. -/
def laneLasting (s : State) (n lane : Nat) : State :=
  let p := s.port n
  let s1 := repaired (s.setPort n { p with lasting := min 255 (p.lasting + 1) }) 0 (16 * n + lane)
  if p.replaying || p.state == 3 then
    (if mem? lane p.deferred || p.moving == some lane then s1
     else s1.setPort n { s1.port n with deferred := p.deferred ++ [lane] })
  else startRepair s1 n lane

/-- Every flit that is not acknowledged is sent again. -/
def Port.resend (p : Port) : Port := { p with sent := p.buffer }

/-- The receiver asks for a replay from a flit's sequence number on. -/
def askReplay (s : State) (n seq : Nat) : State :=
  let p := s.port n
  s.setPort n (if p.state = 2 ∨ p.state = 3 then { p with asked := p.asked ++ [seq] } else p)

/-- FLIT_RECEIVE: the next flit in order is taken; an older one is a duplicate; a CRC error counts against its lane,
when it carries traffic, and asks for a replay from that flit on. The error is counted, and a repair that it starts is
begun or put off, on the replays outstanding when the flit comes. -/
def flitIn (s : State) (n lane seq : Nat) (ok : Bool) : State :=
  let p := s.port n
  if !islandOn s 7 || (p.state ≠ 2 && p.state ≠ 3) then s
  else if ok then (if seq = p.rxNext then s.setPort n { p with rxNext := seq + 1 } else s)
  else
    let r := if mem? lane p.carry then countFault s 0 (16 * n + lane) 1 else (s, false)
    askReplay (if r.2 then laneLasting r.1 n lane else r.1) n seq

def execFlitReceive (port : Fin 16) (lane : Fin 9) (seq : Nat) (crcOk : Bool) (s : State) :
    Host.Outcome State Fault Refusal := .next (flitIn s port lane seq crcOk)

/-- FLIT_ACKNOWLEDGE: the flits up to `seq` leave the replay buffer. -/
def execFlitAcknowledge (port : Fin 16) (seq : Nat) (s : State) : Host.Outcome State Fault Refusal :=
  let p := s.port port
  .next (s.setPort port { p with buffer := p.buffer.filter fun f => decide (seq < f) })

/-- REPLAY_REQUEST: the sender sends the flits from `seq` on again. -/
def execReplayRequest (port : Fin 16) (seq : Nat) (s : State) : Host.Outcome State Fault Refusal :=
  let p := s.port port
  .next (if p.state = 2 ∨ p.state = 3 then
    s.setPort port { p with served := some seq, sent := p.buffer.filter fun f => decide (seq ≤ f) } else s)

/-- The repair that has waited longest proceeds. -/
def proceed (s : State) (n : Nat) : State :=
  match (s.port n).deferred with
  | lane :: _ => startRepair s n lane
  | [] => s

/-- REPLAY_COMPLETE: the port's replays are complete, the one that it asked for and the one that it serves (log
entry 60). -/
def execReplayComplete (port : Fin 16) (s : State) : Host.Outcome State Fault Refusal :=
  let p := s.port port
  .next (if p.replaying then proceed (s.setPort port { p with asked := [], served := none }) port else s)

/-- REPAIR_DEFER_TIMEOUT: 1 ms has passed. -/
def execRepairDeferTimeout (port : Fin 16) (s : State) : Host.Outcome State Fault Refusal := .next (proceed s port)

/-- The lane's traffic moves to the spare at 8 lanes, at 4 lanes to the lowest-numbered free lane. -/
def Port.move (p : Port) : Port :=
  let to' := if p.lanes4 then p.freeLane.getD 8 else 8
  { p with state := 2, moving := none, spareIn := true,
           carry := p.carry.map fun l => if p.moving = some l then to' else l }

/-- QUIESCE_END: the lane's traffic is moved and the unacknowledged flits are sent again. -/
def execQuiesceEnd (port : Fin 16) (s : State) : Host.Outcome State Fault Refusal :=
  let p := s.port port
  let s1 := s.setPort port p.move.resend
  .next (if p.state = 3 then (if p.replaying then s1 else proceed s1 port) else s)

/-- RENEGOTIATE_4_LANES: due for a port that lost a lane at 8 lanes and has no spare. The four lowest-numbered lanes
that work carry the traffic from then on (log entry 60). -/
def renegotiate (s : State) (n : Nat) (r : PartnerReply) : State :=
  let p := s.port n
  let bad := p.deferred.foldl (fun l x => addNat x l) p.failedLanes
  if p.state ≠ 1 ∨ p.failedLanes.isEmpty ∨ p.lanes4 then s
  else match r with
    | .silent => s
    | .failed => portFails s n
    | .offer fast _ il spare =>
      s.setPort n ({ p with state := 2, half := !fast, lanes4 := true, fecIl := il, spareOk := spare, spareIn := false,
                            deferred := [], failedLanes := bad,
                            carry := ((upto 0 9).filter fun l => !mem? l bad).take 4 }).resend

def execRenegotiate4Lanes (port : Fin 16) (reply : PartnerReply) (s : State) : Host.Outcome State Fault Refusal :=
  .next (renegotiate s port reply)

end Sys2Proof.Machine
end

