-- ==== Sys2Proof/Machine/MemErr.lean ====
section
/-! DEFINITION. Errors of the memories and their repair (R168, R186 to R188), the patrol scrub and the rotation of keys
(R53, R183 to R185). A step that is not due changes nothing (log entry 5). -/

namespace Sys2Proof.Machine

/-! ### HBM errors (R14, R186) -/

/-- The base dies are powered: they correct, repair and scrub. -/
def baseOn (s : State) : Bool := islandOn s 1

/-- Names of a lane and a row among the resources of their classes. -/
def laneRes (stack lane : Nat) : Nat := stack + 12 * lane
def rowRes (stack bank row : Nat) : Nat := stack + 12 * (bank + 2 ^ 16 * row)

/-- HBM_CORRECTED_ERROR: the row, the line and the interface lane each count it. -/
def execHbmCorrectedError (pa lane : Nat) (s : State) : Host.Outcome State Fault Refusal :=
  let (bank, row) := Config.hbmRow pa
  let s1 := (countFault s 3 (rowRes (stackOf pa) (bank % 2 ^ 16) row) 1).1
  let s2 := (countFault s1 2 (laneRes (stackOf pa) (lane % 2048)) 1).1
  .next (if pa < devTop ∧ baseOn s = true then lineError s2 pa 1 else s)

/-- HBM_UNCORRECTABLE_ERROR. -/
def execHbmUncorrectableError (pa : Nat) (s : State) : Host.Outcome State Fault Refusal :=
  .next (if pa < devTop ∧ baseOn s = true then poisonLine s pa else s)

/-- ROW_SPARING: due for a row whose fault is lasting, while its bank has one of its 4 spare rows. -/
def execRowSparing (stack : Fin 12) (bank row : Nat) (s : State) : Host.Outcome State Fault Refusal :=
  let k := s.stack stack
  let res := rowRes stack (bank % 2 ^ 16) row
  let used := (k.rowSpares.filter (·.1 == bank % 2 ^ 16)).length
  .next (if baseOn s && repairDue s 3 res && decide (used < 4) then
    (repaired s 3 res).setStack stack { k with rowSpares := k.rowSpares ++ [(bank % 2 ^ 16, row)] } else s)

/-- LANE_SPARE: due for an interface lane whose fault is lasting. -/
def execLaneSpare (stack : Fin 12) (lane : Nat) (s : State) : Host.Outcome State Fault Refusal :=
  let k := s.stack stack
  let res := laneRes stack (lane % 2048)
  .next (if baseOn s && repairDue s 2 res then
    (repaired s 2 res).setStack stack { k with laneSpare := addNat (lane % 2048) k.laneSpare } else s)

/-! ### SRAM errors (R188) -/

/-- The gang and its granule that a granule of a core's accumulator store belongs to: gangs hold theirs in the order they
were placed. -/
def granuleOf (row : Nat) : List (Nat × Nat × Nat) → Option (Nat × Nat × Nat)
  | [] => none
  | (uid, ix, n) :: t => if row < n then some (uid, ix, row) else granuleOf (row - n) t

/-- The gangs on a core with the granules that they hold there. -/
def granulesOn (s : State) (c : Nat) : List (Nat × Nat × Nat) :=
  (gangsOn s c).flatMap fun g => ((upto 0 (g.spw * g.sph)).filter fun ix => g.coreNum ix == c).map fun ix =>
    (g.uid, ix, (g.on ix).granules)

/-- What a double error poisons. -/
def spoil (s : State) (site : SramSite) : State :=
  match site with
  | .line pa => if pa < devTop then s.setMem (s.mem.taint pa) else s
  | .localLine uid core line => s.modGang uid fun g =>
      if core < g.spw * g.sph ∧ 128 * line < g.lmemBytes then
        g.setOn core { g.on core with lpoison := addNat line (g.on core).lpoison } else g
  | .vreg key r lanes => s.modGroup key fun g =>
      if r < 8 * 96 then ((upto 0 32).filter (bit lanes)).foldl (fun g l => g.setV r l { g.getV r l with p := true }) g else g
  | .sreg key r => s.modGroup key fun g => if r < 128 then g.setS r { g.getS r with p := true } else g
  | .granule c row => match granuleOf row (granulesOn s c) with
    | some (uid, ix, n) => s.modGang uid fun g =>
        g.setOn ix { g.on ix with accInvalid := addNat n (g.on ix).accInvalid }
    | none => s
  | .bank c b => s.setCore c (if b then { s.core c with mb1 := { (s.core c).mb1 with invalid := true } }
      else { s.core c with mb0 := { (s.core c).mb0 with invalid := true } })
  | .graph p h => dropGraphs (s.modPart p fun q =>
      { q with graphs := q.graphs.map fun g => if g.handle = h then { g with removed := true } else g }) p

/-- SRAM_ERROR: a single error is corrected and counted, a double one poisons. -/
def execSramError (site : SramSite) (double : Bool) (s : State) : Host.Outcome State Fault Refusal :=
  .next (if double then spoil (s.countErr 6) site else s.countErr 5)

/-! ### The patrol scrub (R183 to R185) and key rotation (R53) -/

/-- Bytes of a stack's storage. -/
def stackBytes : Nat := 60 * gib

/-- Every scrubber starts a pass. -/
def startPass (s : State) : State :=
  { s with hbm := ((upto 0 12).map fun n => (n, { s.stack n with wm := 0, running := true, done := false })),
           module := { s.module with scrubLate := false } }

/-- SCRUB_PERIOD_BOUNDARY: a pass that has not ended delays the next one. -/
def execScrubPeriodBoundary (s : State) : Host.Outcome State Fault Refusal :=
  .next (if !s.module.powered then s
    else if (upto 0 12).all fun n => !(s.stack n).running && !(s.stack n).done then startPass s
    else { s with module := { s.module with scrubLate := true } })

/-- The next slot becomes current, and the other one is filled anew (R53). -/
def KeyPair.rotate (k : KeyPair) (fresh : KeySlot) : KeyPair :=
  if k.cur % 2 = 0 then { k with cur := 1, k0 := fresh } else { k with cur := 0, k1 := fresh }

/-- All twelve stacks are done: the keys of the partitions and the module key rotate, the watermarks return to 0, and a pass
that had to wait starts. -/
def rotateKeys (s : State) : State :=
  let s1 := (upto 0 16).foldl (fun s p => s.modPart p fun q => match q.keys with
    | some k => { q with keys := some { k with mem := k.mem.rotate (drawKey s.tick (12 + 2 * p)) }, kver := q.kver + 1 }
    | none => q) s
  let s2 := { s1 with hbm := (upto 0 12).foldl (fun m n =>
                        Tab.set {} m n { s1.stack n with wm := 0, running := false, done := false }) s1.hbm,
                      module := { s1.module with modKeys := s1.module.modKeys.rotate (drawKey s.tick 44) } }
  if s2.module.scrubLate then startPass s2 else s2

/-- SCRUB_LINE_STEP: the tag of the next line of a running pass is checked, and the watermark moves past it, so that the
line is from then on under the next slot, with a new tag (R184); at the end DONE. The cache layer's copies of R169 hold
what storage holds and are not kept apart. -/
def scrubStep (s0 : State) (n : Nat) : State :=
  if !(s0.stack n).running || !baseOn s0 then s0
  else
    let s := checkLine s0 (stackPa n (s0.stack n).wm / 128)
    let k := s.stack n
    let wm := k.wm + 128
    if wm < stackBytes then s.setStack n { k with wm }
    else
      let s1 := s.setStack n { k with wm, running := false, done := true, passes := (k.passes + 1) % 256 }
      if (upto 0 12).all fun i => (s1.stack i).done then rotateKeys s1 else s1

def execScrubLineStep (stack : Fin 12) (s : State) : Host.Outcome State Fault Refusal := .next (scrubStep s stack)

/-- SCRUB_PERIOD_SET: 1 to 168 hours; the spec does not say what a period outside them does, and here it is ignored and the
old one stays (DESIGN CHOICE, log entry 59). -/
def execScrubPeriodSet (hours : Nat) (s : State) : Host.Outcome State Fault Refusal :=
  .next (if 1 ≤ hours ∧ hours ≤ 168 then { s with module := { s.module with scrubHours := hours } } else s)

end Sys2Proof.Machine
end

