-- ==== Sys2Proof/Machine/Coherence.lean ====
section
/-! DEFINITION. What the homes do on their own: token requests (R192), contended lines and their merge (R194, R195),
migrating pages (R207, R208), hotness reports (R209 to R211), and flow messages of the peers (R259, R390 to R392). A
step that is not due changes nothing (log entry 5). -/

namespace Sys2Proof.Machine

/-! ### Tokens (R192) -/

/-- Failed transient requests of an agent for a line. -/
def failuresOf (c : Coherence) (agent line : Nat) : Nat :=
  ((c.failures.find? fun x => x.1 == agent && x.2.1 == line).map (·.2.2)).getD 0
def setFailures (c : Coherence) (agent line n : Nat) : Coherence :=
  let others := c.failures.filter fun x => !(x.1 == agent && x.2.1 == line)
  { c with failures := if n = 0 then others else others ++ [(agent, line, n)] }

/-- TRANSIENT_REQUEST_TIMEOUT: a transient request fails. -/
def execTransientRequestTimeout (agent line : Nat) (s : State) : Host.Outcome State Fault Refusal :=
  .next { s with coh := setFailures s.coh agent line (min 4 (failuresOf s.coh agent line + 1)) }

/-- PERSISTENT_REQUEST: after 4 failures the agent enters the table, one entry for each agent. The oldest entry of a line
is its winner: tokens go to it until its access completes, and it leaves the table. -/
def persist (c : Coherence) (agent line : Nat) : Coherence :=
  if (c.persistent.find? fun x => x.2 == line) = some (agent, line) then
    { c with persistent := c.persistent.filter (· != (agent, line)) }
  else if c.persistent.any (·.1 == agent) || decide (failuresOf c agent line < 4) then c
  else { setFailures c agent line 0 with persistent := c.persistent ++ [(agent, line)] }

def execPersistentRequest (agent line : Nat) (s : State) : Host.Outcome State Fault Refusal :=
  .next { s with coh := persist s.coh agent line }

/-! ### Contended lines (R194, R195) -/

/-- LINE_CONTENDED: a line of device storage is privatised from here on, unless a merge of it lies less than 10 µs back. -/
def execLineContended (line : Nat) (s : State) : Host.Outcome State Fault Refusal :=
  let rests := s.coh.quiet.any fun x => x.1 == line && !Config.tenMicroseconds x.2 s.tick
  .next (if (s.contendedAt line).isSome || decide (devTop ≤ 128 * line) || rests then s
    else { s with coh := { s.coh with contended := s.coh.contended ++ [{ line }],
                                      quiet := s.coh.quiet.filter (·.1 != line) } })

/-- DIRECTORY_MERGE: due once a die has read or written a byte that another one wrote. -/
def execDirectoryMerge (line : Nat) (s : State) : Host.Outcome State Fault Refusal :=
  .next (match s.contendedAt line with
    | some c => if c.conflict then mergeLine s line else s
    | none => s)

/-! ### Migrating pages (R208) -/

/-- The leaf's MIG is cleared, the entry is freed and the completion word is written, once every line is valid. -/
def finishMigration (s : State) (m : Migration) : State :=
  if m.valid.length < 512 then s
  else
    let s1 := { s with migrations := s.migrations.filter (· != m) }
    let s2 := s1.pokeWord (.dev m.leafPa) (s1.homeWord m.leafPa &&& 0xFF7FFFFFFFFFFFFF)
    match lookIn s2 m.part m.wordAsid m.word .write with
    | .ok l _ => s2.pokeWord l 1
    | .bad _ => s2

/-- A line is copied. -/
def moveLine (s : State) (m : Migration) (line : Nat) (dmaOk : Bool) : State :=
  finishMigration (copyLine s m line dmaOk) { m with valid := addNat line m.valid }

/-- MIGRATION_LINE_COPY: due for a line whose valid bit is clear. -/
def execMigrationLineCopy (entry line : Nat) (dmaOk : Bool) (s : State) : Host.Outcome State Fault Refusal :=
  .next (match s.migrations.drop entry with
    | m :: _ => if decide (line < 512) && !mem? line m.valid then moveLine s m line dmaOk else s
    | [] => s)

/-- MIGRATION_SWEEP_LINE: the lowest line that is still invalid; with none left the migration ends. -/
def execMigrationSweepLine (entry : Nat) (dmaOk : Bool) (s : State) : Host.Outcome State Fault Refusal :=
  .next (match s.migrations.drop entry with
    | m :: _ => match (upto 0 512).find? fun i => !mem? i m.valid with
      | some i => moveLine s m i dmaOk
      | none => finishMigration s m
    | [] => s)

/-! ### Hotness reports (R209 to R211) -/

/-- A report on its way to the fault queue. -/
def report (s : State) (p : Nat) (w1 w2 w3 w4 w5 : Nat) : State :=
  let e : Entry := { toHost := true, fn := driverOf s p, slot := 0, words := [entryWord0 2 0 p, w64 w1, w64 w2, w64 w3, w64 w4, w64 w5, 0, 0] }
  s.modPart p fun q => { q with entries := q.entries ++ [e] }

/-- Whether a window contradicts a REUSE hint. -/
def contradicts (hint misses count : Nat) : Bool :=
  (hint == 2 && decide (count < 2 * misses)) || ((hint == 1 || hint == 3) && decide (8 * misses < count))

/-- HOTNESS_WINDOW: the window of one of a running gang's slots ends; a slot is reported at most once in 64 windows. -/
def execHotnessWindow (gang slot misses count : Nat) (s : State) : Host.Outcome State Fault Refusal :=
  let g := s.gang gang
  let t := s.task g.task
  let rest := Tab.get 0 t.reported slot - 1
  let note (s : State) (n : Nat) : State := s.modTask g.task fun t => { t with reported := Tab.set 0 t.reported slot n }
  .next (if g.life != .live then s
    else match t.slots.drop slot with
      | x :: _ =>
        if contradicts x.reuse misses count && rest == 0 then
          report (note s 64) g.task.part (2 ^ 56 + x.reuse * 2 ^ 54) (x.base.toNat % 2 ^ 56) (x.len % 2 ^ 40)
            (taskRecord (s.launch g.task.part g.task.launch) g.task).toNat (misses % 2 ^ 32 * 2 ^ 32 + count % 2 ^ 32)
        else note s rest
      | [] => s)

/-- Whether the memory-side table counts the accesses to a partition's blocks: firmware may have enabled it while the
module comes up, in recovery and in a module fused for test, and so may a partition whose policy opens PROFILE (R210); the
spec names no register that does, so that whether they have is free. -/
def tableOn (s : State) (p : Option Nat) : Bool :=
  let firmware := !s.module.up || s.module.recovery || Config.fwDebugFuse
  let profile := match p with | some p => bit (s.part p).policy.mask 1 | none => false
  (firmware || profile) && Config.tablesEnabled s.tick

/-- A remote requester of a stack: another die, or a peer port (R210, R211). -/
def isRemote (stack req : Nat) : Bool := decide ((req < 4 ∧ req ≠ stack / 3) ∨ (0x10 ≤ req ∧ req < 0x20))

/-- MEMORY_SIDE_COUNTER_REPORT: one more access of a remote requester to a block of a stack's die region; at the threshold
a report goes out and the counter starts again. -/
def countBlock (s : State) (stack block req : Nat) : State :=
  let p := ownerOf s (65536 * block)
  if !tableOn s p || !isRemote stack req || homeDie (65536 * block) != stack / 3 then s
  else
    let same (b : BlockCount) : Bool := b.stack == stack && b.block == block && b.requester == req
    let n := ((s.blockCounts.find? same).map (·.count)).getD 0 + 1
    let others := s.blockCounts.filter fun b => !same b
    let top := Config.blockThreshold % 2 ^ 16
    if n < top then { s with blockCounts := others ++ [{ stack, block, requester := req, count := n }] }
    else
      let s1 := { s with blockCounts := others }
      match p with
      | some p => report s1 p (2 * 2 ^ 56 + req % 2 ^ 8 * 2 ^ 40) (65536 * block % 2 ^ 56) 65536 0 top
      | none => s1

def execMemorySideCounterReport (stack : Fin 12) (block requester : Nat) (s : State) : Host.Outcome State Fault Refusal :=
  .next (countBlock s stack block requester)

/-! ### Flow messages (R259, R390 to R392) -/

/-- The ring entry that a receive descriptor's next message takes, when the ring has room and its VA resolves. A content-named
region holds no descriptor, since only CN operations write it (R213). -/
def arrivalEntry (s : State) (flow : Nat) : Option Loc :=
  let rx := Loc.dev flow
  match ownerOf s flow with
  | none => none
  | some p =>
    if rxLogn s rx = 0 ∨ rxFull s rx = true ∨ s.homePoisoned flow = true ∨ inCn s flow 64 = true then none
    else match lookIn s p (Config.flowAsid flow % 4096) (ringEntry s rx (rxProd s rx)) .write with
      | .ok (.dev pa) _ => some (.dev pa)
      | _ => none

/-- A message of an unordered flow has been placed: its sequence number is kept as long as a duplicate may come, which is
while the flow's numbers lie within a quarter of R390's 32-bit range of it, before or behind (log entry 20). -/
def noteDelivered (l : List (Nat × Nat)) (flow seq : Nat) : List (Nat × Nat) :=
  (l.filter fun x => x.1 != flow || decide ((seq + 2 ^ 32 - x.2) % 2 ^ 32 < 2 ^ 30 ∨ (x.2 + 2 ^ 32 - seq) % 2 ^ 32 < 2 ^ 30))
    ++ [(flow, seq)]

/-- The messages of a flow that have arrived go into its ring: in ordered mode the next in sequence, in unordered mode
the oldest. -/
def placeArrived (flow : Nat) : (fuel : Nat) → State → State
  | 0, s => s
  | n + 1, s =>
    let due (m : Message) : Bool := m.flow == flow && m.arrived && (!m.ordered || m.seq == rxNext s (.dev flow))
    match s.messages.find? due, arrivalEntry s flow with
    | some m, some e =>
      let s1 := { s with messages := s.messages.filter (· != m),
                         delivered := if m.ordered then s.delivered else noteDelivered s.delivered flow m.seq }
      placeArrived flow n (placeMessage s1 {} (.dev flow) e m.data)
    | _, _ => s

/-- Whether a message of a flow has been placed already: in ordered mode one before NEXT, in unordered mode one whose
number is kept. -/
def wasPlaced (s : State) (flow seq : Nat) : Bool :=
  let rx := Loc.dev flow
  if rxOrd s rx then decide ((rxNext s rx + 2 ^ 32 - seq) % 2 ^ 32 - 1 < 2 ^ 31 ∧ seq ≠ rxNext s rx)
  else s.delivered.any (· == (flow, seq))

/-- Whether an earlier message of an ordered flow has not been placed by its peer yet (R20, R259). -/
def outOfTurn (s : State) (m : Message) : Bool :=
  m.ordered && s.messages.any fun x => x.flow == m.flow && !x.placed && x.seq != m.seq
    && decide ((m.seq + 2 ^ 32 - x.seq) % 2 ^ 32 < 2 ^ 31)

/-- A peer has placed a message of this module, in ordered mode once those before it are placed, and its sender goes on; or
one of a peer's arrives: a duplicate is dropped. A descriptor whose OPEN is clear starts its flow anew. Nothing comes while
the peer PHY is not powered (R11, log entry 74). -/
def arrive (s : State) (flow seq : Nat) (data : List Byte) : State :=
  if !islandOn s 7 then s
  else if devTop ≤ flow then
    { s with messages := s.messages.filterMap fun m =>
        if m.flow == flow && m.seq == seq && !outOfTurn s m then
          (if s.groups.any fun g => some g.key == m.sender then some { m with placed := true } else none)
        else some m }
  else
    let rx := Loc.dev flow
    let s0 := if bit (s.wordAt rx 0) 63 then s else { s with delivered := s.delivered.filter (·.1 != flow) }
    let s1 := if wasPlaced s0 flow seq || s0.messages.any (fun m => m.flow == flow && m.seq == seq) then s0
      else { s0 with messages := s0.messages ++
        [{ flow, seq, data := (data ++ leBytes 128 0).take 128, ordered := rxOrd s0 rx, arrived := true }] }
    placeArrived flow s1.messages.length s1

/-- FLOW_MESSAGE_ARRIVAL. -/
def execFlowMessageArrival (flow seq : Nat) (data : List Byte) (s : State) : Host.Outcome State Fault Refusal :=
  .next (arrive s flow (seq % 2 ^ 32) data)

end Sys2Proof.Machine
end

