-- ==== Sys2Proof/Machine/Dispatch.lean ====
section
/-! DEFINITION. The dispatcher: one arm per row of the opcode table. -/

namespace Sys2Proof.Machine

/-- The meaning of each instruction, and of each step of the module's other agents and of the outside world. -/
def exec (i : Instr) (s : State) : Host.Outcome State Fault Refusal :=
  match i with
  | .add h t d a b => Sys2Proof.Machine.execAdd h t d a b s
  | .sub h t d a b => Sys2Proof.Machine.execSub h t d a b s
  | .addi h d a imm => Sys2Proof.Machine.execAddi h d a imm s
  | .mul h t d a b => Sys2Proof.Machine.execMul h t d a b s
  | .mulh h t d a b => Sys2Proof.Machine.execMulh h t d a b s
  | .mulodd h t d a b => Sys2Proof.Machine.execMulodd h t d a b s
  | .div h t d a b => Sys2Proof.Machine.execDiv h t d a b s
  | .rem h t d a b => Sys2Proof.Machine.execRem h t d a b s
  | .and h t d a b => Sys2Proof.Machine.execAnd h t d a b s
  | .or h t d a b => Sys2Proof.Machine.execOr h t d a b s
  | .xor h t d a b => Sys2Proof.Machine.execXor h t d a b s
  | .andn h t d a b => Sys2Proof.Machine.execAndn h t d a b s
  | .not h t d a => Sys2Proof.Machine.execNot h t d a s
  | .neg h t d a => Sys2Proof.Machine.execNeg h t d a s
  | .shl h t d a b => Sys2Proof.Machine.execShl h t d a b s
  | .shr h t d a b => Sys2Proof.Machine.execShr h t d a b s
  | .sar h t d a b => Sys2Proof.Machine.execSar h t d a b s
  | .rol h t d a b => Sys2Proof.Machine.execRol h t d a b s
  | .ror h t d a b => Sys2Proof.Machine.execRor h t d a b s
  | .clz h t d a => Sys2Proof.Machine.execClz h t d a s
  | .ctz h t d a => Sys2Proof.Machine.execCtz h t d a s
  | .popc h t d a => Sys2Proof.Machine.execPopc h t d a s
  | .min h t d a b => Sys2Proof.Machine.execMin h t d a b s
  | .max h t d a b => Sys2Proof.Machine.execMax h t d a b s
  | .cmp h cc bit d a b => Sys2Proof.Machine.execCmp h cc bit d a b s
  | .bset h n d a b => Sys2Proof.Machine.execBset h n d a b s
  | .bclr h n d a b => Sys2Proof.Machine.execBclr h n d a b s
  | .bflip h n d a b => Sys2Proof.Machine.execBflip h n d a b s
  | .bext h pos lenm un d a => Sys2Proof.Machine.execBext h pos lenm un d a s
  | .bins h pos lenm d a => Sys2Proof.Machine.execBins h pos lenm d a s
  | .mov h t d a => Sys2Proof.Machine.execMov h t d a s
  | .swap h d a => Sys2Proof.Machine.execSwap h d a s
  | .sel h t d a b => Sys2Proof.Machine.execSel h t d a b s
  | .setk mark d f imm => Sys2Proof.Machine.execSetk mark d f imm s
  | .br h off => Sys2Proof.Machine.execBr h off s
  | .call h d off => Sys2Proof.Machine.execCall h d off s
  | .ret h a => Sys2Proof.Machine.execRet h a s
  | .loop h d off => Sys2Proof.Machine.execLoop h d off s
  | .nop h => Sys2Proof.Machine.execNop h s
  | .yield h => Sys2Proof.Machine.execYield h s
  | .halt h => Sys2Proof.Machine.execHalt h s
  | .trap h imm => Sys2Proof.Machine.execTrap h imm s
  | .commit h => Sys2Proof.Machine.execCommit h s
  | .revC h a => Sys2Proof.Machine.execRevC h a s
  | .revP h a => Sys2Proof.Machine.execRevP h a s
  | .xsrRd h x d a => Sys2Proof.Machine.execXsrRd h x d a s
  | .xsrWr h x a => Sys2Proof.Machine.execXsrWr h x a s
  | .regGrow h d a => Sys2Proof.Machine.execRegGrow h d a s
  | .regShrink h d a => Sys2Proof.Machine.execRegShrink h d a s
  | .svcResume h hlog d a => Sys2Proof.Machine.execSvcResume h hlog d a s
  | .svcResumeC h hlog d a b => Sys2Proof.Machine.execSvcResumeC h hlog d a b s
  | .svcResumeP h hlog d a b => Sys2Proof.Machine.execSvcResumeP h hlog d a b s
  | .svcKill h d a => Sys2Proof.Machine.execSvcKill h d a s
  | .svcCommit h d a => Sys2Proof.Machine.execSvcCommit h d a s
  | .svcMigrate h d a b => Sys2Proof.Machine.execSvcMigrate h d a b s
  | .svcPurge h all a b => Sys2Proof.Machine.execSvcPurge h all a b s
  | .qctlRd h d => Sys2Proof.Machine.execQctlRd h d s
  | .qctlQ h d => Sys2Proof.Machine.execQctlQ h d s
  | .qctlR h d => Sys2Proof.Machine.execQctlR h d s
  | .mboxSendVerify h a => Sys2Proof.Machine.execMboxSendVerify h a s
  | .mboxSendMeas h a => Sys2Proof.Machine.execMboxSendMeas h a s
  | .mboxRecv h d a => Sys2Proof.Machine.execMboxRecv h d a s
  | .wdogKick h a => Sys2Proof.Machine.execWdogKick h a s
  | .slotSel h d a => Sys2Proof.Machine.execSlotSel h d a s
  | .vadd h d a b => Sys2Proof.Machine.execVadd h d a b s
  | .vsub h d a b => Sys2Proof.Machine.execVsub h d a b s
  | .vaddi h d a imm => Sys2Proof.Machine.execVaddi h d a imm s
  | .vmul h d a b => Sys2Proof.Machine.execVmul h d a b s
  | .vmulh h un d a b => Sys2Proof.Machine.execVmulh h un d a b s
  | .vmulodd h d a b => Sys2Proof.Machine.execVmulodd h d a b s
  | .vmad h d a b => Sys2Proof.Machine.execVmad h d a b s
  | .vand h d a b => Sys2Proof.Machine.execVand h d a b s
  | .vor h d a b => Sys2Proof.Machine.execVor h d a b s
  | .vxor h d a b => Sys2Proof.Machine.execVxor h d a b s
  | .vandn h d a b => Sys2Proof.Machine.execVandn h d a b s
  | .vnot h d a => Sys2Proof.Machine.execVnot h d a s
  | .vneg h d a => Sys2Proof.Machine.execVneg h d a s
  | .vshl h d a b => Sys2Proof.Machine.execVshl h d a b s
  | .vshr h d a b => Sys2Proof.Machine.execVshr h d a b s
  | .vsar h d a b => Sys2Proof.Machine.execVsar h d a b s
  | .vrol h d a b => Sys2Proof.Machine.execVrol h d a b s
  | .vmin h un d a b => Sys2Proof.Machine.execVmin h un d a b s
  | .vmax h un d a b => Sys2Proof.Machine.execVmax h un d a b s
  | .vabs h d a => Sys2Proof.Machine.execVabs h d a s
  | .vcmp h cc bit d a b => Sys2Proof.Machine.execVcmp h cc bit d a b s
  | .vsel h d a b => Sys2Proof.Machine.execVsel h d a b s
  | .vmov h d a => Sys2Proof.Machine.execVmov h d a s
  | .vswap h d a => Sys2Proof.Machine.execVswap h d a s
  | .vclz h d a => Sys2Proof.Machine.execVclz h d a s
  | .vpopc h d a => Sys2Proof.Machine.execVpopc h d a s
  | .vbflip h d a b => Sys2Proof.Machine.execVbflip h d a b s
  | .vbext h un pos lenm d a => Sys2Proof.Machine.execVbext h un pos lenm d a s
  | .vbins h pos lenm d a => Sys2Proof.Machine.execVbins h pos lenm d a s
  | .vbcast h hi d a => Sys2Proof.Machine.execVbcast h hi d a s
  | .fadd h rm d a b => Sys2Proof.Machine.execFadd h rm d a b s
  | .fsub h rm d a b => Sys2Proof.Machine.execFsub h rm d a b s
  | .fmul h rm d a b => Sys2Proof.Machine.execFmul h rm d a b s
  | .ffma h rm d a b => Sys2Proof.Machine.execFfma h rm d a b s
  | .fmin h d a b => Sys2Proof.Machine.execFmin h d a b s
  | .fmax h d a b => Sys2Proof.Machine.execFmax h d a b s
  | .fcmp h cc bit d a b => Sys2Proof.Machine.execFcmp h cc bit d a b s
  | .fexp2 h rm d a => Sys2Proof.Machine.execFexp2 h rm d a s
  | .flog2 h rm d a => Sys2Proof.Machine.execFlog2 h rm d a s
  | .frcp h rm d a => Sys2Proof.Machine.execFrcp h rm d a s
  | .frsq h rm d a => Sys2Proof.Machine.execFrsq h rm d a s
  | .fsqrt h rm d a => Sys2Proof.Machine.execFsqrt h rm d a s
  | .fdiv h rm d a b => Sys2Proof.Machine.execFdiv h rm d a b s
  | .frint h rm d a => Sys2Proof.Machine.execFrint h rm d a s
  | .fscale h rm d a b => Sys2Proof.Machine.execFscale h rm d a b s
  | .cvt h rm dt st sp dp d a => Sys2Proof.Machine.execCvt h rm dt st sp dp d a s
  | .hadd2 h rm f16 d a b => Sys2Proof.Machine.execHadd2 h rm f16 d a b s
  | .hmul2 h rm f16 d a b => Sys2Proof.Machine.execHmul2 h rm f16 d a b s
  | .hfma2 h rm f16 d a b => Sys2Proof.Machine.execHfma2 h rm f16 d a b s
  | .hmax2 h f16 d a b => Sys2Proof.Machine.execHmax2 h f16 d a b s
  | .lperm h d a b => Sys2Proof.Machine.execLperm h d a b s
  | .lshuf h m d a => Sys2Proof.Machine.execLshuf h m d a s
  | .lrot h n d a b => Sys2Proof.Machine.execLrot h n d a b s
  | .lbcast h n d a b => Sys2Proof.Machine.execLbcast h n d a b s
  | .lred h op ty rm d a => Sys2Proof.Machine.execLred h op ty rm d a s
  | .lscan h op ty rm d a => Sys2Proof.Machine.execLscan h op ty rm d a s
  | .lbits h bit d a => Sys2Proof.Machine.execLbits h bit d a s
  | .lspread h bit d a => Sys2Proof.Machine.execLspread h bit d a s
  | .ld h sz un d m => Sys2Proof.Machine.execLd h sz un d m s
  | .st h sz d m => Sys2Proof.Machine.execSt h sz d m s
  | .xchg h sz un d m => Sys2Proof.Machine.execXchg h sz un d m s
  | .vld h sz un d m => Sys2Proof.Machine.execVld h sz un d m s
  | .vst h sz d m => Sys2Proof.Machine.execVst h sz d m s
  | .vxchg h d m => Sys2Proof.Machine.execVxchg h d m s
  | .ldl h sz un d m => Sys2Proof.Machine.execLdl h sz un d m s
  | .stl h sz d m => Sys2Proof.Machine.execStl h sz d m s
  | .vldl h sz un d m => Sys2Proof.Machine.execVldl h sz un d m s
  | .vstl h sz d m => Sys2Proof.Machine.execVstl h sz d m s
  | .ldd h sz un d m => Sys2Proof.Machine.execLdd h sz un d m s
  | .gath h sz un d a b => Sys2Proof.Machine.execGath h sz un d a b s
  | .amo h op ord sc sz d a b => Sys2Proof.Machine.execAmo h op ord sc sz d a b s
  | .cas h ord sc sz d a b => Sys2Proof.Machine.execCas h ord sc sz d a b s
  | .red h op rel sc d a b => Sys2Proof.Machine.execRed h op rel sc d a b s
  | .stMc h n d a off => Sys2Proof.Machine.execStMc h n d a off s
  | .flowPut h d a off => Sys2Proof.Machine.execFlowPut h d a off s
  | .flowGet h d a off => Sys2Proof.Machine.execFlowGet h d a off s
  | .fence h ord sc => Sys2Proof.Machine.execFence h ord sc s
  | .barInit h k a => Sys2Proof.Machine.execBarInit h k a s
  | .barArv h k => Sys2Proof.Machine.execBarArv h k s
  | .barWait h k bit d => Sys2Proof.Machine.execBarWait h k bit d s
  | .ringPutClaim h r d => Sys2Proof.Machine.execRingPutClaim h r d s
  | .ringPut h r a => Sys2Proof.Machine.execRingPut h r a s
  | .ringGet h r d => Sys2Proof.Machine.execRingGet h r d s
  | .ringGetDone h r a => Sys2Proof.Machine.execRingGetDone h r a s
  | .ringPeek h r bit d => Sys2Proof.Machine.execRingPeek h r bit d s
  | .stageAdv h imm a => Sys2Proof.Machine.execStageAdv h imm a s
  | .wpWait h w imm d => Sys2Proof.Machine.execWpWait h w imm d s
  | .sbWait h a => Sys2Proof.Machine.execSbWait h a s
  | .earlyTrig h p => Sys2Proof.Machine.execEarlyTrig h p s
  | .detSync h => Sys2Proof.Machine.execDetSync h s
  | .tcBind h a b => Sys2Proof.Machine.execTcBind h a b s
  | .tcProbe h bit d a b => Sys2Proof.Machine.execTcProbe h bit d a b s
  | .tcPf h self mask d a => Sys2Proof.Machine.execTcPf h self mask d a s
  | .tcSub h d a b => Sys2Proof.Machine.execTcSub h d a b s
  | .tcInv h discard a => Sys2Proof.Machine.execTcInv h discard a s
  | .tcKeep h n a => Sys2Proof.Machine.execTcKeep h n a s
  | .cnPut h node r d a => Sys2Proof.Machine.execCnPut h node r d a s
  | .cnGet h r d a => Sys2Proof.Machine.execCnGet h r d a s
  | .cnRef h r d => Sys2Proof.Machine.execCnRef h r d s
  | .cnDrop h r d => Sys2Proof.Machine.execCnDrop h r d s
  | .cnRoot h ref r d a => Sys2Proof.Machine.execCnRoot h ref r d a s
  | .cnSwap h r d a b => Sys2Proof.Machine.execCnSwap h r d a b s
  | .cnOut h r k d a b => Sys2Proof.Machine.execCnOut h r k d a b s
  | .mbLd h bank kc a b => Sys2Proof.Machine.execMbLd h bank kc a b s
  | .mma h bank kc nm d a b => Sys2Proof.Machine.execMma h bank kc nm d a b s
  | .mloop h d a b => Sys2Proof.Machine.execMloop h d a b s
  | .mmaBd h bank d a b => Sys2Proof.Machine.execMmaBd h bank d a b s
  | .accAlloc h ek d a b => Sys2Proof.Machine.execAccAlloc h ek d a b s
  | .accGrow h bit d a => Sys2Proof.Machine.execAccGrow h bit d a s
  | .accFree h a => Sys2Proof.Machine.execAccFree h a s
  | .accZero h a => Sys2Proof.Machine.execAccZero h a s
  | .accRd h d a b => Sys2Proof.Machine.execAccRd h d a b s
  | .accWr h d a b => Sys2Proof.Machine.execAccWr h d a b s
  | .accLd h a b => Sys2Proof.Machine.execAccLd h a b s
  | .accSt h dt a b => Sys2Proof.Machine.execAccSt h dt a b s
  | .accRscl h a b => Sys2Proof.Machine.execAccRscl h a b s
  | .mwait h d => Sys2Proof.Machine.execMwait h d s
  | .mstat h w d => Sys2Proof.Machine.execMstat h w d s
  | .powerOn badEdge badStack pcieUp partners => Sys2Proof.Machine.execPowerOn badEdge badStack pcieUp partners s
  | .peerPortNegotiation port reply => Sys2Proof.Machine.execPeerPortNegotiation port reply s
  | .negotiationRetryTimer port reply => Sys2Proof.Machine.execNegotiationRetryTimer port reply s
  | .enterStandby => Sys2Proof.Machine.execEnterStandby s
  | .islandFrequencyChange island mhz => Sys2Proof.Machine.execIslandFrequencyChange island mhz s
  | .flitReceive port lane seq crcOk => Sys2Proof.Machine.execFlitReceive port lane seq crcOk s
  | .flitAcknowledge port seq => Sys2Proof.Machine.execFlitAcknowledge port seq s
  | .replayComplete port => Sys2Proof.Machine.execReplayComplete port s
  | .repairDeferTimeout port => Sys2Proof.Machine.execRepairDeferTimeout port s
  | .quiesceEnd port => Sys2Proof.Machine.execQuiesceEnd port s
  | .renegotiate4Lanes port reply => Sys2Proof.Machine.execRenegotiate4Lanes port reply s
  | .errorWindowExpiry cls resource => Sys2Proof.Machine.execErrorWindowExpiry cls resource s
  | .fabricLaneCrcError lane => Sys2Proof.Machine.execFabricLaneCrcError lane s
  | .hbmCorrectedError pa lane => Sys2Proof.Machine.execHbmCorrectedError pa lane s
  | .hbmUncorrectableError pa => Sys2Proof.Machine.execHbmUncorrectableError pa s
  | .rowSparing stack bank row => Sys2Proof.Machine.execRowSparing stack bank row s
  | .laneSpare stack lane => Sys2Proof.Machine.execLaneSpare stack lane s
  | .sramError site double => Sys2Proof.Machine.execSramError site double s
  | .replayRequest port seq => Sys2Proof.Machine.execReplayRequest port seq s
  | .powerInputRemoved => Sys2Proof.Machine.execPowerInputRemoved s
  | .islandPowerOff island => Sys2Proof.Machine.execIslandPowerOff island s
  | .islandPowerOn island => Sys2Proof.Machine.execIslandPowerOn island s
  | .pwrPeakRead => Sys2Proof.Machine.execPwrPeakRead s
  | .trigger fn off split data => Sys2Proof.Machine.execTrigger fn off split data s
  | .triggerDequeue part => Sys2Proof.Machine.execTriggerDequeue part s
  | .gupChunk fn ctl => Sys2Proof.Machine.execGupChunk fn ctl s
  | .gupDiscard fn ctl => Sys2Proof.Machine.execGupDiscard fn ctl s
  | .gupPartialTimeout fn => Sys2Proof.Machine.execGupPartialTimeout fn s
  | .gupChunkTakenIn fn => Sys2Proof.Machine.execGupChunkTakenIn fn s
  | .fqBaseWrite fn val => Sys2Proof.Machine.execFqBaseWrite fn val s
  | .fqSizeWrite fn val => Sys2Proof.Machine.execFqSizeWrite fn val s
  | .fqConsWrite fn val => Sys2Proof.Machine.execFqConsWrite fn val s
  | .fqCmdResume fn slot => Sys2Proof.Machine.execFqCmdResume fn slot s
  | .fqCmdReverseContinue fn slot => Sys2Proof.Machine.execFqCmdReverseContinue fn slot s
  | .fqCmdReversePark fn slot => Sys2Proof.Machine.execFqCmdReversePark fn slot s
  | .fqCmdCommit fn slot => Sys2Proof.Machine.execFqCmdCommit fn slot s
  | .fqCmdKill fn slot => Sys2Proof.Machine.execFqCmdKill fn slot s
  | .fqCmdRejected fn val => Sys2Proof.Machine.execFqCmdRejected fn val s
  | .faultQueueWrite part => Sys2Proof.Machine.execFaultQueueWrite part s
  | .parkQueueWrite part => Sys2Proof.Machine.execParkQueueWrite part s
  | .dpCtlSubmit vf => Sys2Proof.Machine.execDpCtlSubmit vf s
  | .policyVerifyComplete vf => Sys2Proof.Machine.execPolicyVerifyComplete vf s
  | .partCfgWrite part word val => Sys2Proof.Machine.execPartCfgWrite part word val s
  | .partitionPrepareDone part => Sys2Proof.Machine.execPartitionPrepareDone part s
  | .fwStage ctl => Sys2Proof.Machine.execFwStage ctl s
  | .fwVerify ctl => Sys2Proof.Machine.execFwVerify ctl s
  | .fwCommitSvn ctl => Sys2Proof.Machine.execFwCommitSvn ctl s
  | .fwCommandComplete => Sys2Proof.Machine.execFwCommandComplete s
  | .fwdResume => Sys2Proof.Machine.execFwdResume s
  | .fwdStop => Sys2Proof.Machine.execFwdStop s
  | .fwdBreakHit core => Sys2Proof.Machine.execFwdBreakHit core s
  | .registerWrite w eight val => Sys2Proof.Machine.execRegisterWrite w eight val s
  | .setTenantKey part key => Sys2Proof.Machine.execSetTenantKey part key s
  | .setDigestKey part key => Sys2Proof.Machine.execSetDigestKey part key s
  | .lockInterfaceRequest part => Sys2Proof.Machine.execLockInterfaceRequest part s
  | .startInterfaceRequest part nonce => Sys2Proof.Machine.execStartInterfaceRequest part nonce s
  | .stopInterfaceRequest part => Sys2Proof.Machine.execStopInterfaceRequest part s
  | .tdiErrorEvent part cause => Sys2Proof.Machine.execTdiErrorEvent part cause s
  | .spdmGetVersion => Sys2Proof.Machine.execSpdmGetVersion s
  | .spdmGetCapabilities => Sys2Proof.Machine.execSpdmGetCapabilities s
  | .spdmNegotiateAlgorithms => Sys2Proof.Machine.execSpdmNegotiateAlgorithms s
  | .spdmGetDigests => Sys2Proof.Machine.execSpdmGetDigests s
  | .spdmGetCertificate => Sys2Proof.Machine.execSpdmGetCertificate s
  | .spdmChallenge => Sys2Proof.Machine.execSpdmChallenge s
  | .getMeasurements index => Sys2Proof.Machine.execGetMeasurements index s
  | .spdmKeyExchange => Sys2Proof.Machine.execSpdmKeyExchange s
  | .spdmFinish session => Sys2Proof.Machine.execSpdmFinish session s
  | .spdmKeyUpdate session => Sys2Proof.Machine.execSpdmKeyUpdate session s
  | .spdmHeartbeat session => Sys2Proof.Machine.execSpdmHeartbeat session s
  | .spdmEndSession session => Sys2Proof.Machine.execSpdmEndSession session s
  | .ideKm session stream => Sys2Proof.Machine.execIdeKm session stream s
  | .taskExtentWalk t => Sys2Proof.Machine.execTaskExtentWalk t s
  | .gangPlace => Sys2Proof.Machine.execGangPlace s
  | .ageingStep t => Sys2Proof.Machine.execAgeingStep t s
  | .spanReservation part => Sys2Proof.Machine.execSpanReservation part s
  | .preemptRollback part => Sys2Proof.Machine.execPreemptRollback part s
  | .preemptSpill part => Sys2Proof.Machine.execPreemptSpill part s
  | .gangResume part => Sys2Proof.Machine.execGangResume part s
  | .launchComplete part launch => Sys2Proof.Machine.execLaunchComplete part launch s
  | .proofingLaunch t => Sys2Proof.Machine.execProofingLaunch t s
  | .proofingConflict t => Sys2Proof.Machine.execProofingConflict t s
  | .proofingResolve t => Sys2Proof.Machine.execProofingResolve t s
  | .copyRelease gang entry => Sys2Proof.Machine.execCopyRelease gang entry s
  | .subscriptionDelivery gang index => Sys2Proof.Machine.execSubscriptionDelivery gang index s
  | .issueSwap out inn => Sys2Proof.Machine.execIssueSwap out inn s
  | .forcedSwap inn => Sys2Proof.Machine.execForcedSwap inn s
  | .waitSatisfied group => Sys2Proof.Machine.execWaitSatisfied group s
  | .splitPhaseResult group slot => Sys2Proof.Machine.execSplitPhaseResult group slot s
  | .quotaSwapOut core => Sys2Proof.Machine.execQuotaSwapOut core s
  | .quotaRestore group => Sys2Proof.Machine.execQuotaRestore group s
  | .breakpointHit group => Sys2Proof.Machine.execBreakpointHit group s
  | .detBoundary part launch => Sys2Proof.Machine.execDetBoundary part launch s
  | .detDecisionPoll part launch => Sys2Proof.Machine.execDetDecisionPoll part launch s
  | .writeAcknowledge group => Sys2Proof.Machine.execWriteAcknowledge group s
  | .flowMessageArrival flow seq data => Sys2Proof.Machine.execFlowMessageArrival flow seq data s
  | .hostCompletionError group store lanes => Sys2Proof.Machine.execHostCompletionError group store lanes s
  | .transientRequestTimeout agent line => Sys2Proof.Machine.execTransientRequestTimeout agent line s
  | .persistentRequest agent line => Sys2Proof.Machine.execPersistentRequest agent line s
  | .lineContended line => Sys2Proof.Machine.execLineContended line s
  | .directoryMerge line => Sys2Proof.Machine.execDirectoryMerge line s
  | .migrationLineCopy entry line dmaOk => Sys2Proof.Machine.execMigrationLineCopy entry line dmaOk s
  | .migrationSweepLine entry dmaOk => Sys2Proof.Machine.execMigrationSweepLine entry dmaOk s
  | .hotnessWindow gang slot misses count => Sys2Proof.Machine.execHotnessWindow gang slot misses count s
  | .memorySideCounterReport stack block requester => Sys2Proof.Machine.execMemorySideCounterReport stack block requester s
  | .scrubPeriodBoundary => Sys2Proof.Machine.execScrubPeriodBoundary s
  | .scrubLineStep stack => Sys2Proof.Machine.execScrubLineStep stack s
  | .scrubPeriodSet hours => Sys2Proof.Machine.execScrubPeriodSet hours s
  | .cnReclaim part region slot => Sys2Proof.Machine.execCnReclaim part region slot s
  | .cnOutComplete index => Sys2Proof.Machine.execCnOutComplete index s
  | .tcInvSweepComplete part tensor => Sys2Proof.Machine.execTcInvSweepComplete part tensor s
  | .matrixQueueExecute core => Sys2Proof.Machine.execMatrixQueueExecute core s
  | .zaliusReply core => Sys2Proof.Machine.execZaliusReply core s
  | .firstKickTimeout => Sys2Proof.Machine.execFirstKickTimeout s
  | .watchdogPeriodExpiry => Sys2Proof.Machine.execWatchdogPeriodExpiry s
  | .controlCoreTrap core => Sys2Proof.Machine.execControlCoreTrap core s

end Sys2Proof.Machine
end

