-- ==== Sys2Proof/Machine/Run.lean ====
section
/-! DEFINITION. What a step is made of: the current group's next instruction (R100, R302), the actions of the agenda,
and what the other agents bring. -/

namespace Sys2Proof.Config

/-- What the other agents and the outside world bring when the module has nothing else to do at a tick: a free value
(log entry 5). -/
opaque inputs : (tick : Nat) → List Machine.Action

end Sys2Proof.Config

namespace Sys2Proof.Machine

/-- The current group, which has entered its block, meets its next word: the fetch, the traps that come before the
instruction's own, and its meaning (R302). -/
def runWord (s : State) : Host.Outcome State Fault Refusal :=
  let brk := breakDue s
  let stop : Host.Outcome State Fault Refusal :=
    .next (trapMe s { code := 12, addr := s.pcN, lanes := standingLanes s })
  match fetchAt s s.me.at_.pc with
  | .inl t => if brk then stop else .next (trapMe s t)
  | .inr w =>
    match decode w with
    | none => if brk then stop else .next (trapMe s { code := 1, addr := s.pcN })
    | some i =>
      if brk && (frameOf s i).isNone && !frameWaits s i then stop
      else if fwdDue s then .next (stopCores s (some s.me.key))
      else exec i s

/-- The next instruction of the current group's issue partition, by the group that it picks (R100). -/
def runNext (s : State) : Host.Outcome State Fault Refusal :=
  match issuePick s with
  | none => .next s
  | some g =>
    let t := (s.issuing g).fetching
    match fallIn t with
    | .inl x => .next (trapMe t x)
    | .inr u => runWord u.fetching

/-- A write of a peer's or the host's that reaches device storage: at the lines' homes, and never in a content-named region
(R187, R213). -/
def outsideWrite (s : State) (pa : Nat) (bs : List Byte) : State :=
  if pa + bs.length ≤ devTop ∧ inCn s pa bs.length = false then s.pokeDev pa bs else s

/-- One action of the agenda. An instruction of a group comes by `issue` alone (R100). -/
def act (a : Action) (s : State) : Host.Outcome State Fault Refusal :=
  match a with
  | .event i => if (encode i).isSome then .next s else exec i s
  | .issue => runNext s
  | .turn k => .next (s.turn k)
  | .hostWrite a bs => .next (s.write {} (.host a) bs)
  | .peerWrite a bs => .next (s.write {} (.peer a) bs)
  | .devWrite a bs => .next (outsideWrite s a bs)
  | .errorLimit cls window thr => .next (if islandOn s 0 then setLimit s cls window thr else s)
  | .msixWrite f vec addr data => .next (if hostUp s then msixSet s f vec addr data else s)
  | .doeDiscovery index => .next (doeDiscover s index)
  | .handOn p slot => .next (handOn s p slot)
  | .lateResult k => .next (lateResult s k)
  | .disturb line cipher entry => .next (disturb s line cipher entry)

/-- The tick that free values are drawn with moves on. -/
def bump (o : Host.Outcome State Fault Refusal) : Host.Outcome State Fault Refusal :=
  match o with
  | .next s => .next { s with tick := s.tick + 1 }
  | .fault r => .fault r
  | .refused r => .refused r

end Sys2Proof.Machine
end

