-- ==== Sys2Proof/Machine/Step.lean ====
section
/-! DEFINITION. One step of the module: the head of the agenda, or the next instruction of the current group's issue
partition, or, when neither is there, what the outside world and the other agents do next. -/

namespace Sys2Proof.Machine

/-- One step. -/
def step (s : State) : Host.Outcome State Fault Refusal :=
  match s.agenda with
  | a :: t => bump (act a { s with agenda := t })
  | [] =>
    if (issuePick s).isSome then bump (runNext s)
    else .next { s with agenda := Config.inputs s.tick, tick := s.tick + 1 }

/-- The state with an instruction placed where the next step fetches and runs it (log entry 11). -/
def State.withFetchWord (s : State) (_nbits w : Nat) : State := placeWord s w

end Sys2Proof.Machine
end

