-- ==== Sys2Proof/Safety.lean ====
section
/-! DEFINITION. What counts as a safe state and an undisturbed run: the memories in canonical form, and the conditions
on a state under which R302 lets the current group's instruction go on to its own entry's checks. -/

namespace Sys2Proof.Machine

/-- The module's memories keep their canonical form. -/
def State.memOk (s : State) : Prop := Memory.wf s.mem = true

/-- No meaning stops the machine: a step answers a next state. -/
def Goes (o : Host.Outcome State Fault Refusal) : Prop := ∃ t, o = .next t

/-- The vector registers among `names` lie below the group's quota (R106). -/
def underQuota (s : State) (names : List Reg) : Bool :=
  names.all fun r => match r with
    | .v i => decide (i.val < s.me.regs.quota)
    | _ => true

/-- No busy scoreboard slot guards a register of `names` (R104). -/
def unguarded (s : State) (names : List Reg) : Bool :=
  s.me.sb.all fun x => x.regs.all fun r => !names.any (· == r)

/-- Hazard checking is closed, or no register of `names` came by a slot that no SB.WAIT has waited for, and none of
`reads` is awaited (R104, R105). -/
def unawaited (s : State) (names reads : List Reg) : Bool :=
  !hazardOpen s || ((s.me.unwaited.all fun x => x.all fun r => !names.any (· == r)) && s.me.awaited.all fun x => !reads.any (· == x.r))

/-- The history has the room that the block's header asks for at its first instruction, and that crumbs `cs` take
(R128). -/
def roomFor (s : State) (cs : List Crumb) : Bool :=
  (!s.me.at_.fresh || decide ((if hdrBound s.me.at_.hdr = 255 then 16 else hdrBound s.me.at_.hdr * 160 + 16) ≤ s.me.free))
    && (cs.isEmpty || decide (crumbsBytes cs + 16 ≤ s.me.free))

/-- What every instruction finds before its own entry's checks (R98, R104, R105, R106, R128, R302): a role that may
issue it, registers that it may name now, and room in the history. -/
def Ready (s : State) (roles : List Role) (names reads : List Reg) (cs : List Crumb) : Bool :=
  roles.any (· == s.me.role) && underQuota s names && unguarded s names && unawaited s names reads && roomFor s cs

/-- Nothing takes the group's turn away after the instruction (R263, R345), and it is not proofing (R137). -/
def Calm (s : State) : Bool := !s.me.marks.step && !s.me.marks.proof && !s.inDet

/-- The state after an instruction that is not a horizon, but for what it writes: counted, its crumbs pushed, the
group at the next word, and its own results awaited unless a marker ends it (R103, R105, R116, R122). -/
def State.stepped (s : State) (mark : Bool) (cs : List Crumb) (ws : List Reg) : State :=
  s.modMe fun g => (g.advance cs).settle mark (awaitedOf s ws)

/-- An instruction was counted and the group stands at the next word (R116, R284). -/
structure Counted (s t : State) : Prop where
  ic : t.me.hist.ic = s.me.hist.ic + 1
  pc : t.me.at_.pc = s.me.at_.pc + 8
  who : t.me.key = s.me.key

/-- A horizon was counted: the history is empty and hz stands at ic (R119, R120). -/
structure Passed (s t : State) : Prop where
  counted : Counted s t
  hz : t.me.hist.hz = t.me.hist.ic
  empty : t.me.hist.crumbs = []

end Sys2Proof.Machine
end

