-- ==== Sys2Proof/Certificates/Slice0/Terms.lean ====
section
/-! DEFINITION. The terms that the statements are written in: the result tables of the spec's chapters as functions of
the operands' values, written on bit vectors of the operation's own width, and the conditions that entries name. -/

namespace Sys2Proof.Terms

open Sys2Proof.Machine

/-! ### Class 0 (R325, R328, R329, R332, R333) -/

/-- The low W bits of a register, and a W-bit result extended to 64 bits by the type. -/
def low (t : ITy) (v : Word) : BitVec t.w := v.setWidth t.w
def wide (t : ITy) (v : BitVec t.w) : Word := if t.un then v.setWidth 64 else v.signExtend 64

/-- How many bits, counted in the given order, are 0 before the first that is 1 (R329). -/
def zerosIn (v : BitVec w) (order : List Nat) : Nat := (order.takeWhile fun i => !v.getLsbD i).length

/-- The W-bit comparison of MIN and MAX. -/
def below (t : ITy) (x y : BitVec t.w) : Bool := if t.un then x.ule y else x.sle y

/-- A quotient rounded toward zero and its remainder, with the edge cases of R328. -/
def quotW (t : ITy) (x y : BitVec t.w) : BitVec t.w :=
  if y = 0 then BitVec.allOnes t.w else if t.un then x / y else x.sdiv y
def remW (t : ITy) (x y : BitVec t.w) : BitVec t.w :=
  if y = 0 then x else if t.un then x % y else x.srem y

/-- The high W bits of the 2W-bit product. -/
def highW (t : ITy) (x y : BitVec t.w) : BitVec t.w :=
  (if t.un then x.setWidth (2 * t.w) * y.setWidth (2 * t.w)
    else x.signExtend (2 * t.w) * y.signExtend (2 * t.w)).extractLsb' t.w t.w

/-- D names one of the sources, and the sources differ (R121, R327). -/
def updates (d a b : Reg) : Bool := d == a && a != b
def updatesEither (d a b : Reg) : Bool := (d == a || d == b) && a != b

/-- A row of class 0: guard and marker, destination, the registers read in the order of R323, whether the operands
match the invertible pattern of R327, and the result. -/
structure Row where
  h : Hd
  d : Reg
  reads : List Reg
  inv : Bool
  val : Word

/-- A mask of `n` bits at `pos`. -/
def maskAt (pos n : Nat) : Word := (BitVec.allOnes n).setWidth 64 <<< pos

/-- The instructions of class 0 whose result is one 64-bit value (R328, R329, R332, R333); `x` gives the registers'
values. -/
def scalarRow (x : Reg → Word) : Instr → Option Row
  | .add h t d a b => some ⟨h, d, [a, b], t.w == 64 && updatesEither d a b, wide t (low t (x a) + low t (x b))⟩
  | .sub h t d a b => some ⟨h, d, [a, b], t.w == 64 && updates d a b, wide t (low t (x a) - low t (x b))⟩
  | .addi h d a imm => some ⟨h, d, [a], d == a, x a + imm.signExtend 64⟩
  | .mul h t d a b => some ⟨h, d, [a, b], false, wide t (low t (x a) * low t (x b))⟩
  | .mulh h t d a b => some ⟨h, d, [a, b], false, wide t (highW t (low t (x a)) (low t (x b)))⟩
  | .mulodd h _ d a b => some ⟨h, d, [a, b], updates d a b, x a * (x b ||| 1)⟩
  | .div h t d a b => some ⟨h, d, [a, b], false, wide t (quotW t (low t (x a)) (low t (x b)))⟩
  | .rem h t d a b => some ⟨h, d, [a, b], false, wide t (remW t (low t (x a)) (low t (x b)))⟩
  | .and h t d a b => some ⟨h, d, [a, b], false, wide t (low t (x a) &&& low t (x b))⟩
  | .or h t d a b => some ⟨h, d, [a, b], false, wide t (low t (x a) ||| low t (x b))⟩
  | .xor h t d a b => some ⟨h, d, [a, b], t.w == 64 && updatesEither d a b, wide t (low t (x a) ^^^ low t (x b))⟩
  | .andn h t d a b => some ⟨h, d, [a, b], false, wide t (low t (x a) &&& ~~~(low t (x b)))⟩
  | .not h t d a => some ⟨h, d, [a], t.w == 64 && d == a, wide t (~~~(low t (x a)))⟩
  | .neg h t d a => some ⟨h, d, [a], t.w == 64 && d == a, wide t (-(low t (x a)))⟩
  | .shl h t d a b => some ⟨h, d, [a, b], false, wide t (low t (x a) <<< ((x b).toNat % t.w))⟩
  | .shr h t d a b => some ⟨h, d, [a, b], false, wide t (low t (x a) >>> ((x b).toNat % t.w))⟩
  | .sar h t d a b => some ⟨h, d, [a, b], false, wide t ((low t (x a)).sshiftRight ((x b).toNat % t.w))⟩
  | .rol h t d a b =>
    some ⟨h, d, [a, b], t.w == 64 && updates d a b, wide t ((low t (x a)).rotateLeft ((x b).toNat % t.w))⟩
  | .ror h t d a b =>
    some ⟨h, d, [a, b], t.w == 64 && updates d a b, wide t ((low t (x a)).rotateRight ((x b).toNat % t.w))⟩
  | .clz h t d a =>
    some ⟨h, d, [a], false, wide t (BitVec.ofNat t.w (zerosIn (low t (x a)) (List.range t.w).reverse))⟩
  | .ctz h t d a => some ⟨h, d, [a], false, wide t (BitVec.ofNat t.w (zerosIn (low t (x a)) (List.range t.w)))⟩
  | .popc h t d a =>
    some ⟨h, d, [a], false, wide t (BitVec.ofNat t.w ((List.range t.w).filter (low t (x a)).getLsbD).length)⟩
  | .min h t d a b =>
    some ⟨h, d, [a, b], false,
      wide t (if below t (low t (x a)) (low t (x b)) then low t (x a) else low t (x b))⟩
  | .max h t d a b =>
    some ⟨h, d, [a, b], false,
      wide t (if below t (low t (x a)) (low t (x b)) then low t (x b) else low t (x a))⟩
  | .bflip h n d a b => some ⟨h, d, [a, b], updates d a b, x a ^^^ (1#64 <<< (((x b).toNat + n.val) % 64))⟩
  | .bext h pos lenm un d a =>
    let f := (x a).extractLsb' pos.val (lenm.val + 1)
    some ⟨h, d, [a], false, if un then f.setWidth 64 else f.signExtend 64⟩
  | .bins h pos lenm d a =>
    let m := maskAt pos.val (lenm.val + 1)
    some ⟨h, d, [a, d], false, (x d &&& ~~~m) ||| ((x a <<< pos.val) &&& m)⟩
  | .mov h t d a => some ⟨h, d, [a], false, wide t (low t (x a))⟩
  | _ => none

/-- A 64-bit value with one bit set to `c`. -/
def withBit (v : Word) (n : Nat) (c : Bool) : Word := if c then v ||| (1#64 <<< n) else v &&& ~~~(1#64 <<< n)

/-- The condition of CMP (R331). -/
def holds (c : CC) (a b : BitVec w) : Bool :=
  match c with
  | .eq => a == b
  | .ne => a != b
  | .lt => a.slt b
  | .ltu => a.ult b

/-! ### Classes 2 and 3 (R357, R361, R363, R365 to R369) -/

/-- A row of classes 2 and 3: as in class 0, with the B operand, whether the old D is read, and the result of a lane
from its A, B and old D. -/
structure VRow where
  h : Hd
  d : Reg
  a : Reg
  b : BOp
  inv : Bool
  old : Bool
  f : Lane → Lane → Lane → Lane

/-- D names A and not B, or, without the XL bit, either one of the two, which differ; a cross-lane B never is D
(R359). -/
def vUpdates (d a : Reg) : BOp → Bool
  | .reg r => updates d a r
  | .cross r _ => updates d a r
def vUpdatesEither (d a : Reg) : BOp → Bool
  | .reg r => updatesEither d a r
  | .cross r _ => updates d a r

/-- The high 32 bits of a 64-bit product. -/
def high32 (un : Bool) (x y : Lane) : Lane :=
  (if un then x.setWidth 64 * y.setWidth 64 else x.signExtend 64 * y.signExtend 64).extractLsb' 32 32

/-- The vector integer instructions with one result a lane (R361, R363). -/
def vecRow : Instr → Option VRow
  | .vadd h d a b => some ⟨h, d, a, b, vUpdatesEither d a b, false, fun x y _ => x + y⟩
  | .vsub h d a b => some ⟨h, d, a, b, vUpdates d a b, false, fun x y _ => x - y⟩
  | .vaddi h d a imm => some ⟨h, d, a, noB, d == a, false, fun x _ _ => x + imm.signExtend 32⟩
  | .vmul h d a b => some ⟨h, d, a, b, false, false, fun x y _ => x * y⟩
  | .vmulh h un d a b => some ⟨h, d, a, b, false, false, fun x y _ => high32 un x y⟩
  | .vmulodd h d a b => some ⟨h, d, a, b, vUpdates d a b, false, fun x y _ => x * (y ||| 1)⟩
  | .vmad h d a b => some ⟨h, d, a, b, false, true, fun x y z => x * y + z⟩
  | .vand h d a b => some ⟨h, d, a, b, false, false, fun x y _ => x &&& y⟩
  | .vor h d a b => some ⟨h, d, a, b, false, false, fun x y _ => x ||| y⟩
  | .vxor h d a b => some ⟨h, d, a, b, vUpdatesEither d a b, false, fun x y _ => x ^^^ y⟩
  | .vandn h d a b => some ⟨h, d, a, b, false, false, fun x y _ => x &&& ~~~y⟩
  | .vnot h d a => some ⟨h, d, a, noB, d == a, false, fun x _ _ => ~~~x⟩
  | .vneg h d a => some ⟨h, d, a, noB, d == a, false, fun x _ _ => -x⟩
  | .vshl h d a b => some ⟨h, d, a, b, false, false, fun x y _ => x <<< (y.toNat % 32)⟩
  | .vshr h d a b => some ⟨h, d, a, b, false, false, fun x y _ => x >>> (y.toNat % 32)⟩
  | .vsar h d a b => some ⟨h, d, a, b, false, false, fun x y _ => x.sshiftRight (y.toNat % 32)⟩
  | .vrol h d a b => some ⟨h, d, a, b, vUpdates d a b, false, fun x y _ => x.rotateLeft (y.toNat % 32)⟩
  | .vmin h un d a b =>
    some ⟨h, d, a, b, false, false, fun x y _ => if (if un then x.ule y else x.sle y) then x else y⟩
  | .vmax h un d a b =>
    some ⟨h, d, a, b, false, false, fun x y _ => if (if un then x.ule y else x.sle y) then y else x⟩
  | .vabs h d a => some ⟨h, d, a, noB, false, false, fun x _ _ => if x.msb then -x else x⟩
  | .vmov h d a => some ⟨h, d, a, noB, false, false, fun x _ _ => x⟩
  | .vclz h d a =>
    some ⟨h, d, a, noB, false, false, fun x _ _ => BitVec.ofNat 32 (zerosIn x (List.range 32).reverse)⟩
  | .vpopc h d a =>
    some ⟨h, d, a, noB, false, false, fun x _ _ => BitVec.ofNat 32 ((List.range 32).filter x.getLsbD).length⟩
  | .vbflip h d a b =>
    some ⟨h, d, a, b, vUpdates d a b, false, fun x y _ => x ^^^ (1#32 <<< (y.toNat % 32))⟩
  | .vbext h un pos lenm d a =>
    some ⟨h, d, a, noB, false, false, fun x _ _ =>
      if un then (x.extractLsb' pos.val (lenm.val + 1)).setWidth 32
      else (x.extractLsb' pos.val (lenm.val + 1)).signExtend 32⟩
  | .vbins h pos lenm d a =>
    let m : Lane := (BitVec.allOnes (lenm.val + 1)).setWidth 32 <<< pos.val
    some ⟨h, d, a, noB, false, true, fun x _ z => (z &&& ~~~m) ||| ((x <<< pos.val) &&& m)⟩
  | _ => none

/-- A result rounded once to FP32 (R236). -/
def round32 (rm : RM) (v : FVal) : Lane := w32 (fp32.enc rm v)

/-- An operation on both 16-bit halves of a lane, in BF16 or FP16 (R369). -/
def onHalves (f16 : Bool) (op : Fmt → Nat → Nat → Nat → Nat) (x y z : Lane) : Lane :=
  let f := if f16 then fp16 else bf16
  (BitVec.ofNat 16 (op f (x.extractLsb' 16 16).toNat (y.extractLsb' 16 16).toNat (z.extractLsb' 16 16).toNat)) ++
    (BitVec.ofNat 16 (op f (x.extractLsb' 0 16).toNat (y.extractLsb' 0 16).toNat (z.extractLsb' 0 16).toNat))

/-- The floating-point instructions with one result a lane (R236, R237, R366, R368, R369). -/
def fpRow : Instr → Option VRow
  | .fadd h rm d a b => some ⟨h, d, a, b, false, false, fun x y _ => round32 rm ((fl x).add rm (fl y))⟩
  | .fsub h rm d a b => some ⟨h, d, a, b, false, false, fun x y _ => round32 rm ((fl x).add rm (fl y).neg)⟩
  | .fmul h rm d a b => some ⟨h, d, a, b, false, false, fun x y _ => round32 rm ((fl x).mul (fl y))⟩
  | .ffma h rm d a b => some ⟨h, d, a, b, false, true, fun x y z => round32 rm (((fl x).mul (fl y)).add rm (fl z))⟩
  | .fmin h d a b => some ⟨h, d, a, b, false, false, fun x y _ => w32 (fp32.min x.toNat y.toNat)⟩
  | .fmax h d a b => some ⟨h, d, a, b, false, false, fun x y _ => w32 (fp32.max x.toNat y.toNat)⟩
  | .fexp2 h rm d a => some ⟨h, d, a, noB, false, false, fun x _ _ => round32 rm (fl x).exp2⟩
  | .flog2 h rm d a => some ⟨h, d, a, noB, false, false, fun x _ _ => round32 rm (fl x).log2⟩
  | .frcp h rm d a => some ⟨h, d, a, noB, false, false, fun x _ _ => round32 rm ((fl 0x3F800000).div (fl x))⟩
  | .frsq h rm d a => some ⟨h, d, a, noB, false, false, fun x _ _ => round32 rm (fl x).rsqrt⟩
  | .fsqrt h rm d a => some ⟨h, d, a, noB, false, false, fun x _ _ => round32 rm (fl x).sqrt⟩
  | .fdiv h rm d a b => some ⟨h, d, a, b, false, false, fun x y _ => round32 rm ((fl x).div (fl y))⟩
  | .frint h rm d a => some ⟨h, d, a, noB, false, false, fun x _ _ => round32 rm ((fl x).rint rm)⟩
  | .fscale h rm d a b => some ⟨h, d, a, b, false, false, fun x y _ => round32 rm ((fl x).scale y.toInt)⟩
  | .hadd2 h rm w d a b =>
    some ⟨h, d, a, b, false, false, onHalves w fun f x y _ => f.enc rm ((f.dec x).add rm (f.dec y))⟩
  | .hmul2 h rm w d a b =>
    some ⟨h, d, a, b, false, false, onHalves w fun f x y _ => f.enc rm ((f.dec x).mul (f.dec y))⟩
  | .hfma2 h rm w d a b =>
    some ⟨h, d, a, b, false, true, onHalves w fun f x y z => f.enc rm (((f.dec x).mul (f.dec y)).add rm (f.dec z))⟩
  | .hmax2 h w d a b => some ⟨h, d, a, b, false, false, onHalves w fun f x y _ => f.max x y⟩
  | _ => none

/-- The lanes that an instruction of classes 2 and 3 writes: each active lane its result, poisoned by the first
poisoned of A, B, the old D and the guard (R357, R358). -/
def VRow.lanes (r : VRow) (s : State) : List (Nat × LVal) :=
  (lanesOn s r.h).map fun l =>
    (l, lanePoison (r.f (srcL s r.a l).v (srcB s r.b l).v (srcL s r.d l).v)
      ([srcL s r.a l, srcB s r.b l] ++ (if r.old then [srcL s r.d l] else []) ++ [srcL s r.h.gr l]))

/-- The registers that such an instruction reads. -/
def VRow.reads (r : VRow) : List Reg := [r.a, r.b.r] ++ (if r.old then [r.d] else [])

/-! ### Roles (R98) -/

/-- The roles that may issue each instruction. -/
def rolesOf : Instr → Option (List Role)
  | .vadd .. | .vsub .. | .vaddi .. | .vmul .. | .vmulh .. | .vmulodd .. | .vmad .. | .vand .. | .vor .. | .vxor ..
  | .vandn .. | .vnot .. | .vneg .. | .vshl .. | .vshr .. | .vsar .. | .vrol .. | .vmin .. | .vmax .. | .vabs ..
  | .vcmp .. | .vsel .. | .vmov .. | .vswap .. | .vclz .. | .vpopc .. | .vbflip .. | .vbext .. | .vbins ..
  | .vbcast .. | .fadd .. | .fsub .. | .fmul .. | .ffma .. | .fmin .. | .fmax .. | .fcmp .. | .fexp2 .. | .flog2 ..
  | .frcp .. | .frsq .. | .fsqrt .. | .fdiv .. | .frint .. | .fscale .. | .cvt .. | .hadd2 .. | .hmul2 ..
  | .hfma2 .. | .hmax2 .. | .lperm .. | .lshuf .. | .lrot .. | .lbcast .. | .lred .. | .lscan .. | .lbits ..
  | .lspread .. | .ld .. | .st .. | .vld .. | .vst .. | .fence .. => some [.vector, .control]
  | .xchg .. | .vxchg .. | .ldl .. | .stl .. | .vldl .. | .vstl .. | .ldd .. | .gath .. | .amo .. | .cas .. | .red ..
  | .stMc .. | .flowPut .. | .flowGet .. | .sbWait .. | .earlyTrig .. | .detSync .. | .tcBind .. | .tcProbe ..
  | .tcPf .. | .tcSub .. | .tcInv .. | .tcKeep .. | .cnPut .. | .cnGet .. | .cnRef .. | .cnDrop .. | .cnRoot ..
  | .cnSwap .. | .svcResume .. | .svcResumeC .. | .svcResumeP .. | .svcKill .. | .svcCommit .. | .svcMigrate ..
  | .svcPurge .. => some [.vector]
  | .barInit .. | .barArv .. | .barWait .. | .ringPutClaim .. | .ringPut .. | .ringGet .. | .ringGetDone ..
  | .ringPeek .. => some [.vector, .matrix, .copy]
  | .stageAdv .. | .wpWait .. | .cnOut .. => some [.vector, .copy]
  | .mbLd .. | .mma .. | .mloop .. | .mmaBd .. | .accAlloc .. | .accGrow .. | .accFree .. | .mwait .. | .mstat .. =>
    some [.matrix]
  | .accZero .. | .accRd .. | .accWr .. | .accLd .. | .accSt .. | .accRscl .. => some [.vector, .matrix]
  | .qctlRd .. | .qctlQ .. | .qctlR .. | .mboxSendVerify .. | .mboxSendMeas .. | .mboxRecv .. | .wdogKick ..
  | .slotSel .. => some [.control]
  | _ => none

/-! ### Conditions and places that several statements name -/

/-- MBOX.SEND has one encoding (R354): its word decodes to the constructor of the VERIFY form. -/
def canon : Instr → Instr
  | .mboxSendMeas h a => .mboxSendVerify h a
  | i => i

/-- What every scalar instruction of classes 1, 6 and 7 meets when its guard passes: it may issue, and its guard and
operands hold no poison. `bits` are registers that it reads and writes without consuming them. -/
def Able (s : State) (h : Hd) (roles : List Role) (reads writes bits : List Reg) : Bool :=
  Ready s roles (h.gr :: reads ++ bits ++ writes ++ bits) (h.gr :: reads ++ bits) [] && Calm s && guardS s h &&
    (h.gr :: reads).all fun r => !(srcS s r).p

/-- D takes a value and every other scalar register keeps its own; z discards the value (R293). -/
def takes (s t : State) (d : Reg) (v : SVal) : Prop :=
  (∀ i : Fin 128, d = .s i → t.me.getS i = v) ∧ ∀ k : Fin 128, d ≠ .s k → t.me.getS k = s.me.getS k

/-- As `takes`, of the 64 value bits. -/
def takesValue (s t : State) (d : Reg) (w : Word) : Prop :=
  (∀ i : Fin 128, d = .s i → (t.me.getS i).v = w) ∧ ∀ k : Fin 128, d ≠ .s k → t.me.getS k = s.me.getS k

/-- One bit of D takes a value; D keeps the other 63 (R393), and its poison, which is the model's choice (log entry 18). -/
def takesBit (s t : State) (d : Reg) (n : Nat) (c : Bool) : Prop :=
  takes s t d { srcS s d with v := withBit (srcS s d).v n c }

/-- The place that an access resolves to. -/
def placeOf (a : Acc) : Loc := match a.look with | .ok l _ => l | .bad _ => .dev 0
/-- Whether an access resolves. -/
def resolves (a : Acc) : Bool := match a.look with | .ok _ _ => true | .bad _ => false

/-- The access of lane `l` of a plain access with address `m`: `n` bytes, `step` bytes a lane (R299, R377). -/
def accAt (s : State) (m : Addr) (n step : Nat) (need : Need) (l : Nat) : Acc := mkAcc s .mem m n step need l

/-- No page migrates, no line is poisoned, disturbed or contended, no cache holds other bytes than the latest, and no
byte has a value before it that a load may still return: an access reaches the bytes as they lie. -/
def Settled (s : State) : Bool :=
  s.migrations.isEmpty && s.mem.poison.isEmpty && s.mem.faulty.isEmpty && s.mem.past.isEmpty &&
    s.coh.contended.isEmpty && s.tiles.all (·.stale.isNone)

/-- The lines of device storage are at rest: none migrates, is disturbed or is contended. -/
def AtRest (s : State) : Bool := s.migrations.isEmpty && s.mem.faulty.isEmpty && s.coh.contended.isEmpty

/-- The module's memories hold the same bytes, and the same lines are poisoned; what the caches hold may differ. -/
def sameMem (s t : State) : Prop :=
  t.mem.dev = s.mem.dev ∧ t.mem.host = s.mem.host ∧ t.mem.peer = s.mem.peer ∧ t.mem.sched = s.mem.sched ∧
    t.mem.poison = s.mem.poison

/-- A release at .dev or .sys leaves the memories as they are, but that what its die's copies of contended lines hold reaches
the homes (R196). -/
def releasedMem (s t : State) : Prop := t.mem = if s.me.isControl then s.mem else (pushDie s s.myDie).mem

/-- A park takes the group out of the rings' waiters and leaves the gangs alone otherwise (R146). -/
def sameGangs (s t : State) : Prop := t.gangs = s.gangs ∨ t.gangs = (dropClaims s s.me).gangs

/-- A place that is no contended line's. -/
def uncontended (s : State) (l : Loc) : Prop := ∀ pa, l = .dev pa → s.contendedAt (pa / 128) = none

/-- What a lane instruction of class 5 meets: it may issue, none of the registers that its active lanes read is
poisoned, and its crumbs fit. -/
def LanesAble (s : State) (h : Hd) (roles : List Role) (reads writes : List Reg) (cs : List Crumb) : Bool :=
  Ready s roles (h.gr :: reads ++ writes) (h.gr :: reads) cs && Calm s &&
    (lanesOn s h).all fun l => (h.gr :: reads).all fun r => !(srcL s r l).p

/-- `n` bytes loaded and extended to 64 bits, and to a lane's 32. -/
def loaded64 (n : Nat) (un : Bool) (bs : List Byte) : Word :=
  if un then w64 (ofLe bs) else (BitVec.ofNat (8 * n) (ofLe bs)).signExtend 64
def loaded32 (n : Nat) (un : Bool) (bs : List Byte) : Lane :=
  if un then w32 (ofLe bs) else (BitVec.ofNat (8 * n) (ofLe bs)).signExtend 32

/-- What an atomic leaves in memory, on `w` bits (R384); .addb refuses a sum that wraps or passes its bound. -/
def atomic (op : AOp) (w : Nat) (old b : BitVec w) (bound : Nat) : BitVec w :=
  match op with
  | .add => old + b
  | .sub => old - b
  | .and => old &&& b
  | .or => old ||| b
  | .xor => old ^^^ b
  | .min => if old.sle b then old else b
  | .max => if old.sle b then b else old
  | .minu => if old.ule b then old else b
  | .maxu => if old.ule b then b else old
  | .exch => b
  | .fadd => BitVec.ofNat w (fp32.enc .rne ((fp32.dec old.toNat).add .rne (fp32.dec b.toNat)))
  | .incw => if b.ule old then 0 else old + 1
  | .addb => if old.toNat + b.toNat < 2 ^ w ∧ old.toNat + b.toNat ≤ bound then old + b else old

/-- Two ranges of device storage that do not meet. -/
def apart (a n b m : Nat) : Bool := decide (a + n ≤ b ∨ b + m ≤ a)

/-- Every element of the gang's store outside a window keeps its value. -/
def keepsOutside (s t : State) (w : Win) : Prop :=
  ∀ row col, col < 128 → (∀ e < w.size, w.pos e ≠ (row, col)) → t.myCore.elem row col = s.myCore.elem row col

/-- What reversal gives back of a group (R123): its registers with their poison and origin indices, its history and ic. -/
def undone (s u : State) : Prop :=
  u.me.hist.ic = s.me.hist.ic ∧ u.me.hist.crumbs = s.me.hist.crumbs ∧
    (∀ k : Fin 128, (u.me.getS k).v = (s.me.getS k).v ∧ (u.me.getS k).p = (s.me.getS k).p ∧
      ((s.me.getS k).p = true → (u.me.getS k).o = (s.me.getS k).o)) ∧
    ∀ (r : Fin 768) (l : Nat), l < 32 → (u.me.getV r l).v = (s.me.getV r l).v ∧ (u.me.getV r l).p = (s.me.getV r l).p ∧
      ((s.me.getV r l).p = true → (u.me.getV r l).o = (s.me.getV r l).o)

/-- A group whose instruction a reversal meets: what it has issued has come to an end, and no line of its history fails. -/
def Reversible (s : State) : Bool :=
  Calm s && !s.me.isControl && s.me.awaited.isEmpty && s.me.sb.isEmpty && s.mem.poison.isEmpty && s.mem.faulty.isEmpty

/-- The event of R47 that extends index 4: code, slot byte, SVN and 13 zero bytes. -/
def event47 (code : Nat) (slot : Bool) (svn : Nat) : List Byte :=
  [BitVec.ofNat 8 code, BitVec.ofNat 8 (if slot then 1 else 0), BitVec.ofNat 8 svn] ++ List.replicate 13 0

/-- The STATE that a port's negotiation ends in (R16, R22, R23). -/
def replyState : PartnerReply → Nat
  | .silent => 1
  | .failed => 4
  | .offer .. => 2

/-- The control cores as a restart leaves them (R352, R449): each at the image's entry, with nothing counted. -/
def restarted (t : State) (slot : Bool) : Prop :=
  t.zal.active = slot ∧ t.zal.requests = [] ∧ t.zal.replies = [] ∧
    ∀ g ∈ t.groups, g.isControl = true → g.status = .run ∧ g.hist.ic = 0 ∧ g.hist.crumbs = [] ∧ g.regs.quota = 8 ∧
      g.at_.pc = w64 (0xE80000 + imgEntry (t.zal.slot slot))

end Sys2Proof.Terms
end

