-- ==== Sys2Proof/Certificates/Slice0/Obligations.lean ====
section
/-! DEFINITION. The statements about the module that the provers prove: each a rule of the spec, or a sentence derived
from its sections, about every state and operands that meet its hypotheses. -/

open Sys2Proof Sys2Proof.Machine Sys2Proof.Terms

/-! ### Encodings and the step -/

/-- Decoding the word of a well-formed instruction gives the instruction back, with every operand. -/
def Obligations.DecodeEncode : Prop :=
  ∀ (i : Instr) (w : Word), i.wf = true → encode i = some w → decode w = some (Terms.canon i)

/-- Words written out from chapter 14 and the programs of chapters 20 to 24 decode to what they stand for. -/
def Obligations.DecodeWords : Prop :=
  let g : Hd := ⟨false, false, 0, .z⟩
  let m : Hd := ⟨true, false, 0, .z⟩
  decode 0x00A0000421084280 = some (.mulodd g ⟨0, false⟩ (.s 4) (.s 4) (.s 5)) ∧
  decode 0x0300000449084342 = some (.cmp g .lt 2 (.s 9) (.s 4) (.s 6)) ∧
  decode 0x1120000001140001 = some (.revP g (.s 10)) ∧
  decode 0x93000004D8000001 = some (.qctlQ m (.s 27)) ∧
  decode 0x11400004A0001800 = some (.xsrRd g ⟨0x030, 0, 0⟩ (.s 20) .z) ∧
  decode 0x51800004492A4104 = some (.amo g .add .rlx .dev 0 (.s 9) (.s 21) (.s 2)) ∧
  decode 0x7020000551505600 = some (.mma g false 0 0 (.s 42) (.s 40) (.s 44)) ∧
  decode 0x71A0000460000000 = some (.mwait g (.s 12))

/-- A word that decodes is the one encoding of its well-formed instruction; the operation codes 0x022 to 0x07F of class
0 and the header words decode to nothing (R300, R301). -/
def Obligations.DecodedIsWellFormed : Prop :=
  (∀ (w : Word) (i : Instr), decode w = some i → i.wf = true ∧ encode i = some w) ∧
  (∀ w : Word, 0x022 ≤ (w.extractLsb' 53 10).toNat → (w.extractLsb' 53 10).toNat < 0x080 → decode w = none) ∧
  (∀ w : Word, isHeader w = true → decode w = none)

/-- A step runs the decoded instruction: when the word at the pc of the group that its issue partition picks decodes to
i, with no break due and control inside a block, the step is exec of i at the state in which that group has the turn and
its fetch has noted its lines (R100, R203), and the tick moves on (log entry 6). -/
def Obligations.StepRunsDecoded : Prop :=
  ∀ (s : State) (g : Group) (w : Word) (i : Instr), s.agenda = [] → issuePick s = some g →
    let u := (s.issuing g).fetching.fetching
    atBlockEnd u.me = false → breakDue u = false → fwdDue u = false → fetchAt u u.me.at_.pc = .inr w →
    decode w = some i →
    step s = match exec i u with
      | .next t => .next { t with tick := t.tick + 1 }
      | .fault r => .fault r
      | .refused r => .refused r

/-- What a step meets at a word that it does not run: at the end of a block the group falls into the next one, whose
header it checks (R131), and a word that decodes to nothing raises ILLEGAL, parks the group at it and is not counted
(R301, R111). -/
def Obligations.StepEntersOrParks : Prop :=
  (∀ (s : State) (g : Group) (hd : Word), s.agenda = [] → issuePick s = some g →
      let v := (s.issuing g).fetching
      v.me.isControl = false → atBlockEnd v.me = true → fetchAt v v.me.at_.pc = .inr hd →
      ((isHeader hd = false ∨ headerBad hd = true) →
        ∃ t, step s = .next t ∧ t.me.status = .parked ∧ t.me.hist = v.me.hist ∧ t.me.at_ = v.me.at_ ∧
          ∃ k, (t.part v.myP).parks = (v.part v.myP).parks ++ [k] ∧ k.who = .group v.me.key ∧
            wordAt k.words 0 = w64 (3 * 2 ^ 56) ∧ wordAt k.words 2 = w64 (v.me.at_.pc.toNat % 2 ^ 56)) ∧
      (∀ (w : Word) (i : Instr), isHeader hd = true → headerBad hd = false → hdrJoin hd = false →
        v.me.at_.hdr ≠ 0 →
        let u := (v.modMe fun g => { g with at_ := { pc := v.me.at_.pc + 8, hva := v.me.at_.pc, hdr := hd, fresh := true } }).fetching
        breakDue u = false → fetchAt u u.me.at_.pc = .inr w → decode w = some i →
        step s = match exec i u with
          | .next t => .next { t with tick := t.tick + 1 }
          | .fault r => .fault r
          | .refused r => .refused r)) ∧
  (∀ (s : State) (g : Group) (w : Word), s.agenda = [] → issuePick s = some g →
      let u := (s.issuing g).fetching.fetching
      u.me.isControl = false → atBlockEnd u.me = false → breakDue u = false → fetchAt u u.me.at_.pc = .inr w →
      decode w = none →
      ∃ t, step s = .next t ∧ t.me.status = .parked ∧ t.me.seat.active = false ∧ t.me.hist = u.me.hist ∧
        t.me.at_ = u.me.at_ ∧ t.me.regs = u.me.regs ∧ t.mem = u.mem ∧
        ∃ k, (t.part u.myP).parks = (u.part u.myP).parks ++ [k] ∧ k.who = .group u.me.key ∧
          wordAt k.words 0 = w64 (1 * 2 ^ 56) ∧ wordAt k.words 1 = u.me.hist.ic ∧
          wordAt k.words 2 = w64 (u.me.at_.pc.toNat % 2 ^ 56) ∧ wordAt k.words 6 = u.me.hist.hz)

/-- Every step goes on: no instruction and no event stops the module. -/
def Obligations.StepGoes : Prop := ∀ s : State, Goes (step s)

/-! ### Memory and reset -/

/-- Every step keeps the module's memories in canonical form. The form itself is the model's (log entry 4). -/
def Obligations.StepKeepsMemOk : Prop := ∀ s t : State, s.memOk → step s = .next t → t.memOk

/-- The canonical form holds at reset. The form itself is the model's (log entry 4). -/
def Obligations.ResetMemOk : Prop := State.reset.memOk

/-- Reset: no partition is configured, the module is not quiesced, and the control window's registers read as R21, R30 and
R185 say. That there is no launch and no gang, no line is poisoned, and a port's queues and repairs are empty is the model's
choice where no rule gives it (log entry 1), and so are the lanes that carry traffic before a negotiation (log entry 60). -/
def Obligations.ResetState : Prop :=
  let s := State.reset
  (∀ p < 16, (s.part p).word 0 = 0 ∧ (s.part p).tdi = .unlocked ∧ (s.part p).policy.mask = 0 ∧
    ∀ k < 32, Tab.get 0 (s.part p).keep k = 0) ∧
  (∀ n < 16, let p := s.port n
    flkStat p = 0 ∧ p.state = 0 ∧ p.half = false ∧ p.lanes4 = false ∧ p.fecIl = false ∧ p.spareIn = false ∧ p.lasting = 0 ∧
      p.spareOk = false ∧ p.deferred = [] ∧ p.carry = [0, 1, 2, 3, 4, 5, 6, 7] ∧ p.failedLanes = [] ∧ p.moving = none ∧
      p.asked = [] ∧ p.served = none ∧ p.rxNext = 0 ∧ p.txNext = 0 ∧ p.buffer = [] ∧ p.sent = [] ∧ p.unsent = 0) ∧
  (∀ n < 12, (s.stack n).wm = 0 ∧ (s.stack n).passes = 0 ∧ (s.stack n).done = false ∧ (s.stack n).spares = 32768) ∧
  s.quiesced = false ∧ s.zal.fwState = 0 ∧ s.module.fail = 0 ∧ s.mem.poison = [] ∧ s.launches = [] ∧ s.gangs = []

/-- A byte written reads back, a byte outside a write keeps its value, and words are little-endian: byte i of a word holds
its bits [8i + 7:8i] (R2). -/
def Obligations.ReadAfterWrite : Prop :=
  ∀ (m : Mem) (l : Loc) (bs : List Byte),
    (m.setBytes l bs).bytes l bs.length = bs ∧
    (∀ l', (∀ i < bs.length, l' ≠ l.plus i) → (m.setBytes l bs).byte l' = m.byte l') ∧
    ∀ w : Word, ofLe (leBytes 8 w.toNat) = w.toNat ∧ ∀ i < 8, (leBytes 8 w.toNat)[i]? = some (w.extractLsb' (8 * i) 8)

/-! ### What every instruction meets first (R98, R99, R104, R106, R128, R302) -/

/-- An instruction that the group's role does not allow parks it with ROLE, whatever its guard, and changes nothing
else of the group; the trap of a control core raises WATCHDOG, which restarts the four cores (R352). -/
def Obligations.RoleTrap : Prop :=
  ∀ (i : Instr) (s : State) (rs : List Role), rolesOf i = some rs → s.me.role ∉ rs →
    (s.me.isControl = false →
      ∃ t, exec i s = .next t ∧ t.me.status = .parked ∧ t.me.regs = s.me.regs ∧ t.me.hist = s.me.hist ∧
        t.me.at_ = s.me.at_ ∧ t.mem = s.mem ∧ t.gangs = (dropClaims s s.me).gangs ∧ t.cores = s.cores ∧
        ∃ k, (t.part s.myP).parks = (s.part s.myP).parks ++ [k] ∧ k.who = .group s.me.key ∧
          wordAt k.words 0 = w64 (2 * 2 ^ 56) ∧ wordAt k.words 1 = s.me.hist.ic) ∧
    (s.me.isControl = true →
      ∃ t, exec i s = .next t ∧ t.mem.dev = s.mem.dev ∧
        restarted t (if s.zal.windowOpen then s.zal.prev else s.zal.active))

/-- What a vector instruction meets before any effect (R104, R106, R128, R137): one of classes 2 and 3 with a register
at or above the quota parks its group with REG_QUOTA; one that names a register which a busy scoreboard slot guards
waits for that slot, unless hazard checking is open; and one whose crumbs do not fit parks with HISTORY_FULL, where a
proofing group stalls. No register changes. -/
def Obligations.VectorChecks : Prop :=
  (∀ (i : Instr) (s : State) (r : VRow), (vecRow i = some r ∨ fpRow i = some r) → s.me.role = .vector →
      (underQuota s (r.h.gr :: r.reads ++ [r.d]) = false →
        ∃ t, exec i s = .next t ∧ t.me.status = .parked ∧ t.me.regs = s.me.regs ∧ t.me.hist = s.me.hist ∧
          ∃ k, (t.part s.myP).parks = (s.part s.myP).parks ++ [k] ∧ wordAt k.words 0 = w64 (10 * 2 ^ 56)) ∧
      (underQuota s (r.h.gr :: r.reads ++ [r.d]) = true → unguarded s (r.h.gr :: r.reads ++ [r.d]) = false →
        hazardOpen s = false →
        ∃ t q, exec i s = .next t ∧ q ∈ r.h.gr :: r.reads ++ [r.d] ∧ t.me.status = .wait (.guarded q) ∧
          t.me.regs = s.me.regs ∧ t.me.hist = s.me.hist ∧ t.me.at_ = s.me.at_ ∧ t.mem = s.mem)) ∧
  (∀ (i : Instr) (s : State) (r : VRow), vecRow i = some r → s.me.role = .vector → r.inv = false →
      underQuota s (r.h.gr :: r.reads ++ [r.d]) = true → s.me.sb = [] →
      unawaited s (r.h.gr :: r.reads ++ [r.d]) (r.h.gr :: r.reads) = true →
      s.me.free < crumbsBytes (crumbV s r.d (lanesOn s r.h)) + 16 → crumbV s r.d (lanesOn s r.h) ≠ [] →
      (s.me.marks.proof = false → ∃ t, exec i s = .next t ∧ t.me.status = .parked ∧ t.me.regs = s.me.regs ∧
        t.me.hist = s.me.hist ∧
        ∃ k, (t.part s.myP).parks = (s.part s.myP).parks ++ [k] ∧ wordAt k.words 0 = w64 (7 * 2 ^ 56) ∧
          wordAt k.words 2 = w64 (s.me.at_.hva.toNat % 2 ^ 56)) ∧
      (s.me.marks.proof = true → ∃ t, exec i s = .next t ∧ t.me.status = .wait .proof ∧ t.me.regs = s.me.regs ∧
        t.me.hist = s.me.hist))

/-! ### Class 0 -/

/-- The results of class 0 that are one 64-bit value: D takes the result with the poison of R323 when the guard passes,
z discards it, and everything else but the count, the crumb and the pc stays. -/
def Obligations.ScalarResults : Prop :=
  ∀ (i : Instr) (s : State) (r : Row), scalarRow (fun q => (srcS s q).v) i = some r →
    let vs := r.reads.map (srcS s) ++ [srcS s r.h.gr]
    let cs := if r.inv && !mustPush s r.h r.d r.reads then [] else crumbS s r.d (vs.any (·.p))
    Ready s [.vector, .matrix, .copy, .control] (r.h.gr :: r.reads ++ [r.d]) (r.h.gr :: r.reads) cs = true → Calm s = true →
    exec i s = .next (if guardS s r.h then putS (s.stepped r.h.mark cs [r.d]) r.d (withPoison r.val vs)
      else s.stepped r.h.mark cs [r.d])

/-- CMP, BSET and BCLR write one bit of D and keep the other 63 (R331, R332). SWAP exchanges values and poison and
pushes nothing, and with D = A or its guard off it only counts, SEL selects with its guard, and SETK writes its immediate
under H and keeps D's poison but for H = 00 (R334 to R336). That a poisoned guard of SWAP poisons neither register is the
model's choice (log entry 12). -/
def Obligations.ScalarOthers : Prop :=
  (∀ (s : State) (h : Hd) (d a b : Reg), Calm s = true →
      (∀ (cc : CC) (n : Fin 32),
        let vs := [srcS s a, srcS s b, srcS s d, srcS s h.gr]
        let cs := crumbBit s d n (vs.any (·.p))
        Ready s [.vector, .matrix, .copy, .control] [h.gr, a, b, d, d] [h.gr, a, b, d] cs = true →
        exec (.cmp h cc n d a b) s = .next (if guardS s h then
          putS (s.stepped h.mark cs [d]) d
            (withPoison (withBit (srcS s d).v n.val (holds cc (srcS s a).v (srcS s b).v)) vs)
          else s.stepped h.mark cs [d])) ∧
      (∀ (n : Fin 64) (set : Bool),
        let vs := [srcS s a, srcS s b, srcS s h.gr]
        let k := ((srcS s b).v.toNat + n.val) % 64
        let cs := if d = a ∧ a ≠ b then crumbBit s d k (vs.any (·.p)) else crumbS s d (vs.any (·.p))
        Ready s [.vector, .matrix, .copy, .control] [h.gr, a, b, d] [h.gr, a, b] cs = true →
        exec (if set then .bset h n d a b else .bclr h n d a b) s = .next (if guardS s h then
          putS (s.stepped h.mark cs [d]) d (withPoison (withBit (srcS s a).v k set) vs)
          else s.stepped h.mark cs [d]))) ∧
  (∀ s : State, Calm s = true →
      (∀ (h : Hd) (i j : Fin 128), i ≠ j → Ready s [.vector, .matrix, .copy, .control] [h.gr, .s i, .s j, .s i, .s j]
          [h.gr, .s i, .s j] [] = true → guardS s h = true →
        ∃ t, exec (.swap h (.s i) (.s j)) s = .next t ∧ Counted s t ∧ t.me.getS i = srcS s (.s j) ∧
          t.me.getS j = srcS s (.s i) ∧ t.me.hist.crumbs = s.me.hist.crumbs ∧
          (∀ k : Fin 128, k ≠ i → k ≠ j → t.me.getS k = s.me.getS k) ∧ t.mem = s.mem) ∧
      (∀ (h : Hd) (i j : Fin 128), (i = j ∨ guardS s h = false) →
        Ready s [.vector, .matrix, .copy, .control] [h.gr, .s i, .s j, .s i, .s j] [h.gr, .s i, .s j] [] = true →
        exec (.swap h (.s i) (.s j)) s = .next (s.stepped h.mark [] [.s i, .s j])) ∧
      (∀ (h : Hd) (t : ITy) (d a b : Reg),
        let x := if guardS s h then srcS s a else srcS s b
        let cs := crumbS s d ([srcS s a, srcS s b, srcS s h.gr].any (·.p))
        Ready s [.vector, .matrix, .copy, .control] [h.gr, a, b, d] [h.gr, a, b] cs = true →
        exec (.sel h t d a b) s = .next (putS (s.stepped h.mark cs [d]) d
          (withPoison (wide t (low t x.v)) [x, srcS s h.gr]))) ∧
      (∀ (mark : Bool) (d : Reg) (f : HF) (imm : BitVec 32),
        let old := srcS s d
        let new : SVal := match f with
          | .full => { v := imm.signExtend 64 }
          | .hi => { old with v := imm ++ old.v.extractLsb' 0 32 }
          | .lo => { old with v := old.v.extractLsb' 32 32 ++ imm }
        Ready s [.vector, .matrix, .copy, .control] [.z, d, d] [.z, d] (crumbS s d false) = true →
        exec (.setk mark d f imm) s = .next (putS (s.stepped mark (crumbS s d false) [d]) d new)))

/-- What the instructions of class 0 leave alone, on every path that goes on, traps among them: the memories, every
scalar register but the destinations, the vector registers, FPFLAGS, the poison-origin table, the scoreboard, the
acknowledgement counter and every gang and core. -/
def Obligations.ScalarFrame : Prop :=
  ∀ (i : Instr) (s t : State) (ds : List Reg),
    ((∃ r, scalarRow (fun q => (srcS s q).v) i = some r ∧ ds = [r.d]) ∨
      (∃ h cc n d a b, i = .cmp h cc n d a b ∧ ds = [d]) ∨ (∃ h n d a b, i = .bset h n d a b ∧ ds = [d]) ∨
      (∃ h n d a b, i = .bclr h n d a b ∧ ds = [d]) ∨ (∃ h d a, i = .swap h d a ∧ ds = [d, a]) ∨
      (∃ h ty d a b, i = .sel h ty d a b ∧ ds = [d]) ∨ (∃ m d f imm, i = .setk m d f imm ∧ ds = [d])) →
    s.me.isControl = false → exec i s = .next t →
    (∀ l, t.mem.byte l = s.mem.byte l) ∧ t.mem.poison = s.mem.poison ∧
    (∀ k : Fin 128, Reg.s k ∉ ds → t.me.getS k = s.me.getS k) ∧ (∀ r l, t.me.getV r l = s.me.getV r l) ∧
    t.me.fpflags = s.me.fpflags ∧ t.me.pot = s.me.pot ∧ t.me.sb = s.me.sb ∧ t.me.acks = s.me.acks ∧
    sameGangs s t ∧ t.cores = s.cores ∧ t.launches = s.launches ∧ t.rest = s.rest

/-- Reversal gives back what an instruction of the classes 0 and 2 to 6 overwrote (R116, R122, R123, R125, R132, R133):
undone right after it completed, with its results written and no line of the history poisoned, it leaves every register, the
history and ic as they were; undoing a store or an exchange gives every byte of the memories back, as long as what it stored
to changes no translation; and undoing CN.REF or CN.DROP gives the count back that it changed (R227). -/
def Obligations.UndoRestores : Prop :=
  (∀ (i : Instr) (s t : State), ((∃ r, scalarRow (fun q => (srcS s q).v) i = some r) ∨
      (∃ h cc n d a b, i = .cmp h cc n d a b) ∨ (∃ h n d a b, i = .bset h n d a b) ∨
      (∃ h n d a b, i = .bclr h n d a b) ∨ (∃ h d a, i = .swap h d a) ∨ (∃ h ty d a b, i = .sel h ty d a b) ∨
      (∃ m d f imm, i = .setk m d f imm)) →
    i.wf = true → Reversible s = true → exec i s = .next t → t.me.hist.ic = s.me.hist.ic + 1 →
    ∃ u, undoInstr (t.modMe Group.quiet) i = (u, none) ∧ undone s u) ∧
  (∀ (i : Instr) (s t : State), ((∃ r, vecRow i = some r) ∨ (∃ r, fpRow i = some r) ∨
      (∃ h cc n d a b, i = .vcmp h cc n d a b) ∨ (∃ h cc n d a b, i = .fcmp h cc n d a b) ∨
      (∃ h d a b, i = .vsel h d a b) ∨ (∃ h d a, i = .vswap h d a) ∨ (∃ h hi d b, i = .vbcast h hi d b) ∨
      (∃ h rm dt st sp dp d a, i = .cvt h rm dt st sp dp d a) ∨ (∃ h d a b, i = .lperm h d a b) ∨
      (∃ h m d a, i = .lshuf h m d a) ∨ (∃ h n d a b, i = .lrot h n d a b) ∨ (∃ h n d a b, i = .lbcast h n d a b) ∨
      (∃ h op ty rm d a, i = .lred h op ty rm d a) ∨ (∃ h op ty rm d a, i = .lscan h op ty rm d a) ∨
      (∃ h n d a, i = .lbits h n d a) ∨ (∃ h n d b, i = .lspread h n d b)) →
    i.wf = true → Reversible s = true → exec i s = .next t → t.me.hist.ic = s.me.hist.ic + 1 →
    ∃ u, undoInstr (t.modMe Group.quiet) i = (u, none) ∧ undone s u) ∧
  (∀ (i : Instr) (s t : State), ((∃ h sz un d m, i = .ld h sz un d m) ∨ (∃ h sz un d m, i = .vld h sz un d m) ∨
      (∃ h sz un d m, i = .ldl h sz un d m) ∨ (∃ h sz un d m, i = .vldl h sz un d m) ∨ (∃ h sz d m, i = .st h sz d m) ∨
      (∃ h sz d m, i = .vst h sz d m) ∨ (∃ h sz d m, i = .stl h sz d m) ∨ (∃ h sz d m, i = .vstl h sz d m) ∨
      (∃ h sz un d m, i = .xchg h sz un d m) ∨ (∃ h d m, i = .vxchg h d m)) →
    i.wf = true → Reversible s = true → AtRest s = true → s.inDet = false → exec i s = .next t →
    t.me.hist.ic = s.me.hist.ic + 1 → (∀ va, look t va .write = look s va .write) →
    ∃ u, undoInstr (t.modMe Group.quiet) i = (u, none) ∧ undone s u ∧ (∀ l, u.mem.byte l = s.mem.byte l) ∧
      ∀ c o, Tab.get 0 (u.myGang.on c).lmem o = Tab.get 0 (s.myGang.on c).lmem o) ∧
  (∀ (i : Instr) (s t : State), ((∃ h q, i = .sbWait h q) ∨ (∃ h w imm a, i = .wpWait h w imm a) ∨
      (∃ h ord, i = .fence h ord .grp) ∨ (∃ h sf m d a, i = .tcPf h sf m d a) ∨ (∃ h d a b, i = .tcSub h d a b) ∨
      (∃ h n a, i = .tcKeep h n a) ∨ (∃ h n d a b, i = .tcProbe h n d a b) ∨ (∃ h n d a, i = .cnGet h n d a) ∨
      (∃ h n d a, i = .cnRoot h false n d a) ∨ (∃ h n d, i = .cnRef h n d) ∨ (∃ h n d, i = .cnDrop h n d)) →
    i.wf = true → Reversible s = true → AtRest s = true → s.inDet = false → exec i s = .next t →
    t.me.hist.ic = s.me.hist.ic + 1 →
    ∃ u, undoInstr (t.modMe Group.quiet) i = (u, none) ∧ undone s u ∧
      ∀ h n d x, (i = .cnRef h n d ∨ i = .cnDrop h n d) → cnReg? s s.myP n.val = some x →
        (∀ slot < x.n, (cnEntry s x slot).count < 0xFFFFFFFE) → ∀ slot < x.n, cnEntry u x slot = cnEntry s x slot)

/-! ### Classes 2 to 4 -/

/-- The results of the vector integer instructions: each active lane of D takes the lane's result, computed from the
old values of every lane; the other lanes, and everything else but the count, the crumb and the pc, stay. -/
def Obligations.VectorIntegers : Prop :=
  ∀ (i : Instr) (s : State) (r : VRow), vecRow i = some r →
    let cs := if r.inv && vInvNow s r.h r.a r.b r.d then [] else crumbV s r.d (lanesOn s r.h)
    Ready s [.vector, .control] (r.h.gr :: r.reads ++ [r.d]) (r.h.gr :: r.reads) cs = true → Calm s = true →
    exec i s = .next (putV (s.stepped r.h.mark cs [r.d]) r.d (r.lanes s))

/-- The floating-point instructions: the exact result of each active lane's operands, rounded once. -/
def Obligations.VectorFloats : Prop :=
  ∀ (i : Instr) (s : State) (r : VRow), fpRow i = some r →
    let cs := crumbV s r.d (lanesOn s r.h)
    Ready s [.vector, .control] (r.h.gr :: r.reads ++ [r.d]) (r.h.gr :: r.reads) cs = true → Calm s = true →
    exec i s = .next (putV (s.stepped r.h.mark cs [r.d]) r.d (r.lanes s))

/-- Every finite code, zero, subnormal and infinity of the five formats is the value that it decodes to: encoding its
value gives the code back in every rounding mode (R228, R234). -/
def Obligations.FormatsRoundTrip : Prop :=
  ∀ (f : Fmt) (c : Nat) (rm : RM), f ∈ [fp32, bf16, fp16, e4m3, e5m2] → c < 2 * f.top → f.dec c ≠ .nan →
    f.enc rm (f.dec c) = c

/-- The compares of class 2 and 3 and VSEL, VSWAP, VBCAST (R362, R364, R367). That poison in the guard bits of VSWAP reaches
neither register is the model's choice (log entry 12). -/
def Obligations.VectorSelects : Prop :=
  ∀ (s : State) (h : Hd) (d a : Reg) (b : BOp), Calm s = true →
    (∀ (cc : CC) (n : Fin 32),
      let cs := crumbLaneBit s h d n fun l => [srcL s a l, srcB s b l, srcL s h.gr l]
      Ready s [.vector, .control] [h.gr, a, b.r, d, d] [h.gr, a, b.r, d] cs = true →
      exec (.vcmp h cc n d a b) s = .next (putV (s.stepped h.mark cs [d]) d ((lanesOn s h).map fun l =>
        (l, lanePoison (setLaneBit (srcL s d l).v n (holds cc (srcL s a l).v (srcB s b l).v))
          [srcL s a l, srcB s b l, srcL s d l, srcL s h.gr l])))) ∧
    (∀ (cc : FCC) (n : Fin 32),
      let cs := crumbLaneBit s h d n fun l => [srcL s a l, srcB s b l, srcL s h.gr l]
      Ready s [.vector, .control] [h.gr, a, b.r, d, d] [h.gr, a, b.r, d] cs = true →
      exec (.fcmp h cc n d a b) s = .next (putV (s.stepped h.mark cs [d]) d ((lanesOn s h).map fun l =>
        (l, lanePoison (setLaneBit (srcL s d l).v n (ccNum cc (fl (srcL s a l).v) (fl (srcB s b l).v)))
          [srcL s a l, srcB s b l, srcL s d l, srcL s h.gr l])))) ∧
    (let cs := crumbV s d (upto 0 32);
      Ready s [.vector, .control] [h.gr, a, b.r, d] [h.gr, a, b.r] cs = true →
      exec (.vsel h d a b) s = .next (putV (s.stepped h.mark cs [d]) d ((upto 0 32).map fun l =>
        let x := if guardL s h l then srcL s a l else srcB s b l
        (l, lanePoison x.v [x, srcL s h.gr l])))) ∧
    (∀ i j : Fin 768, i ≠ j → Ready s [.vector, .control] [h.gr, .v i, .v j, .v i, .v j] [h.gr, .v i, .v j] [] = true →
      exec (.vswap h (.v i) (.v j)) s = .next (putV (putV (s.stepped h.mark [] [.v i, .v j]) (.v i)
        ((lanesOn s h).map fun l => (l, srcL s (.v j) l))) (.v j) ((lanesOn s h).map fun l => (l, srcL s (.v i) l)))) ∧
    (∀ (q : Reg) (hi : Bool), q.isScalar = true →
      let half : Nat → LVal := fun l => if hi then
        { v := (srcS s q).v.extractLsb' 32 32, p := (srcS s q).p, o := (srcS s q).o } else srcL s q l
      let cs := crumbV s d (lanesOn s h)
      Ready s [.vector, .control] [h.gr, q, d] [h.gr, q] cs = true →
      exec (.vbcast h hi d q) s = .next (putV (s.stepped h.mark cs [d]) d
        ((lanesOn s h).map fun l => (l, lanePoison (half l).v [half l, srcL s h.gr l]))))

/-- CVT converts one part of each active lane, keeps the lane's other bits, and raises the sticky flags of the lanes
that it converts without poison (R238, R239, R370, R371). -/
def Obligations.Conversions : Prop :=
  ∀ (s : State) (h : Hd) (rm : RM) (dt st : Ty) (sp dp : Fin 4) (d a : Reg), Calm s = true →
    st.partOk sp = true → dt.partOk dp = true →
    let narrow := decide (tyBits dt ≠ 32)
    let cs := crumbV s d (lanesOn s h)
    let res := fun l => convertNum rm st dt
      (tyRead st ((srcL s a l).v.extractLsb' (tyBits st * sp.val) (tyBits st)).toNat)
    let clean := (lanesOn s h).filter fun l => !(srcL s a l).p
    Ready s [.vector, .control] (h.gr :: [a] ++ (if narrow then [d] else []) ++ [d])
      (h.gr :: [a] ++ (if narrow then [d] else [])) cs = true →
    ∃ t, exec (.cvt h rm dt st sp dp d a) s = .next t ∧ Counted s t ∧ t.me.hist.crumbs = cs.reverse ++ s.me.hist.crumbs ∧
      (t.me.fpflags.getLsbD 1 = (s.me.fpflags.getLsbD 1 || clean.any fun l => (res l).2)) ∧
      (t.me.fpflags.getLsbD 0 = (s.me.fpflags.getLsbD 0 || clean.any fun l => tyInt dt &&
        (tyRead st ((srcL s a l).v.extractLsb' (tyBits st * sp.val) (tyBits st)).toNat).isNan)) ∧
      (∀ (r : Fin 768) (l : Nat), d = .v r → l < 32 →
        (guardL s h l = true →
          (t.me.getV r l).v.extractLsb' (tyBits dt * dp.val) (tyBits dt) = BitVec.ofNat (tyBits dt) (res l).1 ∧
          (∀ k < 32, (k < tyBits dt * dp.val ∨ tyBits dt * (dp.val + 1) ≤ k) →
            (t.me.getV r l).v.getLsbD k = (srcL s d l).v.getLsbD k)) ∧
        (guardL s h l = false → t.me.getV r l = s.me.getV r l)) ∧
      t.mem = s.mem

/-- The lane instructions: permutations take the named source lane, reductions combine the active lanes in the one
tree of R247 with identities for the others, and LBITS and LSPREAD move one bit a lane (R372 to R374). -/
def Obligations.LaneInstructions : Prop :=
  ∀ (s : State) (h : Hd) (d a b : Reg), Calm s = true →
    (let cs := crumbV s d (lanesOn s h);
      (∀ (src : Nat → Nat) (x : Nat → List LVal) (i : Instr) (rd : List Reg),
        (i = .lperm h d a b ∧ rd = [a, b] ∧ src = (fun l => (srcL s b l).v.toNat % 32) ∧ x = (fun l => [srcL s b l])) ∨
        (∃ m : Fin 32, i = .lshuf h m d a ∧ rd = [a] ∧ src = (fun l => l ^^^ m.val) ∧ x = (fun _ => [])) ∨
        (∃ n : Fin 32, i = .lrot h n d a b ∧ rd = [a, b] ∧ src = (fun l => (l + (srcL s b l).v.toNat + n.val) % 32) ∧
          x = (fun l => [srcL s b l])) ∨
        (∃ n : Fin 32, i = .lbcast h n d a b ∧ rd = [a, b] ∧ src = (fun l => ((srcL s b l).v.toNat + n.val) % 32) ∧
          x = (fun l => [srcL s b l])) →
        Ready s [.vector, .control] (h.gr :: rd ++ [d]) (h.gr :: rd) cs = true →
        exec i s = .next (putV (s.stepped h.mark cs [d]) d ((lanesOn s h).map fun l =>
          (l, lanePoison (srcL s a (src l)).v ([srcL s a (src l)] ++ x l ++ [srcL s h.gr l])))))) ∧
    (∀ (op : ROp) (ty : RTy) (rm : RM), d.isV = false →
      let x := treeNode op ty rm (redLeaf s h op ty a) 5 0
      Ready s [.vector, .control] [h.gr, a, d] [h.gr, a] (crumbS s d false) = true →
      ∃ t, exec (.lred h op ty rm d a) s = .next t ∧ Counted s t ∧
        takesValue s t d (if ty = .i32 then x.v.signExtend 64 else x.v.setWidth 64) ∧ t.mem = s.mem) ∧
    (∀ (op : ROp) (ty : RTy) (rm : RM) (r : Fin 768),
      Ready s [.vector, .control] [h.gr, a, .v r] [h.gr, a] (crumbV s (.v r) (lanesOn s h)) = true →
      (∃ t, exec (.lred h op ty rm (.v r) a) s = .next t ∧ Counted s t ∧ ∀ l < 32,
        (guardL s h l = true → (t.me.getV r l).v = (treeNode op ty rm (redLeaf s h op ty a) 5 0).v) ∧
        (guardL s h l = false → t.me.getV r l = s.me.getV r l)) ∧
      (∃ t, exec (.lscan h op ty rm (.v r) a) s = .next t ∧ Counted s t ∧
        (∀ l < 32, guardL s h l = false → t.me.getV r l = s.me.getV r l) ∧
        (∀ k ≤ 5, guardL s h (2 ^ k - 1) = true →
          (t.me.getV r (2 ^ k - 1)).v = (treeNode op ty rm (redLeaf s h op ty a) k 0).v) ∧
        (∀ k ≤ 4, ∀ j < k, guardL s h (2 ^ k + 2 ^ j - 1) = true →
          (t.me.getV r (2 ^ k + 2 ^ j - 1)).v = combine op ty rm (treeNode op ty rm (redLeaf s h op ty a) k 0).v
            (treeNode op ty rm (redLeaf s h op ty a) j (2 ^ k)).v))) ∧
    (∀ n : Fin 32, d.isS = true →
      Ready s [.vector, .control] [h.gr, a, d] [h.gr, a] (crumbS s d false) = true →
      ∃ t, exec (.lbits h n d a) s = .next t ∧ Counted s t ∧
        (∀ i : Fin 128, d = .s i → ∀ l < 64,
          (t.me.getS i).v.getLsbD l = (decide (l < 32) && guardL s h l && (srcL s a l).v.getLsbD n)) ∧
        ∀ k : Fin 128, d ≠ .s k → t.me.getS k = s.me.getS k) ∧
    (∀ n : Fin 32, d.isVZ = true → b.isScalar = true →
      let cs := crumbLaneBit s h d n fun l => [srcL s b l, srcL s h.gr l]
      Ready s [.vector, .control] [h.gr, b, d, d] [h.gr, b, d] cs = true →
      ∃ t, exec (.lspread h n d b) s = .next t ∧ Counted s t ∧ ∀ (r : Fin 768) (l : Nat), l < 32 →
        (d = .v r → guardL s h l = true →
          (t.me.getV r l).v = setLaneBit (srcL s d l).v n ((srcL s b l).v.getLsbD l)) ∧
        ((d ≠ .v r ∨ guardL s h l = false) → t.me.getV r l = s.me.getV r l))

/-- What the instructions of classes 2 and 3 leave alone, on every path that goes on: the memories, the scalar
registers, every vector register but D, the lanes of D whose guard fails, FPFLAGS but for CVT, the poison-origin table,
the acknowledgement counter, and every gang and core. -/
def Obligations.VectorFrame : Prop :=
  ∀ (i : Instr) (s t : State) (r : VRow), (vecRow i = some r ∨ fpRow i = some r) → s.me.isControl = false →
    exec i s = .next t →
    (∀ l, t.mem.byte l = s.mem.byte l) ∧ (∀ k, t.me.getS k = s.me.getS k) ∧
    (∀ (q : Fin 768) (l : Nat), l < 32 → (Reg.v q ≠ r.d ∨ guardL s r.h l = false) → t.me.getV q l = s.me.getV q l) ∧
    t.me.fpflags = s.me.fpflags ∧ t.me.pot = s.me.pot ∧ t.me.acks = s.me.acks ∧ t.me.sb = s.me.sb ∧
    sameGangs s t ∧ t.cores = s.cores ∧ t.launches = s.launches ∧ t.rest = s.rest

/-! ### Class 1 -/

/-- The transfers (R130, R131, R337): a taken one enters the block at its target, whose header must be a JOIN header,
with `from` in cf and the old cf in the crumb, and any other target raises FRAME with nothing done; one whose guard
fails does nothing but be counted; one whose guard register holds poison raises POISON_USE (R323). -/
def Obligations.Transfers : Prop :=
  (∀ (s : State) (h : Hd), Able s h [.vector, .matrix, .copy, .control] [] [] [] = true → s.me.isControl = false →
      let goes := fun (o : Host.Outcome State Fault Refusal) (va : Word) (n : Nat) => ∃ t, o = .next t ∧
        t.me.hist.ic = s.me.hist.ic + 1 ∧ t.me.at_.pc = va + 8 ∧ t.me.at_.hva = va ∧ t.me.hist.cf = s.me.at_.pc ∧
        t.me.hist.crumbs.length = s.me.hist.crumbs.length + n ∧
        (t.me.hist.crumbs.head?.map fun c => (c.kind, c.payload)) = some (4, [s.me.hist.cf]) ∧ t.mem = s.mem
      let framed := fun (o : Host.Outcome State Fault Refusal) (va : Word) => ∃ t, o = .next t ∧
        t.me.status = .parked ∧ t.me.hist = s.me.hist ∧ t.me.at_ = s.me.at_ ∧ t.me.regs = s.me.regs ∧
        ∃ k, (t.part s.myP).parks = (s.part s.myP).parks ++ [k] ∧ wordAt k.words 0 = w64 (3 * 2 ^ 56) ∧
          wordAt k.words 2 = w64 (va.toNat % 2 ^ 56)
      (∀ (off : BitVec 27) (w : Word), let va := s.me.at_.pc + off.signExtend 64 * 8
        fetchAt s va = .inr w →
        (isHeader w = true → headerBad w = false → hdrJoin w = true → goes (exec (.br h off) s) va 1) ∧
        ((isHeader w = false ∨ headerBad w = true ∨ hdrJoin w = false) → framed (exec (.br h off) s) va)) ∧
      (∀ (off : BitVec 27) (w : Word) (d : Reg), d.isSZ = true → let va := s.me.at_.pc + off.signExtend 64 * 8
        fetchAt s va = .inr w → unguarded s [d] = true → roomFor s (crumbS s d false) = true →
        (isHeader w = true → headerBad w = false → hdrJoin w = true → hdrEntry w = true →
          goes (exec (.call h d off) s) va (if d.isS then 2 else 1) ∧
          ∃ t, exec (.call h d off) s = .next t ∧ takes s t d { v := s.me.at_.pc + 8 }) ∧
        ((isHeader w = false ∨ headerBad w = true ∨ hdrJoin w = false ∨ hdrEntry w = false) →
          framed (exec (.call h d off) s) va)) ∧
      (∀ (a : Reg) (w : Word), a.isScalar = true → let va := (srcS s a).v
        Able s h [.vector, .matrix, .copy, .control] [a] [] [] = true →
        (va.toNat % 8 ≠ 0 → framed (exec (.ret h a) s) va) ∧
        (va.toNat % 8 = 0 → fetchAt s va = .inr w → isHeader w = true → headerBad w = false → hdrJoin w = true →
          goes (exec (.ret h a) s) va 1)) ∧
      (∀ (off : BitVec 27) (w : Word) (d : Reg), d.isSZ = true → let va := s.me.at_.pc + off.signExtend 64 * 8
        Able s h [.vector, .matrix, .copy, .control] [d] [d] [] = true → h.gr ≠ d →
        ((srcS s d).v = 1 → ∃ t, exec (.loop h d off) s = .next t ∧ Counted s t ∧ takes s t d { v := 0 } ∧
          t.me.hist.crumbs = s.me.hist.crumbs) ∧
        ((srcS s d).v ≠ 1 → fetchAt s va = .inr w → isHeader w = true → headerBad w = false → hdrJoin w = true →
          goes (exec (.loop h d off) s) va 1 ∧
          ∃ t, exec (.loop h d off) s = .next t ∧ takes s t d { v := (srcS s d).v - 1 }))) ∧
  (∀ (s : State) (h : Hd) (off : BitVec 27), Ready s [.vector, .matrix, .copy, .control] [h.gr] [h.gr] [] = true →
      Calm s = true → s.me.isControl = false →
      ((srcS s h.gr).p = false → guardS s h = false → exec (.br h off) s = .next (s.stepped h.mark [] [])) ∧
      ((srcS s h.gr).p = true → frameOf s (.br h off) = none → ∃ t, exec (.br h off) s = .next t ∧
        t.me.status = .parked ∧ t.me.hist = s.me.hist ∧
        t.me.at_ = s.me.at_ ∧ ∃ k, (t.part s.myP).parks = (s.part s.myP).parks ++ [k] ∧
          wordAt k.words 0 = w64 (4 * 2 ^ 56) ∧
          wordAt k.words 3 = w64 (2 ^ 35 + (srcS s h.gr).o.toNat * 2 ^ 32 + 1)))

/-- NOP, YIELD, COMMIT, HALT and TRAP (R338 to R340, R342); YIELD, HALT and TRAP with their guards off count and do nothing
else, HALT and TRAP as the horizons that they are. The model's choices: the ic of TRAP's record, as it stands after TRAP (log
entry 78), and the age that YIELD leaves, one clock behind a group that issues otherwise (log entries 6 and 65). -/
def Obligations.ControlSimple : Prop :=
  ∀ (s : State) (h : Hd), Ready s [.vector, .matrix, .copy, .control] [h.gr] [h.gr] [] = true → Calm s = true →
    (exec (.nop h) s = .next (s.stepped h.mark [] [])) ∧
    (guardS s h = true → ∃ t, exec (.yield h) s = .next t ∧ Counted s t ∧ t.me.seat.age = s.tick + 2 ∧
      t.me.regs = s.me.regs ∧ t.mem = s.mem) ∧
    (guardS s h = false → exec (.yield h) s = .next (s.stepped h.mark [] []) ∧
      (∃ t, exec (.halt h) s = .next t ∧ Passed s t ∧ t.me.regs = s.me.regs ∧ t.me.status = s.me.status ∧
        t.mem = s.mem) ∧
      ∀ imm, ∃ t, exec (.trap h imm) s = .next t ∧ Passed s t ∧ t.me.regs = s.me.regs ∧ t.me.status = s.me.status ∧
        t.mem = s.mem ∧ t.parts = s.parts) ∧
    (∃ t, exec (.commit h) s = .next t ∧ Passed s t ∧ t.me.regs = s.me.regs ∧ t.mem = s.mem) ∧
    (guardS s h = true → s.owing = false → s.me.sb = [] → queuedMine s = false → ∃ t, exec (.halt h) s = .next t ∧
      Passed s t ∧ t.me.status = .halted ∧ t.me.regs.quota = 0 ∧ t.me.seat.active = false) ∧
    (guardS s h = true → (s.owing = true ∨ s.me.sb ≠ [] ∨ queuedMine s = true) → ∃ t, exec (.halt h) s = .next t ∧
      t.me.status = .wait .halt ∧ t.me.hist = s.me.hist ∧ t.me.at_ = s.me.at_) ∧
    (∀ imm, guardS s h = true → s.me.isControl = false → ∃ t, exec (.trap h imm) s = .next t ∧ Passed s t ∧
      t.me.status = .parked ∧ t.me.regs = s.me.regs ∧ ∃ k, (t.part s.myP).parks = (s.part s.myP).parks ++ [k] ∧
        k.who = .group s.me.key ∧ wordAt k.words 0 = w64 (13 * 2 ^ 56) ∧ wordAt k.words 1 = s.me.hist.ic + 1 ∧
        wordAt k.words 2 = w64 (s.me.at_.pc.toNat % 2 ^ 56) ∧ wordAt k.words 6 = s.me.hist.ic + 1)

/-- REV reverses its group to the ic in A: it is itself neither counted nor reversed, a target outside [hz, ic] raises
PAST_HORIZON, REV.p parks with BREAK at the target, and one that equals ic reverses nothing (R134, R341). -/
def Obligations.Reversal : Prop :=
  ∀ (s : State) (h : Hd) (a : Reg), a.isScalar = true →
    Able s h [.vector, .matrix, .copy, .control] [a] [] [] = true →
    s.me.isControl = false →
    let v := (srcS s a).v
    (v = s.me.hist.ic → s.me.hist.hz.toNat ≤ v.toNat →
      (∃ t, exec (.revC h a) s = .next t ∧ t.me.hist = s.me.hist ∧ t.me.at_.pc = s.me.at_.pc + 8 ∧
        t.me.regs = s.me.regs ∧ t.me.status = s.me.status) ∧
      (∃ t, exec (.revP h a) s = .next t ∧ t.me.hist = s.me.hist ∧ t.me.at_.pc = s.me.at_.pc + 8 ∧
        t.me.status = .parked ∧ ∃ k, (t.part s.myP).parks = (s.part s.myP).parks ++ [k] ∧
          wordAt k.words 0 = w64 (12 * 2 ^ 56) ∧ wordAt k.words 2 = w64 ((s.me.at_.pc + 8).toNat % 2 ^ 56))) ∧
    ((v.toNat < s.me.hist.hz.toNat ∨ s.me.hist.ic.toNat < v.toNat) → ∀ p : Bool,
      ∃ t, exec (if p then .revP h a else .revC h a) s = .next t ∧ t.me.status = .parked ∧
        t.me.hist = s.me.hist ∧ t.me.regs = s.me.regs ∧ t.me.at_ = s.me.at_ ∧
        ∃ k, (t.part s.myP).parks = (s.part s.myP).parks ++ [k] ∧ wordAt k.words 0 = w64 (9 * 2 ^ 56) ∧
          wordAt k.words 2 = w64 (v.toNat % 2 ^ 56)) ∧
    (∀ u : State, u.me.isControl = false → s.me.hist.hz.toNat ≤ v.toNat → v.toNat < s.me.hist.ic.toNat →
      reverseTo s v (s.me.at_.pc - 8) = (u, none) →
      exec (.revC h a) s = .next u ∧
      ∃ t, exec (.revP h a) s = .next t ∧ t.me.hist = u.me.hist ∧ t.me.regs = u.me.regs ∧
        t.me.at_ = u.me.at_)

/-- The control registers of R343 (R117, R204, R344, R345): what XSR.RD reads from each, a debug register reading 0 for the
service gang while DEBUG is closed and raising ACCESS with cause 5 for any other; the writes of FPFLAGS, of a breakpoint
and of PARKQ, which ends a registration of a service gang. REG.GROW and REG.SHRINK change the quota by A rounded to a
multiple of 8, up and down, and give the new quota; the registers taken read 0 (R107, R346). -/
def Obligations.RegistersAndQuotas : Prop :=
  (∀ (s : State) (h : Hd) (d a : Reg), d.isSZ = true → a.isScalar = true → 
      (s.me.isControl = false → ∀ (x : Xsr) (v : Word),
        (x = ⟨0x001, 0, 0⟩ ∧ s.me.status = .run ∧ v = w64 (b2n s.me.marks.dir * 128 + b2n s.me.marks.revd * 32)) ∨
        (x = ⟨0x002, 0, 0⟩ ∧ v = w64 s.me.hist.base) ∨ (x = ⟨0x003, 0, 0⟩ ∧ v = w64 (s.me.hist.base + 2 ^ s.me.hist.log)) ∨
        (x = ⟨0x004, 0, 0⟩ ∧ v = s.me.fpflags.setWidth 64) ∨ (x = ⟨0x005, 0, 0⟩ ∧ v = w64 s.myPart.ttBase) ∨
        (x = ⟨0x006, 0, 0⟩ ∧ v = w64 s.myPart.asidtBase) ∨ (x = ⟨0x008, 0, 0⟩ ∧ v = w64 (s.myLaunch.handle % 4096)) ∨
        (x = ⟨0x020, 0, 0⟩ ∧ v = s.myPart.parkq) ∨
        (∃ k j, k < 8 ∧ j < 4 ∧ x = ⟨0x018, BitVec.ofNat 4 k, BitVec.ofNat 3 j⟩ ∧ v = Tab.get 0 s.myPart.keep (4 * k + j)) ∨
        (∃ k, k < 8 ∧ x = ⟨0x010, BitVec.ofNat 4 k, 0⟩ ∧ v = (Tab.get ({} : Origin) s.me.pot k).oic) ∨
        (∃ k, k < 8 ∧ x = ⟨0x010, BitVec.ofNat 4 k, 1⟩ ∧ v = (let e := Tab.get ({} : Origin) s.me.pot k
          w64 (b2n e.valid * 2 ^ 63 + b2n e.multi * 2 ^ 62 + e.cause * 2 ^ 56 + e.va % 2 ^ 56))) →
        Able s h [.vector, .matrix, .copy, .control] [.z] [d] [] = true →
        roomFor s (crumbS s d false) = true →
        ∃ t, exec (.xsrRd h x d .z) s = .next t ∧ Counted s t ∧ takes s t d { v } ∧ t.mem = s.mem) ∧
      (roomFor s (crumbS s d false) = true →
        (s.me.isControl = true → Able s h [.control] [.z] [d] [] = true →
          ∃ t, exec (.xsrRd h ⟨0x030, 0, 0⟩ d .z) s = .next t ∧ Counted s t ∧ takes s t d { v := s.me.bootCause }) ∧
        (s.me.isControl = false → ∃ t, exec (.xsrRd h ⟨0x030, 0, 0⟩ d .z) s = .next t ∧ t.me.status = .parked ∧
          t.me.regs = s.me.regs ∧ ∃ k, (t.part s.myP).parks = (s.part s.myP).parks ++ [k] ∧
            wordAt k.words 0 = w64 (1 * 2 ^ 56)) ∧
        (∀ x : Xsr, x.readable = true → x.isDebug = true → (x.num = 0x045 → bits (srcS s a).v 63 40 = 0) →
          s.me.isControl = false → Able s h [.vector, .matrix, .copy] [a] [d] [] = true →
          (isService s s.me = true → bit s.myPart.policy.mask 0 = false →
            ∃ t, exec (.xsrRd h x d a) s = .next t ∧ Counted s t ∧ takes s t d { v := 0 }) ∧
          (isService s s.me = false → ∃ t, exec (.xsrRd h x d a) s = .next t ∧ t.me.status = .parked ∧
            t.me.regs = s.me.regs ∧ ∃ k, (t.part s.myP).parks = (s.part s.myP).parks ++ [k] ∧
              wordAt k.words 0 = w64 (5 * 2 ^ 56 + 5 * 2 ^ 52)))) ∧
      (s.me.isControl = false → Able s h [.vector, .matrix, .copy, .control] [a] [] [] = true →
        (∀ k < 4, isService s s.me = true → bit s.myPart.policy.mask 0 = true →
          ∃ t, exec (.xsrWr h ⟨0x040, BitVec.ofNat 4 k, 0⟩ a) s = .next t ∧ Passed s t ∧ t.me.regs = s.me.regs ∧
            Tab.get 0 t.myPart.brk k = (srcS s a).v &&& 0x80FFFFFFFFFFFFF8) ∧
        (∃ t, exec (.xsrWr h ⟨0x004, 0, 0⟩ a) s = .next t ∧ Passed s t ∧
          t.me.fpflags = (srcS s a).v.setWidth 2 ∧ t.me.regs = s.me.regs) ∧
        ((srcS s a).v = 0 → (groupsOf s s.me.gang).all (·.role == .vector) = true →
          (s.myPart.service = none ∨ s.myPart.service = some s.me.gang) →
          ∃ t, exec (.xsrWr h ⟨0x020, 0, 0⟩ a) s = .next t ∧ Passed s t ∧
            (t.part s.myP).parkq = 0 ∧ (t.part s.myP).service = none))) ∧
  (∀ (s : State) (h : Hd) (d a : Reg), d.isSZ = true → a.isScalar = true →
      Able s h [.vector, .matrix, .copy, .control] [a] [d] [] = true →
      (let n := ((srcS s a).v.toNat + 7) / 8 * 8;
        s.me.regs.quota + n ≤ 768 → n ≤ corePool s s.me.seat.core → olderGrow s s.me s.me.growRank = false →
        ∃ t, exec (.regGrow h d a) s = .next t ∧ Passed s t ∧ t.me.regs.quota = s.me.regs.quota + n ∧
          takes s t d { v := w64 (s.me.regs.quota + n) } ∧
          ∀ r l, s.me.regs.quota ≤ r → l < 32 → t.me.getV r l = {}) ∧
      (let n := (srcS s a).v.toNat / 8 * 8;
        n + 8 ≤ s.me.regs.quota →
        ∃ t, exec (.regShrink h d a) s = .next t ∧ Passed s t ∧ t.me.regs.quota = s.me.regs.quota - n ∧
          takes s t d { v := w64 (s.me.regs.quota - n) } ∧
          ∀ r l, r < s.me.regs.quota - n → l < 32 → t.me.getV r l = s.me.getV r l) ∧
      (768 < s.me.regs.quota + ((srcS s a).v.toNat + 7) / 8 * 8 → s.me.isControl = false →
        ∃ t, exec (.regGrow h d a) s = .next t ∧ t.me.status = .parked ∧ t.me.regs = s.me.regs ∧
          ∃ k, (t.part s.myP).parks = (s.part s.myP).parks ++ [k] ∧ wordAt k.words 0 = w64 (10 * 2 ^ 56)))

/-- The SVC instructions complete for a group of the registered service gang as releases at .dev: on a park slot that
holds a parked group the action is done and D takes 0, on one that holds none D takes 1 and nothing else happens; any
other gang's group takes ACCESS with cause 5 (R113, R347 to R349). -/
def Obligations.ServiceSlots : Prop :=
  ∀ (s : State) (h : Hd) (d a b : Reg), d.isSZ = true → a.isScalar = true → b.isScalar = true →
    Able s h [.vector] [a, b] [d] [] = true →
    let slot := ((srcS s a).v.extractLsb' 0 16).toNat
    ∀ (x : Instr) (act : Handler),
      (∃ hl, x = .svcResume h hl d a ∧ act = .resume hl.toNat) ∨
      (∃ hl, x = .svcResumeC h hl d a b ∧ act = .reverseGo hl.toNat (srcS s b).v) ∨
      (∃ hl, x = .svcResumeP h hl d a b ∧ act = .reversePark hl.toNat (srcS s b).v) ∨
      (x = .svcKill h d a ∧ act = .kill) ∨ (x = .svcCommit h d a ∧ act = .commit) →
      (isService s s.me = false → ∃ t, exec x s = .next t ∧ t.me.status = .parked ∧ t.me.hist = s.me.hist ∧
        ∃ k, (t.part s.myP).parks = (s.part s.myP).parks ++ [k] ∧ wordAt k.words 0 = w64 (5 * 2 ^ 56 + 5 * 2 ^ 52)) ∧
      (isService s s.me = true → s.owing = true → ∃ t, exec x s = .next t ∧ t.me.status = .wait .acks ∧
        t.me.hist = s.me.hist) ∧
      (isService s s.me = true → s.owing = false →
        ((s.part s.myP).parks.any fun y => y.slot == slot && y.due.isNone) = false →
        ∃ t, exec x s = .next t ∧ Passed s t ∧ takes s t d { v := 1 } ∧ t.parts = s.parts ∧ t.rest = s.rest) ∧
      (∀ (y : Park) (g : Group), isService s s.me = true → s.owing = false → (s.groups.map (·.key)).Nodup →
        (s.part s.myP).parks.find? (fun y => y.slot == slot && y.due.isNone) = some y → y.who = .group g.key →
        s.group? g.key = some g → g.key ≠ s.me.key → g.status = .parked →
        (act = .commit → g.marks.proof = false) →
        (∀ hl v, act = .resume hl ∨ act = .reverseGo hl v ∨ act = .reversePark hl v → hl = 0) →
        (∀ v, act = .reverseGo 0 v ∨ act = .reversePark 0 v →
          y.code ≠ 12 ∧ v = g.hist.ic ∧ g.hist.hz.toNat ≤ g.hist.ic.toNat) →
        ∃ t, exec x s = .next t ∧ Passed s t ∧ takes s t d { v := 0 } ∧
          (act = .resume 0 → ((t.group? g.key).map (·.status)) = some .run) ∧
          (act = .reverseGo 0 g.hist.ic →
            ((t.group? g.key).map fun u => (u.status, u.hist, u.regs)) = some (.run, g.hist, g.regs)) ∧
          (act = .reversePark 0 g.hist.ic →
            ((t.group? g.key).map fun u => (u.status, u.hist, u.regs)) = some (.parked, g.hist, g.regs)) ∧
          (act = .kill → workLeft s g = false → ∀ u, t.group? g.key = some u → u.status = .halted ∧ u.regs.quota = 0) ∧
          (act = .kill → workLeft s g = true →
            ((t.group? g.key).map fun u => (u.status, u.marks.killed, u.regs)) = some (.wait .halt, true, g.regs)) ∧
          (act = .commit →
            ((t.group? g.key).map fun u => (u.status, u.hist.hz, u.hist.crumbs)) = some (.parked, g.hist.ic, [])))

/-- The handler's actions on a parked group: a resumption lets it run again with its slot free, a kill halts it, once what it
has issued has come to an end, and its task counts as killed, a commit makes its ic the horizon under a new record, and a
target outside [hz, ic] is refused with code 2 (R114, R135, R347). -/
def Obligations.HandlerActions : Prop :=
  ∀ (s : State) (p slot : Nat) (x : Park) (g : Group),
    (s.part p).parks.find? (fun y => y.slot == slot && y.due.isNone) = some x → x.who = .group g.key →
    s.group? g.key = some g → g.status = .parked →
    (∃ t, handle s p slot (.resume 0) = (0, t) ∧ ((t.group? g.key).map (·.status)) = some .run ∧
      ∀ y ∈ (t.part p).parks, y.slot ≠ slot) ∧
    (∃ t, handle s p slot .kill = (0, t) ∧ (∀ y ∈ (t.part p).parks, y.slot ≠ slot) ∧
      (workLeft s g = false → ∀ u, t.group? g.key = some u → u.status = .halted ∧ u.regs.quota = 0) ∧
      (workLeft s g = true → ((t.group? g.key).map fun u => (u.status, u.marks.killed)) = some (.wait .halt, true)) ∧
      ∀ x, s.task? (s.gang g.gang).task = some x → (t.task (s.gang g.gang).task).killed = true) ∧
    (g.marks.proof = false → ∃ t, handle s p slot .commit = (0, t) ∧
      ((t.group? g.key).map fun g => (g.hist.hz, g.hist.crumbs, g.status)) = some (g.hist.ic, [], .parked)) ∧
    (∀ v : Word, x.code ≠ 12 → (v.toNat < g.hist.hz.toNat ∨ g.hist.ic.toNat < v.toNat) →
      handle s p slot (.reverseGo 0 v) = (2, s) ∧ handle s p slot (.reversePark 0 v) = (2, s))

/-- SVC.MIGRATE revokes the operand slots that cover its page at its first attempt and then rewrites the leaf with the new
frame and MIG and starts the copy of its 512 lines; SVC.PURGE forgets the cached entries and the L1 lines of its range
(R203, R207, R350, R351). That the first attempt waits although the table has room, and that the 64 entries are those of the
new frame's die, is the model's choice (log entry 37). -/
def Obligations.MigrateAndPurge : Prop :=
  ∀ (s : State) (h : Hd) (d a b : Reg), d.isScalar = true → a.isScalar = true → b.isScalar = true →
    Able s h [.vector] [a, b, d] [] [] = true →
    isService s s.me = true → s.owing = false →
    (∀ l, migrateLeaf s (srcS s d).v.toNat (srcS s a).v.toNat (srcS s b).v = .inr l →
      let frame := bits (srcS s b).v 51 16 * 65536
      let key := (bits (srcS s b).v 63 52, (srcS s a).v.toNat / 65536)
      (s.me.revoking = some key → (s.migrations.filter fun x => homeDie x.new == homeDie frame).length < 64 →
        s.mem.faulty = [] → s.coh.contended = [] → (∀ m ∈ s.migrations, apart m.new 65536 l.at_ 8 = true) →
        ∃ t, exec (.svcMigrate h d a b) s = .next t ∧ Passed s t ∧
          t.mem.dev = (s.mem.setBytes (.dev l.at_) (leBytes 8 (migratedLeaf l.word frame).toNat)).dev ∧
          t.migrations.length = s.migrations.length + 1 ∧
          ((t.migrations.getLast?).map fun m => (m.old, m.new, m.va, m.valid)) =
            some (bits l.word 51 0, frame, (srcS s a).v.toNat, [])) ∧
      (s.me.revoking ≠ some key → ∃ t, exec (.svcMigrate h d a b) s = .next t ∧ t.me.status = .wait .migTable ∧
        t.me.revoking = some key ∧ t.me.hist = s.me.hist ∧ t.me.at_ = s.me.at_ ∧ t.mem = s.mem ∧
        ∀ x ∈ t.launches, x.part = s.myP → x.asid = key.1 → ∀ y ∈ x.tasks, ∀ o ∈ y.slots, o.covers key.2 = true →
          o.revoked = true)) ∧
    (∀ all : Bool, let va := (srcS s a).v.toNat
      let w := (srcS s b).v
      va < 2 ^ 56 → bits w 51 40 = 0 → (all = true → bits w 63 52 = 0) →
      ∃ t, exec (.svcPurge h all a b) s = .next t ∧ Passed s t ∧ releasedMem s t ∧
        (∀ c ∈ t.cached, c ∈ s.cached ∧ ¬(c.part = s.myP ∧ (all = true ∨ c.asid = bits w 63 52) ∧
          0 < bits w 39 0 ∧ va < (c.ix + 1) * 2 ^ c.sh ∧ c.ix * 2 ^ c.sh < va + bits w 39 0)) ∧
        ∀ x ∈ t.l1, x ∈ s.l1 ∧ ¬(x.part = s.myP ∧ 0 < bits w 39 0 ∧ va < 128 * (x.va + 1) ∧
          128 * x.va < va + bits w 39 0))

/-- The control cores' firmware instructions (R353 to R356, R449). -/
def Obligations.Firmware : Prop :=
  ∀ (s : State) (h : Hd) (d a : Reg), d.isSZ = true → a.isScalar = true → Able s h [.control] [a] [d] [] = true →
    (∃ t, exec (.qctlRd h d) s = .next t ∧ Passed s t ∧ t.quiesced = s.quiesced ∧
      takes s t d { v := if s.quiesced then 1 else 0 }) ∧
    (∃ t, exec (.qctlQ h d) s = .next t ∧ Passed s t ∧ t.quiesced = true ∧ takes s t d { v := 1 }) ∧
    (∃ t, exec (.qctlR h d) s = .next t ∧ Passed s t ∧ t.quiesced = false ∧ takes s t d { v := 0 }) ∧
    (let at_ := (srcS s a).v.toNat;
      at_ % 128 = 0 → ctlOk s.me.key at_ 128 false = true → mailboxBusy s s.me.key = false →
      ∀ x, x = .mboxSendVerify h a ∨ x = .mboxSendMeas h a →
      ∃ t, exec x s = .next t ∧ Passed s t ∧
        t.zal.requests = s.zal.requests ++ [(s.me.key, bytesWords 16 (ctlRead s at_ 128))] ∧ t.mem = s.mem) ∧
    (mailboxBusy s s.me.key = false → ∃ t, exec (.mboxRecv h d a) s = .next t ∧ Passed s t ∧
      takes s t d { v := 0xFE } ∧ t.mem = s.mem) ∧
    (∀ ws, let at_ := (srcS s a).v.toNat
      s.zal.replies.find? (·.1 == s.me.key) = some (s.me.key, ws) → at_ % 128 = 0 → at_ + 128 ≤ 0xE00000 →
      ∃ t, exec (.mboxRecv h d a) s = .next t ∧ Passed s t ∧
        takes s t d { v := w64 ((wordAt ws 0).toNat % 256) } ∧ t.mem = s.mem.setSched at_ (wordsBytes ws) ∧
        ∀ y ∈ t.zal.replies, y.1 ≠ s.me.key) ∧
    (let n := (srcS s a).v.toNat;
      (n = 0 ∨ (1000 ≤ n ∧ n ≤ 1000000)) → ∃ t, exec (.wdogKick h a) s = .next t ∧ Passed s t ∧
        t.zal.period = if n = 0 then s.zal.period else n) ∧
    (let v := (srcS s a).v;
      v.toNat < 2 → let slot := decide (v = 1)
      (∀ c, (s.zal.verified slot = false ∧ c = 1) ∨ (s.zal.verified slot = true ∧ s.quiesced = false ∧ c = 2) ∨
          (s.zal.verified slot = true ∧ s.quiesced = true ∧ slot = s.zal.active ∧ c = 3) →
        ∃ t, exec (.slotSel h d a) s = .next t ∧ Passed s t ∧ takes s t d { v := c } ∧
          t.zal.active = s.zal.active) ∧
      (s.zal.verified slot = true → s.quiesced = true → slot ≠ s.zal.active →
        ∃ t, exec (.slotSel h d a) s = .next t ∧ t.zal.active = slot ∧ t.zal.windowOpen = true ∧
          t.zal.requests = [] ∧ t.me.hist.ic = 0 ∧ t.me.at_.pc = w64 (0xE80000 + imgEntry (s.zal.slot slot))))

/-! ### Class 5 -/

/-- LD and LDL (R377, R381): an aligned access that resolves loads D, extended by UN, and changes no memory; an LD
whose walk or permission fails completes all the same and poisons D (R201, R204); a misaligned one raises ALIGN; a
control core loads from its own addresses (R446). -/
def Obligations.ScalarLoads : Prop :=
  ∀ (s : State) (h : Hd) (sz : Fin 4) (un : Bool) (d : Reg) (m : Addr), h.scalar = true → d.isSZ = true → m.wfScalar = true →
    roomFor s (crumbS s d false) = true →
    let n := 2 ^ sz.val
    let a := accAt s m n 0 .read 0
    (Able s h [.vector] (Addr.regs m) [d] [] = true → Settled s = true →
      (a.va % n = 0 → resolves a = true → a.look.loadTrap s n = false →
        ∃ t, exec (.ld h sz un d m) s = .next t ∧ Counted s t ∧
          takes s t d { v := loaded64 n un (s.mem.bytes (placeOf a) n) } ∧ sameMem s t) ∧
      (a.va % n = 0 → resolves a = false → ∃ t, exec (.ld h sz un d m) s = .next t ∧ Counted s t ∧
        (∀ i : Fin 128, d = .s i → (t.me.getS i).p = true) ∧ (∀ k : Fin 128, d ≠ .s k → t.me.getS k = s.me.getS k) ∧ sameMem s t) ∧
      (a.va % n ≠ 0 → ∃ t, exec (.ld h sz un d m) s = .next t ∧ t.me.status = .parked ∧
        t.me.regs = s.me.regs ∧ t.me.hist = s.me.hist ∧ t.mem = s.mem ∧
        ∃ k, (t.part s.myP).parks = (s.part s.myP).parks ++ [k] ∧ wordAt k.words 0 = w64 (6 * 2 ^ 56) ∧
          wordAt k.words 2 = w64 (a.va % 2 ^ 56))) ∧
    (∀ r off, m = .imm r off → Able s h [.vector] [r] [d] [] = true →
      (s.myGang.on (localCore (addrOf s m 0 0))).lpoison = [] →
      addrOf s m 0 0 % n = 0 → localDenied s (addrOf s m 0 0) n = false →
      ∃ t, exec (.ldl h sz un d m) s = .next t ∧ Counted s t ∧ t.mem = s.mem ∧ takes s t d
        { v := loaded64 n un ((s.myGang.on (localCore (addrOf s m 0 0))).bytes (localOff (addrOf s m 0 0)) n) }) ∧
    (∀ r off, m = .imm r off → Able s h [.control] [r] [d] [] = true → addrOf s m 0 0 % n = 0 →
      addrOf s m 0 0 + n ≤ 0xE00000 →
      ∃ t, exec (.ld h sz un d m) s = .next t ∧ Counted s t ∧ t.mem = s.mem ∧
        takes s t d { v := loaded64 n un (s.mem.schedBytes (addrOf s m 0 0) n) })

/-- VLD and VLDL load every active lane and leave the others alone; LDD and GATH take a scoreboard slot that guards D
until its lanes arrive, and D keeps its old lanes until then (R104, R382, R383). -/
def Obligations.VectorLoads : Prop :=
  ∀ (s : State) (h : Hd) (un : Bool) (r : Fin 768) (m : Addr) (sz : Fin 4), sz ≠ 3 →
    let n := if m.isLane then 2 ^ sz.val else 4
    let step := if m.isLane then 0 else 4
    let acc := fun l => accAt s m n step .read l
    let ok := ∀ l ∈ lanesOn s h, (acc l).va % n = 0 ∧ resolves (acc l) = true ∧ (acc l).look.loadTrap s n = false
    (LanesAble s h [.vector] (Addr.regs m) [.v r] (crumbV s (.v r) (lanesOn s h)) = true → Settled s = true → ok →
      ∃ t, exec (.vld h sz un (.v r) m) s = .next t ∧ Counted s t ∧ sameMem s t ∧ ∀ l < 32,
        (guardL s h l = true → t.me.getV r l = { v := loaded32 n un (s.mem.bytes (placeOf (acc l)) n) }) ∧
        (guardL s h l = false → t.me.getV r l = s.me.getV r l)) ∧
    (LanesAble s h [.vector] (Addr.regs m) [.v r] (crumbV s (.v r) (lanesOn s h)) = true →
      (∀ l ∈ lanesOn s h, let a := addrOf s m l step
        a % n = 0 ∧ localDenied s a n = false ∧ (s.myGang.on (localCore a)).lpoison = []) →
      ∃ t, exec (.vldl h sz un (.v r) m) s = .next t ∧ Counted s t ∧ t.mem = s.mem ∧ ∀ l < 32,
        let a := addrOf s m l step
        (guardL s h l = true → t.me.getV r l =
          { v := loaded32 n un ((s.myGang.on (localCore a)).bytes (localOff a) n) }) ∧
        (guardL s h l = false → t.me.getV r l = s.me.getV r l)) ∧
    (∀ i : Instr, i = .ldd h sz un (.v r) m ∨ (∃ a b, m = .lane a b ∧ i = .gath h sz un (.v r) a b) →
      LanesAble s h [.vector] (Addr.regs m) [.v r] (crumbV s (.v r) (lanesOn s h)) = true → Settled s = true → ok →
      s.me.sb.length < 8 → lanesOn s h ≠ [] →
      ∃ t b, exec i s = .next t ∧ Counted s t ∧ sameMem s t ∧ t.me.regs = s.me.regs ∧ t.me.sb = s.me.sb ++ [b] ∧
        b.regs = [.v r] ∧ ∀ l < 32, guardL s h l = true →
          (32 * r.val + l, ({ v := loaded32 n un (s.mem.bytes (placeOf (acc l)) n) } : LVal)) ∈ b.res.lanes) ∧
    (∀ (i j : Fin 768) (a b : Reg), j.val = i.val + 1 →
      let acc8 := fun l => accAt s (.lane a b) 8 0 .read l
      LanesAble s h [.vector] [a, b] [.v i, .v j] [] = true → Settled s = true →
      (∀ l ∈ lanesOn s h, (acc8 l).va % 8 = 0 ∧ resolves (acc8 l) = true ∧ (acc8 l).look.loadTrap s 8 = false) →
      s.me.sb.length < 8 → lanesOn s h ≠ [] →
      ∃ t x, exec (.gath h 3 false (.v i) a b) s = .next t ∧ Counted s t ∧ sameMem s t ∧ t.me.regs = s.me.regs ∧
        t.me.sb = s.me.sb ++ [x] ∧ x.regs = [.v i, .v j] ∧ ∀ l < 32, guardL s h l = true →
          let w := w64 (ofLe (s.mem.bytes (placeOf (acc8 l)) 8))
          (32 * i.val + l, ({ v := w.extractLsb' 0 32 } : LVal)) ∈ x.res.lanes ∧
          (32 * j.val + l, ({ v := w.extractLsb' 32 32 } : LVal)) ∈ x.res.lanes)

/-- ST, STL, VST and VSTL (R249, R381): an aligned access that is not denied writes its bytes, and no byte of the
memories outside the stored ones changes. -/
def Obligations.Stores : Prop :=
  ∀ (s : State) (h : Hd) (sz : Fin 4) (m : Addr), AtRest s = true →
    (∀ d : Reg, h.scalar = true → m.wfScalar = true → d.isScalar = true →
      let n := 2 ^ sz.val
      let a := accAt s m n 0 .write 0
      let v := (srcS s d).v
      (Able s h [.vector] (Addr.regs m ++ [d]) [] [] = true → roomFor s (crumbMem (s.begin true true false [a]) .mem [a]) = true →
        a.va % n = 0 → a.look.storeDenied s n = none → s.me.acks < 255 →
        ∃ t, exec (.st h sz d m) s = .next t ∧ Counted s t ∧ t.me.regs = s.me.regs ∧
          t.mem.bytes (placeOf a) n = leBytes n v.toNat ∧
          ∀ l, (∀ k < n, l ≠ (placeOf a).plus k) → t.mem.byte l = s.mem.byte l) ∧
      (Able s h [.vector] (Addr.regs m ++ [d]) [] [] = true → m.wfImm = true →
        roomFor s (crumbMem s .lmem [mkAcc s .lmem m n 0 .write 0]) = true → s.me.acks < 255 →
        let la := addrOf s m 0 0
        la % n = 0 → localDenied s la n = false → (s.gang? s.me.gang).isSome = true →
        ∃ t, exec (.stl h sz d m) s = .next t ∧ Counted s t ∧ t.me.regs = s.me.regs ∧ sameMem s t ∧
          (t.myGang.on (localCore la)).bytes (localOff la) n = leBytes n v.toNat ∧
          ∀ c o, (c ≠ localCore la ∨ o < localOff la ∨ localOff la + n ≤ o) →
            Tab.get 0 (t.myGang.on c).lmem o = Tab.get 0 (s.myGang.on c).lmem o)) ∧
    (∀ (r : Fin 768) (un : Bool), let n := if m.isLane then 2 ^ sz.val else 4
      let step := if m.isLane then 0 else 4
      let acc := fun l => accAt s m n step .write l
      sz ≠ 3 → lanesOn s h ≠ [] →
      (LanesAble s h [.vector] (Addr.regs m ++ [.v r]) []
          (crumbMem (s.begin true true false ((lanesOn s h).map acc)) .mem ((lanesOn s h).map acc)) = true →
        (∀ l ∈ lanesOn s h, (acc l).va % n = 0 ∧ (acc l).look.storeDenied s n = none) → s.me.acks < 224 →
        (∀ x ∈ lanesOn s h, ∀ y ∈ lanesOn s h, x ≠ y → ∀ k < n, ∀ j < n,
          (placeOf (acc x)).plus k ≠ (placeOf (acc y)).plus j) →
        ∃ t, exec (.vst h ⟨sz, un⟩ (.v r) m) s = .next t ∧ Counted s t ∧ t.me.regs = s.me.regs ∧
          (∀ l ∈ lanesOn s h, t.mem.bytes (placeOf (acc l)) n = leBytes n (srcL s (.v r) l).v.toNat) ∧
          ∀ q, (∀ l ∈ lanesOn s h, ∀ k < n, q ≠ (placeOf (acc l)).plus k) → t.mem.byte q = s.mem.byte q) ∧
      (LanesAble s h [.vector] (Addr.regs m ++ [.v r]) []
          (crumbMem s .lmem ((lanesOn s h).map (mkAcc s .lmem m n step .write))) = true → m.wfLocal = true →
        s.me.acks < 224 →
        (∀ l ∈ lanesOn s h, addrOf s m l step % n = 0 ∧ localDenied s (addrOf s m l step) n = false) →
        ∃ t, exec (.vstl h ⟨sz, un⟩ (.v r) m) s = .next t ∧ Counted s t ∧ t.me.regs = s.me.regs ∧ sameMem s t ∧
          ∀ c o, (∀ l ∈ lanesOn s h, let a := addrOf s m l step
              c ≠ localCore a ∨ o < localOff a ∨ localOff a + n ≤ o) →
            Tab.get 0 (t.myGang.on c).lmem o = Tab.get 0 (s.myGang.on c).lmem o))

/-- AMO and CAS outside DET launches (R384 to R386): memory takes the new value and no byte outside the access changes;
a D that is not z takes what was there before through a scoreboard slot, with the refusal of .addb in its second
register; 16 bytes and .addb use register pairs. -/
def Obligations.Atomics : Prop :=
  ∀ (s : State) (h : Hd) (ord : Order) (sc : Scope) (sz : Fin 4) (d a b : Reg), h.scalar = true → a.isScalar = true →
    Settled s = true → s.owing = false → s.me.sb.length < 8 → s.me.free ≥ 4096 →
    let n := if sz = 3 then 16 else if sz = 2 then 8 else 4
    let va := (srcS s a).v.toNat
    let acc : Acc := { lane := 0, va, n, look := look s va .write }
    let was := ofLe (s.mem.bytes (placeOf acc) n)
    let old := BitVec.ofNat (8 * n) was
    let lo : Word := if sz = 0 then old.signExtend 64 else w64 was
    let num := fun r => (srcS s r).v.toNat + 2 ^ 64 * (srcS s (Reg.next r)).v.toNat
    let leaves := fun (i : Instr) (new : Nat) (rs : List Reg) (res : List (Nat × SVal)) => ∃ t, exec i s = .next t ∧
      Counted s t ∧ t.me.regs = s.me.regs ∧ t.mem.bytes (placeOf acc) n = leBytes n new ∧
      (∀ l, (∀ k < n, l ≠ (placeOf acc).plus k) → t.mem.byte l = s.mem.byte l) ∧ (d = .z → t.me.sb = s.me.sb) ∧
      (d.isS = true → ∃ x, t.me.sb = s.me.sb ++ [x] ∧ x.regs = rs ∧ x.res = { scalars := res, lanes := [] })
    va % n = 0 → acc.look.atomicDenied s n = none →
    (∀ op : AOp, op ≠ .addb → (op = .fadd → n = 4) → sz ≠ 3 → d.isSZ = true → b.isScalar = true →
      Able s h [.vector] [a, b] [d] [] = true →
      leaves (.amo h op ord sc sz d a b) (atomic op (8 * n) old ((srcS s b).v.setWidth (8 * n)) 0).toNat [d]
        [(Reg.sIx d, { v := lo })]) ∧
    (sz ≠ 3 → (d = .z ∨ d.isPair = true) → b.isPair = true →
      Able s h [.vector] [a, b, Reg.next b] [d, Reg.next d] [] = true →
      let x := (srcS s b).v.setWidth (8 * n)
      let bound := (srcS s (Reg.next b)).v.toNat % 2 ^ (8 * n)
      leaves (.amo h .addb ord sc sz d a b) (atomic .addb (8 * n) old x bound).toNat [d, Reg.next d]
        [(Reg.sIx d, { v := lo }),
         (Reg.sIx d + 1, { v := if was + x.toNat < 2 ^ (8 * n) ∧ was + x.toNat ≤ bound then 0 else 1 })]) ∧
    (sz = 3 → (d = .z ∨ d.isPair = true) → b.isPair = true →
      Able s h [.vector] [a, b, Reg.next b] [d, Reg.next d] [] = true →
      leaves (.amo h .exch ord sc sz d a b) (num b) [d, Reg.next d]
        [(Reg.sIx d, { v := lo }), (Reg.sIx d + 1, { v := w64 (was / 2 ^ 64) })]) ∧
    (sz ≠ 3 → d.isS = true → b.isScalar = true → Able s h [.vector] [a, b, d] [d] [] = true →
      leaves (.cas h ord sc sz d a b)
        (if old = (srcS s d).v.setWidth (8 * n) then ((srcS s b).v.setWidth (8 * n)).toNat else was) [d]
        [(Reg.sIx d, { v := lo })]) ∧
    (sz = 3 → d.isPair = true → b.isPair = true →
      Able s h [.vector] [a, b, Reg.next b, d, Reg.next d] [d, Reg.next d] [] = true →
      leaves (.cas h ord sc sz d a b) (if was = num d then num b else was) [d, Reg.next d]
        [(Reg.sIx d, { v := lo }), (Reg.sIx d + 1, { v := w64 (was / 2 ^ 64) })])

/-- XCHG and VXCHG: D takes the old bytes, memory takes the old D, and nothing else changes (R381). RED applies its
lanes as atomics, and ST.MC writes the active lanes to its destination (R387, R388). That an exchange on a page with W and
without R gives clean old bytes is the model's choice (log entry 16). -/
def Obligations.ExchangesAndReductions : Prop :=
  (∀ (s : State) (h : Hd) (m : Addr), Settled s = true → s.me.acks < 224 → s.me.free ≥ 4096 → m.wfScalar = true →
      (∀ (sz : Fin 4) (un : Bool) (i : Fin 128), h.scalar = true →
        let n := 2 ^ sz.val
        let a := accAt s m n 0 .write 0
        Able s h [.vector] (Addr.regs m ++ [.s i]) [.s i] [] = true →
        a.va % n = 0 → a.look.atomicDenied s n = none →
        ∃ t, exec (.xchg h sz un (.s i) m) s = .next t ∧ Counted s t ∧
          t.me.getS i = { v := loaded64 n un (s.mem.bytes (placeOf a) n) } ∧
          t.mem.bytes (placeOf a) n = leBytes n (srcS s (.s i)).v.toNat ∧
          ∀ l, (∀ k < n, l ≠ (placeOf a).plus k) → t.mem.byte l = s.mem.byte l) ∧
      (∀ r : Fin 768,
        let acc := fun l => accAt s m 4 4 .write l
        LanesAble s h [.vector] (Addr.regs m ++ [.v r]) [.v r] [] = true → lanesOn s h ≠ [] →
        (∀ l ∈ lanesOn s h, (acc l).va % 4 = 0 ∧ (acc l).look.atomicDenied s 4 = none) →
        (∀ x ∈ lanesOn s h, ∀ y ∈ lanesOn s h, x ≠ y → ∀ k < 4, ∀ j < 4,
          (placeOf (acc x)).plus k ≠ (placeOf (acc y)).plus j) →
        ∃ t, exec (.vxchg h (.v r) m) s = .next t ∧ Counted s t ∧
          (∀ l ∈ lanesOn s h, t.me.getV r l = { v := w32 (ofLe (s.mem.bytes (placeOf (acc l)) 4)) } ∧
            t.mem.bytes (placeOf (acc l)) 4 = leBytes 4 (srcL s (.v r) l).v.toNat) ∧
          ∀ q, (∀ l ∈ lanesOn s h, ∀ k < 4, q ≠ (placeOf (acc l)).plus k) → t.mem.byte q = s.mem.byte q)) ∧
  (∀ (s : State) (h : Hd) (r : Fin 768) (j : Fin 128), Settled s = true → s.owing = false → s.me.free ≥ 4096 →
    (∀ (op : AOp) (rel : Bool) (sc : Scope) (a : Reg) (q : Fin 768), a.isScalar = true → op.redOk = true →
      LanesAble s h [.vector] [a, .v q, .v r] [] [] = true → lanesOn s h ≠ [] →
      let acc := accAt s (.lane a (.v q)) 4 0 .write
      let old := fun l => BitVec.ofNat 32 (ofLe (s.mem.bytes (placeOf (acc l)) 4))
      (∀ l ∈ lanesOn s h, (acc l).va % 4 = 0 ∧ (acc l).look.atomicDenied s 4 = none) →
      ((∀ x ∈ lanesOn s h, ∀ y ∈ lanesOn s h, x ≠ y → ∀ k < 4, ∀ i < 4,
          (placeOf (acc x)).plus k ≠ (placeOf (acc y)).plus i) →
        ∃ t, exec (.red h op rel sc (.v r) a (.v q)) s = .next t ∧ Counted s t ∧ t.me.regs = s.me.regs ∧
          (∀ l ∈ lanesOn s h,
            t.mem.bytes (placeOf (acc l)) 4 = leBytes 4 (atomic op 32 (old l) (srcL s (.v r) l).v 0).toNat) ∧
          ∀ p, (∀ l ∈ lanesOn s h, ∀ k < 4, p ≠ (placeOf (acc l)).plus k) → t.mem.byte p = s.mem.byte p) ∧
      (∀ l m, lanesOn s h = [l, m] → placeOf (acc l) = placeOf (acc m) →
        ∃ t, exec (.red h op rel sc (.v r) a (.v q)) s = .next t ∧ Counted s t ∧ t.me.regs = s.me.regs ∧
          t.mem.bytes (placeOf (acc l)) 4 = leBytes 4
            (atomic op 32 (atomic op 32 (old l) (srcL s (.v r) l).v 0) (srcL s (.v r) m).v 0).toNat ∧
          ∀ p, (∀ k < 4, p ≠ (placeOf (acc l)).plus k) → t.mem.byte p = s.mem.byte p)) ∧
    (∀ (n : Fin 4) (off : BitVec 17), j.val + n.val ≤ 127 →
      let base := fun i => if hi : j.val + i < 128 then Reg.s ⟨j.val + i, hi⟩ else Reg.s j
      let acc := fun i l => accAt s (.imm (base i) off) 4 4 .write l
      lanesOn s h ≠ [] → LanesAble s h [.vector] ((upto 0 (n.val + 1)).map base ++ [.v r]) [] [] = true →
      (∀ i ≤ n.val, ∀ l ∈ lanesOn s h, (acc i l).va % 4 = 0 ∧ (acc i l).look.storeDenied s 4 = none) →
      (∀ i ≤ n.val, ∀ i' ≤ n.val, ∀ x ∈ lanesOn s h, ∀ y ∈ lanesOn s h, (i, x) ≠ (i', y) → ∀ k < 4, ∀ k' < 4,
        (placeOf (acc i x)).plus k ≠ (placeOf (acc i' y)).plus k') →
      ∃ t, exec (.stMc h n (.v r) (.s j) off) s = .next t ∧ Counted s t ∧ t.me.regs = s.me.regs ∧
        (∀ i ≤ n.val, ∀ l ∈ lanesOn s h,
          t.mem.bytes (placeOf (acc i l)) 4 = leBytes 4 (srcL s (.v r) l).v.toNat) ∧
        ∀ q, (∀ i ≤ n.val, ∀ l ∈ lanesOn s h, ∀ k < 4, q ≠ (placeOf (acc i l)).plus k) →
          t.mem.byte q = s.mem.byte q))

/-- FLOW.PUT within the module places its message in the receive ring and counts it in PROD and in the send descriptor;
one to a peer leaves the module, waits, and completes once the peer has placed it; through a failed port it completes
unsent. FLOW.GET takes the oldest message and counts it in CONS (R258, R259, R390 to R392). -/
def Obligations.Flows : Prop :=
  ∀ (s : State) (h : Hd) (a d : Reg) (off : BitVec 17) (r : Fin 768), a.isScalar = true → d.isVZ = true → Settled s = true →
    s.owing = false → lanesOn s h ≠ [] →
    (∀ tx rx e : Nat, flowTarget s (addrOf s (.imm a off) 0 0) = .inr (.dev tx, .dev rx, some (.dev e)) →
      LanesAble s h [.vector] [a, d] [] [] = true → s.flying = none → rxFull s (.dev rx) = false →
      (rxOrd s (.dev rx) = true → bits (s.wordAt (.dev tx) 1) 31 0 = rxNext s (.dev rx)) →
      apart tx 64 rx 64 = true → apart tx 64 e 128 = true → apart rx 64 e 128 = true →
      ∃ t, exec (.flowPut h d a off) s = .next t ∧ Passed s t ∧ t.me.regs = s.me.regs ∧
        t.mem.bytes (.dev e) 128 = flowData s h d ∧ rxProd t (.dev rx) = (rxProd s (.dev rx) + 1) % 2 ^ 32 ∧
        bits (t.wordAt (.dev tx) 1) 31 0 = (bits (s.wordAt (.dev tx) 1) 31 0 + 1) % 2 ^ 32 ∧
        ∀ pa, (pa < e ∨ e + 128 ≤ pa) → (pa < rx ∨ rx + 64 ≤ pa) → (pa < tx ∨ tx + 64 ≤ pa) →
          t.mem.byte (.dev pa) = s.mem.byte (.dev pa)) ∧
    (∀ tx p : Nat, flowTarget s (addrOf s (.imm a off) 0 0) = .inr (.dev tx, .peer p, none) →
      LanesAble s h [.vector] [a, d] [] [] = true →
      (portDead s (.peer p) = false → s.flying = none →
        ∃ t m, exec (.flowPut h d a off) s = .next t ∧ t.me.status = .wait .flowPut ∧ t.me.hist = s.me.hist ∧
          t.me.at_ = s.me.at_ ∧ t.me.regs = s.me.regs ∧ t.messages = s.messages ++ [m] ∧ m.data = flowData s h d ∧
          m.seq = bits (s.wordAt (.dev tx) 1) 31 0 ∧ m.sender = some s.me.key ∧ m.placed = false ∧
          bits (t.wordAt (.dev tx) 1) 31 0 = (bits (s.wordAt (.dev tx) 1) 31 0 + 1) % 2 ^ 32 ∧
          ∀ pa, (pa < tx ∨ tx + 64 ≤ pa) → t.mem.byte (.dev pa) = s.mem.byte (.dev pa)) ∧
      (∀ m, portDead s (.peer p) = false → s.flying = some m →
        (m.placed = true → ∃ t, exec (.flowPut h d a off) s = .next t ∧ Passed s t ∧ t.me.regs = s.me.regs ∧
          t.messages = s.messages.filter (·.sender ≠ some s.me.key) ∧ sameMem s t) ∧
        (m.placed = false → ∃ t, exec (.flowPut h d a off) s = .next t ∧ t.me.status = .wait .flowPut ∧
          t.me.hist = s.me.hist ∧ t.messages = s.messages ∧ sameMem s t)) ∧
      (portDead s (.peer p) = true → ∃ t, exec (.flowPut h d a off) s = .next t ∧ Passed s t ∧
        t.me.regs = s.me.regs ∧ t.messages = s.messages ∧ sameMem s t ∧
        Tab.get 0 t.module.errs 8 = min (Tab.get 0 s.module.errs 8 + 1) (2 ^ 32 - 1))) ∧
    (∀ (rx e : Nat) (leaf : Word), descriptor s (addrOf s (.imm a off) 0 0) false = .inr (.dev rx) →
      rxLogn s (.dev rx) ≠ 0 → look s (ringEntry s (.dev rx) (rxCons s (.dev rx))) .read = .ok (.dev e) leaf →
      LanesAble s h [.vector] [a] [.v r] [] = true → rxProd s (.dev rx) ≠ rxCons s (.dev rx) →
      ∃ t, exec (.flowGet h (.v r) a off) s = .next t ∧ Passed s t ∧
        rxCons t (.dev rx) = (rxCons s (.dev rx) + 1) % 2 ^ 32 ∧
        (∀ l < 32, (guardL s h l = true →
            t.me.getV r l = { v := w32 (ofLe (s.mem.bytes (.dev (e + 4 * l)) 4)) }) ∧
          (guardL s h l = false → t.me.getV r l = s.me.getV r l)) ∧
        ∀ pa, (pa < rx ∨ rx + 64 ≤ pa) → t.mem.byte (.dev pa) = s.mem.byte (.dev pa))

/-- What a load leaves alone on every path that goes on: no byte of a memory changes but in a contended line, whose copies
may come home at it, nor a register other than its destination, whatever it finds (R195, R381, R383). -/
def Obligations.LoadFrame : Prop :=
  ∀ (i : Instr) (s t : State) (d : Reg), s.me.isControl = false → s.migrations = [] → s.mem.faulty = [] → i.wf = true →
    ((∃ h sz un m, i = .ld h sz un d m) ∨ (∃ h sz un m, i = .ldl h sz un d m) ∨ (∃ h sz un m, i = .vld h sz un d m) ∨
      (∃ h sz un m, i = .vldl h sz un d m) ∨ (∃ h sz un m, i = .ldd h sz un d m)) →
    exec i s = .next t →
    (∀ l, uncontended s l → t.mem.byte l = s.mem.byte l) ∧ (∀ k : Fin 128, d ≠ .s k → t.me.getS k = s.me.getS k) ∧
    (∀ (q : Fin 768) (l : Nat), l < 32 → d ≠ .v q → t.me.getV q l = s.me.getV q l) ∧
    t.me.fpflags = s.me.fpflags ∧ t.me.acks = s.me.acks ∧ sameGangs s t ∧ t.cores = s.cores ∧ t.rest = s.rest

/-! ### Class 6 -/

/-- FENCE, SB.WAIT, WP.WAIT, STAGE.ADV, EARLY.TRIG and DET.SYNC (R394 to R396, R401 to R403): a release at .dev or .sys
waits until no acknowledgement is outstanding; SB.WAIT waits for the slot that guards its register, or for all. What a release
publishes, what an acquire and WP.WAIT learn, and their order by the module's stamps are the model's form of R252 and R253
(log entries 6, 77 and 81). -/
def Obligations.FencesAndWaits : Prop :=
  ∀ (s : State) (h : Hd) (a : Reg), a.isScalar = true → (s.gang? s.me.gang).isSome = true →
    (∀ (ord : Order) (sc : Scope), Able s h [.vector, .control] [] [] [] = true →
      ((ord = .rlx ∨ (sc ≠ .dev ∧ sc ≠ .sys) ∨ s.owing = false) →
        ∃ t, exec (.fence h ord sc) s = .next t ∧ Counted s t ∧ t.me.regs = s.me.regs ∧
          (sc ≠ .grp → t.me.hist.hz = t.me.hist.ic ∧ t.me.hist.crumbs = []) ∧
          (sc = .grp → t.me.hist.hz = s.me.hist.hz ∧ t.me.hist.crumbs = s.me.hist.crumbs) ∧
          ((ord = .rel ∨ ord = .ar) → (sc = .dev ∨ sc = .sys) → releasedMem s t) ∧
          (ord = .acq ∨ ord = .rlx ∨ (sc ≠ .dev ∧ sc ≠ .sys) → t.mem = s.mem) ∧
          ((ord = .rel ∨ ord = .ar) → ∃ r ∈ t.rels, r.by_ = s.me.party ∧ r.scope = scopeNum sc ∧ r.num = t.stamp ∧
            r.num ≤ r.view.upTo (.group s.me.key) ∧ ∀ w, s.me.view.upTo w ≤ r.view.upTo w) ∧
          ((ord = .acq ∨ ord = .ar) → ∀ r ∈ s.rels, r.by_.reach s.me.party ≤ r.scope →
            r.by_.reach s.me.party ≤ scopeNum sc →
            (∃ x ∈ s.me.view.reads, x.2.1 = .group r.by_.key ∧ r.num < x.2.2) →
            ∀ w, r.view.upTo w ≤ t.me.view.upTo w)) ∧
      (ord ≠ .rlx → (sc = .dev ∨ sc = .sys) → s.owing = true → ∃ t, exec (.fence h ord sc) s = .next t ∧
        t.me.status = .wait .acks ∧ t.me.hist = s.me.hist ∧ t.me.at_ = s.me.at_)) ∧
    (Ready s [.vector] [h.gr] [h.gr] [] = true → Calm s = true → guardS s h = true →
      (s.me.sb = [] → exec (.sbWait h .z) s = .next ((s.stepped h.mark [] []).modMe fun g => { g with unwaited := [] })) ∧
      (s.me.sb ≠ [] → ∃ t, exec (.sbWait h .z) s = .next t ∧ t.me.status = .wait .allSlots ∧ t.me.hist = s.me.hist) ∧
      (∀ q : Reg, q ≠ .z → underQuota s [q] = true → unguarded s [q] = true →
        exec (.sbWait h q) s = .next ((s.stepped h.mark [] []).modMe fun g =>
          { g with unwaited := g.unwaited.filter fun x => !x.any (· == q) })) ∧
      (∀ q : Reg, q ≠ .z → underQuota s [q] = true → unguarded s [q] = false → ∃ t, exec (.sbWait h q) s = .next t ∧
        t.me.status = .wait (.guarded q) ∧ t.me.hist = s.me.hist)) ∧
    (∀ (w : Fin 4) (imm : BitVec 17), Able s h [.vector, .copy] [a] [] [] = true →
      let off := (srcS s a).v.toNat + imm.toNat
      let here := Tab.get 0 (s.myGang.on (s.myGang.coreIx s.me.gid)).wp w.val
      (off ≤ here → ∃ t, exec (.wpWait h w imm a) s = .next t ∧ Counted s t ∧ t.me.regs = s.me.regs ∧ t.mem = s.mem ∧
        off ≤ t.me.view.upTo (.channel s.me.gang (s.myGang.coreIx s.me.gid) w.val) ∧ t.me.hist.hz = s.me.hist.hz ∧ t.me.hist.crumbs = s.me.hist.crumbs) ∧
      (here < off → ∃ t, exec (.wpWait h w imm a) s = .next t ∧ t.me.status = .wait (.wp w.val off) ∧
        t.me.hist = s.me.hist ∧ t.me.at_ = s.me.at_)) ∧
    (∀ imm : BitVec 17, Able s h [.vector, .copy] [a] [] [] = true →
      s.myGang.stage + (srcS s a).v.toNat + imm.toNat < 2 ^ 32 →
      ∃ t, exec (.stageAdv h imm a) s = .next t ∧ Passed s t ∧ t.me.regs = s.me.regs ∧ t.mem = s.mem ∧
        t.myGang.stage = s.myGang.stage + (srcS s a).v.toNat + imm.toNat) ∧
    (∀ p : Fin 8, Able s h [.vector] [] [] [] = true → s.owing = false →
      p.val ≤ nodePoints s.myLaunch.img s.myGang.task.node →
      ∃ t, exec (.earlyTrig h p) s = .next t ∧ Passed s t ∧ t.me.regs = s.me.regs ∧ p.val ∈ t.myGang.points) ∧
    (Able s h [.vector] [] [] [] = true → s.owing = false →
      ∃ t, exec (.detSync h) s = .next t ∧ Passed s t ∧ t.me.regs = s.me.regs ∧ releasedMem s t)

/-- BAR.INIT sets a declared barrier's count, BAR.ARV arrives and records the phase, which completes when its arrivals
reach the count, and BAR.WAIT waits for the recorded phases and gives their error flag as one bit (R397 to R399). A
barrier that the gang did not declare raises ACCESS with cause 1. That BAR.WAIT on a poisoned D completes, and leaves D its
poison, is the model's choice (log entry 18). -/
def Obligations.Barriers : Prop :=
  ∀ (s : State) (h : Hd) (k : Fin 16) (a d : Reg), a.isScalar = true → d.isSZ = true →
    (s.gang? s.me.gang).isSome = true →
    let b := s.myGang.bar k.val
    (Able s h [.vector, .matrix, .copy] [a] [] [] = true → s.myGang.barBit k.val = true →
      let n := (srcS s a).v.toNat
      0 < n → n ≤ 65535 →
      ∃ t, exec (.barInit h k a) s = .next t ∧ Passed s t ∧ t.me.regs = s.me.regs ∧ t.mem = s.mem ∧
        (t.myGang.bar k.val).c = n ∧
        (b.arrived < n → (t.myGang.bar k.val).arrived = b.arrived ∧ (t.myGang.bar k.val).phase = b.phase) ∧
        (n ≤ b.arrived → (t.myGang.bar k.val).arrived = 0 ∧ (t.myGang.bar k.val).phase = b.phase + 1)) ∧
    (Able s h [.vector, .matrix, .copy] [] [] [] = true → s.myGang.barBit k.val = true →
      ∃ t, exec (.barArv h k) s = .next t ∧ Passed s t ∧ t.me.regs = s.me.regs ∧ t.mem = s.mem ∧
        Tab.get [] t.me.bars k.val = b.phase :: Tab.get [] s.me.bars k.val ∧
        (b.arrived + 1 < b.c → t.myGang.bar k.val = { b with arrived := b.arrived + 1 }) ∧
        (b.c ≤ b.arrived + 1 → (t.myGang.bar k.val).arrived = 0 ∧ (t.myGang.bar k.val).phase = b.phase + 1 ∧
          (t.myGang.bar k.val).flags = b.err :: b.flags ∧ (t.myGang.bar k.val).err = false)) ∧
    (∀ bit : Fin 32, Able s h [.vector, .matrix, .copy] [] [] [d] = true → s.myGang.barBit k.val = true →
      (Tab.get [] s.me.bars k.val ≠ [] → (∀ p ∈ Tab.get [] s.me.bars k.val, p < b.phase) →
        ∃ t, exec (.barWait h k bit d) s = .next t ∧ Passed s t ∧ t.mem = s.mem ∧
          Tab.get [] t.me.bars k.val = [] ∧
          takesBit s t d bit.val ((Tab.get [] s.me.bars k.val).any b.flag)) ∧
      ((Tab.get [] s.me.bars k.val = [] ∨ b.phase ∈ Tab.get [] s.me.bars k.val) →
        ∃ t ph, exec (.barWait h k bit d) s = .next t ∧ t.me.status = .wait (.barrier k.val ph) ∧ b.phase ≤ ph ∧
          Tab.get [] t.me.bars k.val ≠ [] ∧ t.me.hist = s.me.hist ∧ t.me.regs = s.me.regs)) ∧
    (Able s h [.vector, .matrix, .copy] [] [] [] = true → s.myGang.barBit k.val = false → s.me.isControl = false →
      ∃ t, exec (.barArv h k) s = .next t ∧ t.me.status = .parked ∧ t.me.hist = s.me.hist ∧
        t.gangs = (dropClaims s s.me).gangs ∧
        ∃ k, (t.part s.myP).parks = (s.part s.myP).parks ++ [k] ∧ wordAt k.words 0 = w64 (5 * 2 ^ 56 + 1 * 2 ^ 52) ∧
          wordAt k.words 2 = w64 (s.me.at_.pc.toNat % 2 ^ 56))

/-- The rings (R145, R146, R400): a claim takes the slot at TAIL once it is free and the claims that came before have been
served, and gives its address, a put fills a claimed slot, a get takes the slot at HEAD once it is full, a done frees a taken
slot, and a peek reads PHASE[HEAD]. That a peek into a poisoned D completes, and leaves D its poison, is the model's choice (log
entry 18). -/
def Obligations.Rings : Prop :=
  ∀ (s : State) (h : Hd) (r : Fin 8) (a d : Reg), a.isScalar = true → d.isSZ = true →
    (s.gang? s.me.gang).isSome = true → s.myGang.ringBit r.val = true →
    let q := s.myGang.ring r.val
    let full := fun n => q.phase.getLsbD n
    let mesh : List Role := [.vector, .matrix, .copy]
    (Able s h mesh [] [d] [] = true →
      (full q.tail = false → q.tail ∉ q.claimed → q.tail ∉ q.taken → q.turnOf (.group s.me.key) = true →
        ∃ t, exec (.ringPutClaim h r d) s = .next t ∧ Passed s t ∧ t.mem = s.mem ∧
          takes s t d { v := w64 ((q.addr + q.tail * q.slotBytes) % 2 ^ 24) } ∧
          (t.myGang.ring r.val).tail = (q.tail + 1) % q.nslot ∧ q.tail ∈ (t.myGang.ring r.val).claimed ∧
          (t.myGang.ring r.val).phase = q.phase) ∧
      ((full q.tail = true ∨ q.tail ∈ q.claimed ∨ q.tail ∈ q.taken ∨ q.turnOf (.group s.me.key) = false) →
        ∃ t, exec (.ringPutClaim h r d) s = .next t ∧ t.me.status = .wait (.ringFree r.val) ∧
          t.me.hist = s.me.hist ∧ t.me.regs = s.me.regs ∧ t.myGang.ring r.val = q.join (.group s.me.key)) ∧
      (full q.head = true → q.head ∉ q.taken →
        ∃ t, exec (.ringGet h r d) s = .next t ∧ Passed s t ∧ t.mem = s.mem ∧
          takes s t d { v := w64 ((q.addr + q.head * q.slotBytes) % 2 ^ 24) } ∧
          (t.myGang.ring r.val).head = (q.head + 1) % q.nslot ∧ q.head ∈ (t.myGang.ring r.val).taken ∧
          (t.myGang.ring r.val).phase = q.phase) ∧
      ((full q.head = false ∨ q.head ∈ q.taken) →
        ∃ t, exec (.ringGet h r d) s = .next t ∧ t.me.status = .wait (.ringFull r.val) ∧
          t.me.hist = s.me.hist ∧ t.me.regs = s.me.regs ∧ t.gangs = s.gangs)) ∧
    (Able s h mesh [a] [] [] = true → ∀ n, q.slotOf (srcS s a).v.toNat = some n →
      (n ∈ q.claimed → ∃ t, exec (.ringPut h r a) s = .next t ∧ Passed s t ∧ t.me.regs = s.me.regs ∧ t.mem = s.mem ∧
        (t.myGang.ring r.val).phase = withBit q.phase n true ∧ n ∉ (t.myGang.ring r.val).claimed) ∧
      (n ∈ q.taken → ∃ t, exec (.ringGetDone h r a) s = .next t ∧ Passed s t ∧ t.me.regs = s.me.regs ∧
        t.mem = s.mem ∧ (t.myGang.ring r.val).phase = withBit q.phase n false ∧ n ∉ (t.myGang.ring r.val).taken)) ∧
    (∀ bit : Fin 32, Able s h mesh [] [] [d] = true →
      ∃ t, exec (.ringPeek h r bit d) s = .next t ∧ Passed s t ∧ t.mem = s.mem ∧ t.gangs = s.gangs ∧
        takesBit s t d bit.val (full q.head))

/-- The tile-cache instructions (R161, R404 to R408): a bind writes the descriptor with the table's GEN, advanced when
the id was bound, an invalidation advances it, a prefetch moves lines of the tile cache alone, a subscription adds one for each
selected tile, and TC.KEEP writes its register of the partition. The model's choices: TC.PROBE into a poisoned D completes and
leaves D its poison (log entry 18), and TC.SUB raises no trap for an ADDR outside the reservation (log entry 79). -/
def Obligations.Tiles : Prop :=
  ∀ (s : State) (h : Hd) (d a b : Reg) (r : Fin 768), a.isScalar = true → b.isScalar = true →
    let id := (srcS s a).v.toNat
    let pa := descAt s s.myP id
    let old := descWords s s.myP id
    let clean := ∀ l < 32, (srcL s (.v r) l).p = false
    (Able s h [.vector] [a] [] [.v r] = true → clean → s.owing = false → 0 < id → id < 65536 → isClassId id = false →
      let w := laneWords s (.v r) 8
      bindBad s s.myP id w = false → (tValid old = true → sweeping s s.myP id = false) →
      AtRest s = true →
      let gen := if tValid old then (tGen old + 1) % 256 else tGen old
      ∃ t, exec (.tcBind h (.v r) a) s = .next t ∧ Passed s t ∧ t.me.regs = s.me.regs ∧
        t.mem.bytes (.dev pa) 64 = wordsBytes (boundWords w gen) ∧ sweeping t s.myP id = (tValid old || sweeping s s.myP id) ∧
        ∀ l, (∀ n < 64, l ≠ .dev (pa + n)) → t.mem.byte l = s.mem.byte l) ∧
    (Able s h [.vector] [a] [] [] = true → s.owing = false → idBad s id = false → isClassId id = false →
      sweeping s s.myP id = false → AtRest s = true →
      (∃ t, exec (.tcInv h false a) s = .next t ∧ Passed s t ∧ t.me.regs = s.me.regs ∧
        tGen (descWords t s.myP id) = (tGen old + 1) % 256 ∧ sweeping t s.myP id = true ∧
        ∀ l, l ≠ .dev (pa + 14) → t.mem.byte l = s.mem.byte l) ∧
      (∃ t, exec (.tcInv h true a) s = .next t ∧ Passed s t ∧ t.me.regs = s.me.regs ∧
        sweeping t s.myP id = true)) ∧
    (∀ bit : Fin 32, d.isSZ = true → Able s h [.vector] [a, b] [] [d] = true →
      roomFor s (crumbBit s d bit.val false) = true →
      ∃ t c, exec (.tcProbe h bit d a b) s = .next t ∧ Counted s t ∧ t.mem = s.mem ∧ takesBit s t d bit.val c) ∧
    (∀ (self : Bool) (m : BitVec 8), Able s h [.vector] [a, b] [] [] = true → idBad s id = false →
      ∃ t, exec (.tcPf h self m a b) s = .next t ∧ Counted s t ∧ t.me = (s.stepped h.mark [] []).me ∧ sameMem s t) ∧
    (d.isScalar = true → Able s h [.vector] [a, b, d] [] [] = true → idBad s id = false → subBad s (srcS s d).v = false →
      (s.gang? s.me.gang).isSome = true →
      let dst := (srcS s d).v
      let tiles := tilesOf old (coordOf (srcS s b).v) (dst.getLsbD 47) (bits dst 55 48)
      ∃ t, exec (.tcSub h a b d) s = .next t ∧ Counted s t ∧ t.me.regs = s.me.regs ∧ t.mem = s.mem ∧
        t.myGang.subs.length = s.myGang.subs.length + tiles.length ∧
        ∀ n < tiles.length, ∃ x, t.myGang.subs[s.myGang.subs.length + n]? = some x ∧ some x.coord = tiles[n]? ∧
          x.tensor = id ∧ x.core = s.myGang.coreIx s.me.gid ∧ x.addr = (bits dst 23 0 + 2048 * n) % 2 ^ 24) ∧
    (∀ n : Fin 8, Able s h [.vector] [] [] [.v r] = true → clean →
      keepBad s.myPart n.val (laneWords s (.v r) 4) = false →
      ∃ t, exec (.tcKeep h n (.v r)) s = .next t ∧ Counted s t ∧ t.me.regs = s.me.regs ∧ t.mem = s.mem ∧
        (∀ j < 4, Tab.get 0 t.myPart.keep (4 * n.val + j) = wordAt (laneWords s (.v r) 4) j) ∧
        ∀ j, (j < 4 * n.val ∨ 4 * n.val + 4 ≤ j) → Tab.get 0 t.myPart.keep j = Tab.get 0 s.myPart.keep j)

/-- The names of the content-named region (R214, R218 to R221, R409 to R412): CN.PUT gives the name of a live line that
holds the operand's bytes, counting one more reference when it was there; CN.REF and CN.DROP change a live name's count
by one, the last drop leaves the line pending, and CN.GET reads a live name's line into the active lanes. -/
def Obligations.ContentNames : Prop :=
  ∀ (s : State) (h : Hd) (n : Fin 8) (x : CnReg) (i : Fin 128) (d : Reg) (r : Fin 768), h.scalar = true →
    (Reg.s i).isPair = true → Reg.next (.s i) = d → Settled s = true → cnReg? s s.myP n.val = some x → x.n ≠ 0 →
    cnTrap s n.val = none →
    (∀ (node found : Bool) (m : Nat), Able s h [.vector] [] [.s i, d] [.v r] = true →
      (∀ l < 32, (srcL s (.v r) l).p = false) → roomFor s (crumbName s (.s i) true) = true →
      let line := lineIn s (.v r)
      putWalk s x (cnHash s x line) line (upto 0 256) none = some (m, found) → (found = true → node = false) →
      let name := 256 * cnHash s x line + m
      let e := cnEntry s x (cnSlotOf x name)
      ∃ t, exec (.cnPut h node n (.s i) (.v r)) s = .next t ∧ Counted s t ∧
        t.me.getS i = { v := w64 name } ∧ readS t t.me d = { v := w64 (name / 2 ^ 64) } ∧
        cnLine t x name = some line ∧
        (cnEntry t x (cnSlotOf x name)).count =
          (if found then (if e.count = 0xFFFFFFFF then e.count else e.count + 1) else 1)) ∧
    (let name := nameIn s (.s i);
      ∀ e, Able s h [.vector] [.s i, d] [] [] = true → cnFind s x name = some (cnSlotOf x name, e) → e.state = 1 →
      e.count < 0xFFFFFFFF →
      (∃ t, exec (.cnRef h n (.s i)) s = .next t ∧ Counted s t ∧ t.me.regs = s.me.regs ∧
        cnEntry t x (cnSlotOf x name) = { e with count := e.count + 1 }) ∧
      (∃ t, exec (.cnDrop h n (.s i)) s = .next t ∧ Counted s t ∧ t.me.regs = s.me.regs ∧
        cnEntry t x (cnSlotOf x name) = { e with count := e.count - 1, state := if e.count ≤ 1 then 2 else 1 } ∧
        (e.count ≤ 1 → (n.val, cnSlotOf x name) ∈ t.me.drops))) ∧
    (∀ (line : List Byte), LanesAble s h [.vector] [.s i, d] [.v r] (crumbV s (.v r) (lanesOn s h)) = true →
      lanesOn s h ≠ [] → cnLine s x (nameIn s (.s i)) = some line →
      ∃ t, exec (.cnGet h n (.v r) (.s i)) s = .next t ∧ Counted s t ∧ t.mem = s.mem ∧ ∀ l < 32,
        (guardL s h l = true → t.me.getV r l = { v := w32 (leAt line (4 * l) 4) }) ∧
        (guardL s h l = false → t.me.getV r l = s.me.getV r l))

/-- The root cells and copy-out (R223 to R225, R413 to R415): CN.ROOT reads a cell, CN.SWAP replaces a cell that holds
D by B, gives what it held, counts one more reference on the new name and one less on the old, and changes no count when the
cell held another name, and CN.OUT leaves its work to the loaders. Which work CN.OUT leaves to the loaders, and
when they do it, is the model's choice (log entry 32). -/
def Obligations.RootCells : Prop :=
  ∀ (s : State) (h : Hd) (n : Fin 8) (x : CnReg) (i k : Fin 128) (a d e : Reg), h.scalar = true → a.isScalar = true →
    (Reg.s i).isPair = true → Reg.next (.s i) = d → (Reg.s k).isPair = true → Reg.next (.s k) = e →
    Settled s = true → cnReg? s s.myP n.val = some x → x.n ≠ 0 → cnTrap s n.val = none →
    let va := (srcS s a).v.toNat
    (∀ pa leaf, look s va .read = .ok (.dev pa) leaf → cellTrap s va .read = none →
      Able s h [.vector] [a] [.s i, d] [] = true → roomFor s (crumbName s (.s i) false) = true →
      let cell := ofLe (s.mem.bytes (.dev pa) 16)
      ∃ t, exec (.cnRoot h false n (.s i) a) s = .next t ∧ Counted s t ∧ sameMem s t ∧
        t.me.getS i = { v := w64 cell } ∧ readS t t.me d = { v := w64 (cell / 2 ^ 64) }) ∧
    (∀ pa leaf, look s va .read = .ok (.dev pa) leaf → cellTrap s va .read = none →
      Able s h [.vector] [a] [.s i, d] [] = true → roomFor s (crumbName s (.s i) true) = true →
      (pa + 16 ≤ x.base ∨ x.base + x.len ≤ pa) →
      let cell := ofLe (s.mem.bytes (.dev pa) 16)
      ∀ c, cnFind s x cell = some (cnSlotOf x cell, c) → c.state = 1 → c.count < 0xFFFFFFFF →
      ∃ t, exec (.cnRoot h true n (.s i) a) s = .next t ∧ Counted s t ∧
        t.me.getS i = { v := w64 cell } ∧ readS t t.me d = { v := w64 (cell / 2 ^ 64) } ∧
        cnEntry t x (cnSlotOf x cell) = { c with count := c.count + 1 }) ∧
    (∀ pa leaf, look s va .write = .ok (.dev pa) leaf → cellTrap s va .write = none →
      Able s h [.vector] [a, .s i, d, .s k, e] [.s i, d] [] = true → s.owing = false →
      (pa + 16 ≤ x.base ∨ x.base + x.len ≤ pa) →
      let old := nameIn s (.s i)
      let new := nameIn s (.s k)
      let cell := ofLe (s.mem.bytes (.dev pa) 16)
      (new = 0 ∨ cnLive s x new = true) →
      ∃ t, exec (.cnSwap h n (.s i) a (.s k)) s = .next t ∧ Passed s t ∧
        t.me.getS i = { v := w64 cell } ∧ readS t t.me d = { v := w64 (cell / 2 ^ 64) } ∧
        ofLe (t.mem.bytes (.dev pa) 16) = (if cell = old then new else cell) ∧
        (cell ≠ old → ∀ slot < x.n, cnEntry t x slot = cnEntry s x slot) ∧
        (cell = old → new ≠ cell →
          (∀ c, new ≠ 0 → cnFind s x new = some (cnSlotOf x new, c) → c.count < 0xFFFFFFFF →
            cnEntry t x (cnSlotOf x new) = { c with count := c.count + 1 }) ∧
          (∀ c, cell ≠ 0 → cnFind s x cell = some (cnSlotOf x cell, c) → c.state = 1 → c.count < 0xFFFFFFFF →
            cnEntry t x (cnSlotOf x cell) = { c with count := c.count - 1, state := if c.count ≤ 1 then 2 else 1 }))) ∧
    (∀ (b : Fin 16) (c : Reg), c.isScalar = true → Able s h [.vector, .copy] [.s i, d, a, c] [] [] = true → s.myGang.barBit b.val = true →
      (s.gang? s.me.gang).isSome = true →
      let leaves := (srcS s c).v.toNat
      va % 128 = 0 → 0 < leaves → leaves ≤ 2 ^ 24 → engineDenied s va (128 * leaves) = none →
      ∃ t o, exec (.cnOut h n b (.s i) a c) s = .next t ∧ Passed s t ∧ t.mem = s.mem ∧ t.me.regs = s.me.regs ∧
        t.myGang.outs = s.myGang.outs ++ [o] ∧ o.region = n.val ∧ o.root = nameIn s (.s i) ∧ o.leaves = leaves ∧
        o.dest = va ∧ o.bar = b.val)

/-! ### Class 7 -/

/-- MB.LD, MMA, MLOOP and MMA.BD enter their core's matrix queue with the operands read at issue, wait while it is
full, and are discarded, counted in DISC, by a halted queue (R417, R418, R420 to R424, R426). -/
def Obligations.MatrixQueue : Prop :=
  ∀ (s : State) (h : Hd) (ra rb rd : Reg) (x : Instr) (d : Word), ra.isScalar = true → rb.isScalar = true → rd.isScalar = true →
    (s.gang? s.me.gang).isSome = true →
    let a := (srcS s ra).v
    let b := (srcS s rb).v
    let hd := (srcS s rd).v
    let okRange := fun (la n : Nat) => localDenied s la n = false ∧ la % 128 = 0
    ((∃ bank kc, x = .mbLd h bank kc ra rb ∧ d = 0 ∧
        okRange a.toNat (64 * (kc.val + 1) * 128 * recEsz b) ∧
        localTainted s a.toNat (64 * (kc.val + 1) * 128 * recEsz b) = false) ∨
      (∃ bank kc nm w, x = .mma h bank kc nm rd ra rb ∧ d = hd ∧ s.win? hd = some w ∧ 16 ≤ w.rows ∧
        8 * (nm.val + 1) ≤ w.cols ∧ okRange b.toNat (16 * (64 * (kc.val + 1)) * recEsz a)) ∨
      (∃ w, x = .mloop h rd ra rb ∧ d = hd ∧ s.win? hd = some w ∧ loopCount a ≠ 0 ∧ bits a 26 24 = 0 ∧
        loopOff a (loopCount a - 1) + 16 ≤ w.rows ∧ loopN a ≤ w.cols ∧
        ∀ p < loopCount a, okRange (loopA a p) (16 * loopK a * recEsz b)) ∨
      (∃ bank w, x = .mmaBd h bank rd ra rb ∧ d = hd ∧ s.win? hd = some w ∧ 256 ≤ w.rows ∧ 8 ≤ w.cols ∧
        okRange b.toNat (4096 * recEsz a))) →
    Able s h [.matrix] [ra, rb, rd] [] [] = true →
    let c := s.me.seat.core
    let q := s.core c
    (q.halted = false → q.queue.length < 32 → ∃ t e, exec x s = .next t ∧ Passed s t ∧ t.me.regs = s.me.regs ∧
      t.mem = s.mem ∧ t.gangs = s.gangs ∧ (t.core c).queue = q.queue ++ [e] ∧ (t.core c).entered = q.entered + 1 ∧
      e.i = x ∧ e.a = a ∧ e.b = b ∧ e.d = d ∧ e.key = s.me.key ∧ e.ic = s.me.hist.ic ∧ e.no = q.entered) ∧
    (q.halted = false → 32 ≤ q.queue.length → ∃ t, exec x s = .next t ∧ t.me.status = .wait .queueFull ∧
      t.me.hist = s.me.hist ∧ t.me.at_ = s.me.at_ ∧ t.cores = s.cores) ∧
    (q.halted = true → ∃ t, exec x s = .next t ∧ Passed s t ∧ t.me.regs = s.me.regs ∧ t.mem = s.mem ∧
      (t.core c).queue = q.queue ∧ (t.core c).disc = min (q.disc + 1) 0xFFFF)

/-- Windows and granules (R154, R429 to R431): ACC.ALLOC forms a handle and checks it, ACC.GROW takes granules from the
core's pool or answers 0 in its bit, and ACC.FREE gives the last ones back. -/
def Obligations.Granules : Prop :=
  ∀ (s : State) (h : Hd) (d ra rb : Reg), d.isSZ = true → ra.isScalar = true → rb.isScalar = true →
    (s.gang? s.me.gang).isSome = true →
    let c := s.me.seat.core
    let n := (srcS s ra).v.toNat
    (∀ ek : Bool, Able s h [.matrix] [ra, rb] [d] [] = true →
      let a := (srcS s ra).v
      let b := (srcS s rb).v
      let w := a ||| b ||| (if ek then 1#64 <<< 57 else 0)
      a &&& ~~~placementMask = 0 → b &&& ~~~sizeMask = 0 → (s.win? w).isSome = true →
      ∃ t, exec (.accAlloc h ek d ra rb) s = .next t ∧ Passed s t ∧ takes s t d { v := w } ∧
        t.cores = s.cores ∧ t.gangs = s.gangs ∧ t.mem = s.mem) ∧
    (∀ bit : Fin 32, Able s h [.matrix] [ra, d] [d] [] = true →
      (n ≤ (s.core c).free → s.myCore.granules + n ≤ 32 → ∃ t, exec (.accGrow h bit d ra) s = .next t ∧
        Passed s t ∧ takesBit s t d bit.val true ∧
        (t.core c).free = (s.core c).free - n ∧ t.myCore.granules = s.myCore.granules + n) ∧
      (n ≠ 0 → ((s.core c).free < n ∨ 32 < s.myCore.granules + n) →
        ∃ t, exec (.accGrow h bit d ra) s = .next t ∧ Passed s t ∧
          takesBit s t d bit.val false ∧ t.cores = s.cores ∧ t.gangs = s.gangs)) ∧
    (Able s h [.matrix] [ra] [] [] = true →
      ((s.core c).queue = [] → n ≤ s.myCore.granules → ∃ t, exec (.accFree h ra) s = .next t ∧ Passed s t ∧
        t.me.regs = s.me.regs ∧ (t.core c).free = (s.core c).free + n ∧
        t.myCore.granules = s.myCore.granules - n ∧
        ∀ row col, col < 128 → t.myCore.elem row col =
          if row < 16 * (s.myCore.granules - n) then s.myCore.elem row col else 0) ∧
      ((s.core c).queue ≠ [] → ∃ t, exec (.accFree h ra) s = .next t ∧ t.me.status = .wait .queueEmpty ∧
        t.me.hist = s.me.hist ∧ t.cores = s.cores))

/-- The accumulator moves as a vector group makes them, at once (R418, R432, R433): ACC.ZERO clears its window, ACC.LD
fills it from local memory, ACC.ST writes it to memory, ACC.RD and ACC.WR move one element a lane, and ACC.RSCL scales
its rows. A matrix group's move enters the queue instead. -/
def Obligations.Moves : Prop :=
  ∀ (s : State) (h : Hd) (ra rb : Reg) (r : Fin 768) (w : Win), ra.isScalar = true → rb.isScalar = true →
    (s.gang? s.me.gang).isSome = true →
    let hd := (srcS s ra).v
    let b := (srcS s rb).v
    s.win? hd = some w →
    (h.scalar = true → s.me.role = .vector →
      (Able s h [.vector] [ra] [] [] = true → ∃ t, exec (.accZero h ra) s = .next t ∧ Passed s t ∧
        t.me.regs = s.me.regs ∧ t.mem = s.mem ∧ keepsOutside s t w ∧
        ∀ e < w.size, t.myCore.elem (w.pos e).1 (w.pos e).2 = 0) ∧
      (Able s h [.vector] [ra, rb] [] [] = true → localDenied s b.toNat (4 * w.size) = false → b.toNat % 128 = 0 →
        ∃ t, exec (.accLd h ra rb) s = .next t ∧ Passed s t ∧ t.me.regs = s.me.regs ∧ t.mem = s.mem ∧
          keepsOutside s t w ∧ ∀ e < w.size, t.myCore.elem (w.pos e).1 (w.pos e).2 =
            w32 (ofLe ((s.myGang.on (localCore (b.toNat + 4 * e))).bytes (localOff (b.toNat + 4 * e)) 4))) ∧
      (∀ dt : Fin 4, dt ≠ 3 → Able s h [.vector] [ra, rb] [] [] = true → Settled s = true → b.toNat % 128 = 0 →
        let esz := if dt = 0 then 4 else 2
        esz * w.size ≤ 128 → engineDenied s b.toNat (esz * w.size) = none → (dt ≠ 0 → w.ek = false) →
        (∀ e < w.size, (w.pos e).1 / 16 ∉ s.myCore.accInvalid) →
        let a : Acc := { lane := 0, va := b.toNat, n := esz * w.size, look := look s b.toNat .write }
        ∃ t, exec (.accSt h dt ra rb) s = .next t ∧ Passed s t ∧ t.me.regs = s.me.regs ∧
          t.myCore.acc = s.myCore.acc ∧
          (∀ e < w.size, t.mem.bytes ((placeOf a).plus (esz * e)) esz =
            leBytes esz (match dt.val with
              | 0 => (s.myCore.elem (w.pos e).1 (w.pos e).2).toNat
              | 1 => (convertNum .rne .f32 .bf16 (fl (s.myCore.elem (w.pos e).1 (w.pos e).2))).1
              | _ => (convertNum .rne .f32 .f16 (fl (s.myCore.elem (w.pos e).1 (w.pos e).2))).1)) ∧
          ∀ l, (∀ n < esz * w.size, l ≠ (placeOf a).plus n) → t.mem.byte l = s.mem.byte l)) ∧
    (s.me.role = .vector → lanesOn s h ≠ [] →
      (LanesAble s h [.vector] [ra, rb] [.v r] [] = true →
        (∀ l ∈ lanesOn s h, b.toNat + l < w.size → (w.pos (b.toNat + l)).1 / 16 ∉ s.myCore.accInvalid) →
        ∃ t, exec (.accRd h (.v r) ra rb) s = .next t ∧ Passed s t ∧ t.mem = s.mem ∧ t.gangs = s.gangs ∧
          ∀ l < 32, t.me.getV r l = if guardL s h l = true ∧ b.toNat + l < w.size then
            { v := s.myCore.elem (w.pos (b.toNat + l)).1 (w.pos (b.toNat + l)).2 } else s.me.getV r l) ∧
      (LanesAble s h [.vector] [ra, rb, .v r] [] [] = true →
        ∃ t, exec (.accWr h (.v r) ra rb) s = .next t ∧ Passed s t ∧ t.me.regs = s.me.regs ∧ t.mem = s.mem ∧
          keepsOutside s t w ∧ ∀ l ∈ lanesOn s h, b.toNat + l < w.size →
            t.myCore.elem (w.pos (b.toNat + l)).1 (w.pos (b.toNat + l)).2 = (srcL s (.v r) l).v) ∧
      (LanesAble s h [.vector] [ra, .v r] [] [] = true → w.ek = false →
        ∃ t, exec (.accRscl h ra (.v r)) s = .next t ∧ Passed s t ∧ t.me.regs = s.me.regs ∧ t.mem = s.mem ∧
          keepsOutside s t w ∧ ∀ x < w.rows, ∀ y < w.cols, t.myCore.elem (w.row + x) (w.col + y) =
            (if x ∈ lanesOn s h ∧ x < 16 then
              round32 .rne ((fl (s.myCore.elem (w.row + x) (w.col + y))).mul (fl (srcL s (.v r) x).v))
            else s.myCore.elem (w.row + x) (w.col + y)))) ∧
    (let c := s.me.seat.core;
      (s.core c).halted = false → (s.core c).queue.length < 32 →
      (∀ x : Instr, h.scalar = true → Able s h [.matrix] [ra] [] [] = true → x = .accZero h ra →
        ∃ t e, exec x s = .next t ∧ Passed s t ∧ t.gangs = s.gangs ∧
          (t.core c).queue = (s.core c).queue ++ [e] ∧ e.i = x ∧ e.a = hd) ∧
      (lanesOn s h ≠ [] → LanesAble s h [.matrix] [ra, rb] [.v r] [] = true →
        ∃ t e, exec (.accRd h (.v r) ra rb) s = .next t ∧ Passed s t ∧ t.me.regs = s.me.regs ∧
          t.me.status = .wait .accRead ∧ (t.core c).queue = (s.core c).queue ++ [e] ∧ e.a = hd ∧ e.b = b))

/-- MWAIT waits until what had entered the queue has left it, gives the halt and clears it, and MSTAT reads the queue's
state (R427, R428). An instruction has left once none that entered before it stays. -/
def Obligations.MatrixWaits : Prop :=
  ∀ (s : State) (h : Hd) (d : Reg), d.isSZ = true → Able s h [.matrix] [] [d] [] = true →
    let c := s.me.seat.core
    let q := s.core c
    let covered := s.me.mtarget.getD q.entered
    (covered ≤ q.left → ∃ t, exec (.mwait h d) s = .next t ∧ Passed s t ∧ t.mem = s.mem ∧ t.gangs = s.gangs ∧
      takes s t d { v := if q.halted then w64 (2 ^ 63 + q.disc * 2 ^ 32 + q.code * 2 ^ 24) else 0 } ∧
      (t.core c).halted = false ∧ (q.halted = true → (t.core c).disc = 0) ∧ (t.core c).code = q.code ∧
      t.me.mtarget = none) ∧
    (q.left < covered → ∃ t, exec (.mwait h d) s = .next t ∧ t.me.status = .wait (.queueLeft covered) ∧
      t.me.mtarget = some covered ∧ t.me.hist = s.me.hist ∧ t.cores = s.cores) ∧
    (∀ w : Fin 4, ∃ t, exec (.mstat h w d) s = .next t ∧ Passed s t ∧ t.mem = s.mem ∧ t.cores = s.cores) ∧
    (q.queue = [] → ∃ t, exec (.mstat h 0 d) s = .next t ∧
      takes s t d { v := w64 (b2n q.halted * 2 ^ 47 + q.free * 2 ^ 36 + s.myCore.granules * 2 ^ 30 +
        b2n q.mb1.invalid * 2 + b2n q.mb0.invalid) }) ∧
    (∃ t, exec (.mstat h 1 d) s = .next t ∧
      takes s t d { v := w64 (q.code * 2 ^ 56 + q.errOp * 2 ^ 43 + q.errGid * 2 ^ 36) }) ∧
    (∃ t, exec (.mstat h 2 d) s = .next t ∧ takes s t d { v := q.errIc })

/-- The engine's steps (R156, R418, R420, R421, R426, R428): the next instruction of the queue is the oldest, or an MB.LD
beside passes that no longer read its bank; an MB.LD loads its bank, a block of an MMA adds its products to its window's
elements and to no other, and an ill-formed record or pair halts the queue, which discards what it holds. That one step
takes one block, and the order of the blocks, are the model's choice (log entry 34). -/
def Obligations.MatrixSteps : Prop :=
  (∀ (s : State) (e : MEntry) (rest : List MEntry), ∃ f, nextEntry s (e :: rest) = some f ∧
    (f = e ∨ (f ∈ rest ∧ beside s e f = true ∧ Config.stepsBeside s.tick = true))) ∧
  ∀ (s : State) (c : Fin 256) (e : MEntry), s.me.seat.core = c.val →
    (s.gang? s.me.gang).isSome = true → (∀ g ∈ s.rest, g.key ≠ s.me.key) → e.key = s.me.key →
    nextEntry s (s.core c).queue = some e →
    let rest := (s.core c).queue.filter (·.no ≠ e.no)
    (∀ h bank kc a b, e.i = .mbLd h bank kc a b → recBad e.b (64 * (kc.val + 1)) = false →
      recSf e.b = 0 →
      ∃ t, exec (.matrixQueueExecute c) s = .next t ∧ t.me = s.me ∧ t.mem = s.mem ∧ t.gangs = s.gangs ∧
        (t.core c).queue = rest ∧
        ((t.core c).bank bank).record = some e.b ∧
        ((t.core c).bank (!bank)) = ((s.core c).bank (!bank)) ∧
        ∀ row col, row < 64 * (kc.val + 1) → col < 128 → Tab.get 0 ((t.core c).bank bank).codes (128 * row + col) =
          (localLoad s (e.a.toNat + (128 * row + col) * recEsz e.b) (recEsz e.b)).1) ∧
    (∀ h bank kc nm d a b w, e.i = .mma h bank kc nm d a b → s.win? e.d = some w →
      let k := 64 * (kc.val + 1)
      let n := 8 * (nm.val + 1)
      let bk := (s.core c).bank bank
      let bl := recBl e.a
      let blocks := k / bl
      recBad e.a k = false → recSf e.a = 0 → w.ek = (recEf e.a == 3) → (∀ r, bk.record = some r → pairBad e.a r = false) →
      16 ≤ w.rows → n ≤ w.cols → bk.invalid = false → localTainted s e.b.toNat (16 * k * recEsz e.a) = false →
      e.step < blocks →
      ∃ t, exec (.matrixQueueExecute c) s = .next t ∧ t.me = s.me ∧ t.mem = s.mem ∧
        (e.step + 1 = blocks → (t.core c).queue = rest) ∧
        (e.step + 1 < blocks → (t.core c).queue = (s.core c).queue.map fun x =>
          if x.no = e.no then { x with step := x.step + 1 } else x) ∧
        (∀ x < 16, ∀ y < n, t.myCore.elem (w.row + x) (w.col + y) =
          accBlock (recEf e.a == 3) (recW e.a) (recEf e.a) ((bk.record.map recEf).getD (recEf e.a))
            ((upto 0 bl).map fun z =>
              (localLoad s (e.b.toNat + recEsz e.a * (x * k + e.step * bl) + z * recEsz e.a) (recEsz e.a)).1)
            ((upto (e.step * bl) bl).map fun z => if z < bk.k then Tab.get 0 bk.codes (128 * z + y) else 0)
            (scaleVal 0 0) (bankScale bk bl y e.step) (s.myCore.elem (w.row + x) (w.col + y))) ∧
        ∀ row col, col < 128 → (row < w.row ∨ w.row + 16 ≤ row ∨ col < w.col ∨ w.col + n ≤ col) →
          t.myCore.elem row col = s.myCore.elem row col) ∧
    (∀ h bank kc nm d a b w, e.i = .mma h bank kc nm d a b → s.win? e.d = some w → (s.core c).queue = [e] → e.step = 0 →
      recBad e.a (64 * (kc.val + 1)) = true →
      ∃ t, exec (.matrixQueueExecute c) s = .next t ∧ t.me = s.me ∧ t.mem = s.mem ∧ (t.core c).queue = [] ∧
        (t.core c).halted = true ∧ (t.core c).code = 1 ∧ (t.core c).errGid = e.gid ∧ (t.core c).errIc = e.ic ∧
        (t.core c).disc = min ((s.core c).disc + 1) 0xFFFF ∧
        ∀ g ∈ w.granules, g ∈ t.myCore.accInvalid)

/-! ### Power, links and errors -/

/-- Bring-up, standby and the islands (R9 to R13, R22, R23, R31): POWER_ON leaves an unpowered module powered with its
failure code and its ports negotiated, standby is refused while a partition is valid, and no frequency passes its
island's bound. What the model chose about bring-up and standby where the spec is silent is in log entries 57 and 58. -/
def Obligations.Power : Prop :=
  ∀ s : State,
    (s.module.powered = false → ∀ (edge : Option (Fin 8)) (stack : Option (Fin 12)) (pcie : Bool)
        (ps : List PartnerReply),
      ∃ t, exec (.powerOn edge stack pcie ps) s = .next t ∧ t.module.powered = true ∧ t.module.visible = pcie ∧
        t.mem.dev = [] ∧ t.mem.host = s.mem.host ∧ t.zal.fusedSvn ≥ s.zal.fusedSvn ∧
        (∀ i < 8, islandOn t i = true) ∧
        (t.module.recovery = true → t.module.up = false ∧ t.module.fail = 1) ∧
        (t.module.recovery = false →
          t.module.fail = (match edge, stack with
            | some e, _ => 0x10 + e.val
            | none, some k => 0x20 + k.val
            | none, none => 0) ∧
          (t.module.up = true ↔ edge = none ∧ stack = none) ∧
          (edge = none → ∀ i < 24, islandOn t i = true) ∧
          (t.module.up = true → ∀ n < 16, (t.port n).state = replyState ((ps.drop n).headD .silent)))) ∧
    (∀ (n : Fin 16) (r : PartnerReply), s.module.up = true → islandOn s 7 = true → (s.port n).state ≤ 1 →
        (s.port n).failedLanes = [] →
      ∀ x, (x = .peerPortNegotiation n r ∨ (x = .negotiationRetryTimer n r ∧ (s.port n).state = 1)) →
      ∃ t, exec x s = .next t ∧ (t.port n).state = replyState r ∧ (∀ m, m ≠ n.val → t.port m = s.port m) ∧
        ∀ fast wide il spare, r = .offer fast wide il spare →
          t.port n = { s.port n with state := 2, half := !fast, lanes4 := !wide, fecIl := il, spareOk := spare,
                                     spareIn := false, carry := upto 0 (if wide then 8 else 4) }) ∧
    (s.module.powered = true →
      (((upto 0 16).any fun p => (s.part p).valid) = true → ∃ t, exec .enterStandby s = .next t ∧
        t.module = s.module ∧ t.me = s.me ∧ t.rest = s.rest) ∧
      (((upto 0 16).any fun p => (s.part p).valid) = false → ∃ t, exec .enterStandby s = .next t ∧
        t.module.pwrOffReq = true ∧ t.module.up = false ∧ (∀ i, islandOn t i = false) ∧
        (∀ g ∈ t.groups, g.status = .stopped)) ∧
      (∃ t, exec .powerInputRemoved s = .next t ∧ t.module.powered = false ∧ t.mem.dev = [] ∧ t.mem.sched = [] ∧
        t.parts = [] ∧ t.launches = [] ∧ t.mem.host = s.mem.host ∧ t.zal.slotA = s.zal.slotA ∧
        t.zal.fusedSvn = s.zal.fusedSvn)) ∧
    (∀ (i : Fin 24) (mhz : Nat), islandOn s i = true → ∃ t, exec (.islandFrequencyChange i mhz) s = .next t ∧
      islandOn t i = true ∧ (Tab.get {} t.module.islands i).mhz = (if i.val = 1 then mhz
        else if i.val = 0 ∨ i.val = 6 ∨ i.val = 7 then min 1500 mhz else min 2000 mhz) ∧
      ∀ j, j ≠ i.val → Tab.get {} t.module.islands j = Tab.get {} s.module.islands j) ∧
    (∀ i : Fin 24, s.module.powered = true →
      (quadrantBusy s i = false → (∀ j < 24, islandRank i < islandRank j → islandOn s j = false) →
        ∃ t, exec (.islandPowerOff i) s = .next t ∧ islandOn t i = false ∧
        ∀ j, j ≠ i.val → islandOn t j = islandOn s j) ∧
      ((∃ j < 24, islandRank i < islandRank j ∧ islandOn s j = true) → exec (.islandPowerOff i) s = .next s) ∧
      (s.module.pwrOffReq = false → (∀ j < 24, islandRank j < islandRank i → islandOn s j = true) →
        ∃ t, exec (.islandPowerOn i) s = .next t ∧ islandOn t i = true ∧
        ∀ j, j ≠ i.val → islandOn t j = islandOn s j) ∧
      ((∃ j < 24, islandRank j < islandRank i ∧ islandOn s j = false) → exec (.islandPowerOn i) s = .next s)) ∧
    exec .pwrPeakRead s = .next { s with module := { s.module with peakFrom := s.tick } }

/-- The Flausk ports and the error windows (R14, R17 to R21): flits are taken in order, a CRC error asks for a replay
and counts against its lane, a repair waits for the replay or for 1 ms, and a port renegotiated at 4 lanes sends again
what was not acknowledged. Where the spec is silent on a port's repair the clauses follow log entry 60, and on what a window's
end leaves log entry 59: repairs that are due stay due. -/
def Obligations.Links : Prop :=
  ∀ (s : State) (n : Fin 16), let p := s.port n
    ((p.state = 2 ∨ p.state = 3) → islandOn s 7 = true → ∀ (lane : Fin 9) (seq : Nat),
      let res := 16 * n.val + lane.val
      let w := windowCount s 0 res
      (seq = p.rxNext → ∃ t, exec (.flitReceive n lane seq true) s = .next t ∧ t.port n = { p with rxNext := seq + 1 }) ∧
      (seq ≠ p.rxNext → exec (.flitReceive n lane seq true) s = .next s) ∧
      (lane.val ∉ p.carry → ∃ t, exec (.flitReceive n lane seq false) s = .next t ∧ windowCount t 0 res = w ∧
        t.port n = { p with asked := p.asked ++ [seq] }) ∧
      (lane.val ∈ p.carry → ∃ t, exec (.flitReceive n lane seq false) s = .next t ∧ windowCount t 0 res = w + 1 ∧
        (w + 1 ≠ threshold s 0 → t.port n = { p with asked := p.asked ++ [seq] }) ∧
        (0 < threshold s 0 → w + 1 = threshold s 0 →
          (p.replaying = true ∨ p.state = 3 → p.moving ≠ some lane.val → lane.val ∉ p.deferred →
            t.port n = { p with asked := p.asked ++ [seq], lasting := min 255 (p.lasting + 1),
                                deferred := p.deferred ++ [lane.val] }) ∧
          (p.replaying = false → p.state = 2 → p.lanes4 = false →
            (p.spareOk = true → p.spareIn = false → (t.port n).state = 3 ∧ (t.port n).moving = some lane.val) ∧
            ((p.spareOk = false ∨ p.spareIn = true) → (t.port n).state = 1) ∧
            lane.val ∈ (t.port n).failedLanes ∧ (t.port n).lasting = min 255 (p.lasting + 1)))) ∧
      (∃ t, exec (.replayRequest n seq) s = .next t ∧
        t.port n = { p with served := some seq, sent := p.buffer.filter fun f => decide (seq ≤ f) })) ∧
    (∀ seq, ∃ t, exec (.flitAcknowledge n seq) s = .next t ∧
      t.port n = { p with buffer := p.buffer.filter fun f => decide (seq < f) }) ∧
    (p.replaying = true → p.deferred = [] → ∃ t, exec (.replayComplete n) s = .next t ∧
      t.port n = { p with asked := [], served := none }) ∧
    (∀ lane more, p.state = 2 → p.deferred = lane :: more → lane ∉ more →
      ∀ x, (x = .repairDeferTimeout n ∨ (x = .replayComplete n ∧ p.replaying = true)) →
      (p.lanes4 = false → p.spareOk = true → p.spareIn = false → ∃ t, exec x s = .next t ∧
        (t.port n).state = 3 ∧ (t.port n).moving = some lane ∧ (t.port n).deferred = more) ∧
      (p.lanes4 = false → (p.spareOk = false ∨ p.spareIn = true) → ∃ t, exec x s = .next t ∧
        (t.port n).state = 1 ∧ (t.port n).moving = p.moving) ∧
      (p.lanes4 = true → (∀ l < 9, l ∈ p.carry ∨ l ∈ p.failedLanes ∨ l ∈ p.deferred) → ∃ t, exec x s = .next t ∧
        (t.port n).state = 4 ∧ (t.port n).buffer = [] ∧ ∀ u ∈ t.unacked, u.port ≠ some n.val)) ∧
    (p.state = 3 → (p.deferred = [] ∨ p.replaying = true) → ∃ t, exec (.quiesceEnd n) s = .next t ∧
      (t.port n).state = 2 ∧ (t.port n).moving = none ∧ (t.port n).spareIn = true ∧ (t.port n).buffer = p.buffer ∧
      (t.port n).sent = p.buffer ∧
      ∀ lane, p.moving = some lane →
        (p.lanes4 = false → (t.port n).carry = p.carry.map fun l => if l = lane then 8 else l) ∧
        ∀ free, p.lanes4 = true → p.freeLane = some free →
          (t.port n).carry = p.carry.map fun l => if l = lane then free else l) ∧
    (p.state = 1 → p.failedLanes ≠ [] → p.lanes4 = false →
      (∀ fast wide il spare, ∃ t, exec (.renegotiate4Lanes n (.offer fast wide il spare)) s = .next t ∧
        (t.port n).state = 2 ∧ (t.port n).half = !fast ∧ (t.port n).lanes4 = true ∧ (t.port n).fecIl = il ∧
        (t.port n).spareOk = spare ∧ (t.port n).spareIn = false ∧ (t.port n).sent = p.buffer ∧
        (t.port n).carry = ((upto 0 9).filter fun l => decide (l ∉ p.failedLanes ∧ l ∉ p.deferred)).take 4) ∧
      (∃ t, exec (.renegotiate4Lanes n .failed) s = .next t ∧ (t.port n).state = 4 ∧ (t.port n).buffer = [] ∧
        (∀ u ∈ t.unacked, u.port ≠ some n.val) ∧ ∀ m ∈ t.messages, m.outPort ≠ some n.val)) ∧
    (∀ (cls : Fin 5) (r : Nat), ∃ t, exec (.errorWindowExpiry cls r) s = .next t ∧ windowCount t cls r = 0 ∧
      (∀ c x, (c ≠ cls.val ∨ x ≠ r) → windowCount t c x = windowCount s c x) ∧ t.module.due = s.module.due) ∧
    (∀ lane : Nat, let full := decide (windowCount s 1 lane < threshold s 1 ∧ threshold s 1 ≤ windowCount s 1 lane + 1)
      ∃ t, exec (.fabricLaneCrcError lane) s = .next t ∧ windowCount t 1 lane = windowCount s 1 lane + 1 ∧
      Tab.get 0 t.module.errs 1 = min (Tab.get 0 s.module.errs 1 + 1) (2 ^ 32 - 1) ∧
      Tab.get 0 t.module.lasting 1 = (if full then min (Tab.get 0 s.module.lasting 1 + 1) (2 ^ 32 - 1)
        else Tab.get 0 s.module.lasting 1) ∧
      (full = true → lane ∈ t.module.fabricSpare) ∧ (full = false → t.module.fabricSpare = s.module.fabricSpare) ∧
      t.ports = s.ports)

/-- Errors of the memories, their repair, the check of a line as storage holds it and the patrol scrub (R14, R53, R182
to R188). The sites of SRAM errors and the unit of scrub work are the model's choices (log entries 59, 61 and 62). -/
def Obligations.MemoryErrors : Prop :=
  ∀ s : State,
    (∀ pa lane, pa < devTop → islandOn s 1 = true → let k := s.stack (stackOf pa)
      let w := windowCount s 4 (pa / 128)
      (∃ t, exec (.hbmUncorrectableError pa) s = .next t ∧ t.mem.poisoned pa = true ∧
        (∀ l, t.mem.byte l = s.mem.byte l) ∧
        Tab.get 0 t.module.errs 7 = min (Tab.get 0 s.module.errs 7 + 1) (2 ^ 32 - 1) ∧
        (w < threshold s 4 → k.spares ≠ 0 → (t.stack (stackOf pa)).spares = k.spares - 1 ∧
          pa / 128 ∈ (t.stack (stackOf pa)).retired ∧ windowCount t 4 (pa / 128) = 0)) ∧
      (∃ t, exec (.hbmCorrectedError pa lane) s = .next t ∧ t.mem = s.mem ∧
        windowCount t 2 (stackOf pa + 12 * (lane % 2048)) = windowCount s 2 (stackOf pa + 12 * (lane % 2048)) + 1 ∧
        (w + 1 = threshold s 4 → k.spares ≠ 0 → (t.stack (stackOf pa)).spares = k.spares - 1 ∧
          pa / 128 ∈ (t.stack (stackOf pa)).retired) ∧
        (w + 1 ≠ threshold s 4 → t.hbm = s.hbm ∧ windowCount t 4 (pa / 128) = w + 1))) ∧
    (∀ (n : Fin 12), islandOn s 1 = true → let k := s.stack n
      let line := stackPa n k.wm / 128
      (∀ bank row, bank < 2 ^ 16 → repairDue s 3 (rowRes n bank row) = true →
        (k.rowSpares.filter (·.1 == bank)).length < 4 →
        ∃ t, exec (.rowSparing n bank row) s = .next t ∧ (t.stack n).rowSpares = k.rowSpares ++ [(bank, row)] ∧
          repairDue t 3 (rowRes n bank row) = false) ∧
      (∀ lane < 2048, repairDue s 2 (laneRes n lane) = true →
        ∃ t, exec (.laneSpare n lane) s = .next t ∧ lane ∈ (t.stack n).laneSpare ∧
          repairDue t 2 (laneRes n lane) = false) ∧
      (k.running = true → k.wm + 128 < 60 * 2 ^ 30 →
        ((∀ d ∈ s.mem.faulty, d.line ≠ line) → ∃ t, exec (.scrubLineStep n) s = .next t ∧
          t.stack n = { k with wm := k.wm + 128 } ∧ t.mem = s.mem) ∧
        (∀ d, s.mem.faulty.find? (·.line == line) = some d → d.entry ≠ tagOf s line d.cipher →
          ∃ t, exec (.scrubLineStep n) s = .next t ∧ (t.stack n).wm = k.wm + 128 ∧ t.mem.poisoned (128 * line) = true ∧
          (d.entry ≠ 0 → Tab.get 0 t.module.errs 7 = min (Tab.get 0 s.module.errs 7 + 1) (2 ^ 32 - 1)) ∧
          (d.entry = 0 → t.module = s.module))) ∧
      (k.running = true → 60 * 2 ^ 30 ≤ k.wm + 128 → s.mem.faulty = [] →
        ((∃ m < 12, m ≠ n.val ∧ (s.stack m).done = false) → ∃ t, exec (.scrubLineStep n) s = .next t ∧
          (t.stack n).done = true ∧ (t.stack n).running = false ∧ (t.stack n).passes = (k.passes + 1) % 256 ∧
          t.parts = s.parts) ∧
        ((∀ m < 12, m ≠ n.val → (s.stack m).done = true) → s.module.scrubLate = false →
          ∃ t, exec (.scrubLineStep n) s = .next t ∧
          (∀ m < 12, (t.stack m).wm = 0 ∧ (t.stack m).done = false ∧ (t.stack m).running = false) ∧
          (s.module.modKeys.cur = 0 → t.module.modKeys.cur = 1 ∧ t.module.modKeys.k1 = s.module.modKeys.k1) ∧
          (s.module.modKeys.cur = 1 → t.module.modKeys.cur = 0 ∧ t.module.modKeys.k0 = s.module.modKeys.k0) ∧
          ∀ p < 16, ∀ q, (s.part p).keys = some q → (t.part p).kver = (s.part p).kver + 1 ∧
            ∃ q', (t.part p).keys = some q' ∧ q'.naming = q.naming ∧ q'.digest = q.digest ∧
              (q.mem.cur = 0 → q'.mem.cur = 1 ∧ q'.mem.k1 = q.mem.k1) ∧
              (q.mem.cur = 1 → q'.mem.cur = 0 ∧ q'.mem.k0 = q.mem.k0)))) ∧
    (∀ site, (∃ t, exec (.sramError site false) s = .next t ∧ t.mem = s.mem ∧ t.groups = s.groups ∧ t.gangs = s.gangs ∧
        Tab.get 0 t.module.errs 5 = min (Tab.get 0 s.module.errs 5 + 1) (2 ^ 32 - 1)) ∧
      (∃ t, exec (.sramError site true) s = .next t ∧
        Tab.get 0 t.module.errs 6 = min (Tab.get 0 s.module.errs 6 + 1) (2 ^ 32 - 1) ∧
        (∀ pa, site = .line pa → pa < devTop → t.mem.poisoned pa = true) ∧
        (∀ c, site = .bank c false → (t.core c).mb0.invalid = true ∧ (t.core c).mb1 = (s.core c).mb1) ∧
        (∀ c, site = .bank c true → (t.core c).mb1.invalid = true ∧ (t.core c).mb0 = (s.core c).mb0) ∧
        (∀ r, site = .sreg s.me.key r → r < 128 → t.me.getS r = { s.me.getS r with p := true }))) ∧
    (s.module.powered = true →
      ((∀ n < 12, (s.stack n).running = false ∧ (s.stack n).done = false) →
        ∃ t, exec .scrubPeriodBoundary s = .next t ∧ ∀ n < 12, (t.stack n).running = true ∧ (t.stack n).wm = 0) ∧
      ((∃ n < 12, (s.stack n).running = true ∨ (s.stack n).done = true) →
        ∃ t, exec .scrubPeriodBoundary s = .next t ∧ t.hbm = s.hbm ∧ t.module.scrubLate = true)) ∧
    (∀ h, (1 ≤ h ∧ h ≤ 168 → ∃ t, exec (.scrubPeriodSet h) s = .next t ∧ t.module.scrubHours = h) ∧
      ((h = 0 ∨ 168 < h) → exec (.scrubPeriodSet h) s = .next s))

/-! ### Homes -/

/-- What the homes do on their own (R161, R192, R194, R195, R207 to R211, R221): persistent requests after four failed
ones, contended lines and their merge, the lines of a migrating page, the end of a sweep, reports, and the freeing of a
pending name. The units in which the homes work, and what a report counts, are the model's choices (log entries 37, 63
and 64). -/
def Obligations.Homes : Prop :=
  ∀ s : State,
    (∀ agent line, let n := failuresOf s.coh agent line
      (∃ t, exec (.transientRequestTimeout agent line) s = .next t ∧ failuresOf t.coh agent line = min 4 (n + 1) ∧
        t.coh.persistent = s.coh.persistent) ∧
      (n = 4 → (∀ x ∈ s.coh.persistent, x.1 ≠ agent) → ∃ t, exec (.persistentRequest agent line) s = .next t ∧
        t.coh.persistent = s.coh.persistent ++ [(agent, line)] ∧ failuresOf t.coh agent line = 0) ∧
      (n < 4 → (∀ x ∈ s.coh.persistent, x.1 ≠ agent) → exec (.persistentRequest agent line) s = .next s) ∧
      ((s.coh.persistent.find? fun x => x.2 == line) = some (agent, line) →
        ∃ t, exec (.persistentRequest agent line) s = .next t ∧ (agent, line) ∉ t.coh.persistent)) ∧
    (∀ line, 128 * line < devTop → (∀ c ∈ s.coh.contended, c.line ≠ line) →
      ((∀ q ∈ s.coh.quiet, q.1 ≠ line) → ∃ t, exec (.lineContended line) s = .next t ∧
        t.coh.contended = s.coh.contended ++ [({ line } : Contended)] ∧ t.mem = s.mem) ∧
      (∀ k, (line, k) ∈ s.coh.quiet → Config.tenMicroseconds k s.tick = false →
        exec (.lineContended line) s = .next s)) ∧
    (∀ c rest, s.coh.contended = c :: rest → (∀ d < 4, ∀ h ∈ (c.of d).held, h.off < 128) →
      (c.conflict = false → exec (.directoryMerge c.line) s = .next s) ∧
      (c.conflict = true → ∃ t, exec (.directoryMerge c.line) s = .next t ∧
        (∀ x ∈ t.coh.contended, x.line ≠ c.line) ∧ (c.line, s.tick) ∈ t.coh.quiet ∧
        (∀ pa, (pa / 128 ≠ c.line ∨ ∀ d < 4, ∀ h ∈ (c.of d).held, h.off ≠ pa % 128) →
          t.mem.byte (.dev pa) = s.mem.byte (.dev pa)) ∧
        (∀ pa d h, pa / 128 = c.line → d < 4 → h ∈ (c.of d).held → h.off = pa % 128 →
          (∀ x ∈ (c.of d).held, x.off = pa % 128 → x = h) → (∀ e < 4, d < e → ∀ x ∈ (c.of e).held, x.off ≠ pa % 128) →
          t.mem.byte (.dev pa) = h.v))) ∧
    (∀ m rest, s.migrations = m :: rest → m.old + 65536 ≤ devTop → s.mem.faulty = [] → s.coh.contended = [] →
      apart m.old 65536 m.new 65536 = true → apart m.leafPa 8 m.new 65536 = true →
      (∀ line < 512, line ∉ m.valid → m.valid.length < 511 → s.mem.poisoned (m.old + 128 * line) = false → ∀ x,
        (x = .migrationLineCopy 0 line true ∨ (x = .migrationSweepLine 0 true ∧ ∀ i < line, i ∈ m.valid)) →
        ∃ t, exec x s = .next t ∧
          t.mem.bytes (.dev (m.new + 128 * line)) 128 = s.mem.bytes (.dev (m.old + 128 * line)) 128 ∧
          (∃ m' rest', t.migrations = m' :: rest' ∧ m'.new = m.new ∧ line ∈ m'.valid) ∧
          ∀ l, (∀ i < 128, l ≠ .dev (m.new + 128 * line + i)) → t.mem.byte l = s.mem.byte l) ∧
      (m.valid = upto 0 512 → rest = [] → ∃ t, exec (.migrationSweepLine 0 true) s = .next t ∧ t.migrations = [])) ∧
    (∀ (p : Fin 16) tensor, sweeping s p tensor = true → ∃ t, exec (.tcInvSweepComplete p tensor) s = .next t ∧
      t.sweeps.length + 1 = s.sweeps.length ∧ t.mem = s.mem) ∧
    (∀ g slot misses count x, s.gang? g = some x → x.life = .live → ∀ o rest,
      (s.task x.task).slots.drop slot = o :: rest → let due := Tab.get 0 (s.task x.task).reported slot
      (contradicts o.reuse misses count = true → due ≤ 1 → ∃ t e, exec (.hotnessWindow g slot misses count) s = .next t ∧
        Tab.get 0 (t.task x.task).reported slot = 64 ∧
        (t.part x.task.part).entries = (s.part x.task.part).entries ++ [e] ∧ e.toHost = true ∧
        wordAt e.words 0 = w64 (2 * 2 ^ 56 + x.task.part * 2 ^ 32) ∧ wordAt e.words 1 = w64 (2 ^ 56 + o.reuse * 2 ^ 54) ∧
        wordAt e.words 2 = w64 (o.base.toNat % 2 ^ 56) ∧
        wordAt e.words 5 = w64 (misses % 2 ^ 32 * 2 ^ 32 + count % 2 ^ 32)) ∧
      ((contradicts o.reuse misses count = false ∨ 1 < due) → ∃ t, exec (.hotnessWindow g slot misses count) s = .next t ∧
        Tab.get 0 (t.task x.task).reported slot = due - 1 ∧ t.parts = s.parts ∧ t.mem = s.mem)) ∧
    (∀ (k : Fin 12) block req p, ownerOf s (65536 * block) = some p →
      (tableOn s (some p) = true → isRemote k req = true → homeDie (65536 * block) = k.val / 3 → s.blockCounts = [] →
        ∃ t, exec (.memorySideCounterReport k block req) s = .next t ∧
        (1 < Config.blockThreshold % 2 ^ 16 →
          t.blockCounts = [{ stack := k.val, block, requester := req, count := 1 }] ∧ t.parts = s.parts) ∧
        (Config.blockThreshold % 2 ^ 16 ≤ 1 → t.blockCounts = [] ∧
          ∃ e, (t.part p).entries = (s.part p).entries ++ [e] ∧ e.toHost = true ∧
            wordAt e.words 0 = w64 (2 * 2 ^ 56 + p * 2 ^ 32))) ∧
      ((tableOn s (some p) = false ∨ isRemote k req = false) →
        exec (.memorySideCounterReport k block req) s = .next s)) ∧
    (∀ (p : Fin 16) i slot x e, cnReg? s p i = some x → slot < x.n → cnEntry s x slot = e → e.state = 2 →
      e.node = false → s.mem.poison = [] → AtRest s = true → dropHeld s p x.ix slot = false →
      ∃ t, exec (.cnReclaim p i slot) s = .next t ∧ cnEntry t x slot = { name := 0, state := 3, node := false, count := 0 })

/-! ### The host's windows -/

/-- Triggers, uploads and the queues of a function's window (R27, R32 to R39, R60 to R63, R81, R111, R112, R344).
Partial states of an upload and of a fault queue are the model's choices (log entries 50 and 54). -/
def Obligations.HostWindow : Prop :=
  ∀ (s : State) (f : Fin 17),
    (∀ off split data, reaches s f = true → 0x100 ≤ off → off < 0x200 → let p := actsFor s f
      let c := triggerCause s f off split data
      (c ≠ 0 → ∃ t, exec (.trigger f off split data) s = .next t ∧ (t.fn f).dropCause = c ∧ t.parts = s.parts ∧
        (t.fn f).dropCount = min ((s.fn f).dropCount + 1) (2 ^ 32 - 1)) ∧
      (c = 0 → ∃ t x, exec (.trigger f off split data) s = .next t ∧ (t.part p).fifo = (s.part p).fifo ++ [x] ∧
        x.hdr = w64 (leAt data 0 8) ∧ x.patches.length = bits x.hdr 23 19 ∧ t.fns = s.fns) ∧
      (drives s f = false → c = 7) ∧
      (drives s f = true → split = true → c = 1) ∧
      (drives s f = true → 32 ≤ data.length → split = false → off ≠ 0x100 → bits (w64 (leAt data 0 8)) 23 19 ≤ 3 →
        c = 2)) ∧
    (∀ (p : Fin 16) x rest, (s.part p).fifo = x :: rest →
      (s.quiesced = true → exec (.triggerDequeue p) s = .next s) ∧
      (s.quiesced = false → (s.launches.filter (·.part == p.val)).length < 256 → s.launches = [] →
        ∃ t l, exec (.triggerDequeue p) s = .next t ∧ (t.part p).fifo = rest ∧ t.launches = [l] ∧ l.part = p.val ∧
          (t.part p).nextLaunch = (s.part p).nextLaunch + 1 ∧ l.num = (s.part p).nextLaunch ∧
          l.handle = bits x.hdr 15 0 ∧ l.seq = bits x.hdr 63 48 ∧ l.det = x.hdr.getLsbD 24 ∧ l.img = x.img ∧
          t.mem = s.mem)) ∧
    (∀ ctl : Word, reaches s f = true → bit ctl 47 = true →
      ((s.fn f).gupState = 1 → exec (.gupChunk f ctl) s = .next s ∧ exec (.gupDiscard f ctl) s = .next s) ∧
      ((s.fn f).gupState ≠ 1 → bits ctl 31 0 ≠ 0 → ∃ t, exec (.gupChunk f ctl) s = .next t ∧
        (t.fn f).gupState = 1 ∧ (t.fn f).gupCtl = ctl ∧
        (∀ u, takeChunk s f (bits ctl 63 48) (bits ctl 31 0) = .inr u → (t.fn f).upload = some u ∧ (t.fn f).chunk = some 0) ∧
        (∀ c, takeChunk s f (bits ctl 63 48) (bits ctl 31 0) = .inl c → (t.fn f).upload = none ∧ (t.fn f).chunk = some c)) ∧
      ((s.fn f).gupState ≠ 1 → bits ctl 31 0 = 0 → ∃ t, exec (.gupDiscard f ctl) s = .next t ∧
        (t.fn f).gupState = 0 ∧ (t.fn f).upload = none)) ∧
    (∀ u, (s.fn f).upload = some u →
      ((s.fn f).chunk = none → ∃ t, exec (.gupPartialTimeout f) s = .next t ∧ (t.fn f).gupState = 3 ∧
        (t.fn f).gupCause = 9 ∧ (t.fn f).upload = none) ∧
      ((s.fn f).chunk = some 0 → u.bytes.length < u.imglen → ∃ t, exec (.gupChunkTakenIn f) s = .next t ∧
        (t.fn f).gupState = 2 ∧ (t.fn f).upload = some u ∧ t.parts = s.parts) ∧
      ((s.fn f).chunk = some 0 → u.bytes.length = u.imglen → (s.part u.part).valid = true →
        driverOf s u.part = some f.val → imgNodes u.bytes ≠ 0 →
        ∀ c, imageCause s u.part (if f.val = 0 then 128 else 120) u.handle u.bytes = c →
        ∃ t, exec (.gupChunkTakenIn f) s = .next t ∧ (t.fn f).upload = none ∧ (t.fn f).gupCause = c ∧
          (t.fn f).gupState = (if c = 0 then 2 else 3) ∧
          (t.part u.part).graphs = (s.part u.part).graphs ++
            (if c = 0 then [{ handle := u.handle, id := (s.part u.part).nextGraph, img := u.bytes }] else []))) ∧
    (∀ v : Word, reaches s f = true → (∀ p < 16, (s.part p).heldRecs = [] ∧ (s.part p).ovf = none) →
      (∃ t, exec (.fqBaseWrite f v) s = .next t ∧
        (t.fn f).fqBase = if v.toNat % 4096 = 0 then v else (s.fn f).fqBase) ∧
      (∃ t, exec (.fqSizeWrite f v) s = .next t ∧
        ((∃ k, 6 ≤ k ∧ k ≤ 16 ∧ v.toNat = 2 ^ k) → (t.fn f).fqSize = v.toNat) ∧
        ((∀ k, 6 ≤ k → k ≤ 16 → v.toNat ≠ 2 ^ k) → (t.fn f).fqSize = (s.fn f).fqSize)) ∧
      (∃ t, exec (.fqConsWrite f v) s = .next t ∧
        (t.fn f).fqCons = if (s.fn f).fqSize ≠ 0 then v.toNat else (s.fn f).fqCons) ∧
      (fqCmdBad v = true → ∃ t, exec (.fqCmdRejected f v) s = .next t ∧ (t.fn f).fqRes = 3 ∧ t.parts = s.parts ∧
        t.me = s.me ∧ t.rest = s.rest)) ∧
    (∀ (slot : BitVec 16) (x : Instr) (a : Handler), reaches s f = true → driverOf s (actsFor s f) = some f.val →
      ((x = .fqCmdResume f slot ∧ a = .resume 0) ∨ (x = .fqCmdReverseContinue f slot ∧ a = .reverseGo 0 (s.fn f).fqArg) ∨
        (x = .fqCmdReversePark f slot ∧ a = .reversePark 0 (s.fn f).fqArg) ∨ (x = .fqCmdCommit f slot ∧ a = .commit) ∨
        (x = .fqCmdKill f slot ∧ a = .kill)) →
      (∃ t, exec x s = .next t ∧ (t.fn f).fqRes = (handle s (actsFor s f) slot.toNat a).1 ∧
        t.me = (handleWith s (actsFor s f) slot.toNat a s.hostView).2.me ∧
        t.rest = (handleWith s (actsFor s f) slot.toNat a s.hostView).2.rest ∧
        t.parts = (handle s (actsFor s f) slot.toNat a).2.parts ∧ t.mem = (handle s (actsFor s f) slot.toNat a).2.mem) ∧
      ((∀ y ∈ (s.part (actsFor s f)).parks, y.slot ≠ slot.toNat) → ∃ t, exec x s = .next t ∧ (t.fn f).fqRes = 1 ∧
        t.parts = s.parts ∧ t.rest = s.rest)) ∧
    (∀ (p : Fin 16) e rest, let x := s.fn f
      (e.fn = some f.val → (s.part p).entries = e :: rest → e.toHost = true →
        (x.fqSize ≠ 0 → (w64 x.fqProd - w64 x.fqCons).toNat < x.fqSize → (∀ r ∈ (s.part p).heldRecs, r.1 ≠ f.val) →
          ∃ t, exec (.faultQueueWrite p) s = .next t ∧ (t.fn f).fqProd = (x.fqProd + 1) % 2 ^ 64 ∧
            t.mem.bytes (.host (x.fqBase.toNat + 64 * (x.fqProd % x.fqSize))) (8 * e.words.length) = wordsBytes e.words ∧
            (t.part p).entries = rest) ∧
        (x.fqSize = 0 → bits (wordAt e.words 0) 63 56 = 1 → (s.part p).heldRecs.length < 256 →
          ∃ t, exec (.faultQueueWrite p) s = .next t ∧ t.mem = s.mem ∧ (t.part p).ovf = some f.val ∧
            (t.part p).heldRecs = (s.part p).heldRecs ++ [(f.val, e.words)] ∧ (t.part p).entries = rest) ∧
        (x.fqSize = 0 → bits (wordAt e.words 0) 63 56 = 2 → ∃ t, exec (.faultQueueWrite p) s = .next t ∧ t.mem = s.mem ∧
            (t.part p).ovf = some f.val ∧ (t.part p).discarded = (s.part p).discarded + 1 ∧ (t.part p).entries = rest)) ∧
      ((s.part p).entries = e :: rest → e.toHost = false → s.migrations = [] →
        (∀ ctl en, parkQueueAt s p = some (.dev ctl, .dev en) → apart ctl 8 en (8 * e.words.length) = true →
          ∃ t, exec (.parkQueueWrite p) s = .next t ∧ (t.part p).entries = rest ∧
            t.mem.bytes (.dev en) (8 * e.words.length) = wordsBytes e.words ∧
            t.mem.bytes (.dev ctl) 8 = leBytes 8 (w64 (ofLe (s.mem.bytes (.dev ctl) 8) + 1)).toNat) ∧
        (parkQueueAt s p = none → ∃ t, exec (.parkQueueWrite p) s = .next t ∧ t.mem = s.mem ∧
          (t.part p).entries = rest ++ [{ e with toHost := true }])))

/-- Partitions, the debug policy, the firmware commands and the watchdog (R29, R40 to R42, R47 to R52, R54 to R57,
R352, R354, R449, R452). Which bits of PART_CFG are kept, when a FW_CTL command acts, how 4-byte writes merge, and what
reaches Zalius and the control cores while their island is off are the model's choices (log entries 41, 53, 55 and 74). -/
def Obligations.ControlWindow : Prop :=
  ∀ s : State,
    (∀ p : Fin 16, let f := p.val + 1
      (reaches s f = true → (s.fn f).dpState ≠ 1 → ∃ t, exec (.dpCtlSubmit p) s = .next t ∧ (t.fn f).dpState = 1 ∧
        (t.fn f).dpSent = staged (s.fn f).dpBlob 128) ∧
      ((s.fn f).dpState = 1 → let c := policyCause (s.part p) p (s.fn f).dpSent
        ∃ t, exec (.policyVerifyComplete p) s = .next t ∧ (t.fn f).dpState = (if c = 0 then 2 else 3) ∧
          (t.fn f).dpCause = c ∧ (c ≠ 0 → t.parts = s.parts) ∧
          (c = 0 → (t.part p).policy.mask = w64 (leAt (s.fn f).dpSent 48 8) ∧
            (t.part p).policy.counter = leAt (s.fn f).dpSent 40 8))) ∧
    (∀ (p : Fin 16) (w : Fin 8) (v : Word), reaches s 0 = true →
      ((s.part p).tdi = .unlocked → w ≠ 0 → ∃ t, exec (.partCfgWrite p w v) s = .next t ∧
        (t.part p).reg w = v &&& 0xC0000FFFFFFFFFFF ∧ (∀ i, i ≠ w.val → (t.part p).reg i = (s.part p).reg i) ∧
        (((s.part p).valid = true ∨ (s.part p).preparing.isSome = true) → (t.part p).cfg = (s.part p).cfg)) ∧
      ((s.part p).tdi = .unlocked → w = 0 → bit v 63 = true →
        let c := cfgOk s p ((v &&& 0x80000000000FFFFF) :: (upto 1 7).map (s.part p).reg)
        ∃ t, exec (.partCfgWrite p w v) s = .next t ∧ (t.part p).valid = false ∧
          (c = true → (t.part p).preparing = some (v &&& 0x80000000000FFFFF) ∧
            ∀ i, 1 ≤ i → i ≤ 7 → (t.part p).word i = (s.part p).reg i) ∧
          ((s.part p).valid = true → (t.part p).keys = none ∧ (t.part p).fifo = [] ∧
            ∀ l ∈ t.launches, l.part = p.val → l.killed = true)) ∧
      (((s.part p).tdi = .locked ∨ (s.part p).tdi = .run) → ∃ t, exec (.partCfgWrite p w v) s = .next t ∧
        (t.part p).tdi = .error ∧ (t.part p).fifo = [] ∧ (t.part p).cfg = (s.part p).cfg)) ∧
    (∀ (p : Fin 16) (w : Word), (s.part p).preparing = some w → ∃ t, exec (.partitionPrepareDone p) s = .next t ∧
      (t.part p).preparing = none ∧ (t.part p).word 0 = w ∧ (t.part p).kver = 0 ∧ (t.part p).keys.isSome = true ∧
      (∀ i, 1 ≤ i → i ≤ 7 → ((s.part p).range i).1 ≠ 0 → ∀ a, ((s.part p).range i).2.1 ≤ a →
        a < ((s.part p).range i).2.1 + ((s.part p).range i).2.2 → t.mem.byte (.dev a) = 0 ∧ t.mem.poisoned a = false) ∧
      ∀ q, q ≠ p.val → t.part q = s.part q) ∧
    (∀ (ctl : Word) (x : Instr) (n : Nat), ((x = .fwStage ctl ∧ n = 1) ∨ (x = .fwVerify ctl ∧ n = 2) ∨
        (x = .fwCommitSvn ctl ∧ n = 3)) → bits ctl 63 60 = n →
      (hostUp s = true → s.zal.fwState ≠ 1 → ∃ t, exec x s = .next t ∧ t.zal.fwState = 1 ∧ t.zal.fwCause = 0 ∧
        t.zal.fwCmd = some ctl) ∧
      ((hostUp s = false ∨ s.zal.fwState = 1) → exec x s = .next s)) ∧
    (islandOn s 0 = false → exec .fwCommandComplete s = .next s) ∧
    (∀ ctl : Word, s.zal.fwCmd = some ctl → islandOn s 0 = true →
      (fwRefused s.zal ctl ≠ 0 → ∃ t, exec .fwCommandComplete s = .next t ∧ t.zal.fwState = 3 ∧
        t.zal.fwCause = fwRefused s.zal ctl ∧ t.zal.slotA = s.zal.slotA ∧ t.zal.slotB = s.zal.slotB ∧
        t.zal.fusedSvn = s.zal.fusedSvn) ∧
      (fwRefused s.zal ctl = 0 → bits ctl 63 60 = 1 → ∃ t, exec .fwCommandComplete s = .next t ∧ t.zal.fwState = 2 ∧
        t.zal.fwCause = 0 ∧ t.zal.verified (!s.zal.active) = false ∧
        t.zal.slot s.zal.active = s.zal.slot s.zal.active ∧
        t.zal.slot (!s.zal.active) = spliceAt (s.zal.slot (!s.zal.active)) (bits ctl 50 32) (fwBytes s.zal (bits ctl 14 0))) ∧
      (fwRefused s.zal ctl = 0 → bits ctl 63 60 = 2 → let slot := !s.zal.active
        let img := s.zal.slot slot
        let c := imgCheck s.zal img
        ∃ t, exec .fwCommandComplete s = .next t ∧ t.zal.fwState = (if c = 0 then 2 else 3) ∧
          t.zal.fwCause = (if c = 0 then 0 else if c = 1 then 2 else if c = 2 then 3 else 4) ∧
          t.zal.verified slot = decide (c = 0) ∧ t.zal.slot slot = img ∧ (c = 0 → t.zal.meas slot = sha512 (imgWhole img)) ∧
          t.zal.log = (if c = 0 then sha512 (leBytes 64 s.zal.log ++ event47 1 slot (imgSvn img)) else s.zal.log)) ∧
      (fwRefused s.zal ctl = 0 → bits ctl 63 60 = 3 → let svn := imgSvn (s.zal.slot s.zal.active)
        ∃ t, exec .fwCommandComplete s = .next t ∧ t.zal.fwState = (if svn < s.zal.fusedSvn then 3 else 2) ∧
          t.zal.fwCause = (if svn < s.zal.fusedSvn then 6 else 0) ∧ t.zal.fusedSvn = max s.zal.fusedSvn svn ∧
          t.zal.log = (if s.zal.fusedSvn < svn then
            sha512 (leBytes 64 s.zal.log ++ event47 4 s.zal.active svn) else s.zal.log))) ∧
    (∃ t, exec .fwdResume s = .next t ∧ (Config.fwDebugFuse = false ∨ hostUp s = false → t = s) ∧
      (Config.fwDebugFuse = true → hostUp s = true → t.fwd.mask = [] ∧
        ∀ g ∈ t.groups, g.isControl = true → g.key ∈ s.fwd.mask → g.status = .run)) ∧
    (∃ t, exec .fwdStop s = .next t ∧ (Config.fwDebugFuse = false ∨ hostUp s = false → t = s) ∧
      (Config.fwDebugFuse = true → hostUp s = true → ∀ g ∈ t.groups, g.isControl = true →
        g.status = .stopped ∨ g.status = .halted)) ∧
    (∀ c : Fin 4, s.me.key = c.val → s.me.isControl = true → s.me.status = .run → islandOn s 0 = true →
        (∀ g ∈ s.rest, g.key ≠ c.val) →
      (fallIn s = .inr s → ∃ t, exec (.fwdBreakHit c) s = .next t ∧ (fwdDue s = false → t = s) ∧
        (fwdDue s = true → (∀ g ∈ t.groups, g.isControl = true → g.status = .stopped ∨ g.status = .halted) ∧
          s.me.key ∈ t.fwd.mask)) ∧
      (fetchTraps s = true →
        (s.zal.windowOpen = false → ∃ t, exec (.controlCoreTrap c) s = .next t ∧ restarted t s.zal.active ∧
          t.zal.windowOpen = false) ∧
        (s.zal.windowOpen = true → ∃ t, exec (.controlCoreTrap c) s = .next t ∧ restarted t s.zal.prev ∧
          t.quiesced = true))) ∧
    (watchdogRuns s = true →
      (s.zal.windowOpen = true → ∃ t, exec .firstKickTimeout s = .next t ∧ restarted t s.zal.prev ∧
        t.quiesced = true ∧ t.zal.windowOpen = false) ∧
      (s.zal.windowOpen = false → ∃ t, exec .watchdogPeriodExpiry s = .next t ∧ restarted t s.zal.active ∧
        t.quiesced = s.quiesced ∧ t.mem.dev = s.mem.dev)) ∧
    (∀ (c : Fin 4) (req : List Word), s.zal.requests = [(c.val, req)] → islandOn s 0 = true → ∃ t w, exec (.zaliusReply c) s = .next t ∧
      t.zal.requests = [] ∧ t.zal.replies = s.zal.replies ++ [(c.val, w)] ∧
      (bits (wordAt req 0) 7 0 = 2 → ∀ v, measurement s (wordAt req 1).toNat = some v → wordAt w 0 = 0 ∧
        wordAt w 8 = w64 v) ∧
      (bits (wordAt req 0) 7 0 = 2 → measurement s (wordAt req 1).toNat = none → wordAt w 0 = 5) ∧
      (bits (wordAt req 0) 7 0 = 0 → wordAt w 0 = 0xFF)) ∧
    (∀ (f : Fin 17) (v : Word), reaches s f = true →
      (∃ t, exec (.registerWrite ⟨f, 0x320⟩ true v) s = .next t ∧ (t.fn f).fqArg = v) ∧
      (f.val = 0 → ∃ t, exec (.registerWrite ⟨f, 0x20⟩ true v) s = .next t ∧ (t.fn 0).psel = bits v 3 0) ∧
      (∃ t, exec (.registerWrite ⟨f, 0x1000⟩ true v) s = .next t ∧
        ∀ i < 8, Tab.get 0 (t.fn f).gupData i = v.extractLsb' (8 * i) 8) ∧
      (exec (.registerWrite ⟨f, 0x8⟩ true v) s = .next s) ∧
      (exec (.registerWrite ⟨f, 0x324⟩ true v) s = .next s))

/-! ### TDISP and SPDM -/

/-- A partition's owner and the sessions of Zalius (R26, R28, R43 to R47, R52, R270): a lock takes fresh keys, a nonce
and a zeroed storage, START needs the nonce of the lock, STOP and an error end the partition's work, and the requests
of SPDM are answered in the order that R46 gives. What STOP clears beyond the spec's words, the order of SPDM's requests, the
numbers of the response codes, that no request arrives while the host is down, and what a request of a session that is not there
gets are the model's choices (log entries 52, 56, 74, 75 and 83). -/
def Obligations.Ownership : Prop :=
  ∀ s : State,
    (hostUp s = false → ∀ (p : Fin 16) (key : BitVec 256) n m,
      ∀ x : Instr, (x = .setTenantKey p key ∨ x = .setDigestKey p key ∨ x = .lockInterfaceRequest p ∨
          x = .startInterfaceRequest p n ∨ x = .stopInterfaceRequest p ∨ x = .spdmGetVersion ∨ x = .spdmGetCapabilities ∨
          x = .spdmNegotiateAlgorithms ∨ x = .spdmGetDigests ∨ x = .spdmGetCertificate ∨ x = .spdmChallenge ∨
          x = .getMeasurements n ∨ x = .spdmKeyExchange ∨ x = .spdmFinish n ∨ x = .spdmKeyUpdate n ∨
          x = .spdmHeartbeat n ∨ x = .spdmEndSession n ∨ x = .ideKm n m) → exec x s = .next s) ∧
    (hostUp s = true →
    (∀ (p : Fin 16) (key : BitVec 256),
      ((s.part p).tdi = .unlocked → ∃ t, exec (.setTenantKey p key) s = .next t ∧ (t.part p).tenantKey = some key ∧
        (t.part p).tdisp = some .done ∧ t.mem = s.mem) ∧
      ((s.part p).tdi ≠ .unlocked → exec (.setTenantKey p key) s = .next (tdisp s p .error)) ∧
      (∀ k, (s.part p).keys = some k → s.zal.sessions ≠ [] →
        ((s.part p).tdi = .locked ∨ ((s.part p).tdi = .unlocked ∧ (s.part p).valid = true)) →
        ∃ t, exec (.setDigestKey p key) s = .next t ∧ (t.part p).keys = some { k with digest := key.toNat }) ∧
      ((s.zal.sessions = [] ∨ (s.part p).tdi = .run ∨ (s.part p).tdi = .error) →
        exec (.setDigestKey p key) s = .next (tdisp s p .error))) ∧
    (∀ p : Fin 16,
      (((s.part p).tdi ≠ .unlocked ∨ (s.part p).valid = false ∨ (s.part p).tenantKey = none ∨ lockBusy s p = true) →
        exec (.lockInterfaceRequest p) s = .next (tdisp s p .error)) ∧
      ((s.part p).tdi = .unlocked → (s.part p).valid = true → (s.part p).tenantKey.isSome = true → lockBusy s p = false →
        ∃ t n, exec (.lockInterfaceRequest p) s = .next t ∧ (t.part p).tdi = .locked ∧
        (t.part p).kver = 0 ∧ (t.part p).policy.mask = 0 ∧ (t.part p).nonce = some n ∧ (t.part p).tdisp = some (.lock n) ∧
        (t.part p).keys.isSome = true ∧ ∀ q, q ≠ p.val → t.part q = s.part q)) ∧
    (∀ (p : Fin 16) n,
      ((s.part p).tdi = .locked → (s.part p).nonce = some n → ∃ t, exec (.startInterfaceRequest p n) s = .next t ∧
        (t.part p).tdi = .run ∧ (t.part p).tdisp = some .done ∧ t.mem = s.mem) ∧
      (((s.part p).tdi ≠ .locked ∨ (s.part p).nonce ≠ some n) →
        exec (.startInterfaceRequest p n) s = .next (tdisp s p .error))) ∧
    (∀ p : Fin 16, ∃ t, exec (.stopInterfaceRequest p) s = .next t ∧ (t.part p).tdi = .unlocked ∧ (t.part p).keys = none ∧
      (t.part p).tenantKey = none ∧ (t.part p).nonce = none ∧ (t.part p).policy.mask = 0 ∧ (t.part p).fifo = [] ∧
      (t.part p).parks = []) ∧
    (∃ t, exec .spdmGetVersion s = .next t ∧ t.zal.spdm = 1 ∧ t.zal.sessions = [] ∧ t.zal.streams = []) ∧
    (s.zal.spdm = 1 → ∃ t, exec .spdmGetCapabilities s = .next t ∧ t.zal.spdm = 2) ∧
    (s.zal.spdm ≠ 1 → exec .spdmGetCapabilities s = .next s) ∧
    (s.zal.spdm = 2 → ∃ t, exec .spdmNegotiateAlgorithms s = .next t ∧ t.zal.spdm = 3) ∧
    (s.zal.spdm ≠ 2 → exec .spdmNegotiateAlgorithms s = .next s) ∧
    (∀ x c, ((x = Instr.spdmGetDigests ∧ c = 0x81) ∨ (x = .spdmGetCertificate ∧ c = 0x82) ∨ (x = .spdmChallenge ∧ c = 0x83)) →
      (s.zal.spdm = 3 → ∃ t v, exec x s = .next t ∧ (c, v) ∈ t.zal.answers ∧ t.zal.spdm = 3) ∧
      (s.zal.spdm ≠ 3 → exec x s = .next s)) ∧
    (∀ i v, s.zal.spdm = 3 → measurement s i = some v → ∃ t, exec (.getMeasurements i) s = .next t ∧
      (0xE0, v) ∈ t.zal.answers ∧ t.mem = s.mem) ∧
    (s.zal.spdm = 3 →
      (freeSession s.zal < 4 → ∃ t, exec .spdmKeyExchange s = .next t ∧
        freeSession s.zal ∈ t.zal.pendingSessions ∧ t.zal.sessions = s.zal.sessions) ∧
      (freeSession s.zal = 4 → exec .spdmKeyExchange s = .next s)) ∧
    (∀ n, n ∈ s.zal.pendingSessions → ∃ t, exec (.spdmFinish n) s = .next t ∧ n ∈ t.zal.sessions ∧
      n ∉ t.zal.pendingSessions) ∧
    (∀ n, n ∈ s.zal.sessions →
      (∃ t v, exec (.spdmKeyUpdate n) s = .next t ∧ (0xE9, v) ∈ t.zal.answers ∧ t.zal.sessions = s.zal.sessions) ∧
      (∃ t v, exec (.spdmHeartbeat n) s = .next t ∧ (0xE8, v) ∈ t.zal.answers ∧ t.zal.sessions = s.zal.sessions) ∧
      (∃ t, exec (.spdmEndSession n) s = .next t ∧ n ∉ t.zal.sessions ∧ ∀ x ∈ t.zal.streams, x.2 ≠ n) ∧
      (∀ m < 16, ∃ t, exec (.ideKm n m) s = .next t ∧ (m, n) ∈ t.zal.streams)) ∧
    (∀ n m, n ∉ s.zal.sessions → exec (.ideKm n m) s = .next s ∧ exec (.spdmEndSession n) s = .next s ∧
      exec (.spdmHeartbeat n) s = .next s ∧ exec (.spdmKeyUpdate n) s = .next s)) ∧
    (∀ (p : Fin 16) cause, ((s.part p).tdi = .locked ∨ (s.part p).tdi = .run) →
      ∃ t, exec (.tdiErrorEvent p cause) s = .next t ∧ (t.part p).tdi = .error ∧ (t.part p).fifo = []) ∧
    (∀ (p : Fin 16) cause, ((s.part p).tdi = .unlocked ∨ (s.part p).tdi = .error) →
      exec (.tdiErrorEvent p cause) s = .next s)

/-! ### The dispatch engine -/

/-- What the dispatch engine does with tasks, gangs and launches (R35, R59, R73, R74, R82 to R86, R88 to R92, R110).
The order of placement and what a saved gang keeps are the model's choices (log entries 44, 45 and 48). -/
def Obligations.Dispatching : Prop :=
  ∀ s : State,
    (∀ (t : TaskId) (x : Task), s.task? t = some x →
      (x.life = .queued → x.walked = false →
        (∀ xs, walkTask s t = .slots xs → ∃ u, exec (.taskExtentWalk t) s = .next u ∧ (u.task t).walked = true ∧
          (u.task t).slots = xs ∧ (u.task t).life = .queued) ∧
        (∀ va c, walkTask s t = .hold va c → ∃ u k, exec (.taskExtentWalk t) s = .next u ∧
          (u.part t.part).parks = (s.part t.part).parks ++ [k] ∧ k.who = .hold t ∧ (u.task t).life = .held k.slot ∧
          wordAt k.words 0 = w64 (5 * 2 ^ 56 + c * 2 ^ 52 + 2 ^ 51) ∧ wordAt k.words 2 = w64 (va % 2 ^ 56)) ∧
        (walkTask s t = .over → ∃ u, exec (.taskExtentWalk t) s = .next u ∧ (u.task t).life = .complete ∧
          (u.task t).killed = true)) ∧
      (x.life = .queued → ∃ u, exec (.ageingStep t) s = .next u ∧ (u.task t).prio = min 7 (x.prio + 1)) ∧
      (x.life = .waiting → (s.launch t.part t.launch).det = false → unmetEdges (s.launch t.part t.launch) x ≠ [] →
        (∀ y ∈ unmetEdges (s.launch t.part t.launch) x, edgeOpt y.2 = true ∧ edgePoint y.2 ≠ 0 ∧ edgePoint y.2 ∈ y.1.fired) →
        ∃ u, exec (.proofingLaunch t) s = .next u ∧ (u.task t).life = .queued ∧ (u.task t).proofing = true) ∧
      (x.proofing = true → ∃ u, exec (.proofingConflict t) s = .next u ∧ (x.touched = true → (u.task t).conflict = true) ∧
        (x.touched = false → u = s)) ∧
      (x.proofing = true → x.life = .running → (∀ y ∈ x.sources, (s.task y).life = .complete) →
        (x.touched = false → x.conflict = false → ∃ u, exec (.proofingResolve t) s = .next u ∧
          (u.task t).proofing = false ∧ (u.task t).life = .running ∧
          ∀ a ∈ s.gangs, a.task = t → ∀ g ∈ u.groups, g.isControl = false → g.gang = a.uid → g.marks.proof = false) ∧
        (x.touched = true → ∃ u, exec (.proofingResolve t) s = .next u ∧ (u.task t).proofing = false ∧
          (u.task t).placed = 0 ∧ ((u.task t).life = .waiting ∨ (u.task t).life = .queued) ∧ ∀ a ∈ u.gangs, a.task ≠ t))) ∧
    (s.quiesced = true → exec .gangPlace s = .next s) ∧
    (∀ (p : Nat) (t : Task) (x y : Nat) (u : State), s.quiesced = false → badReplay s = none →
      let busy := (upto 0 16).filter (queuesBusy s)
      (∀ q < 16, (s.part q).reserved = none ∧ (q ∉ busy → (s.part q).credit = 0)) →
      (∀ g ∈ s.gangs, g.uid ≠ s.nextGang) → (s.launch t.id.part t.id.launch).record = false →
      pickPlace s busy = some (p, .task t, x, y) → placeAt s t.id t.placed x y = some u →
      ∃ v g, exec .gangPlace s = .next v ∧ v.gangs = s.gangs ++ [g] ∧ g.uid = s.nextGang ∧ g.cx = x ∧ g.cy = y ∧
        g.task = t.id ∧ g.ix = t.placed ∧ v.nextGang = s.nextGang + 1 ∧ (v.part p).credit = (s.part p).credit - (Waiter.task t).cost s ∧
        ∀ h ∈ v.rest, h ∈ s.rest ∨ (h.gang = s.nextGang ∧ h.status = .run ∧ h.hist.ic = 0 ∧ h.hist.hz = 0 ∧
          h.hist.crumbs = [] ∧ h.at_.pc = w64 g.entryVa ∧ h.regs.s = [] ∧ h.regs.v = [])) ∧
    (∀ (p : Fin 16) (w : Waiter) (rest : List Waiter), (s.part p).reserved = none →
      (sortBy Waiter.order (waiters s p) = w :: rest → ∃ u sp, exec (.spanReservation p) s = .next u ∧
        (u.part p).reserved = some (w.order, sp) ∧ u.launches = s.launches ∧ u.gangs = s.gangs) ∧
      (waiters s p = [] → exec (.spanReservation p) s = .next s)) ∧
    (∀ (p : Fin 16) (g : Gang), preemptDue s p = true → victim s p = some g → drained s g = true →
      (∀ x, ((x = .preemptRollback p ∧ rollsBack s g = true) ∨
          (x = .preemptSpill p ∧ rollsBack s g = false ∧ (groupsOf s g.uid).all (spillReady s) = true)) →
        ∃ u, exec x s = .next u ∧ (u.gang g.uid).life = .saved ∧
          ∀ h ∈ groupsOf u g.uid, h.status = .halted ∨ h.status = .saved) ∧
      (rollsBack s g = false → exec (.preemptRollback p) s = .next s)) ∧
    (∀ (p : Fin 16) (g : Gang) (x y : Nat), s.quiesced = false → s.gang? g.uid = some g → g.life = .saved →
      let busy := (upto 0 16).filter (queuesBusy s)
      (∀ q < 16, (s.part q).reserved = none ∧ (q ∉ busy → (s.part q).credit = 0)) →
      pickPlace s busy = some (p.val, .gang g, x, y) →
      (∀ k ∈ (s.part p).parks, k.due = none ∧ k.who ≠ .group s.me.key) → groupsOf s g.uid = [s.me] → s.me.status = .saved →
      ∃ u, exec (.gangResume p) s = .next u ∧ (u.gang g.uid).life = .live ∧ (u.gang g.uid).cx = x ∧
        (u.gang g.uid).cy = y ∧ (u.part p).credit = (s.part p).credit - (Waiter.gang g).cost s ∧ u.me.regs = s.me.regs ∧ u.me.hist = s.me.hist ∧
        u.me.status = if s.me.arrived then .wait .boundary else .run) ∧
    (∀ (p : Fin 16) (n : Nat) (l : Launch), s.launch? p n = some l → launchDone s l = true →
      let count := (((s.part p).graphs.find? (·.of l)).map (·.count)).getD 0 + 1
      ∃ u, exec (.launchComplete p n) s = .next u ∧ u.launch? p n = none ∧
        (∀ g ∈ u.gangs, ¬(g.task.part = p.val ∧ g.task.launch = n)) ∧ u.mem.dev = s.mem.dev ∧
        u.mem.bytes (.host (imgW l.img 16).toNat) 8 = leBytes 8 (w64 (l.seq * 2 ^ 48 +
          (if l.abandoned then 2 else if l.killed then 1 else 0) * 2 ^ 32 + count % 2 ^ 32)).toNat)

/-- The boundaries of a deterministic launch (R263, R264, R267, R269, R271, R272): nothing happens until every group has
arrived; a step boundary sends its digest and holds until the host decides; any other writes what was buffered, each byte as
the writer with the highest logical thread index left it, applies the queued atomics one after another in the order of gang
instance and group, and the next quantum begins. The unit of work at a boundary is the model's choice (log entry 47). -/
def Obligations.Boundaries : Prop :=
  ∀ (s : State) (p : Fin 16) (n : Nat) (l : Launch), s.launch? p n = some l → l.det = true →
    (l.ds.held = none → l.ds.placing = false → boundaryReached s p n = false →
      exec (.detBoundary p n) s = .next s) ∧
    (l.ds.held = none → l.ds.placing = false → boundaryReached s p n = true → launchDone s l = false →
      (∀ g ∈ launchGangs s p n, g.outs = []) → s.migrations = [] →
      let step := bits (imgW l.img 24) 31 16
      (step ≠ 0 → (l.ds.k + 1) % step = 0 → ∃ t, exec (.detBoundary p n) s = .next t ∧
        (t.launch p n).ds.k = l.ds.k + 1 ∧ (t.launch p n).ds.held.isSome = true ∧ (t.launch p n).ds.buffer = [] ∧
        t.mem.dev = s.mem.dev ∧
        t.mem.bytes (.host ((imgW l.img 16).toNat + 64)) 8 = leBytes 8 (w64 (l.seq * 2 ^ 48 + (l.ds.k + 1) % 2 ^ 32)).toNat) ∧
      (step = 0 → l.ds.fired = [] → l.tasks = [] → (∀ g ∈ launchGangs s p n, g.csCount = 0 ∧ g.subs = []) →
        (∀ g ∈ s.groups, growWaits g = false) → AtRest s = true →
        (∀ bs, l.ds.buffer = bs → (∀ b ∈ bs, b.p = false) → l.ds.serial = [] →
          ∃ t, exec (.detBoundary p n) s = .next t ∧ (t.launch p n).ds.k = l.ds.k + 1 ∧ (t.launch p n).ds.buffer = [] ∧
            (∀ new b old, bs = new ++ b :: old → (∀ c ∈ new, c.pa = b.pa → c.tid < b.tid) →
              (∀ c ∈ old, c.pa = b.pa → c.tid ≤ b.tid) → t.mem.byte (.dev b.pa) = b.v) ∧
            (∀ a, (∀ b ∈ bs, b.pa ≠ a) → t.mem.byte (.dev a) = s.mem.byte (.dev a)) ∧
            (s.me ∈ launchGroups s p n → s.me.status = .wait .boundary → t.me.status = .run ∧ t.me.qi = 0)) ∧
        (∀ (q r : Serial) (h h' : Hd) (op op' : AOp) (o o' : Order) (sc sc' : Scope) (sz : Fin 4) (d d' a a' b b' : Reg)
            (va pa : Nat) (x x' : Lane), l.ds.buffer = [] → (l.ds.serial = [q, r] ∨ l.ds.serial = [r, q]) →
          q.i = .amo h op o sc sz d a b → r.i = .amo h' op' o' sc' sz d' a' b' → q.lanes = [(0, va, pa, x)] →
          r.lanes = [(0, va, pa, x')] → q.inst * 128 + q.gid < r.inst * 128 + r.gid → sz ≠ 3 → op ≠ .addb → op' ≠ .addb →
          (op = .fadd ∨ op' = .fadd → sz ≠ 2) → s.mem.poisoned pa = false → pa % 128 + 8 ≤ 128 →
          let m := if sz = 2 then 8 else 4
          let old := BitVec.ofNat (8 * m) (ofLe (s.mem.bytes (.dev pa) m))
          let mid := atomic op (8 * m) old (q.b.v.setWidth (8 * m)) 0
          ∃ t, exec (.detBoundary p n) s = .next t ∧
            t.mem.bytes (.dev pa) m = leBytes m (atomic op' (8 * m) mid (r.b.v.setWidth (8 * m)) 0).toNat ∧
            (∀ y, (y < pa ∨ pa + m ≤ y) → t.mem.byte (.dev y) = s.mem.byte (.dev y)) ∧
            ∀ i, d' = .s i → r.key = s.me.key →
              t.me.getS i = { v := if sz = 0 then mid.signExtend 64 else mid.setWidth 64 }))) ∧
    (∀ x, l.ds.held = some x → let w := s.wordAt (.host ((imgW l.img 16).toNat + 128)) 0
      (bits w 63 48 ≠ l.seq → exec (.detDecisionPoll p n) s = .next s) ∧
      (bits w 63 48 = l.seq → bits w 47 16 = l.ds.k % 2 ^ 32 → bits w 15 2 = 0 →
        (bits w 1 0 = 2 → ∃ t, exec (.detDecisionPoll p n) s = .next t ∧ (t.launch p n).abandoned = true ∧
          t.mem.dev = s.mem.dev ∧ ∀ y ∈ (t.launch p n).tasks, y.life = .complete) ∧
        (bits w 1 0 = 1 → ∃ t, exec (.detDecisionPoll p n) s = .next t ∧ (t.launch p n).ds.held = none ∧
          (∀ pa va v, x = { bytes := [(pa, va, v)], lines := [], results := [] } → l.tasks = [] → l.ds.fired = [] →
            launchGangs s p n = [] → t.mem.byte (.dev pa) = v)) ∧
        (bits w 1 0 = 0 → exec (.detDecisionPoll p n) s = .next s)))

/-! ### Groups -/

/-- The steps of the issue partitions and of the register arbiter, breakpoints and completions (R100 to R102, R104, R107,
R108, R202, R258, R345). Where the spec leaves the scheduler a choice the clauses follow log entry 65, and the arbiter acts on
groups of a deterministic launch at its boundaries alone (log entry 47). -/
def Obligations.GroupSteps : Prop :=
  ∀ s : State, (∀ g ∈ s.rest, g.key ≠ s.me.key) → s.me.isControl = false →
    (∀ g, issuePick s = some g → g ∈ readyActive s ∧ ∀ x ∈ readyActive s, g.seat.age < x.seat.age ∨
      (g.seat.age = x.seat.age ∧ slotAfter s g ≤ slotAfter s x)) ∧
    (issuePick s = none → readyActive s = []) ∧
    (∀ i o n, s.group? i = some n → readyLongest s n = true →
      (activeRoom s n = true → ∃ t, exec (.issueSwap o i) s = .next t ∧
        ((t.group? i).map (·.seat.active)) = some true) ∧
      (∀ x w, i ≠ o → activeRoom s n = false → s.group? o = some x → x ∈ inPartition s n → x.seat.active = true →
        x.key = o → x.status = .wait w → longWait w = true → ∃ t, exec (.issueSwap o i) s = .next t ∧
          ((t.group? i).map (·.seat.active)) = some true ∧ ((t.group? o).map (·.seat.active)) = some false)) ∧
    (∀ i n o rest, s.group? i = some n → pendingReady n = true → o.key ≠ i → s.group? o.key = some o →
      sortBy (·.seat.since) ((inPartition s n).filter (·.seat.active)) = o :: rest →
      ((o.status ≠ .run ∨ o.seat.marked = true) → ∃ t, exec (.forcedSwap i) s = .next t ∧
        ((t.group? i).map (·.seat.active)) = some true ∧ ((t.group? o.key).map (·.seat.active)) = some false) ∧
      (o.status = .run → o.seat.marked = false → exec (.forcedSwap i) s = .next s)) ∧
    (∀ w, s.me.status = .wait w →
      (waitDone s w = true → ∃ t, exec (.waitSatisfied s.me.key) s = .next t ∧ t.me.status = .run ∧
        t.me.regs = s.me.regs ∧ t.me.hist = s.me.hist ∧ t.me.at_ = s.me.at_ ∧ t.mem = s.mem) ∧
      (waitDone s w = false → exec (.waitSatisfied s.me.key) s = .next s)) ∧
    (∀ b, s.me.sb = [b] → ∃ t, exec (.splitPhaseResult s.me.key b.slot) s = .next t ∧ t.me.sb = [] ∧
      t.me.hist = s.me.hist ∧
      (∀ i v, b.res = { scalars := [(i, v)], lanes := [] } → t.me.getS i = v) ∧
      (∀ k v, b.res = { scalars := [], lanes := [(k, v)] } → Tab.get {} t.me.regs.v k = v)) ∧
    (let c := s.me.seat.core;
      let gs := (onCore s c).filter (·.status != .parked)
      (∀ (h : c < 256), (∃ g ∈ onCore s c, ofDet s g = true) → exec (.quotaSwapOut ⟨c, h⟩) s = .next s) ∧
      ∀ (h : c < 256), (∀ g ∈ onCore s c, ofDet s g = false) → gs ≠ [] → gs.all growWaits = true →
      oldestMet s gs c = false → youngestGrow gs = some s.me →
      ∃ t, exec (.quotaSwapOut ⟨c, h⟩) s = .next t ∧ t.me.status = .swapped s.me.growNeed ∧ t.me.regs.quota = 0 ∧
        t.me.baseQuota = s.me.regs.quota ∧ t.me.seat.active = false ∧ t.me.hist = s.me.hist ∧ t.me.regs.s = s.me.regs.s ∧
        (∀ r l, r < min (hdrVlive s.me.at_.hdr) s.me.regs.quota → l < 32 → t.me.getV r l = s.me.getV r l)) ∧
    (∀ n, s.me.status = .swapped n →
      ((corePool s s.me.seat.core < s.me.baseQuota + n ∨ olderGrow s s.me s.me.growRank = true) →
        exec (.quotaRestore s.me.key) s = .next s) ∧
      (s.me.baseQuota + n ≤ corePool s s.me.seat.core → olderGrow s s.me s.me.growRank = false →
        (s.myLaunch.det = true → exec (.quotaRestore s.me.key) s = .next s) ∧
        (∀ w h d a, s.myLaunch.det = false → fetchAt s s.me.at_.pc = .inr w → decode w = some (.regGrow h d a) →
          ∃ t u, exec (.quotaRestore s.me.key) s = .next t ∧ exec (.regGrow h d a) u = .next t ∧
            u.me.status = .run ∧ u.me.regs = { s.me.regs with quota := s.me.baseQuota } ∧ u.me.hist = s.me.hist))) ∧
    (s.me.status = .run → fallIn s = .inr s →
      (breakDue s = true → ∃ t, exec (.breakpointHit s.me.key) s = .next t ∧ t.me.status = .parked ∧
        t.me.hist = s.me.hist ∧ t.me.regs = s.me.regs ∧ t.me.at_ = s.me.at_ ∧
        ∃ k, (t.part s.myP).parks = (s.part s.myP).parks ++ [k] ∧ wordAt k.words 0 = w64 (12 * 2 ^ 56) ∧
          wordAt k.words 2 = w64 (s.me.at_.pc.toNat % 2 ^ 56)) ∧
      (breakDue s = false → exec (.breakpointHit s.me.key) s = .next s)) ∧
    ((s.unacked.any (·.key == s.me.key)) = true →
      (∃ t, exec (.writeAcknowledge s.me.key) s = .next t ∧ t.me.acks = s.me.acks - 1 ∧
        t.unacked.length + 1 = s.unacked.length ∧ t.mem = s.mem) ∧
      (∀ ls, ∃ t, exec (.hostCompletionError s.me.key true ls) s = .next t ∧ t.me.acks = s.me.acks - 1 ∧
        Tab.get 0 t.module.errs 9 = min (Tab.get 0 s.module.errs 9 + 1) (2 ^ 32 - 1) ∧ t.mem = s.mem)) ∧
    (∀ i va ic, s.me.hostLoad = some { ds := [.s i], ic, accs := [(0, va)] } → s.me.sb = [] →
      (∃ e < 8, (Tab.get ({} : Origin) s.me.pot e).valid = false) →
      ∃ t, exec (.hostCompletionError s.me.key false 1) s = .next t ∧ (t.me.getS i.val).p = true ∧
        t.me.hostLoad = none ∧ t.mem = s.mem ∧ ∃ k < 8, (Tab.get ({} : Origin) t.me.pot k).oic = ic ∧
          (Tab.get ({} : Origin) t.me.pot k).valid = true ∧ (t.me.getS i.val).o.toNat = k)

/-- Copies, deliveries, copy-outs and the messages of peers (R77 to R80, R147, R148, R163, R189, R225, R259, R391,
R392), each message placed once, and a tile delivered to all who subscribe to it together. How many bytes of a release arrive
in one step, the stand-in of a copy-out, the ASID of a peer's message, that nothing comes while the peer PHY is off, and what a
delivery does that has a failing source line or an ADDR outside the reservation (wp advances by 2,048 all the same) are the
model's choices (log entries 20, 29, 32, 46, 74 and 79). -/
def Obligations.CopiesAndMessages : Prop :=
  ∀ s : State, (∀ g ∈ s.rest, g.key ≠ s.me.key) →
    (∀ g rest, s.gang? s.me.gang = some g → groupsOf s g.uid = s.me :: rest → g.life = .live → s.myLaunch.det = false →
      (∀ x k j, g.copyHalted = false → (headReleases s g).find? (·.2.1 == k) = some (x, k, j) →
        let w := copyWords s g k
        let c : CopyState := Tab.get {} g.copies k
        (c.run = none → engineTurn s g (ceLoad w) = false → exec (.copyRelease g.uid k) s = .next s) ∧
        (c.failed = true → c.run = none → engineTurn s g (ceLoad w) = true →
          ∃ t, exec (.copyRelease g.uid k) s = .next t ∧
          (Tab.get {} t.myGang.copies k).next = j + 1 ∧ (Tab.get {} t.myGang.copies k).failed = true ∧
          t.myGang.cores = g.cores) ∧
        (ceRing w = false → ceLoad w = true → c.failed = false → (c.run = none → ceIll s w j = false) →
          (c.run = none → engineTurn s g true = true) → (∀ a ∈ s.gangs, a.subs = []) →
          let r := c.run.getD {}
          let s0 := if c.run = none then meetDesc s (ceTensor w) else s
          let ls := ((ceLines s0 w j).drop (r.done / unitBytes w * unitLines w)).take (unitLines w)
          let got := pullLines ((ls.filterMap id).foldl engineMeet s0) w ls
          let unit := if r.rest = [] then got.1 else r.rest
          let bs := (unit.take (copyCut s w)).take (ceLen w - r.done)
          let addr := ceDest w + j * ceLen w
          r.status = 0 → r.done < ceLen w → (r.rest = [] → got.2.2 = 0) →
          ∃ t, exec (.copyRelease g.uid k) s = .next t ∧
            (t.myGang.on (localCore (addr + r.done))).bytes (localOff (addr + r.done)) bs.length = bs ∧
            Tab.get 0 (t.myGang.on (localCore addr)).wp (ceRc w) =
              (Tab.get 0 (g.on (localCore addr)).wp (ceRc w) + bs.length) % 2 ^ 64 ∧
            (Tab.get {} t.myGang.copies k).failed = false ∧
            (r.done + bs.length < ceLen w → (Tab.get {} t.myGang.copies k).next = j ∧
              ((Tab.get {} t.myGang.copies k).run.map (·.done)) = some (r.done + bs.length)) ∧
            (ceLen w ≤ r.done + bs.length → (Tab.get {} t.myGang.copies k).next = j + 1 ∧
              (Tab.get {} t.myGang.copies k).run = none))) ∧
      (∀ i x rest', g.subs.drop i = x :: rest' → (g.subs.take i).any (·.sameWay x) = false → x.ring = none →
        x.chan ∉ (g.on x.core).dead →
        (∀ y ∈ g.subs.take i ++ rest', y.tensor = x.tensor → y.coord ≠ x.coord) →
        (∀ a ∈ s.gangs, a = g ∨ ∀ y ∈ a.subs, y.tensor = x.tensor → y.coord ≠ x.coord) →
        ∃ t, exec (.subscriptionDelivery g.uid i) s = .next t ∧
          t.myGang.subs = g.subs.take i ++ g.subs.drop (i + 1) ∧ (AtRest s = true → sameMem s t) ∧
          Tab.get 0 (t.myGang.on x.core).wp x.chan = (Tab.get 0 (g.on x.core).wp x.chan + 2048) % 2 ^ 64) ∧
      (∀ x y, g.subs = [x, y] → x.tensor = y.tensor → x.coord = y.coord → x.ring = none → y.ring = none →
        x.sameWay y = false → x.chan ∉ (g.on x.core).dead → y.chan ∉ (g.on y.core).dead →
        (∀ a ∈ s.gangs, a = g ∨ a.subs = []) → ∃ t, exec (.subscriptionDelivery g.uid 0) s = .next t ∧
          t.myGang.subs = [] ∧ ∀ z ∈ [x, y],
            Tab.get 0 (t.myGang.on z.core).wp z.chan = (Tab.get 0 (g.on z.core).wp z.chan + 2048) % 2 ^ 64) ∧
      (∀ i o rest' r line pa leaf, (allOuts s).drop i = (g.uid, o) :: rest' → Settled s = true →
        o.gid = s.me.gid → s.me.isControl = false → cnReg? s g.task.part o.region = some r → o.leaves = 1 →
        cnLine s r o.root = some line → look s o.dest .write = .ok (.dev pa) leaf →
        ∃ t, exec (.cnOutComplete i) s = .next t ∧ t.mem.bytes (.dev pa) 128 = line ∧
          t.myGang.outs = g.outs.erase o ∧ ∃ v, t.myGang.bar o.bar = (g.bar o.bar).arrive false v)) ∧
    (∀ flow seq data, islandOn s 7 = false → exec (.flowMessageArrival flow seq data) s = .next s) ∧
    (∀ flow seq data, islandOn s 7 = true → devTop ≤ flow → ∃ t, exec (.flowMessageArrival flow seq data) s = .next t ∧
      (∀ m ∈ t.messages, m.flow = flow → m.seq = seq % 2 ^ 32 → m.placed = true ∨ outOfTurn s m = true) ∧
      (∀ m ∈ s.messages, (m.flow ≠ flow ∨ m.seq ≠ seq % 2 ^ 32 ∨ outOfTurn s m = true) → m ∈ t.messages) ∧ t.mem = s.mem) ∧
    (∀ flow seq data e, islandOn s 7 = true → flow < devTop → s.messages = [] → s.migrations = [] → data.length = 128 →
      rxOrd s (.dev flow) = false → arrivalEntry s flow = some (.dev e) → apart flow 64 e 128 = true →
      ((flow, seq % 2 ^ 32) ∉ s.delivered → ∃ t, exec (.flowMessageArrival flow seq data) s = .next t ∧
        t.mem.bytes (.dev e) 128 = data ∧ rxProd t (.dev flow) = (rxProd s (.dev flow) + 1) % 2 ^ 32 ∧
        t.messages = [] ∧ (flow, seq % 2 ^ 32) ∈ t.delivered) ∧
      ((flow, seq % 2 ^ 32) ∈ s.delivered → bit (s.wordAt (.dev flow) 0) 63 = true →
        exec (.flowMessageArrival flow seq data) s = .next s))
end

