-- ==== Sys2Proof/Laws/Cipher.lean ====
section
/-! SUPPORT. What the patrol scrub and a rotation of keys do to the version that a line is under (R53, R184). -/

namespace Sys2Proof.Machine

/-- The version that a line is under once the scrub has passed it is, after the rotation, the current one, and its keys are
the same (R53, R184). -/
theorem KeyPair.rotate_next (k : KeyPair) (fresh : KeySlot) :
    (k.rotate fresh).cur % 2 = (k.cur + 1) % 2 ∧
      (if (k.cur + 1) % 2 = 0 then (k.rotate fresh).k0 else (k.rotate fresh).k1) =
        (if (k.cur + 1) % 2 = 0 then k.k0 else k.k1) := by
  unfold KeyPair.rotate
  rcases Nat.mod_two_eq_zero_or_one k.cur with h | h <;> simp [Nat.add_mod, h]

/-- A line is under the next version exactly below its stack's watermark (R184). -/
theorem underNext_iff (s : State) (line : Nat) :
    underNext s line = true ↔ stackOff (128 * line) < (s.stack (stackOf (128 * line))).wm := by
  simp [underNext]

/-- A line's key does not look at the memory: only at the owner, its keys and the watermark (R52, R184). -/
theorem lineKey_withMem (s : State) (m : Mem) (line : Nat) : lineKey { s with mem := m } line = lineKey s line := rfl

end Sys2Proof.Machine
end

