-- ==== Sys2Proof/Laws/State.lean ====
section
/-! SUPPORT. What each named update of the state leaves in each field, one lemma for each. -/

namespace Sys2Proof.Machine

/-! ### Updates of the state -/

@[simp] theorem State.modMe_me (s : State) (f : Group → Group) : (s.modMe f).me = f s.me := rfl
@[simp] theorem State.modMe_rest (s : State) (f : Group → Group) : (s.modMe f).rest = s.rest := rfl
@[simp] theorem State.modMe_gangs (s : State) (f : Group → Group) : (s.modMe f).gangs = s.gangs := rfl
@[simp] theorem State.modMe_launches (s : State) (f : Group → Group) : (s.modMe f).launches = s.launches := rfl
@[simp] theorem State.modMe_parts (s : State) (f : Group → Group) : (s.modMe f).parts = s.parts := rfl
@[simp] theorem State.modMe_fns (s : State) (f : Group → Group) : (s.modMe f).fns = s.fns := rfl
@[simp] theorem State.modMe_cores (s : State) (f : Group → Group) : (s.modMe f).cores = s.cores := rfl
@[simp] theorem State.modMe_mem (s : State) (f : Group → Group) : (s.modMe f).mem = s.mem := rfl
@[simp] theorem State.modMe_tiles (s : State) (f : Group → Group) : (s.modMe f).tiles = s.tiles := rfl
@[simp] theorem State.modMe_l1 (s : State) (f : Group → Group) : (s.modMe f).l1 = s.l1 := rfl
@[simp] theorem State.modMe_il1 (s : State) (f : Group → Group) : (s.modMe f).il1 = s.il1 := rfl
@[simp] theorem State.modMe_cached (s : State) (f : Group → Group) : (s.modMe f).cached = s.cached := rfl
@[simp] theorem State.modMe_migrations (s : State) (f : Group → Group) : (s.modMe f).migrations = s.migrations := rfl
@[simp] theorem State.modMe_coh (s : State) (f : Group → Group) : (s.modMe f).coh = s.coh := rfl
@[simp] theorem State.modMe_messages (s : State) (f : Group → Group) : (s.modMe f).messages = s.messages := rfl
@[simp] theorem State.modMe_delivered (s : State) (f : Group → Group) : (s.modMe f).delivered = s.delivered := rfl
@[simp] theorem State.modMe_unacked (s : State) (f : Group → Group) : (s.modMe f).unacked = s.unacked := rfl
@[simp] theorem State.modMe_sweeps (s : State) (f : Group → Group) : (s.modMe f).sweeps = s.sweeps := rfl
@[simp] theorem State.modMe_blockCounts (s : State) (f : Group → Group) : (s.modMe f).blockCounts = s.blockCounts := rfl
@[simp] theorem State.modMe_hbm (s : State) (f : Group → Group) : (s.modMe f).hbm = s.hbm := rfl
@[simp] theorem State.modMe_ports (s : State) (f : Group → Group) : (s.modMe f).ports = s.ports := rfl
@[simp] theorem State.modMe_zal (s : State) (f : Group → Group) : (s.modMe f).zal = s.zal := rfl
@[simp] theorem State.modMe_fwd (s : State) (f : Group → Group) : (s.modMe f).fwd = s.fwd := rfl
@[simp] theorem State.modMe_module (s : State) (f : Group → Group) : (s.modMe f).module = s.module := rfl
@[simp] theorem State.modMe_served (s : State) (f : Group → Group) : (s.modMe f).served = s.served := rfl
@[simp] theorem State.modMe_quiesced (s : State) (f : Group → Group) : (s.modMe f).quiesced = s.quiesced := rfl
@[simp] theorem State.modMe_nextGang (s : State) (f : Group → Group) : (s.modMe f).nextGang = s.nextGang := rfl
@[simp] theorem State.modMe_agenda (s : State) (f : Group → Group) : (s.modMe f).agenda = s.agenda := rfl
@[simp] theorem State.modMe_tick (s : State) (f : Group → Group) : (s.modMe f).tick = s.tick := rfl
@[simp] theorem State.modMe_stamp (s : State) (f : Group → Group) : (s.modMe f).stamp = s.stamp := rfl
@[simp] theorem State.modMe_rels (s : State) (f : Group → Group) : (s.modMe f).rels = s.rels := rfl
@[simp] theorem State.modMe_hostView (s : State) (f : Group → Group) : (s.modMe f).hostView = s.hostView := rfl

@[simp] theorem State.setPart_me (s : State) (p : Nat) (v : Part) : (s.setPart p v).me = s.me := rfl
@[simp] theorem State.setPart_rest (s : State) (p : Nat) (v : Part) : (s.setPart p v).rest = s.rest := rfl
@[simp] theorem State.setPart_gangs (s : State) (p : Nat) (v : Part) : (s.setPart p v).gangs = s.gangs := rfl
@[simp] theorem State.setPart_launches (s : State) (p : Nat) (v : Part) : (s.setPart p v).launches = s.launches := rfl
@[simp] theorem State.setPart_parts (s : State) (p : Nat) (v : Part) : (s.setPart p v).parts = Tab.set {} s.parts p v := rfl
@[simp] theorem State.setPart_fns (s : State) (p : Nat) (v : Part) : (s.setPart p v).fns = s.fns := rfl
@[simp] theorem State.setPart_cores (s : State) (p : Nat) (v : Part) : (s.setPart p v).cores = s.cores := rfl
@[simp] theorem State.setPart_mem (s : State) (p : Nat) (v : Part) : (s.setPart p v).mem = s.mem := rfl
@[simp] theorem State.setPart_tiles (s : State) (p : Nat) (v : Part) : (s.setPart p v).tiles = s.tiles := rfl
@[simp] theorem State.setPart_l1 (s : State) (p : Nat) (v : Part) : (s.setPart p v).l1 = s.l1 := rfl
@[simp] theorem State.setPart_il1 (s : State) (p : Nat) (v : Part) : (s.setPart p v).il1 = s.il1 := rfl
@[simp] theorem State.setPart_cached (s : State) (p : Nat) (v : Part) : (s.setPart p v).cached = s.cached := rfl
@[simp] theorem State.setPart_migrations (s : State) (p : Nat) (v : Part) : (s.setPart p v).migrations = s.migrations := rfl
@[simp] theorem State.setPart_coh (s : State) (p : Nat) (v : Part) : (s.setPart p v).coh = s.coh := rfl
@[simp] theorem State.setPart_messages (s : State) (p : Nat) (v : Part) : (s.setPart p v).messages = s.messages := rfl
@[simp] theorem State.setPart_delivered (s : State) (p : Nat) (v : Part) : (s.setPart p v).delivered = s.delivered := rfl
@[simp] theorem State.setPart_unacked (s : State) (p : Nat) (v : Part) : (s.setPart p v).unacked = s.unacked := rfl
@[simp] theorem State.setPart_sweeps (s : State) (p : Nat) (v : Part) : (s.setPart p v).sweeps = s.sweeps := rfl
@[simp] theorem State.setPart_blockCounts (s : State) (p : Nat) (v : Part) : (s.setPart p v).blockCounts = s.blockCounts := rfl
@[simp] theorem State.setPart_hbm (s : State) (p : Nat) (v : Part) : (s.setPart p v).hbm = s.hbm := rfl
@[simp] theorem State.setPart_ports (s : State) (p : Nat) (v : Part) : (s.setPart p v).ports = s.ports := rfl
@[simp] theorem State.setPart_zal (s : State) (p : Nat) (v : Part) : (s.setPart p v).zal = s.zal := rfl
@[simp] theorem State.setPart_fwd (s : State) (p : Nat) (v : Part) : (s.setPart p v).fwd = s.fwd := rfl
@[simp] theorem State.setPart_module (s : State) (p : Nat) (v : Part) : (s.setPart p v).module = s.module := rfl
@[simp] theorem State.setPart_served (s : State) (p : Nat) (v : Part) : (s.setPart p v).served = s.served := rfl
@[simp] theorem State.setPart_quiesced (s : State) (p : Nat) (v : Part) : (s.setPart p v).quiesced = s.quiesced := rfl
@[simp] theorem State.setPart_nextGang (s : State) (p : Nat) (v : Part) : (s.setPart p v).nextGang = s.nextGang := rfl
@[simp] theorem State.setPart_agenda (s : State) (p : Nat) (v : Part) : (s.setPart p v).agenda = s.agenda := rfl
@[simp] theorem State.setPart_tick (s : State) (p : Nat) (v : Part) : (s.setPart p v).tick = s.tick := rfl
@[simp] theorem State.setPart_stamp (s : State) (p : Nat) (v : Part) : (s.setPart p v).stamp = s.stamp := rfl
@[simp] theorem State.setPart_rels (s : State) (p : Nat) (v : Part) : (s.setPart p v).rels = s.rels := rfl
@[simp] theorem State.setPart_hostView (s : State) (p : Nat) (v : Part) : (s.setPart p v).hostView = s.hostView := rfl

@[simp] theorem State.modPart_me (s : State) (p : Nat) (f : Part → Part) : (s.modPart p f).me = s.me := rfl
@[simp] theorem State.modPart_rest (s : State) (p : Nat) (f : Part → Part) : (s.modPart p f).rest = s.rest := rfl
@[simp] theorem State.modPart_gangs (s : State) (p : Nat) (f : Part → Part) : (s.modPart p f).gangs = s.gangs := rfl
@[simp] theorem State.modPart_launches (s : State) (p : Nat) (f : Part → Part) : (s.modPart p f).launches = s.launches := rfl
@[simp] theorem State.modPart_parts (s : State) (p : Nat) (f : Part → Part) : (s.modPart p f).parts = Tab.set {} s.parts p (f (s.part p)) := rfl
@[simp] theorem State.modPart_fns (s : State) (p : Nat) (f : Part → Part) : (s.modPart p f).fns = s.fns := rfl
@[simp] theorem State.modPart_cores (s : State) (p : Nat) (f : Part → Part) : (s.modPart p f).cores = s.cores := rfl
@[simp] theorem State.modPart_mem (s : State) (p : Nat) (f : Part → Part) : (s.modPart p f).mem = s.mem := rfl
@[simp] theorem State.modPart_tiles (s : State) (p : Nat) (f : Part → Part) : (s.modPart p f).tiles = s.tiles := rfl
@[simp] theorem State.modPart_l1 (s : State) (p : Nat) (f : Part → Part) : (s.modPart p f).l1 = s.l1 := rfl
@[simp] theorem State.modPart_il1 (s : State) (p : Nat) (f : Part → Part) : (s.modPart p f).il1 = s.il1 := rfl
@[simp] theorem State.modPart_cached (s : State) (p : Nat) (f : Part → Part) : (s.modPart p f).cached = s.cached := rfl
@[simp] theorem State.modPart_migrations (s : State) (p : Nat) (f : Part → Part) : (s.modPart p f).migrations = s.migrations := rfl
@[simp] theorem State.modPart_coh (s : State) (p : Nat) (f : Part → Part) : (s.modPart p f).coh = s.coh := rfl
@[simp] theorem State.modPart_messages (s : State) (p : Nat) (f : Part → Part) : (s.modPart p f).messages = s.messages := rfl
@[simp] theorem State.modPart_delivered (s : State) (p : Nat) (f : Part → Part) : (s.modPart p f).delivered = s.delivered := rfl
@[simp] theorem State.modPart_unacked (s : State) (p : Nat) (f : Part → Part) : (s.modPart p f).unacked = s.unacked := rfl
@[simp] theorem State.modPart_sweeps (s : State) (p : Nat) (f : Part → Part) : (s.modPart p f).sweeps = s.sweeps := rfl
@[simp] theorem State.modPart_blockCounts (s : State) (p : Nat) (f : Part → Part) : (s.modPart p f).blockCounts = s.blockCounts := rfl
@[simp] theorem State.modPart_hbm (s : State) (p : Nat) (f : Part → Part) : (s.modPart p f).hbm = s.hbm := rfl
@[simp] theorem State.modPart_ports (s : State) (p : Nat) (f : Part → Part) : (s.modPart p f).ports = s.ports := rfl
@[simp] theorem State.modPart_zal (s : State) (p : Nat) (f : Part → Part) : (s.modPart p f).zal = s.zal := rfl
@[simp] theorem State.modPart_fwd (s : State) (p : Nat) (f : Part → Part) : (s.modPart p f).fwd = s.fwd := rfl
@[simp] theorem State.modPart_module (s : State) (p : Nat) (f : Part → Part) : (s.modPart p f).module = s.module := rfl
@[simp] theorem State.modPart_served (s : State) (p : Nat) (f : Part → Part) : (s.modPart p f).served = s.served := rfl
@[simp] theorem State.modPart_quiesced (s : State) (p : Nat) (f : Part → Part) : (s.modPart p f).quiesced = s.quiesced := rfl
@[simp] theorem State.modPart_nextGang (s : State) (p : Nat) (f : Part → Part) : (s.modPart p f).nextGang = s.nextGang := rfl
@[simp] theorem State.modPart_agenda (s : State) (p : Nat) (f : Part → Part) : (s.modPart p f).agenda = s.agenda := rfl
@[simp] theorem State.modPart_tick (s : State) (p : Nat) (f : Part → Part) : (s.modPart p f).tick = s.tick := rfl
@[simp] theorem State.modPart_stamp (s : State) (p : Nat) (f : Part → Part) : (s.modPart p f).stamp = s.stamp := rfl
@[simp] theorem State.modPart_rels (s : State) (p : Nat) (f : Part → Part) : (s.modPart p f).rels = s.rels := rfl
@[simp] theorem State.modPart_hostView (s : State) (p : Nat) (f : Part → Part) : (s.modPart p f).hostView = s.hostView := rfl

@[simp] theorem State.setFn_me (s : State) (n : Nat) (v : Fn) : (s.setFn n v).me = s.me := rfl
@[simp] theorem State.setFn_rest (s : State) (n : Nat) (v : Fn) : (s.setFn n v).rest = s.rest := rfl
@[simp] theorem State.setFn_gangs (s : State) (n : Nat) (v : Fn) : (s.setFn n v).gangs = s.gangs := rfl
@[simp] theorem State.setFn_launches (s : State) (n : Nat) (v : Fn) : (s.setFn n v).launches = s.launches := rfl
@[simp] theorem State.setFn_parts (s : State) (n : Nat) (v : Fn) : (s.setFn n v).parts = s.parts := rfl
@[simp] theorem State.setFn_fns (s : State) (n : Nat) (v : Fn) : (s.setFn n v).fns = Tab.set {} s.fns n v := rfl
@[simp] theorem State.setFn_cores (s : State) (n : Nat) (v : Fn) : (s.setFn n v).cores = s.cores := rfl
@[simp] theorem State.setFn_mem (s : State) (n : Nat) (v : Fn) : (s.setFn n v).mem = s.mem := rfl
@[simp] theorem State.setFn_tiles (s : State) (n : Nat) (v : Fn) : (s.setFn n v).tiles = s.tiles := rfl
@[simp] theorem State.setFn_l1 (s : State) (n : Nat) (v : Fn) : (s.setFn n v).l1 = s.l1 := rfl
@[simp] theorem State.setFn_il1 (s : State) (n : Nat) (v : Fn) : (s.setFn n v).il1 = s.il1 := rfl
@[simp] theorem State.setFn_cached (s : State) (n : Nat) (v : Fn) : (s.setFn n v).cached = s.cached := rfl
@[simp] theorem State.setFn_migrations (s : State) (n : Nat) (v : Fn) : (s.setFn n v).migrations = s.migrations := rfl
@[simp] theorem State.setFn_coh (s : State) (n : Nat) (v : Fn) : (s.setFn n v).coh = s.coh := rfl
@[simp] theorem State.setFn_messages (s : State) (n : Nat) (v : Fn) : (s.setFn n v).messages = s.messages := rfl
@[simp] theorem State.setFn_delivered (s : State) (n : Nat) (v : Fn) : (s.setFn n v).delivered = s.delivered := rfl
@[simp] theorem State.setFn_unacked (s : State) (n : Nat) (v : Fn) : (s.setFn n v).unacked = s.unacked := rfl
@[simp] theorem State.setFn_sweeps (s : State) (n : Nat) (v : Fn) : (s.setFn n v).sweeps = s.sweeps := rfl
@[simp] theorem State.setFn_blockCounts (s : State) (n : Nat) (v : Fn) : (s.setFn n v).blockCounts = s.blockCounts := rfl
@[simp] theorem State.setFn_hbm (s : State) (n : Nat) (v : Fn) : (s.setFn n v).hbm = s.hbm := rfl
@[simp] theorem State.setFn_ports (s : State) (n : Nat) (v : Fn) : (s.setFn n v).ports = s.ports := rfl
@[simp] theorem State.setFn_zal (s : State) (n : Nat) (v : Fn) : (s.setFn n v).zal = s.zal := rfl
@[simp] theorem State.setFn_fwd (s : State) (n : Nat) (v : Fn) : (s.setFn n v).fwd = s.fwd := rfl
@[simp] theorem State.setFn_module (s : State) (n : Nat) (v : Fn) : (s.setFn n v).module = s.module := rfl
@[simp] theorem State.setFn_served (s : State) (n : Nat) (v : Fn) : (s.setFn n v).served = s.served := rfl
@[simp] theorem State.setFn_quiesced (s : State) (n : Nat) (v : Fn) : (s.setFn n v).quiesced = s.quiesced := rfl
@[simp] theorem State.setFn_nextGang (s : State) (n : Nat) (v : Fn) : (s.setFn n v).nextGang = s.nextGang := rfl
@[simp] theorem State.setFn_agenda (s : State) (n : Nat) (v : Fn) : (s.setFn n v).agenda = s.agenda := rfl
@[simp] theorem State.setFn_tick (s : State) (n : Nat) (v : Fn) : (s.setFn n v).tick = s.tick := rfl
@[simp] theorem State.setFn_stamp (s : State) (n : Nat) (v : Fn) : (s.setFn n v).stamp = s.stamp := rfl
@[simp] theorem State.setFn_rels (s : State) (n : Nat) (v : Fn) : (s.setFn n v).rels = s.rels := rfl
@[simp] theorem State.setFn_hostView (s : State) (n : Nat) (v : Fn) : (s.setFn n v).hostView = s.hostView := rfl

@[simp] theorem State.modFn_me (s : State) (n : Nat) (f : Fn → Fn) : (s.modFn n f).me = s.me := rfl
@[simp] theorem State.modFn_rest (s : State) (n : Nat) (f : Fn → Fn) : (s.modFn n f).rest = s.rest := rfl
@[simp] theorem State.modFn_gangs (s : State) (n : Nat) (f : Fn → Fn) : (s.modFn n f).gangs = s.gangs := rfl
@[simp] theorem State.modFn_launches (s : State) (n : Nat) (f : Fn → Fn) : (s.modFn n f).launches = s.launches := rfl
@[simp] theorem State.modFn_parts (s : State) (n : Nat) (f : Fn → Fn) : (s.modFn n f).parts = s.parts := rfl
@[simp] theorem State.modFn_fns (s : State) (n : Nat) (f : Fn → Fn) : (s.modFn n f).fns = Tab.set {} s.fns n (f (s.fn n)) := rfl
@[simp] theorem State.modFn_cores (s : State) (n : Nat) (f : Fn → Fn) : (s.modFn n f).cores = s.cores := rfl
@[simp] theorem State.modFn_mem (s : State) (n : Nat) (f : Fn → Fn) : (s.modFn n f).mem = s.mem := rfl
@[simp] theorem State.modFn_tiles (s : State) (n : Nat) (f : Fn → Fn) : (s.modFn n f).tiles = s.tiles := rfl
@[simp] theorem State.modFn_l1 (s : State) (n : Nat) (f : Fn → Fn) : (s.modFn n f).l1 = s.l1 := rfl
@[simp] theorem State.modFn_il1 (s : State) (n : Nat) (f : Fn → Fn) : (s.modFn n f).il1 = s.il1 := rfl
@[simp] theorem State.modFn_cached (s : State) (n : Nat) (f : Fn → Fn) : (s.modFn n f).cached = s.cached := rfl
@[simp] theorem State.modFn_migrations (s : State) (n : Nat) (f : Fn → Fn) : (s.modFn n f).migrations = s.migrations := rfl
@[simp] theorem State.modFn_coh (s : State) (n : Nat) (f : Fn → Fn) : (s.modFn n f).coh = s.coh := rfl
@[simp] theorem State.modFn_messages (s : State) (n : Nat) (f : Fn → Fn) : (s.modFn n f).messages = s.messages := rfl
@[simp] theorem State.modFn_delivered (s : State) (n : Nat) (f : Fn → Fn) : (s.modFn n f).delivered = s.delivered := rfl
@[simp] theorem State.modFn_unacked (s : State) (n : Nat) (f : Fn → Fn) : (s.modFn n f).unacked = s.unacked := rfl
@[simp] theorem State.modFn_sweeps (s : State) (n : Nat) (f : Fn → Fn) : (s.modFn n f).sweeps = s.sweeps := rfl
@[simp] theorem State.modFn_blockCounts (s : State) (n : Nat) (f : Fn → Fn) : (s.modFn n f).blockCounts = s.blockCounts := rfl
@[simp] theorem State.modFn_hbm (s : State) (n : Nat) (f : Fn → Fn) : (s.modFn n f).hbm = s.hbm := rfl
@[simp] theorem State.modFn_ports (s : State) (n : Nat) (f : Fn → Fn) : (s.modFn n f).ports = s.ports := rfl
@[simp] theorem State.modFn_zal (s : State) (n : Nat) (f : Fn → Fn) : (s.modFn n f).zal = s.zal := rfl
@[simp] theorem State.modFn_fwd (s : State) (n : Nat) (f : Fn → Fn) : (s.modFn n f).fwd = s.fwd := rfl
@[simp] theorem State.modFn_module (s : State) (n : Nat) (f : Fn → Fn) : (s.modFn n f).module = s.module := rfl
@[simp] theorem State.modFn_served (s : State) (n : Nat) (f : Fn → Fn) : (s.modFn n f).served = s.served := rfl
@[simp] theorem State.modFn_quiesced (s : State) (n : Nat) (f : Fn → Fn) : (s.modFn n f).quiesced = s.quiesced := rfl
@[simp] theorem State.modFn_nextGang (s : State) (n : Nat) (f : Fn → Fn) : (s.modFn n f).nextGang = s.nextGang := rfl
@[simp] theorem State.modFn_agenda (s : State) (n : Nat) (f : Fn → Fn) : (s.modFn n f).agenda = s.agenda := rfl
@[simp] theorem State.modFn_tick (s : State) (n : Nat) (f : Fn → Fn) : (s.modFn n f).tick = s.tick := rfl
@[simp] theorem State.modFn_stamp (s : State) (n : Nat) (f : Fn → Fn) : (s.modFn n f).stamp = s.stamp := rfl
@[simp] theorem State.modFn_rels (s : State) (n : Nat) (f : Fn → Fn) : (s.modFn n f).rels = s.rels := rfl
@[simp] theorem State.modFn_hostView (s : State) (n : Nat) (f : Fn → Fn) : (s.modFn n f).hostView = s.hostView := rfl

@[simp] theorem State.setCore_me (s : State) (c : Nat) (v : Core) : (s.setCore c v).me = s.me := rfl
@[simp] theorem State.setCore_rest (s : State) (c : Nat) (v : Core) : (s.setCore c v).rest = s.rest := rfl
@[simp] theorem State.setCore_gangs (s : State) (c : Nat) (v : Core) : (s.setCore c v).gangs = s.gangs := rfl
@[simp] theorem State.setCore_launches (s : State) (c : Nat) (v : Core) : (s.setCore c v).launches = s.launches := rfl
@[simp] theorem State.setCore_parts (s : State) (c : Nat) (v : Core) : (s.setCore c v).parts = s.parts := rfl
@[simp] theorem State.setCore_fns (s : State) (c : Nat) (v : Core) : (s.setCore c v).fns = s.fns := rfl
@[simp] theorem State.setCore_cores (s : State) (c : Nat) (v : Core) : (s.setCore c v).cores = Tab.set {} s.cores c v := rfl
@[simp] theorem State.setCore_mem (s : State) (c : Nat) (v : Core) : (s.setCore c v).mem = s.mem := rfl
@[simp] theorem State.setCore_tiles (s : State) (c : Nat) (v : Core) : (s.setCore c v).tiles = s.tiles := rfl
@[simp] theorem State.setCore_l1 (s : State) (c : Nat) (v : Core) : (s.setCore c v).l1 = s.l1 := rfl
@[simp] theorem State.setCore_il1 (s : State) (c : Nat) (v : Core) : (s.setCore c v).il1 = s.il1 := rfl
@[simp] theorem State.setCore_cached (s : State) (c : Nat) (v : Core) : (s.setCore c v).cached = s.cached := rfl
@[simp] theorem State.setCore_migrations (s : State) (c : Nat) (v : Core) : (s.setCore c v).migrations = s.migrations := rfl
@[simp] theorem State.setCore_coh (s : State) (c : Nat) (v : Core) : (s.setCore c v).coh = s.coh := rfl
@[simp] theorem State.setCore_messages (s : State) (c : Nat) (v : Core) : (s.setCore c v).messages = s.messages := rfl
@[simp] theorem State.setCore_delivered (s : State) (c : Nat) (v : Core) : (s.setCore c v).delivered = s.delivered := rfl
@[simp] theorem State.setCore_unacked (s : State) (c : Nat) (v : Core) : (s.setCore c v).unacked = s.unacked := rfl
@[simp] theorem State.setCore_sweeps (s : State) (c : Nat) (v : Core) : (s.setCore c v).sweeps = s.sweeps := rfl
@[simp] theorem State.setCore_blockCounts (s : State) (c : Nat) (v : Core) : (s.setCore c v).blockCounts = s.blockCounts := rfl
@[simp] theorem State.setCore_hbm (s : State) (c : Nat) (v : Core) : (s.setCore c v).hbm = s.hbm := rfl
@[simp] theorem State.setCore_ports (s : State) (c : Nat) (v : Core) : (s.setCore c v).ports = s.ports := rfl
@[simp] theorem State.setCore_zal (s : State) (c : Nat) (v : Core) : (s.setCore c v).zal = s.zal := rfl
@[simp] theorem State.setCore_fwd (s : State) (c : Nat) (v : Core) : (s.setCore c v).fwd = s.fwd := rfl
@[simp] theorem State.setCore_module (s : State) (c : Nat) (v : Core) : (s.setCore c v).module = s.module := rfl
@[simp] theorem State.setCore_served (s : State) (c : Nat) (v : Core) : (s.setCore c v).served = s.served := rfl
@[simp] theorem State.setCore_quiesced (s : State) (c : Nat) (v : Core) : (s.setCore c v).quiesced = s.quiesced := rfl
@[simp] theorem State.setCore_nextGang (s : State) (c : Nat) (v : Core) : (s.setCore c v).nextGang = s.nextGang := rfl
@[simp] theorem State.setCore_agenda (s : State) (c : Nat) (v : Core) : (s.setCore c v).agenda = s.agenda := rfl
@[simp] theorem State.setCore_tick (s : State) (c : Nat) (v : Core) : (s.setCore c v).tick = s.tick := rfl
@[simp] theorem State.setCore_stamp (s : State) (c : Nat) (v : Core) : (s.setCore c v).stamp = s.stamp := rfl
@[simp] theorem State.setCore_rels (s : State) (c : Nat) (v : Core) : (s.setCore c v).rels = s.rels := rfl
@[simp] theorem State.setCore_hostView (s : State) (c : Nat) (v : Core) : (s.setCore c v).hostView = s.hostView := rfl

@[simp] theorem State.setStack_me (s : State) (n : Nat) (v : Stack) : (s.setStack n v).me = s.me := rfl
@[simp] theorem State.setStack_rest (s : State) (n : Nat) (v : Stack) : (s.setStack n v).rest = s.rest := rfl
@[simp] theorem State.setStack_gangs (s : State) (n : Nat) (v : Stack) : (s.setStack n v).gangs = s.gangs := rfl
@[simp] theorem State.setStack_launches (s : State) (n : Nat) (v : Stack) : (s.setStack n v).launches = s.launches := rfl
@[simp] theorem State.setStack_parts (s : State) (n : Nat) (v : Stack) : (s.setStack n v).parts = s.parts := rfl
@[simp] theorem State.setStack_fns (s : State) (n : Nat) (v : Stack) : (s.setStack n v).fns = s.fns := rfl
@[simp] theorem State.setStack_cores (s : State) (n : Nat) (v : Stack) : (s.setStack n v).cores = s.cores := rfl
@[simp] theorem State.setStack_mem (s : State) (n : Nat) (v : Stack) : (s.setStack n v).mem = s.mem := rfl
@[simp] theorem State.setStack_tiles (s : State) (n : Nat) (v : Stack) : (s.setStack n v).tiles = s.tiles := rfl
@[simp] theorem State.setStack_l1 (s : State) (n : Nat) (v : Stack) : (s.setStack n v).l1 = s.l1 := rfl
@[simp] theorem State.setStack_il1 (s : State) (n : Nat) (v : Stack) : (s.setStack n v).il1 = s.il1 := rfl
@[simp] theorem State.setStack_cached (s : State) (n : Nat) (v : Stack) : (s.setStack n v).cached = s.cached := rfl
@[simp] theorem State.setStack_migrations (s : State) (n : Nat) (v : Stack) : (s.setStack n v).migrations = s.migrations := rfl
@[simp] theorem State.setStack_coh (s : State) (n : Nat) (v : Stack) : (s.setStack n v).coh = s.coh := rfl
@[simp] theorem State.setStack_messages (s : State) (n : Nat) (v : Stack) : (s.setStack n v).messages = s.messages := rfl
@[simp] theorem State.setStack_delivered (s : State) (n : Nat) (v : Stack) : (s.setStack n v).delivered = s.delivered := rfl
@[simp] theorem State.setStack_unacked (s : State) (n : Nat) (v : Stack) : (s.setStack n v).unacked = s.unacked := rfl
@[simp] theorem State.setStack_sweeps (s : State) (n : Nat) (v : Stack) : (s.setStack n v).sweeps = s.sweeps := rfl
@[simp] theorem State.setStack_blockCounts (s : State) (n : Nat) (v : Stack) : (s.setStack n v).blockCounts = s.blockCounts := rfl
@[simp] theorem State.setStack_hbm (s : State) (n : Nat) (v : Stack) : (s.setStack n v).hbm = Tab.set {} s.hbm n v := rfl
@[simp] theorem State.setStack_ports (s : State) (n : Nat) (v : Stack) : (s.setStack n v).ports = s.ports := rfl
@[simp] theorem State.setStack_zal (s : State) (n : Nat) (v : Stack) : (s.setStack n v).zal = s.zal := rfl
@[simp] theorem State.setStack_fwd (s : State) (n : Nat) (v : Stack) : (s.setStack n v).fwd = s.fwd := rfl
@[simp] theorem State.setStack_module (s : State) (n : Nat) (v : Stack) : (s.setStack n v).module = s.module := rfl
@[simp] theorem State.setStack_served (s : State) (n : Nat) (v : Stack) : (s.setStack n v).served = s.served := rfl
@[simp] theorem State.setStack_quiesced (s : State) (n : Nat) (v : Stack) : (s.setStack n v).quiesced = s.quiesced := rfl
@[simp] theorem State.setStack_nextGang (s : State) (n : Nat) (v : Stack) : (s.setStack n v).nextGang = s.nextGang := rfl
@[simp] theorem State.setStack_agenda (s : State) (n : Nat) (v : Stack) : (s.setStack n v).agenda = s.agenda := rfl
@[simp] theorem State.setStack_tick (s : State) (n : Nat) (v : Stack) : (s.setStack n v).tick = s.tick := rfl
@[simp] theorem State.setStack_stamp (s : State) (n : Nat) (v : Stack) : (s.setStack n v).stamp = s.stamp := rfl
@[simp] theorem State.setStack_rels (s : State) (n : Nat) (v : Stack) : (s.setStack n v).rels = s.rels := rfl
@[simp] theorem State.setStack_hostView (s : State) (n : Nat) (v : Stack) : (s.setStack n v).hostView = s.hostView := rfl

@[simp] theorem State.setPort_me (s : State) (n : Nat) (v : Port) : (s.setPort n v).me = s.me := rfl
@[simp] theorem State.setPort_rest (s : State) (n : Nat) (v : Port) : (s.setPort n v).rest = s.rest := rfl
@[simp] theorem State.setPort_gangs (s : State) (n : Nat) (v : Port) : (s.setPort n v).gangs = s.gangs := rfl
@[simp] theorem State.setPort_launches (s : State) (n : Nat) (v : Port) : (s.setPort n v).launches = s.launches := rfl
@[simp] theorem State.setPort_parts (s : State) (n : Nat) (v : Port) : (s.setPort n v).parts = s.parts := rfl
@[simp] theorem State.setPort_fns (s : State) (n : Nat) (v : Port) : (s.setPort n v).fns = s.fns := rfl
@[simp] theorem State.setPort_cores (s : State) (n : Nat) (v : Port) : (s.setPort n v).cores = s.cores := rfl
@[simp] theorem State.setPort_mem (s : State) (n : Nat) (v : Port) : (s.setPort n v).mem = s.mem := rfl
@[simp] theorem State.setPort_tiles (s : State) (n : Nat) (v : Port) : (s.setPort n v).tiles = s.tiles := rfl
@[simp] theorem State.setPort_l1 (s : State) (n : Nat) (v : Port) : (s.setPort n v).l1 = s.l1 := rfl
@[simp] theorem State.setPort_il1 (s : State) (n : Nat) (v : Port) : (s.setPort n v).il1 = s.il1 := rfl
@[simp] theorem State.setPort_cached (s : State) (n : Nat) (v : Port) : (s.setPort n v).cached = s.cached := rfl
@[simp] theorem State.setPort_migrations (s : State) (n : Nat) (v : Port) : (s.setPort n v).migrations = s.migrations := rfl
@[simp] theorem State.setPort_coh (s : State) (n : Nat) (v : Port) : (s.setPort n v).coh = s.coh := rfl
@[simp] theorem State.setPort_messages (s : State) (n : Nat) (v : Port) : (s.setPort n v).messages = s.messages := rfl
@[simp] theorem State.setPort_delivered (s : State) (n : Nat) (v : Port) : (s.setPort n v).delivered = s.delivered := rfl
@[simp] theorem State.setPort_unacked (s : State) (n : Nat) (v : Port) : (s.setPort n v).unacked = s.unacked := rfl
@[simp] theorem State.setPort_sweeps (s : State) (n : Nat) (v : Port) : (s.setPort n v).sweeps = s.sweeps := rfl
@[simp] theorem State.setPort_blockCounts (s : State) (n : Nat) (v : Port) : (s.setPort n v).blockCounts = s.blockCounts := rfl
@[simp] theorem State.setPort_hbm (s : State) (n : Nat) (v : Port) : (s.setPort n v).hbm = s.hbm := rfl
@[simp] theorem State.setPort_ports (s : State) (n : Nat) (v : Port) : (s.setPort n v).ports = Tab.set {} s.ports n v := rfl
@[simp] theorem State.setPort_zal (s : State) (n : Nat) (v : Port) : (s.setPort n v).zal = s.zal := rfl
@[simp] theorem State.setPort_fwd (s : State) (n : Nat) (v : Port) : (s.setPort n v).fwd = s.fwd := rfl
@[simp] theorem State.setPort_module (s : State) (n : Nat) (v : Port) : (s.setPort n v).module = s.module := rfl
@[simp] theorem State.setPort_served (s : State) (n : Nat) (v : Port) : (s.setPort n v).served = s.served := rfl
@[simp] theorem State.setPort_quiesced (s : State) (n : Nat) (v : Port) : (s.setPort n v).quiesced = s.quiesced := rfl
@[simp] theorem State.setPort_nextGang (s : State) (n : Nat) (v : Port) : (s.setPort n v).nextGang = s.nextGang := rfl
@[simp] theorem State.setPort_agenda (s : State) (n : Nat) (v : Port) : (s.setPort n v).agenda = s.agenda := rfl
@[simp] theorem State.setPort_tick (s : State) (n : Nat) (v : Port) : (s.setPort n v).tick = s.tick := rfl
@[simp] theorem State.setPort_stamp (s : State) (n : Nat) (v : Port) : (s.setPort n v).stamp = s.stamp := rfl
@[simp] theorem State.setPort_rels (s : State) (n : Nat) (v : Port) : (s.setPort n v).rels = s.rels := rfl
@[simp] theorem State.setPort_hostView (s : State) (n : Nat) (v : Port) : (s.setPort n v).hostView = s.hostView := rfl

@[simp] theorem State.modGang_me (s : State) (u : Nat) (f : Gang → Gang) : (s.modGang u f).me = s.me := rfl
@[simp] theorem State.modGang_rest (s : State) (u : Nat) (f : Gang → Gang) : (s.modGang u f).rest = s.rest := rfl
@[simp] theorem State.modGang_gangs (s : State) (u : Nat) (f : Gang → Gang) : (s.modGang u f).gangs = s.gangs.map fun g => if g.uid = u then f g else g := rfl
@[simp] theorem State.modGang_launches (s : State) (u : Nat) (f : Gang → Gang) : (s.modGang u f).launches = s.launches := rfl
@[simp] theorem State.modGang_parts (s : State) (u : Nat) (f : Gang → Gang) : (s.modGang u f).parts = s.parts := rfl
@[simp] theorem State.modGang_fns (s : State) (u : Nat) (f : Gang → Gang) : (s.modGang u f).fns = s.fns := rfl
@[simp] theorem State.modGang_cores (s : State) (u : Nat) (f : Gang → Gang) : (s.modGang u f).cores = s.cores := rfl
@[simp] theorem State.modGang_mem (s : State) (u : Nat) (f : Gang → Gang) : (s.modGang u f).mem = s.mem := rfl
@[simp] theorem State.modGang_tiles (s : State) (u : Nat) (f : Gang → Gang) : (s.modGang u f).tiles = s.tiles := rfl
@[simp] theorem State.modGang_l1 (s : State) (u : Nat) (f : Gang → Gang) : (s.modGang u f).l1 = s.l1 := rfl
@[simp] theorem State.modGang_il1 (s : State) (u : Nat) (f : Gang → Gang) : (s.modGang u f).il1 = s.il1 := rfl
@[simp] theorem State.modGang_cached (s : State) (u : Nat) (f : Gang → Gang) : (s.modGang u f).cached = s.cached := rfl
@[simp] theorem State.modGang_migrations (s : State) (u : Nat) (f : Gang → Gang) : (s.modGang u f).migrations = s.migrations := rfl
@[simp] theorem State.modGang_coh (s : State) (u : Nat) (f : Gang → Gang) : (s.modGang u f).coh = s.coh := rfl
@[simp] theorem State.modGang_messages (s : State) (u : Nat) (f : Gang → Gang) : (s.modGang u f).messages = s.messages := rfl
@[simp] theorem State.modGang_delivered (s : State) (u : Nat) (f : Gang → Gang) : (s.modGang u f).delivered = s.delivered := rfl
@[simp] theorem State.modGang_unacked (s : State) (u : Nat) (f : Gang → Gang) : (s.modGang u f).unacked = s.unacked := rfl
@[simp] theorem State.modGang_sweeps (s : State) (u : Nat) (f : Gang → Gang) : (s.modGang u f).sweeps = s.sweeps := rfl
@[simp] theorem State.modGang_blockCounts (s : State) (u : Nat) (f : Gang → Gang) : (s.modGang u f).blockCounts = s.blockCounts := rfl
@[simp] theorem State.modGang_hbm (s : State) (u : Nat) (f : Gang → Gang) : (s.modGang u f).hbm = s.hbm := rfl
@[simp] theorem State.modGang_ports (s : State) (u : Nat) (f : Gang → Gang) : (s.modGang u f).ports = s.ports := rfl
@[simp] theorem State.modGang_zal (s : State) (u : Nat) (f : Gang → Gang) : (s.modGang u f).zal = s.zal := rfl
@[simp] theorem State.modGang_fwd (s : State) (u : Nat) (f : Gang → Gang) : (s.modGang u f).fwd = s.fwd := rfl
@[simp] theorem State.modGang_module (s : State) (u : Nat) (f : Gang → Gang) : (s.modGang u f).module = s.module := rfl
@[simp] theorem State.modGang_served (s : State) (u : Nat) (f : Gang → Gang) : (s.modGang u f).served = s.served := rfl
@[simp] theorem State.modGang_quiesced (s : State) (u : Nat) (f : Gang → Gang) : (s.modGang u f).quiesced = s.quiesced := rfl
@[simp] theorem State.modGang_nextGang (s : State) (u : Nat) (f : Gang → Gang) : (s.modGang u f).nextGang = s.nextGang := rfl
@[simp] theorem State.modGang_agenda (s : State) (u : Nat) (f : Gang → Gang) : (s.modGang u f).agenda = s.agenda := rfl
@[simp] theorem State.modGang_tick (s : State) (u : Nat) (f : Gang → Gang) : (s.modGang u f).tick = s.tick := rfl
@[simp] theorem State.modGang_stamp (s : State) (u : Nat) (f : Gang → Gang) : (s.modGang u f).stamp = s.stamp := rfl
@[simp] theorem State.modGang_rels (s : State) (u : Nat) (f : Gang → Gang) : (s.modGang u f).rels = s.rels := rfl
@[simp] theorem State.modGang_hostView (s : State) (u : Nat) (f : Gang → Gang) : (s.modGang u f).hostView = s.hostView := rfl

@[simp] theorem State.modLaunch_me (s : State) (p n : Nat) (f : Launch → Launch) : (s.modLaunch p n f).me = s.me := rfl
@[simp] theorem State.modLaunch_rest (s : State) (p n : Nat) (f : Launch → Launch) : (s.modLaunch p n f).rest = s.rest := rfl
@[simp] theorem State.modLaunch_gangs (s : State) (p n : Nat) (f : Launch → Launch) : (s.modLaunch p n f).gangs = s.gangs := rfl
@[simp] theorem State.modLaunch_launches (s : State) (p n : Nat) (f : Launch → Launch) : (s.modLaunch p n f).launches = s.launches.map fun l => if l.part = p ∧ l.num = n then f l else l := rfl
@[simp] theorem State.modLaunch_parts (s : State) (p n : Nat) (f : Launch → Launch) : (s.modLaunch p n f).parts = s.parts := rfl
@[simp] theorem State.modLaunch_fns (s : State) (p n : Nat) (f : Launch → Launch) : (s.modLaunch p n f).fns = s.fns := rfl
@[simp] theorem State.modLaunch_cores (s : State) (p n : Nat) (f : Launch → Launch) : (s.modLaunch p n f).cores = s.cores := rfl
@[simp] theorem State.modLaunch_mem (s : State) (p n : Nat) (f : Launch → Launch) : (s.modLaunch p n f).mem = s.mem := rfl
@[simp] theorem State.modLaunch_tiles (s : State) (p n : Nat) (f : Launch → Launch) : (s.modLaunch p n f).tiles = s.tiles := rfl
@[simp] theorem State.modLaunch_l1 (s : State) (p n : Nat) (f : Launch → Launch) : (s.modLaunch p n f).l1 = s.l1 := rfl
@[simp] theorem State.modLaunch_il1 (s : State) (p n : Nat) (f : Launch → Launch) : (s.modLaunch p n f).il1 = s.il1 := rfl
@[simp] theorem State.modLaunch_cached (s : State) (p n : Nat) (f : Launch → Launch) : (s.modLaunch p n f).cached = s.cached := rfl
@[simp] theorem State.modLaunch_migrations (s : State) (p n : Nat) (f : Launch → Launch) : (s.modLaunch p n f).migrations = s.migrations := rfl
@[simp] theorem State.modLaunch_coh (s : State) (p n : Nat) (f : Launch → Launch) : (s.modLaunch p n f).coh = s.coh := rfl
@[simp] theorem State.modLaunch_messages (s : State) (p n : Nat) (f : Launch → Launch) : (s.modLaunch p n f).messages = s.messages := rfl
@[simp] theorem State.modLaunch_delivered (s : State) (p n : Nat) (f : Launch → Launch) : (s.modLaunch p n f).delivered = s.delivered := rfl
@[simp] theorem State.modLaunch_unacked (s : State) (p n : Nat) (f : Launch → Launch) : (s.modLaunch p n f).unacked = s.unacked := rfl
@[simp] theorem State.modLaunch_sweeps (s : State) (p n : Nat) (f : Launch → Launch) : (s.modLaunch p n f).sweeps = s.sweeps := rfl
@[simp] theorem State.modLaunch_blockCounts (s : State) (p n : Nat) (f : Launch → Launch) : (s.modLaunch p n f).blockCounts = s.blockCounts := rfl
@[simp] theorem State.modLaunch_hbm (s : State) (p n : Nat) (f : Launch → Launch) : (s.modLaunch p n f).hbm = s.hbm := rfl
@[simp] theorem State.modLaunch_ports (s : State) (p n : Nat) (f : Launch → Launch) : (s.modLaunch p n f).ports = s.ports := rfl
@[simp] theorem State.modLaunch_zal (s : State) (p n : Nat) (f : Launch → Launch) : (s.modLaunch p n f).zal = s.zal := rfl
@[simp] theorem State.modLaunch_fwd (s : State) (p n : Nat) (f : Launch → Launch) : (s.modLaunch p n f).fwd = s.fwd := rfl
@[simp] theorem State.modLaunch_module (s : State) (p n : Nat) (f : Launch → Launch) : (s.modLaunch p n f).module = s.module := rfl
@[simp] theorem State.modLaunch_served (s : State) (p n : Nat) (f : Launch → Launch) : (s.modLaunch p n f).served = s.served := rfl
@[simp] theorem State.modLaunch_quiesced (s : State) (p n : Nat) (f : Launch → Launch) : (s.modLaunch p n f).quiesced = s.quiesced := rfl
@[simp] theorem State.modLaunch_nextGang (s : State) (p n : Nat) (f : Launch → Launch) : (s.modLaunch p n f).nextGang = s.nextGang := rfl
@[simp] theorem State.modLaunch_agenda (s : State) (p n : Nat) (f : Launch → Launch) : (s.modLaunch p n f).agenda = s.agenda := rfl
@[simp] theorem State.modLaunch_tick (s : State) (p n : Nat) (f : Launch → Launch) : (s.modLaunch p n f).tick = s.tick := rfl
@[simp] theorem State.modLaunch_stamp (s : State) (p n : Nat) (f : Launch → Launch) : (s.modLaunch p n f).stamp = s.stamp := rfl
@[simp] theorem State.modLaunch_rels (s : State) (p n : Nat) (f : Launch → Launch) : (s.modLaunch p n f).rels = s.rels := rfl
@[simp] theorem State.modLaunch_hostView (s : State) (p n : Nat) (f : Launch → Launch) : (s.modLaunch p n f).hostView = s.hostView := rfl

@[simp] theorem State.setMem_me (s : State) (m : Mem) : (s.setMem m).me = s.me := rfl
@[simp] theorem State.setMem_rest (s : State) (m : Mem) : (s.setMem m).rest = s.rest := rfl
@[simp] theorem State.setMem_gangs (s : State) (m : Mem) : (s.setMem m).gangs = s.gangs := rfl
@[simp] theorem State.setMem_launches (s : State) (m : Mem) : (s.setMem m).launches = s.launches := rfl
@[simp] theorem State.setMem_parts (s : State) (m : Mem) : (s.setMem m).parts = s.parts := rfl
@[simp] theorem State.setMem_fns (s : State) (m : Mem) : (s.setMem m).fns = s.fns := rfl
@[simp] theorem State.setMem_cores (s : State) (m : Mem) : (s.setMem m).cores = s.cores := rfl
@[simp] theorem State.setMem_mem (s : State) (m : Mem) : (s.setMem m).mem = m := rfl
@[simp] theorem State.setMem_tiles (s : State) (m : Mem) : (s.setMem m).tiles = s.tiles := rfl
@[simp] theorem State.setMem_l1 (s : State) (m : Mem) : (s.setMem m).l1 = s.l1 := rfl
@[simp] theorem State.setMem_il1 (s : State) (m : Mem) : (s.setMem m).il1 = s.il1 := rfl
@[simp] theorem State.setMem_cached (s : State) (m : Mem) : (s.setMem m).cached = s.cached := rfl
@[simp] theorem State.setMem_migrations (s : State) (m : Mem) : (s.setMem m).migrations = s.migrations := rfl
@[simp] theorem State.setMem_coh (s : State) (m : Mem) : (s.setMem m).coh = s.coh := rfl
@[simp] theorem State.setMem_messages (s : State) (m : Mem) : (s.setMem m).messages = s.messages := rfl
@[simp] theorem State.setMem_delivered (s : State) (m : Mem) : (s.setMem m).delivered = s.delivered := rfl
@[simp] theorem State.setMem_unacked (s : State) (m : Mem) : (s.setMem m).unacked = s.unacked := rfl
@[simp] theorem State.setMem_sweeps (s : State) (m : Mem) : (s.setMem m).sweeps = s.sweeps := rfl
@[simp] theorem State.setMem_blockCounts (s : State) (m : Mem) : (s.setMem m).blockCounts = s.blockCounts := rfl
@[simp] theorem State.setMem_hbm (s : State) (m : Mem) : (s.setMem m).hbm = s.hbm := rfl
@[simp] theorem State.setMem_ports (s : State) (m : Mem) : (s.setMem m).ports = s.ports := rfl
@[simp] theorem State.setMem_zal (s : State) (m : Mem) : (s.setMem m).zal = s.zal := rfl
@[simp] theorem State.setMem_fwd (s : State) (m : Mem) : (s.setMem m).fwd = s.fwd := rfl
@[simp] theorem State.setMem_module (s : State) (m : Mem) : (s.setMem m).module = s.module := rfl
@[simp] theorem State.setMem_served (s : State) (m : Mem) : (s.setMem m).served = s.served := rfl
@[simp] theorem State.setMem_quiesced (s : State) (m : Mem) : (s.setMem m).quiesced = s.quiesced := rfl
@[simp] theorem State.setMem_nextGang (s : State) (m : Mem) : (s.setMem m).nextGang = s.nextGang := rfl
@[simp] theorem State.setMem_agenda (s : State) (m : Mem) : (s.setMem m).agenda = s.agenda := rfl
@[simp] theorem State.setMem_tick (s : State) (m : Mem) : (s.setMem m).tick = s.tick := rfl
@[simp] theorem State.setMem_stamp (s : State) (m : Mem) : (s.setMem m).stamp = s.stamp := rfl
@[simp] theorem State.setMem_rels (s : State) (m : Mem) : (s.setMem m).rels = s.rels := rfl
@[simp] theorem State.setMem_hostView (s : State) (m : Mem) : (s.setMem m).hostView = s.hostView := rfl

@[simp] theorem State.modGroup_gangs (s : State) (k : Nat) (f : Group → Group) : (s.modGroup k f).gangs = s.gangs := by
  unfold State.modGroup; split <;> rfl
@[simp] theorem State.modGroup_launches (s : State) (k : Nat) (f : Group → Group) : (s.modGroup k f).launches = s.launches := by
  unfold State.modGroup; split <;> rfl
@[simp] theorem State.modGroup_parts (s : State) (k : Nat) (f : Group → Group) : (s.modGroup k f).parts = s.parts := by
  unfold State.modGroup; split <;> rfl
@[simp] theorem State.modGroup_fns (s : State) (k : Nat) (f : Group → Group) : (s.modGroup k f).fns = s.fns := by
  unfold State.modGroup; split <;> rfl
@[simp] theorem State.modGroup_cores (s : State) (k : Nat) (f : Group → Group) : (s.modGroup k f).cores = s.cores := by
  unfold State.modGroup; split <;> rfl
@[simp] theorem State.modGroup_mem (s : State) (k : Nat) (f : Group → Group) : (s.modGroup k f).mem = s.mem := by
  unfold State.modGroup; split <;> rfl
@[simp] theorem State.modGroup_tiles (s : State) (k : Nat) (f : Group → Group) : (s.modGroup k f).tiles = s.tiles := by
  unfold State.modGroup; split <;> rfl
@[simp] theorem State.modGroup_l1 (s : State) (k : Nat) (f : Group → Group) : (s.modGroup k f).l1 = s.l1 := by
  unfold State.modGroup; split <;> rfl
@[simp] theorem State.modGroup_il1 (s : State) (k : Nat) (f : Group → Group) : (s.modGroup k f).il1 = s.il1 := by
  unfold State.modGroup; split <;> rfl
@[simp] theorem State.modGroup_cached (s : State) (k : Nat) (f : Group → Group) : (s.modGroup k f).cached = s.cached := by
  unfold State.modGroup; split <;> rfl
@[simp] theorem State.modGroup_migrations (s : State) (k : Nat) (f : Group → Group) : (s.modGroup k f).migrations = s.migrations := by
  unfold State.modGroup; split <;> rfl
@[simp] theorem State.modGroup_coh (s : State) (k : Nat) (f : Group → Group) : (s.modGroup k f).coh = s.coh := by
  unfold State.modGroup; split <;> rfl
@[simp] theorem State.modGroup_messages (s : State) (k : Nat) (f : Group → Group) : (s.modGroup k f).messages = s.messages := by
  unfold State.modGroup; split <;> rfl
@[simp] theorem State.modGroup_delivered (s : State) (k : Nat) (f : Group → Group) : (s.modGroup k f).delivered = s.delivered := by
  unfold State.modGroup; split <;> rfl
@[simp] theorem State.modGroup_unacked (s : State) (k : Nat) (f : Group → Group) : (s.modGroup k f).unacked = s.unacked := by
  unfold State.modGroup; split <;> rfl
@[simp] theorem State.modGroup_sweeps (s : State) (k : Nat) (f : Group → Group) : (s.modGroup k f).sweeps = s.sweeps := by
  unfold State.modGroup; split <;> rfl
@[simp] theorem State.modGroup_blockCounts (s : State) (k : Nat) (f : Group → Group) : (s.modGroup k f).blockCounts = s.blockCounts := by
  unfold State.modGroup; split <;> rfl
@[simp] theorem State.modGroup_hbm (s : State) (k : Nat) (f : Group → Group) : (s.modGroup k f).hbm = s.hbm := by
  unfold State.modGroup; split <;> rfl
@[simp] theorem State.modGroup_ports (s : State) (k : Nat) (f : Group → Group) : (s.modGroup k f).ports = s.ports := by
  unfold State.modGroup; split <;> rfl
@[simp] theorem State.modGroup_zal (s : State) (k : Nat) (f : Group → Group) : (s.modGroup k f).zal = s.zal := by
  unfold State.modGroup; split <;> rfl
@[simp] theorem State.modGroup_fwd (s : State) (k : Nat) (f : Group → Group) : (s.modGroup k f).fwd = s.fwd := by
  unfold State.modGroup; split <;> rfl
@[simp] theorem State.modGroup_module (s : State) (k : Nat) (f : Group → Group) : (s.modGroup k f).module = s.module := by
  unfold State.modGroup; split <;> rfl
@[simp] theorem State.modGroup_served (s : State) (k : Nat) (f : Group → Group) : (s.modGroup k f).served = s.served := by
  unfold State.modGroup; split <;> rfl
@[simp] theorem State.modGroup_quiesced (s : State) (k : Nat) (f : Group → Group) : (s.modGroup k f).quiesced = s.quiesced := by
  unfold State.modGroup; split <;> rfl
@[simp] theorem State.modGroup_nextGang (s : State) (k : Nat) (f : Group → Group) : (s.modGroup k f).nextGang = s.nextGang := by
  unfold State.modGroup; split <;> rfl
@[simp] theorem State.modGroup_agenda (s : State) (k : Nat) (f : Group → Group) : (s.modGroup k f).agenda = s.agenda := by
  unfold State.modGroup; split <;> rfl
@[simp] theorem State.modGroup_tick (s : State) (k : Nat) (f : Group → Group) : (s.modGroup k f).tick = s.tick := by
  unfold State.modGroup; split <;> rfl
@[simp] theorem State.modGroup_stamp (s : State) (k : Nat) (f : Group → Group) : (s.modGroup k f).stamp = s.stamp := by
  unfold State.modGroup; split <;> rfl
@[simp] theorem State.modGroup_rels (s : State) (k : Nat) (f : Group → Group) : (s.modGroup k f).rels = s.rels := by
  unfold State.modGroup; split <;> rfl
@[simp] theorem State.modGroup_hostView (s : State) (k : Nat) (f : Group → Group) : (s.modGroup k f).hostView = s.hostView := by
  unfold State.modGroup; split <;> rfl

/-- A change of the group whose turn it is, by its own key. -/
@[simp] theorem State.modGroup_self (s : State) (f : Group → Group) : s.modGroup s.me.key f = s.modMe f := by
  simp [State.modGroup, State.modMe]

@[simp] theorem State.modMe_modMe (s : State) (f g : Group → Group) : (s.modMe f).modMe g = s.modMe fun x => g (f x) := rfl

/-! ### Updates of a group -/

@[simp] theorem Group.advance_key (g : Group) (cs : List Crumb) : (g.advance cs).key = g.key := rfl
@[simp] theorem Group.advance_gang (g : Group) (cs : List Crumb) : (g.advance cs).gang = g.gang := rfl
@[simp] theorem Group.advance_gid (g : Group) (cs : List Crumb) : (g.advance cs).gid = g.gid := rfl
@[simp] theorem Group.advance_role (g : Group) (cs : List Crumb) : (g.advance cs).role = g.role := rfl
@[simp] theorem Group.advance_seat (g : Group) (cs : List Crumb) :
    (g.advance cs).seat = { g.seat with loaded := g.seat.loaded && !g.seat.marked } := rfl
@[simp] theorem Group.advance_status (g : Group) (cs : List Crumb) : (g.advance cs).status = g.status := rfl
@[simp] theorem Group.advance_regs (g : Group) (cs : List Crumb) : (g.advance cs).regs = g.regs := rfl
@[simp] theorem Group.advance_at_ (g : Group) (cs : List Crumb) : (g.advance cs).at_ = { g.at_ with pc := g.at_.pc + 8, fresh := false } := rfl
@[simp] theorem Group.advance_hist (g : Group) (cs : List Crumb) : (g.advance cs).hist = { g.hist with ic := g.hist.ic + 1, crumbs := cs.reverse ++ g.hist.crumbs } := rfl
@[simp] theorem Group.advance_marks (g : Group) (cs : List Crumb) : (g.advance cs).marks = { g.marks with skipBrk := false } := rfl
@[simp] theorem Group.advance_fpflags (g : Group) (cs : List Crumb) : (g.advance cs).fpflags = g.fpflags := rfl
@[simp] theorem Group.advance_pot (g : Group) (cs : List Crumb) : (g.advance cs).pot = g.pot := rfl
@[simp] theorem Group.advance_sb (g : Group) (cs : List Crumb) : (g.advance cs).sb = g.sb := rfl
@[simp] theorem Group.advance_awaited (g : Group) (cs : List Crumb) : (g.advance cs).awaited = g.awaited := rfl
@[simp] theorem Group.advance_unwaited (g : Group) (cs : List Crumb) : (g.advance cs).unwaited = g.unwaited := rfl
@[simp] theorem Group.advance_acks (g : Group) (cs : List Crumb) : (g.advance cs).acks = g.acks := rfl
@[simp] theorem Group.advance_bars (g : Group) (cs : List Crumb) : (g.advance cs).bars = g.bars := rfl
@[simp] theorem Group.advance_mtarget (g : Group) (cs : List Crumb) : (g.advance cs).mtarget = g.mtarget := rfl
@[simp] theorem Group.advance_qi (g : Group) (cs : List Crumb) : (g.advance cs).qi = g.qi + 1 := rfl
@[simp] theorem Group.advance_growRank (g : Group) (cs : List Crumb) : (g.advance cs).growRank = g.growRank := rfl
@[simp] theorem Group.advance_growNeed (g : Group) (cs : List Crumb) : (g.advance cs).growNeed = g.growNeed := rfl
@[simp] theorem Group.advance_arrived (g : Group) (cs : List Crumb) : (g.advance cs).arrived = g.arrived := rfl
@[simp] theorem Group.advance_baseQuota (g : Group) (cs : List Crumb) : (g.advance cs).baseQuota = g.baseQuota := rfl
@[simp] theorem Group.advance_bootCause (g : Group) (cs : List Crumb) : (g.advance cs).bootCause = g.bootCause := rfl
@[simp] theorem Group.advance_drops (g : Group) (cs : List Crumb) : (g.advance cs).drops = g.drops := rfl
@[simp] theorem Group.advance_view (g : Group) (cs : List Crumb) : (g.advance cs).view = g.view := rfl
@[simp] theorem Group.advance_revoking (g : Group) (cs : List Crumb) : (g.advance cs).revoking = g.revoking := rfl
@[simp] theorem Group.advance_hostLoad (g : Group) (cs : List Crumb) : (g.advance cs).hostLoad = none := rfl

@[simp] theorem Group.settle_key (g : Group) (mark : Bool) (new : List Awaited) : (g.settle mark new).key = g.key := rfl
@[simp] theorem Group.settle_gang (g : Group) (mark : Bool) (new : List Awaited) : (g.settle mark new).gang = g.gang := rfl
@[simp] theorem Group.settle_gid (g : Group) (mark : Bool) (new : List Awaited) : (g.settle mark new).gid = g.gid := rfl
@[simp] theorem Group.settle_role (g : Group) (mark : Bool) (new : List Awaited) : (g.settle mark new).role = g.role := rfl
@[simp] theorem Group.settle_seat (g : Group) (mark : Bool) (new : List Awaited) : (g.settle mark new).seat = { g.seat with marked := mark } := rfl
@[simp] theorem Group.settle_status (g : Group) (mark : Bool) (new : List Awaited) : (g.settle mark new).status = g.status := rfl
@[simp] theorem Group.settle_regs (g : Group) (mark : Bool) (new : List Awaited) : (g.settle mark new).regs = g.regs := rfl
@[simp] theorem Group.settle_at_ (g : Group) (mark : Bool) (new : List Awaited) : (g.settle mark new).at_ = g.at_ := rfl
@[simp] theorem Group.settle_hist (g : Group) (mark : Bool) (new : List Awaited) : (g.settle mark new).hist = g.hist := rfl
@[simp] theorem Group.settle_marks (g : Group) (mark : Bool) (new : List Awaited) : (g.settle mark new).marks = g.marks := rfl
@[simp] theorem Group.settle_fpflags (g : Group) (mark : Bool) (new : List Awaited) : (g.settle mark new).fpflags = g.fpflags := rfl
@[simp] theorem Group.settle_pot (g : Group) (mark : Bool) (new : List Awaited) : (g.settle mark new).pot = g.pot := rfl
@[simp] theorem Group.settle_sb (g : Group) (mark : Bool) (new : List Awaited) : (g.settle mark new).sb = g.sb := rfl
@[simp] theorem Group.settle_awaited (g : Group) (mark : Bool) (new : List Awaited) : (g.settle mark new).awaited = if mark then [] else new ++ g.awaited := rfl
@[simp] theorem Group.settle_unwaited (g : Group) (mark : Bool) (new : List Awaited) : (g.settle mark new).unwaited = g.unwaited := rfl
@[simp] theorem Group.settle_acks (g : Group) (mark : Bool) (new : List Awaited) : (g.settle mark new).acks = g.acks := rfl
@[simp] theorem Group.settle_bars (g : Group) (mark : Bool) (new : List Awaited) : (g.settle mark new).bars = g.bars := rfl
@[simp] theorem Group.settle_mtarget (g : Group) (mark : Bool) (new : List Awaited) : (g.settle mark new).mtarget = g.mtarget := rfl
@[simp] theorem Group.settle_qi (g : Group) (mark : Bool) (new : List Awaited) : (g.settle mark new).qi = g.qi := rfl
@[simp] theorem Group.settle_growRank (g : Group) (mark : Bool) (new : List Awaited) : (g.settle mark new).growRank = g.growRank := rfl
@[simp] theorem Group.settle_growNeed (g : Group) (mark : Bool) (new : List Awaited) : (g.settle mark new).growNeed = g.growNeed := rfl
@[simp] theorem Group.settle_arrived (g : Group) (mark : Bool) (new : List Awaited) : (g.settle mark new).arrived = g.arrived := rfl
@[simp] theorem Group.settle_baseQuota (g : Group) (mark : Bool) (new : List Awaited) : (g.settle mark new).baseQuota = g.baseQuota := rfl
@[simp] theorem Group.settle_bootCause (g : Group) (mark : Bool) (new : List Awaited) : (g.settle mark new).bootCause = g.bootCause := rfl
@[simp] theorem Group.settle_drops (g : Group) (mark : Bool) (new : List Awaited) : (g.settle mark new).drops = g.drops := rfl
@[simp] theorem Group.settle_view (g : Group) (mark : Bool) (new : List Awaited) : (g.settle mark new).view = g.view := rfl
@[simp] theorem Group.settle_revoking (g : Group) (mark : Bool) (new : List Awaited) : (g.settle mark new).revoking = g.revoking := rfl
@[simp] theorem Group.settle_hostLoad (g : Group) (mark : Bool) (new : List Awaited) : (g.settle mark new).hostLoad = g.hostLoad := rfl

@[simp] theorem Group.commit_key (g : Group) : (g.commit).key = g.key := rfl
@[simp] theorem Group.commit_gang (g : Group) : (g.commit).gang = g.gang := rfl
@[simp] theorem Group.commit_gid (g : Group) : (g.commit).gid = g.gid := rfl
@[simp] theorem Group.commit_role (g : Group) : (g.commit).role = g.role := rfl
@[simp] theorem Group.commit_seat (g : Group) : (g.commit).seat = g.seat := rfl
@[simp] theorem Group.commit_status (g : Group) : (g.commit).status = g.status := rfl
@[simp] theorem Group.commit_regs (g : Group) : (g.commit).regs = g.regs := rfl
@[simp] theorem Group.commit_at_ (g : Group) : (g.commit).at_ = g.at_ := rfl
@[simp] theorem Group.commit_hist (g : Group) : (g.commit).hist = { g.hist with crumbs := [], hz := g.hist.ic } := rfl
@[simp] theorem Group.commit_marks (g : Group) : (g.commit).marks = g.marks := rfl
@[simp] theorem Group.commit_fpflags (g : Group) : (g.commit).fpflags = g.fpflags := rfl
@[simp] theorem Group.commit_pot (g : Group) : (g.commit).pot = g.pot := rfl
@[simp] theorem Group.commit_sb (g : Group) : (g.commit).sb = g.sb := rfl
@[simp] theorem Group.commit_awaited (g : Group) : (g.commit).awaited = g.awaited := rfl
@[simp] theorem Group.commit_unwaited (g : Group) : (g.commit).unwaited = g.unwaited := rfl
@[simp] theorem Group.commit_acks (g : Group) : (g.commit).acks = g.acks := rfl
@[simp] theorem Group.commit_bars (g : Group) : (g.commit).bars = g.bars := rfl
@[simp] theorem Group.commit_mtarget (g : Group) : (g.commit).mtarget = g.mtarget := rfl
@[simp] theorem Group.commit_qi (g : Group) : (g.commit).qi = g.qi := rfl
@[simp] theorem Group.commit_growRank (g : Group) : (g.commit).growRank = g.growRank := rfl
@[simp] theorem Group.commit_growNeed (g : Group) : (g.commit).growNeed = g.growNeed := rfl
@[simp] theorem Group.commit_arrived (g : Group) : (g.commit).arrived = g.arrived := rfl
@[simp] theorem Group.commit_baseQuota (g : Group) : (g.commit).baseQuota = g.baseQuota := rfl
@[simp] theorem Group.commit_bootCause (g : Group) : (g.commit).bootCause = g.bootCause := rfl
@[simp] theorem Group.commit_drops (g : Group) : (g.commit).drops = g.drops := rfl
@[simp] theorem Group.commit_view (g : Group) : (g.commit).view = g.view := rfl
@[simp] theorem Group.commit_revoking (g : Group) : (g.commit).revoking = g.revoking := rfl
@[simp] theorem Group.commit_hostLoad (g : Group) : (g.commit).hostLoad = g.hostLoad := rfl

@[simp] theorem Group.horizon_key (g : Group) : (g.horizon).key = g.key := rfl
@[simp] theorem Group.horizon_gang (g : Group) : (g.horizon).gang = g.gang := rfl
@[simp] theorem Group.horizon_gid (g : Group) : (g.horizon).gid = g.gid := rfl
@[simp] theorem Group.horizon_role (g : Group) : (g.horizon).role = g.role := rfl
@[simp] theorem Group.horizon_seat (g : Group) : (g.horizon).seat = g.seat := rfl
@[simp] theorem Group.horizon_status (g : Group) : (g.horizon).status = g.status := rfl
@[simp] theorem Group.horizon_regs (g : Group) : (g.horizon).regs = g.regs := rfl
@[simp] theorem Group.horizon_at_ (g : Group) : (g.horizon).at_ = g.at_ := rfl
@[simp] theorem Group.horizon_hist (g : Group) : (g.horizon).hist = { g.hist with crumbs := [], hz := g.hist.ic } := rfl
@[simp] theorem Group.horizon_marks (g : Group) : (g.horizon).marks = g.marks := rfl
@[simp] theorem Group.horizon_fpflags (g : Group) : (g.horizon).fpflags = g.fpflags := rfl
@[simp] theorem Group.horizon_pot (g : Group) : (g.horizon).pot = g.pot := rfl
@[simp] theorem Group.horizon_sb (g : Group) : (g.horizon).sb = g.sb := rfl
@[simp] theorem Group.horizon_awaited (g : Group) : (g.horizon).awaited = g.awaited := rfl
@[simp] theorem Group.horizon_unwaited (g : Group) : (g.horizon).unwaited = g.unwaited := rfl
@[simp] theorem Group.horizon_acks (g : Group) : (g.horizon).acks = g.acks := rfl
@[simp] theorem Group.horizon_bars (g : Group) : (g.horizon).bars = g.bars := rfl
@[simp] theorem Group.horizon_mtarget (g : Group) : (g.horizon).mtarget = g.mtarget := rfl
@[simp] theorem Group.horizon_qi (g : Group) : (g.horizon).qi = g.qi := rfl
@[simp] theorem Group.horizon_growRank (g : Group) : (g.horizon).growRank = g.growRank := rfl
@[simp] theorem Group.horizon_growNeed (g : Group) : (g.horizon).growNeed = g.growNeed := rfl
@[simp] theorem Group.horizon_arrived (g : Group) : (g.horizon).arrived = g.arrived := rfl
@[simp] theorem Group.horizon_baseQuota (g : Group) : (g.horizon).baseQuota = g.baseQuota := rfl
@[simp] theorem Group.horizon_bootCause (g : Group) : (g.horizon).bootCause = g.bootCause := rfl
@[simp] theorem Group.horizon_drops (g : Group) : (g.horizon).drops = [] := rfl
@[simp] theorem Group.horizon_view (g : Group) : (g.horizon).view = g.view := rfl
@[simp] theorem Group.horizon_revoking (g : Group) : (g.horizon).revoking = g.revoking := rfl
@[simp] theorem Group.horizon_hostLoad (g : Group) : (g.horizon).hostLoad = g.hostLoad := rfl

@[simp] theorem Group.setS_key (g : Group) (i : Nat) (v : SVal) : (g.setS i v).key = g.key := rfl
@[simp] theorem Group.setS_gang (g : Group) (i : Nat) (v : SVal) : (g.setS i v).gang = g.gang := rfl
@[simp] theorem Group.setS_gid (g : Group) (i : Nat) (v : SVal) : (g.setS i v).gid = g.gid := rfl
@[simp] theorem Group.setS_role (g : Group) (i : Nat) (v : SVal) : (g.setS i v).role = g.role := rfl
@[simp] theorem Group.setS_seat (g : Group) (i : Nat) (v : SVal) : (g.setS i v).seat = g.seat := rfl
@[simp] theorem Group.setS_status (g : Group) (i : Nat) (v : SVal) : (g.setS i v).status = g.status := rfl
@[simp] theorem Group.setS_regs (g : Group) (i : Nat) (v : SVal) : (g.setS i v).regs = { g.regs with s := Tab.set {} g.regs.s i v } := rfl
@[simp] theorem Group.setS_at_ (g : Group) (i : Nat) (v : SVal) : (g.setS i v).at_ = g.at_ := rfl
@[simp] theorem Group.setS_hist (g : Group) (i : Nat) (v : SVal) : (g.setS i v).hist = g.hist := rfl
@[simp] theorem Group.setS_marks (g : Group) (i : Nat) (v : SVal) : (g.setS i v).marks = g.marks := rfl
@[simp] theorem Group.setS_fpflags (g : Group) (i : Nat) (v : SVal) : (g.setS i v).fpflags = g.fpflags := rfl
@[simp] theorem Group.setS_pot (g : Group) (i : Nat) (v : SVal) : (g.setS i v).pot = g.pot := rfl
@[simp] theorem Group.setS_sb (g : Group) (i : Nat) (v : SVal) : (g.setS i v).sb = g.sb := rfl
@[simp] theorem Group.setS_awaited (g : Group) (i : Nat) (v : SVal) : (g.setS i v).awaited = g.awaited := rfl
@[simp] theorem Group.setS_unwaited (g : Group) (i : Nat) (v : SVal) : (g.setS i v).unwaited = g.unwaited := rfl
@[simp] theorem Group.setS_acks (g : Group) (i : Nat) (v : SVal) : (g.setS i v).acks = g.acks := rfl
@[simp] theorem Group.setS_bars (g : Group) (i : Nat) (v : SVal) : (g.setS i v).bars = g.bars := rfl
@[simp] theorem Group.setS_mtarget (g : Group) (i : Nat) (v : SVal) : (g.setS i v).mtarget = g.mtarget := rfl
@[simp] theorem Group.setS_qi (g : Group) (i : Nat) (v : SVal) : (g.setS i v).qi = g.qi := rfl
@[simp] theorem Group.setS_growRank (g : Group) (i : Nat) (v : SVal) : (g.setS i v).growRank = g.growRank := rfl
@[simp] theorem Group.setS_growNeed (g : Group) (i : Nat) (v : SVal) : (g.setS i v).growNeed = g.growNeed := rfl
@[simp] theorem Group.setS_arrived (g : Group) (i : Nat) (v : SVal) : (g.setS i v).arrived = g.arrived := rfl
@[simp] theorem Group.setS_baseQuota (g : Group) (i : Nat) (v : SVal) : (g.setS i v).baseQuota = g.baseQuota := rfl
@[simp] theorem Group.setS_bootCause (g : Group) (i : Nat) (v : SVal) : (g.setS i v).bootCause = g.bootCause := rfl
@[simp] theorem Group.setS_drops (g : Group) (i : Nat) (v : SVal) : (g.setS i v).drops = g.drops := rfl
@[simp] theorem Group.setS_view (g : Group) (i : Nat) (v : SVal) : (g.setS i v).view = g.view := rfl
@[simp] theorem Group.setS_revoking (g : Group) (i : Nat) (v : SVal) : (g.setS i v).revoking = g.revoking := rfl
@[simp] theorem Group.setS_hostLoad (g : Group) (i : Nat) (v : SVal) : (g.setS i v).hostLoad = g.hostLoad := rfl

@[simp] theorem Group.setV_key (g : Group) (r l : Nat) (v : LVal) : (g.setV r l v).key = g.key := rfl
@[simp] theorem Group.setV_gang (g : Group) (r l : Nat) (v : LVal) : (g.setV r l v).gang = g.gang := rfl
@[simp] theorem Group.setV_gid (g : Group) (r l : Nat) (v : LVal) : (g.setV r l v).gid = g.gid := rfl
@[simp] theorem Group.setV_role (g : Group) (r l : Nat) (v : LVal) : (g.setV r l v).role = g.role := rfl
@[simp] theorem Group.setV_seat (g : Group) (r l : Nat) (v : LVal) : (g.setV r l v).seat = g.seat := rfl
@[simp] theorem Group.setV_status (g : Group) (r l : Nat) (v : LVal) : (g.setV r l v).status = g.status := rfl
@[simp] theorem Group.setV_regs (g : Group) (r l : Nat) (v : LVal) : (g.setV r l v).regs = { g.regs with v := Tab.set {} g.regs.v (32 * r + l) v } := rfl
@[simp] theorem Group.setV_at_ (g : Group) (r l : Nat) (v : LVal) : (g.setV r l v).at_ = g.at_ := rfl
@[simp] theorem Group.setV_hist (g : Group) (r l : Nat) (v : LVal) : (g.setV r l v).hist = g.hist := rfl
@[simp] theorem Group.setV_marks (g : Group) (r l : Nat) (v : LVal) : (g.setV r l v).marks = g.marks := rfl
@[simp] theorem Group.setV_fpflags (g : Group) (r l : Nat) (v : LVal) : (g.setV r l v).fpflags = g.fpflags := rfl
@[simp] theorem Group.setV_pot (g : Group) (r l : Nat) (v : LVal) : (g.setV r l v).pot = g.pot := rfl
@[simp] theorem Group.setV_sb (g : Group) (r l : Nat) (v : LVal) : (g.setV r l v).sb = g.sb := rfl
@[simp] theorem Group.setV_awaited (g : Group) (r l : Nat) (v : LVal) : (g.setV r l v).awaited = g.awaited := rfl
@[simp] theorem Group.setV_unwaited (g : Group) (r l : Nat) (v : LVal) : (g.setV r l v).unwaited = g.unwaited := rfl
@[simp] theorem Group.setV_acks (g : Group) (r l : Nat) (v : LVal) : (g.setV r l v).acks = g.acks := rfl
@[simp] theorem Group.setV_bars (g : Group) (r l : Nat) (v : LVal) : (g.setV r l v).bars = g.bars := rfl
@[simp] theorem Group.setV_mtarget (g : Group) (r l : Nat) (v : LVal) : (g.setV r l v).mtarget = g.mtarget := rfl
@[simp] theorem Group.setV_qi (g : Group) (r l : Nat) (v : LVal) : (g.setV r l v).qi = g.qi := rfl
@[simp] theorem Group.setV_growRank (g : Group) (r l : Nat) (v : LVal) : (g.setV r l v).growRank = g.growRank := rfl
@[simp] theorem Group.setV_growNeed (g : Group) (r l : Nat) (v : LVal) : (g.setV r l v).growNeed = g.growNeed := rfl
@[simp] theorem Group.setV_arrived (g : Group) (r l : Nat) (v : LVal) : (g.setV r l v).arrived = g.arrived := rfl
@[simp] theorem Group.setV_baseQuota (g : Group) (r l : Nat) (v : LVal) : (g.setV r l v).baseQuota = g.baseQuota := rfl
@[simp] theorem Group.setV_bootCause (g : Group) (r l : Nat) (v : LVal) : (g.setV r l v).bootCause = g.bootCause := rfl
@[simp] theorem Group.setV_drops (g : Group) (r l : Nat) (v : LVal) : (g.setV r l v).drops = g.drops := rfl
@[simp] theorem Group.setV_view (g : Group) (r l : Nat) (v : LVal) : (g.setV r l v).view = g.view := rfl
@[simp] theorem Group.setV_revoking (g : Group) (r l : Nat) (v : LVal) : (g.setV r l v).revoking = g.revoking := rfl
@[simp] theorem Group.setV_hostLoad (g : Group) (r l : Nat) (v : LVal) : (g.setV r l v).hostLoad = g.hostLoad := rfl

/-- Writing lanes changes the vector registers alone. -/
theorem Group.setLanes_eq (r : Nat) : (vs : List (Nat × LVal)) → (g : Group) →
    ∃ v, g.setLanes r vs = { g with regs := { g.regs with v } }
  | [], g => ⟨g.regs.v, rfl⟩
  | (l, x) :: t, g => by
    obtain ⟨v, hv⟩ := Group.setLanes_eq r t (g.setV r l x)
    exact ⟨v, by simp only [Group.setLanes, hv]; rfl⟩

/-- A write of a scalar destination changes the scalar registers of the current group alone. -/
theorem putS_eq (s : State) (d : Reg) (x : SVal) :
    ∃ r, putS s d x = s.modMe fun g => { g with regs := { g.regs with s := r } } := by
  cases d <;> first | exact ⟨s.me.regs.s, rfl⟩ | exact ⟨_, rfl⟩

/-- A write of a vector destination changes the vector registers of the current group alone. -/
theorem putV_eq (s : State) (d : Reg) (vs : List (Nat × LVal)) :
    ∃ r, putV s d vs = s.modMe fun g => { g with regs := { g.regs with v := r } } := by
  cases d with
  | v i => obtain ⟨r, hr⟩ := Group.setLanes_eq i.val vs s.me; exact ⟨r, by simp [putV, State.modMe, hr]⟩
  | _ => exact ⟨s.me.regs.v, rfl⟩

end Sys2Proof.Machine
end

