-- ==== Sys2Proof/Laws/Issue.lean ====
section
/-! SUPPORT. Everything that issuing an instruction can do, said once: it always answers a next state, and an
instruction that meets no check completes. -/

namespace Sys2Proof.Machine

/-- Every path of `issue` is a next state. -/
theorem issue_goes (f : Info) (p : Pre) (eff : State → State) (s : State) : Goes (issue f p eff s) := by
  unfold issue Goes
  split <;> exact ⟨_, rfl⟩

/-- The three things that `issue` can do: trap, wait, or complete. -/
theorem issue_cases {f : Info} {p : Pre} {eff : State → State} {s t : State} (h : issue f p eff s = .next t) :
    (∃ e, stopOf f p s = some (.inl e) ∧
      t = trapMe s (if e.code = 4 then e else { e with lanes := guardLanes s f.h f.vec })) ∨
    (∃ w, stopOf f p s = some (.inr w) ∧ t = if holds p s then s
      else if p.wait == some w || w == .boundary then noteWait p (waitMe s w) else waitMe s w) ∨
    (stopOf f p s = none ∧ t = if holds p s then s else complete f p eff s) := by
  unfold issue at h
  split at h <;> simp_all

theorem issue_of_none {f : Info} {p : Pre} {eff : State → State} {s : State} (h : stopOf f p s = none)
    (hold : holds p s = false) : issue f p eff s = .next (complete f p eff s) := by
  simp [issue, h, hold]

/-- Outside a DET launch nothing holds an instruction but its own entry. -/
@[simp] theorem holds_free {p : Pre} {s : State} (h : s.inDet = false) : holds p s = p.hold := by simp [holds, h]

theorem quotaBad_of {s : State} {f : Info} (hq : f.quota = [])
    (h : underQuota s (f.h.gr :: f.reads ++ f.writes ++ f.names) = true) : quotaBad s f = false := by
  simp only [quotaBad, hq, List.append_nil, List.any_eq_false]
  intro r hr
  have := (List.all_eq_true.mp h) r hr
  cases r <;> simp_all

theorem guardedReg_of {s : State} {f : Info}
    (h : unguarded s (f.h.gr :: f.reads ++ f.writes ++ f.names) = true) : guardedReg s f = none := by
  simp only [guardedReg, List.find?_eq_none]
  intro r hr hx
  simp only [List.any_eq_true] at hx
  obtain ⟨x, hx, y, hy, hxy⟩ := hx
  simp only [beq_iff_eq] at hxy
  have h1 := (List.all_eq_true.mp ((List.all_eq_true.mp h) x hx)) y hy
  have h2 : (f.h.gr :: f.reads ++ f.writes ++ f.names).any (· == y) = true :=
    List.any_eq_true.mpr ⟨y, hxy ▸ hr, by simp⟩
  rw [h2] at h1
  exact absurd h1 (by simp)

theorem hazard_of {s : State} {f : Info} (hg : guardedReg s f = none)
    (h : unawaited s (f.h.gr :: f.reads ++ f.writes ++ f.names) (f.h.gr :: f.reads) = true) : hazard s f = false := by
  rw [unawaited, Bool.or_eq_true, Bool.and_eq_true] at h
  rcases h with h | ⟨hu, h⟩
  · simp only [Bool.not_eq_true'] at h; simp [hazard, h]
  · rw [hazard, hg]
    simp only [Option.isSome_none, Bool.false_or, Bool.and_eq_false_iff, Bool.or_eq_false_iff]
    right
    refine ⟨?_, ?_⟩
    · rw [List.any_eq_false]
      intro r hr hx
      simp only [List.any_eq_true] at hx
      obtain ⟨x, hx, y, hy, hyr⟩ := hx
      simp only [beq_iff_eq] at hyr
      have h1 := (List.all_eq_true.mp ((List.all_eq_true.mp hu) x hx)) y hy
      rw [List.any_eq_true.mpr ⟨r, hr, by simp [hyr]⟩] at h1
      exact absurd h1 (by simp)
    rw [List.any_eq_false]
    intro r hr hx
    rw [List.any_eq_true] at hx
    obtain ⟨x, hx, hxr⟩ := hx
    simp only [beq_iff_eq] at hxr
    have h1 := (List.all_eq_true.mp h) x hx
    have h2 : (f.h.gr :: f.reads).any (· == x.r) = true := List.any_eq_true.mpr ⟨r, hr, by simp [hxr]⟩
    rw [h2] at h1
    exact absurd h1 (by simp)

theorem room_of {s : State} {cs : List Crumb} (h : roomFor s cs = true) :
    (entryFull s.me || pushFull s.me cs) = false := by
  simp only [roomFor, Bool.and_eq_true, Bool.or_eq_true, Bool.not_eq_true', decide_eq_true_eq] at h
  obtain ⟨h1, h2⟩ := h
  simp only [Bool.or_eq_false_iff]
  constructor
  · simp only [entryFull, Bool.and_eq_false_iff]
    rcases h1 with h1 | h1
    · exact .inl h1
    · right; split <;> simp_all
  · simp only [pushFull, Bool.and_eq_false_iff, Bool.not_eq_false']
    rcases h2 with h2 | h2
    · exact .inl h2
    · right; simpa using h2

/-- What completes: a ready instruction of a calm state that finds nothing of its own. -/
theorem stopOf_none {f : Info} {p : Pre} {s : State} (hq : f.quota = [])
    (hr : Ready s f.roles (f.h.gr :: f.reads ++ f.writes ++ f.names) (f.h.gr :: f.reads) p.crumbs = true)
    (hc : s.me.marks.proof = false ∨ f.horizon = false) (hf : p.frame = none) (hi : p.illegal = false) (hp : p.poison = none)
    (ht : p.trap = none)
    (hd : s.inDet = false ∨ (p.foreign = false ∧ (p.blocking = false ∨ s.me.qi = 0))) (hw : p.wait = none) :
    stopOf f p s = none := by
  simp only [Ready, Bool.and_eq_true] at hr
  obtain ⟨⟨⟨⟨h1, h2⟩, h3⟩, h4⟩, h5⟩ := hr
  have hg := guardedReg_of h3
  have hz := hazard_of hg h4
  have hb := quotaBad_of hq h2
  have hm := room_of h5
  have hproof : (s.me.marks.proof && f.horizon) = false := by
    rcases hc with h | h <;> simp [h]
  have hforeign : (s.inDet && p.foreign) = false := by
    rcases hd with h | ⟨h, _⟩ <;> simp [h]
  have hblock : (s.inDet && p.blocking && (decide (s.me.qi ≠ 0) || p.wait.isSome)) = false := by
    rcases hd with h | ⟨_, h | h⟩
    · simp [h]
    · simp [h]
    · simp [h, hw]
  simp only [stopOf, hf, hi, h1, hb, hz, hg, hm, hp, ht, hproof, hforeign, hblock]
  rw [hw]
  simp

/-- Bytes of a die's copies that reach the homes change the memory and the count of writes alone. -/
theorem push_eq (c : DieCopy) (line : Nat) (s : State) : ∃ m k, c.push line s = { s with mem := m, stamp := k } := by
  unfold DieCopy.push
  split
  · exact ⟨s.mem, s.stamp, rfl⟩
  · exact ⟨_, _, rfl⟩

theorem pushDie_eq (s : State) (die : Nat) :
    ∃ m k h, pushDie s die = { s with mem := m, stamp := k, coh := h } := by
  suffices ∀ (l : List Contended) (f : State → Contended → State),
      (∀ t c, ∃ m k h, f t c = { t with mem := m, stamp := k, coh := h }) →
      ∀ t, ∃ m k h, l.foldl f t = { t with mem := m, stamp := k, coh := h } from
    this s.coh.contended _ (fun t c => by
      cases c.dies.find? (·.die == die) with
      | none => exact ⟨t.mem, t.stamp, t.coh, rfl⟩
      | some x => obtain ⟨m, k, e⟩ := push_eq x c.line t; exact ⟨m, k, _, by simp only [e]; rfl⟩) s
  intro l
  induction l with
  | nil => exact fun f _ t => ⟨t.mem, t.stamp, t.coh, rfl⟩
  | cons c l ih =>
    intro f hf t
    obtain ⟨m, k, h, e⟩ := hf t c
    obtain ⟨m', k', h', e'⟩ := ih f hf (f t c)
    exact ⟨m', k', h', by rw [List.foldl_cons, e', e]⟩

/-- A release changes the memory, the copies of the die and the record of the releases alone. -/
theorem releaseBy_eq (s : State) (g : Group) (scope : Nat) (ar : Bool) :
    ∃ m k h r, releaseBy s g scope ar = { s with mem := m, stamp := k, coh := h, rels := r } := by
  unfold releaseBy
  simp only
  split
  · obtain ⟨m, k, h, e⟩ := pushDie_eq s (dieOf g.seat.core); exact ⟨m, k, h, _, by simp only [e]; rfl⟩
  · exact ⟨s.mem, s.stamp, s.coh, _, rfl⟩

@[simp] theorem release_me (s : State) (sc : Scope) : (s.release sc).me = s.me := by
  obtain ⟨m, k, h, r, e⟩ := releaseBy_eq s s.me (scopeNum sc) false
  rw [State.release, e]

/-- Learning and acquiring change what the current group knows alone. -/
@[simp] theorem learn_me (s : State) (v : View) : (s.learn v).me = { s.me with view := s.me.view.join v } := rfl
@[simp] theorem see_me (s : State) (xs : List (Nat × Writer × Nat)) :
    ∃ v, (s.see xs).me = { s.me with view := v } := ⟨_, rfl⟩
@[simp] theorem acquire_me (s : State) (scope : Nat) (xs : List (Nat × Writer × Nat)) :
    (s.acquire scope xs).me = { s.me with view := s.me.view.taking (s.matched s.me.party scope xs) } := rfl

theorem fenceAr_eq (s : State) (sc : Scope) :
    ∃ m k h r v, s.fenceAr sc = { s with me := { s.me with view := v }, mem := m, stamp := k, coh := h, rels := r } := by
  have key : ∀ u : State, (∃ v, u = { s with me := { s.me with view := v } }) → ∃ m k h r v,
      releaseBy u u.me (scopeNum sc) true =
        { s with me := { s.me with view := v }, mem := m, stamp := k, coh := h, rels := r } := by
    rintro u ⟨v, rfl⟩
    obtain ⟨m, k, h, r, e⟩ := releaseBy_eq { s with me := { s.me with view := v } } { s.me with view := v } (scopeNum sc) true
    exact ⟨m, k, h, r, v, e⟩
  exact key _ ⟨_, rfl⟩

/-- A completed instruction that is no horizon, in a calm state: its effect, and the group settled. -/
theorem complete_plain {f : Info} {p : Pre} {eff : State → State} {s : State} (hh : f.horizon = false)
    (hdet : s.inDet = false)
    (hk : (eff (s.modMe (·.advance p.crumbs))).me.key = s.me.key)
    (hm : (eff (s.modMe (·.advance p.crumbs))).me.marks.step = false) :
    complete f p eff s =
      (eff (s.modMe (·.advance p.crumbs))).modMe (·.settle f.h.mark (awaitedOf s f.writes)) := by
  have e1 : ∀ g : State, g.me.key = s.me.key → ∀ k, g.modGroup s.me.key k = g.modMe k := by
    intro g h k; rw [← h]; exact State.modGroup_self g k
  simp only [complete, hh, hdet, quantumEnd, Bool.false_eq_true, if_false]
  rw [e1 _ hk]
  simp [stepPark, State.group?, State.groups, hk, hm]

/-- A completed horizon in a calm state. -/
theorem complete_horizon {f : Info} {p : Pre} {eff : State → State} {s : State} (hh : f.horizon = true)
    (hdet : s.inDet = false)
    (hk : (eff (s.modMe (·.advance p.crumbs))).me.key = s.me.key)
    (hm : (eff (s.modMe (·.advance p.crumbs))).me.marks.step = false) :
    complete f p eff s =
      (eff (s.modMe (·.advance p.crumbs))).modMe fun g => g.horizon.settle f.h.mark (awaitedOf s f.writes) := by
  have e1 : ∀ g : State, g.me.key = s.me.key → ∀ k, g.modGroup s.me.key k = g.modMe k := by
    intro g h k; rw [← h]; exact State.modGroup_self g k
  simp only [complete, hh, hdet, quantumEnd, Bool.false_eq_true, if_false, if_true]
  rw [e1 _ hk, e1 _ (by simp [hk])]
  simp [stepPark, State.group?, State.groups, hk, hm]

end Sys2Proof.Machine
end

