-- ==== Sys2Proof/Laws/Tables.lean ====
section
/-! SUPPORT. The laws of sparse tables and of the module's memories: a read after a write, and the canonical form. -/

namespace Sys2Proof.Machine

namespace Tab

variable {α : Type}

theorem get_erase_same (d : α) (m : List (Nat × α)) (k : Nat) : get d (erase k m) k = d := by
  induction m with
  | nil => rfl
  | cons x t ih =>
    obtain ⟨k', v⟩ := x
    by_cases h : k = k' <;> simp [erase, get, h, ih]
    rw [← h]; exact ih

theorem get_erase_other (d : α) (m : List (Nat × α)) {k j : Nat} (h : j ≠ k) : get d (erase k m) j = get d m j := by
  induction m with
  | nil => rfl
  | cons x t ih =>
    obtain ⟨k', v⟩ := x
    by_cases hk : k = k'
    · subst hk; simp [erase, get, h, ih]
    · simp [erase, get, hk, ih]

theorem erase_absent (m : List (Nat × α)) (k : Nat) : ∀ x ∈ erase k m, x.1 ≠ k := by
  induction m with
  | nil => simp [erase]
  | cons x t ih =>
    obtain ⟨k', v⟩ := x
    by_cases hk : k = k'
    · subst hk
      intro y hy
      exact ih y (by simpa [erase] using hy)
    · intro y hy
      simp only [erase, hk, if_false, List.mem_cons] at hy
      rcases hy with rfl | hy
      · exact fun e => hk e.symm
      · exact ih y hy

theorem get_insert_same (d : α) (m : List (Nat × α)) (k : Nat) (v : α) (h : ∀ x ∈ m, x.1 ≠ k) :
    get d (insert k v m) k = v := by
  induction m with
  | nil => simp [insert, get]
  | cons x t ih =>
    obtain ⟨k', v'⟩ := x
    have hk : k ≠ k' := fun e => h (k', v') (by simp) e.symm
    by_cases hl : k < k'
    · simp [insert, get, hl]
    · simp [insert, get, hl, hk, ih fun x hx => h x (by simp [hx])]

theorem get_insert_other (d : α) (m : List (Nat × α)) {k j : Nat} (v : α) (h : j ≠ k) :
    get d (insert k v m) j = get d m j := by
  induction m with
  | nil => simp [insert, get, h]
  | cons x t ih =>
    obtain ⟨k', v'⟩ := x
    by_cases hl : k < k' <;> simp [insert, get, hl, h, ih]

variable [DecidableEq α]

/-- A read after a write to the same key gives what was written. -/
@[simp] theorem get_set_same (d : α) (m : List (Nat × α)) (k : Nat) (v : α) : get d (set d m k v) k = v := by
  by_cases h : v = d
  · simp [set, h, get_erase_same]
  · simp [set, h, get_insert_same d _ k v (erase_absent m k)]

/-- A write leaves every other key alone. -/
theorem get_set_other (d : α) (m : List (Nat × α)) {k j : Nat} (v : α) (h : j ≠ k) :
    get d (set d m k v) j = get d m j := by
  by_cases hv : v = d
  · simp [set, hv, get_erase_other d m h]
  · simp [set, hv, get_insert_other d _ v h, get_erase_other d m h]

/-- A read after a write, in one equation. -/
theorem get_set (d : α) (m : List (Nat × α)) (k j : Nat) (v : α) :
    get d (set d m k v) j = if j = k then v else get d m j := by
  by_cases h : j = k
  · simp [h]
  · simp [h, get_set_other d m v h]

theorem wfFrom_mono {d : α} {lo hi : Nat} (h : lo ≤ hi) : (m : List (Nat × α)) → wfFrom d hi m = true →
    wfFrom d lo m = true
  | [], _ => rfl
  | (k, v) :: t, hm => by
    simp only [wfFrom, Bool.and_eq_true, decide_eq_true_eq] at hm ⊢
    exact ⟨⟨by omega, hm.1.2⟩, hm.2⟩

theorem wfFrom_erase {d : α} {lo k : Nat} : (m : List (Nat × α)) → wfFrom d lo m = true → wfFrom d lo (erase k m) = true
  | [], _ => rfl
  | (k', v) :: t, hm => by
    simp only [wfFrom, Bool.and_eq_true, decide_eq_true_eq] at hm
    by_cases hk : k = k'
    · simp only [erase, hk, if_true]
      exact hk ▸ wfFrom_erase t (wfFrom_mono (by omega) t hm.2)
    · simp only [erase, hk, if_false, wfFrom, Bool.and_eq_true, decide_eq_true_eq]
      exact ⟨hm.1, wfFrom_erase t hm.2⟩

theorem wfFrom_insert {d v : α} (hv : v ≠ d) {k : Nat} : (lo : Nat) → (m : List (Nat × α)) → lo ≤ k →
    (∀ x ∈ m, x.1 ≠ k) → wfFrom d lo m = true → wfFrom d lo (insert k v m) = true
  | lo, [], hl, _, _ => by simp [insert, wfFrom, hl, hv]
  | lo, (k', v') :: t, hl, ha, hm => by
    simp only [wfFrom, Bool.and_eq_true, decide_eq_true_eq] at hm
    have hk : k' ≠ k := ha (k', v') (by simp)
    by_cases h : k < k'
    · simp only [insert, h, if_true, wfFrom, Bool.and_eq_true, decide_eq_true_eq]
      exact ⟨⟨hl, hv⟩, ⟨by omega, hm.1.2⟩, hm.2⟩
    · simp only [insert, h, if_false, wfFrom, Bool.and_eq_true, decide_eq_true_eq]
      exact ⟨hm.1, wfFrom_insert hv (k' + 1) t (by omega) (fun x hx => ha x (by simp [hx])) hm.2⟩

/-- A write keeps the canonical form. -/
theorem wf_set {d : α} {m : List (Nat × α)} (h : wf d m = true) (k : Nat) (v : α) : wf d (set d m k v) = true := by
  by_cases hv : v = d
  · simpa [set, hv, wf] using wfFrom_erase m h
  · simpa [set, hv, wf] using
      wfFrom_insert hv 0 _ (by omega) (erase_absent m k) (wfFrom_erase (k := k) m h)

end Tab

/-! ### The module's memories -/

theorem Memory.wf_iff (m : Mem) : Memory.wf m = true ↔
    Tab.wf unlisted m.dev = true ∧ Tab.wf unlisted m.host = true ∧ Tab.wf unlisted m.peer = true ∧
      Tab.wf unlisted m.sched = true := by
  simp [Memory.wf, and_assoc]

theorem Memory.wf_reset : Memory.wf State.reset.mem = true := rfl

theorem Memory.wf_setByte {m : Mem} (h : Memory.wf m = true) (l : Loc) (b : Byte) : Memory.wf (m.setByte l b) = true := by
  rw [Memory.wf_iff] at h ⊢
  obtain ⟨h1, h2, h3, h4⟩ := h
  cases l <;> simp only [Mem.setByte] <;> refine ⟨?_, ?_, ?_, ?_⟩ <;> first | assumption | exact Tab.wf_set (by assumption) _ _

theorem Memory.wf_setBytes : (bs : List Byte) → (m : Mem) → (l : Loc) → Memory.wf m = true →
    Memory.wf (m.setBytes l bs) = true
  | [], _, _, h => h
  | b :: t, m, l, h => Memory.wf_setBytes t (m.setByte l b) (l.plus 1) (Memory.wf_setByte h l b)

theorem Memory.wf_setSched : (bs : List Byte) → (m : Mem) → (a : Nat) → Memory.wf m = true →
    Memory.wf (m.setSched a bs) = true
  | [], _, _, h => h
  | b :: t, m, a, h => by
    refine Memory.wf_setSched t _ (a + 1) ?_
    rw [Memory.wf_iff] at h ⊢
    exact ⟨h.1, h.2.1, h.2.2.1, Tab.wf_set h.2.2.2 a b⟩

theorem Memory.wf_taint {m : Mem} (h : Memory.wf m = true) (pa : Nat) : Memory.wf (m.taint pa) = true := h
theorem Memory.wf_clear {m : Mem} (h : Memory.wf m = true) (pa : Nat) : Memory.wf (m.clear pa) = true := h

theorem Memory.wf_noteBack (k : TileKey) : (n : Nat) → (m : Mem) → (pa : Nat) → Memory.wf m = true →
    Memory.wf (m.noteBack k pa n) = true
  | 0, _, _, h => h
  | n + 1, _, pa, h => Memory.wf_noteBack k n _ (pa + 1) h

/-! ### Bytes after a write -/

/-- A byte after a write of it, and of another. -/
theorem Mem.byte_setByte (m : Mem) (l l' : Loc) (b : Byte) :
    (m.setByte l b).byte l' = if l' = l then b else m.byte l' := by
  cases l <;> cases l' <;> simp [Mem.setByte, Mem.byte, Tab.get_set]

/-- The places of `n` bytes from a place on. -/
theorem Loc.plus_plus (l : Loc) (a b : Nat) : (l.plus a).plus b = l.plus (a + b) := by
  cases l <;> simp [Loc.plus, Nat.add_assoc]

/-- A byte outside the written ones keeps its value. -/
theorem Mem.byte_setBytes_other : (bs : List Byte) → (m : Mem) → (l l' : Loc) →
    (∀ i < bs.length, l' ≠ l.plus i) → (m.setBytes l bs).byte l' = m.byte l'
  | [], _, _, _, _ => rfl
  | b :: t, m, l, l', h => by
    have h0 : l' ≠ l := by simpa [Loc.plus] using (by cases l <;> simpa [Loc.plus] using h 0 (by simp) : l' ≠ l)
    rw [Mem.setBytes, Mem.byte_setBytes_other t _ (l.plus 1) l' fun i hi => by
      rw [Loc.plus_plus, Nat.add_comm]; exact h (i + 1) (by simpa using hi)]
    simp [Mem.byte_setByte, h0]

end Sys2Proof.Machine
end

