-- ==== Sys2Proof/Tests/Slice0.lean ====
section
/-! SUPPORT. Tests: ill-formed terms that each check of WellFormed refuses, words written out from the spec's encodings
with what they decode to, single steps with results worked out by hand from the spec, and for each statement a state and
operands that meet its hypotheses. -/

open Sys2Proof Sys2Proof.Machine Sys2Proof.Terms

namespace Sys2Proof.Tests

set_option Elab.async false

/-! ### Helpers -/

/-- A guard that always passes, and the same with the switch marker. -/
def hd0 : Hd := ⟨false, false, 0, .z⟩
def hdm : Hd := ⟨true, false, 0, .z⟩
/-- A guard on a bit of a register that is 1, and on one that is 0. -/
def hd1 (n : Fin 32) (r : Reg) : Hd := ⟨false, true, n, r⟩
def hd2 (n : Fin 32) (r : Reg) : Hd := ⟨false, false, n, r⟩

/-! ### Ill-formed terms (R290 to R301) -/

theorem test_wf_guard_scalar : ([.add (hd1 0 (.v 3)) ⟨0, false⟩ (.s 1) (.s 1) (.s 2), .nop (hd1 0 (.v 0)),
    .ld (hd1 0 (.v 1)) 0 false (.s 1) (.imm (.s 2) 0), .fence (hd1 0 (.v 1)) .acq .dev, .mwait (hd1 0 (.v 9)) (.s 1),
    .setk false (.v 1) .full 0] : List Instr).all (fun i => !i.wf) = true := by decide

theorem test_wf_operand_kinds : ([.add hd0 ⟨0, false⟩ (.v 1) (.s 1) (.s 2), .add hd0 ⟨0, false⟩ (.s 1) (.v 1) (.s 2),
    .add hd0 ⟨0, false⟩ .ones (.s 1) (.s 2), .mov hd0 ⟨0, false⟩ .ic (.s 1), .vadd hd0 (.s 1) (.v 1) (.reg (.v 2)),
    .fadd hd0 .rne .lid (.v 1) (.reg (.v 2)), .lperm hd0 (.v 1) (.s 1) (.v 2), .lrot hd0 0 (.v 1) (.v 1) (.v 2),
    .lbits hd0 0 (.v 1) (.v 2), .lbits hd0 0 .z (.v 2), .vbcast hd0 false (.v 1) (.v 2), .st hd0 0 (.v 1) (.imm (.s 1) 0),
    .vst hd0 ⟨0, false⟩ (.s 1) (.imm (.s 1) 0), .tcBind hd0 (.s 1) (.s 2), .accRscl hd0 (.s 1) (.s 2), .call hd0 (.v 1) 0,
    .svcPurge hd0 true (.v 1) (.s 1)] : List Instr).all (fun i => !i.wf) = true := by decide

theorem test_wf_swaps : ([.swap hd0 .z (.s 1), .swap hd0 (.s 1) .ones, .swap (hd1 0 (.s 1)) (.s 1) (.s 2),
    .swap (hd1 0 (.s 2)) (.s 1) (.s 2), .vswap hd0 (.v 1) .z, .vswap (hd1 0 (.v 1)) (.v 1) (.v 2)] : List Instr).all
    (fun i => !i.wf) = true := by decide

theorem test_wf_fields : ([.bext hd0 60 4 false (.s 1) (.s 2), .bins hd0 63 1 (.s 1) (.s 2),
    .vbext hd0 false 30 2 (.v 1) (.v 2), .vbins hd0 31 1 (.v 1) (.v 2), .mulodd hd0 ⟨1, false⟩ (.s 1) (.s 1) (.s 2),
    .svcResume hd0 11 (.s 1) (.s 2), .svcResumeC hd0 25 (.s 1) (.s 2) (.s 3)] : List Instr).all
    (fun i => !i.wf) = true := by decide

theorem test_wf_cross : ([.vadd hd0 (.v 1) (.v 1) (.cross (.v 2) 0), .vadd hd0 (.v 1) (.v 1) (.cross (.v 2) 0x20),
    .vadd hd0 (.v 1) (.v 1) (.cross (.s 2) 1), .vcmp hd0 .lt 1 (.v 1) (.v 1) (.cross (.v 2) 1),
    .fcmp hd0 .lt 3 (.v 1) (.v 1) (.cross (.v 2) 1), .hadd2 hd0 .rne true (.v 1) (.v 1) (.cross (.v 2) 1)] :
    List Instr).all (fun i => !i.wf) = true := by decide

theorem test_wf_types : ([.cvt hd0 .rne .f32 .bf16 2 0 (.v 1) (.v 2), .cvt hd0 .rne .f32 .bf16 0 1 (.v 1) (.v 2),
    .lred hd0 .and .f32 .rne (.v 1) (.v 2), .lred hd0 .min .f32 .rup (.v 1) (.v 2),
    .lscan hd0 .add .i32 .rne (.s 1) (.v 2), .amo hd0 .fadd .rlx .dev 2 (.s 1) (.s 2) (.s 3),
    .amo hd0 .add .rlx .dev 3 (.s 0) (.s 2) (.s 4), .amo hd0 .addb .rlx .dev 1 (.s 127) (.s 2) (.s 4),
    .cas hd0 .rlx .dev 3 (.s 1) (.s 2) (.s 127), .red hd0 .sub false .dev (.v 1) (.s 1) (.v 2),
    .accSt hd0 3 (.s 1) (.s 2), .mstat hd0 3 (.s 1)] : List Instr).all (fun i => !i.wf) = true := by decide

theorem test_wf_memory : ([.ld hd0 3 true (.s 1) (.imm (.s 2) 0), .ld hd0 0 false (.s 1) (.lane (.s 2) (.v 1)),
    .vld hd0 1 false (.v 1) (.imm (.s 2) 0), .vld hd0 3 false (.v 1) (.lane (.s 2) (.v 3)),
    .ldl hd0 0 false (.s 1) (.ext 1 (.s 2)), .vldl hd0 0 false (.v 1) (.ext 1 (.s 2)),
    .gath hd0 3 false (.v 767) (.s 1) (.v 2), .gath hd0 3 true (.v 1) (.s 1) (.v 2), .stMc hd0 2 (.v 1) (.s 126) 0,
    .xchg hd0 0 false .z (.imm (.s 2) 0)] : List Instr).all (fun i => !i.wf) = true := by decide

theorem test_wf_others : ([.fence hd0 .rlx .dev, .earlyTrig hd0 0, .cnRef hd0 7 (.s 1), .cnPut hd0 false 0 (.s 127) (.v 1),
    .xsrRd hd0 ⟨0x007, 0, 0⟩ (.s 1) .z, .xsrRd hd0 ⟨0x001, 1, 0⟩ (.s 1) .z, .xsrRd hd0 ⟨0x001, 0, 0⟩ (.s 1) (.s 2),
    .xsrWr hd0 ⟨0x001, 0, 0⟩ (.s 1), .xsrWr hd0 ⟨0x040, 4, 0⟩ (.s 1)] : List Instr).all (fun i => !i.wf) = true := by
  decide

/-! ### Words of the spec

Chapters 14, 16 to 20, 22 to 24 print the words below; the others are the sums of the fields of R287 to R300. -/

/-- Class 0: chapters 14, 16 and 20. -/
theorem test_decode_class0 : [0x0000000421084280, 0x00A0000421084280, 0x0300000449084342, 0x03C0000429080000,
      0x0040000441100003, 0x83E00004290C0000, 0x02200004390E1180, 0x0425420015000000].map decode =
    [some (.add hd0 ⟨0, false⟩ (.s 4) (.s 4) (.s 5)), some (.mulodd hd0 ⟨0, false⟩ (.s 4) (.s 4) (.s 5)),
      some (.cmp hd0 .lt 2 (.s 9) (.s 4) (.s 6)), some (.mov hd0 ⟨0, false⟩ (.s 5) (.s 4)),
      some (.addi hd0 (.s 8) (.s 8) 3), some (.swap hdm (.s 5) (.s 6)),
      some (.rol hd0 ⟨0, false⟩ (.s 7) (.s 7) (.k 3)), some (.setk false (.s 40) .hi 0x15000000)] := by decide

/-- Class 1: chapters 14, 16, 20 and 24. -/
theorem test_decode_class1 : [0x101010C007FFFFFD, 0x1120000001140001, 0x1120000000480001, 0x1060000447FFFFF4,
      0x10C0000000000000, 0x1100000000000000, 0x1320000001280000, 0x93400004B1280000, 0x93000004D8000001,
      0x93800004F92A0000, 0x11400004A0001800, 0x1360000000000000].map decode =
    [some (.br (hd1 0 (.s 6)) (BitVec.ofInt 27 (-3))), some (.revP hd0 (.s 10)), some (.revP hd0 (.k 4)),
      some (.loop hd0 (.s 8) (BitVec.ofInt 27 (-12))), some (.halt hd0), some (.commit hd0),
      some (.mboxSendVerify hd0 (.s 20)), some (.mboxRecv hdm (.s 22) (.s 20)), some (.qctlQ hdm (.s 27)),
      some (.slotSel hdm (.s 31) (.s 21)), some (.xsrRd hd0 ⟨0x030, 0, 0⟩ (.s 20) .z), some (.wdogKick hd0 .z)] := by
  decide

/-- Classes 2 and 3: chapters 14, 17, 20 and 21, and VADDI v3, v3, 12 as OP 0x108, D and A 0x103, IMM 12. -/
theorem test_decode_class2 : [0x2A400008A20A8303, 0xA180000818041100, 0x108 * 2 ^ 53 + 0x103 * 2 ^ 27 + 0x103 * 2 ^ 17 + 12,
      0x2B8000080A040000, 0xB13020685216867F, 0x37902068AA0FB000, 0x3110206802001100].map decode =
    [some (.vcmp hd0 .lt 3 (.v 20) (.v 5) (.reg (.v 6))), some (.vmul hdm (.v 3) .lid (.reg (.k 2))),
      some (.vaddi hd0 (.v 3) (.v 3) 12), some (.vswap hd0 (.v 1) (.v 2)),
      some (.fmul ⟨true, true, 0, .v 3⟩ .rtz (.v 10) (.v 11) (.cross (.v 12) 0x3F)),
      some (.cvt (hd1 0 (.v 3)) .rne .mk8 .f32 0 0 (.v 21) (.v 7)),
      some (.fmul (hd1 0 (.v 3)) .rne (.v 0) (.v 0) (.reg (.k 2)))] := by decide

/-- Class 4: LRED of chapter 21, and LSHUF v1, v2, 5 as OP 0x201, D 0x101, A 0x102, M 5. -/
theorem test_decode_class4 : [0xC0902084520A0010, 0x201 * 2 ^ 53 + 0x101 * 2 ^ 27 + 0x102 * 2 ^ 17 + 5].map decode =
    [some (.lred ⟨true, true, 0, .v 4⟩ .add .f32 .rne (.s 10) (.v 5)), some (.lshuf hd0 5 (.v 1) (.v 2))] := by decide

/-- Class 5: chapters 18, 20, 21 and 24. -/
theorem test_decode_class5 : [0x51800004492A4104, 0x5060000801280000, 0x5970208829288182, 0x50200014512A0000,
      0xD000001C59140000].map decode =
    [some (.amo hd0 .add .rlx .dev 0 (.s 9) (.s 21) (.s 2)), some (.vld hd0 0 false (.v 0) (.imm (.s 20) 0)),
      some (.gath (hd1 0 (.v 4)) 2 false (.v 5) (.s 20) (.v 3)), some (.st hd0 2 (.s 10) (.imm (.s 21) 0)),
      some (.ld hdm 3 false (.s 11) (.imm (.s 10) 0))] := by decide

/-- Class 6: chapters 21 and 23, and FENCE.acq.dev ! as OP 0x300 with S, ORDER 1 in M[1:0], SCOPE 4 in M[4:2]. -/
theorem test_decode_class6 : [0x61200000020A0000, 0x63000004C2000000, 0xE3000004B2060008, 0xE3A00005112A4B00,
      0xE3800005112A0008, 0x63C00005313C5280, 0x63600004B0000000, 2 ^ 63 + 0x300 * 2 ^ 53 + 4 * 4 + 1].map decode =
    [some (.sbWait hd0 (.v 5)), some (.cnPut hd0 false 0 (.s 24) (.v 0)), some (.cnPut hdm true 0 (.s 22) (.v 3)),
      some (.cnSwap hdm 0 (.s 34) (.s 21) (.s 22)), some (.cnRoot hdm true 0 (.s 34) (.s 21)),
      some (.cnOut hd0 0 0 (.s 38) (.s 30) (.s 37)), some (.cnDrop hd0 0 (.s 22)), some (.fence hdm .acq .dev)] := by
  decide +kernel

/-- Class 7: chapters 19 and 22. -/
theorem test_decode_class7 : [0x7000000001565480, 0x7020000551505600, 0x71A0000460000000, 0x7020000541545791,
      0x70200005495458CF, 0x7180000001568900].map decode =
    [some (.mbLd hd0 false 0 (.s 43) (.s 41)), some (.mma hd0 false 0 0 (.s 42) (.s 40) (.s 44)),
      some (.mwait hd0 (.s 12)), some (.mma hd0 false 1 1 (.s 40) (.s 42) (.s 47)),
      some (.mma hd0 true 0 15 (.s 41) (.s 42) (.s 49)), some (.accRscl hd0 (.s 43) (.v 18))] := by decide

/-- Words that are no instructions (R301): an unassigned OP, an unused variant, a reserved register name, a write to a
read-only name, a nonzero unused field, K-form H 11, the header signature with S = 0, and a header. -/
theorem test_decode_refused : [0x022 * 2 ^ 53, 0x101 * 2 ^ 53, 0x016 * 2 ^ 27, 0x001 * 2 ^ 27,
      0x084 * 2 ^ 53 + 0x081 * 2 ^ 27, 0x021 * 2 ^ 53 + 0x080 * 2 ^ 43 + 3 * 2 ^ 41, 0x3FF * 2 ^ 53,
      0xFFE0606860200008].map decode = [none, none, none, none, none, none, none, none] := by decide


/-! ### States -/

/-- The machine with a group of the vector role at a NOP (log entry 11), and the control cores at a WDOG.KICK z. -/
def w0 : State := State.reset.withFetchWord 64 0x1080000000000000
def c0 : State := State.reset.withFetchWord 64 0x1360000000000000

/-- Scalar registers, a vector register, a word of the code page, the pc, a word of device storage. -/
def regsOf (s : State) (vs : List (Fin 128 × Nat)) : State := vs.foldl (fun s x => putS s (.s x.1) { v := w64 x.2 }) s
def vecOf (s : State) (r : Fin 768) (f : Nat → Nat) : State :=
  putV s (.v r) ((upto 0 32).map fun l => (l, { v := w32 (f l) }))
def code (s : State) (k w : Nat) : State := { s with mem := s.mem.setBytes (.dev (0x230000 + 8 * k)) (leBytes 8 w) }
def atWord (s : State) (k : Nat) : State := { s with me := { s.me with at_ := { s.me.at_ with pc := w64 (0x10000 + 8 * k) } } }
def setw (s : State) (pa w : Nat) : State := { s with mem := s.mem.setBytes (.dev pa) (leBytes 8 w) }
def data (s : State) : State :=
  { s with mem := s.mem.setBytes (.dev 0x230100) ((upto 0 160).map fun i => BitVec.ofNat 8 (i * 37 + 129)) }
def onGang (s : State) (f : Gang → Gang) : State := { s with gangs := s.gangs.map f }
def poisoned (s : State) (i : Fin 128) : State := putS s (.s i) { v := 5, p := true, o := 2 }

/-- The state after an instruction, or the same state where it does not go on. -/
def ex (i : Instr) (s : State) : State := match exec i s with | .next t => t | _ => s
/-- Whether an instruction goes on. -/
def goes (o : Host.Outcome State Fault Refusal) : Bool := match o with | .next _ => true | _ => false

/-- Registers and two vector registers with values. -/
def wa : State := regsOf w0 [(3, 1), (9, 0x1234567890), (20, 7), (2, 0xFFFFFFFFFFFFFFFF)]
def wv : State := vecOf (vecOf wa 1 (fun l => l * 3)) 2 (fun l => 0xFFFFFFFF - l)
/-- A scoreboard slot that guards v1. -/
def busy (s : State) : State :=
  { s with me := { s.me with sb := [{ slot := 0, regs := [.v 1], ic := 0, res := { scalars := [], lanes := [] } }] } }
/-- A history of 16 bytes; a proofing group; an acknowledgement outstanding; a quota of two registers. -/
def small (s : State) : State := { s with me := { s.me with hist := { s.me.hist with log := 4 } } }
def proofing (s : State) : State := { s with me := { s.me with marks := { s.me.marks with proof := true } } }
def owing (s : State) (n : Nat) : State := { s with me := { s.me with acks := n } }
def quota (s : State) (n : Nat) : State := { s with me := { s.me with regs := { s.me.regs with quota := n } } }
def withMe (s : State) (f : Group → Group) : State := { s with me := f s.me }
def withRole (s : State) (r : Role) : State := { s with me := { s.me with role := r } }
/-- The gang of group 132 as the service gang of partition 0, with debugging enabled or not. -/
def served (s : State) : State := s.modPart 0 fun p => { p with service := some 1, parkq := 0x3000000000010000 }
def debugged (s : State) : State := s.modPart 0 fun p => { p with policy := { p.policy with mask := 1 } }

def nopW : Nat := 0x1080000000000000
/-- Headers of one-word blocks without and with JOIN, and with JOIN and ENTRY; a word of no instruction. -/
def hdrW : Nat := 0xFFE020000FF00000
def joinW : Nat := 0xFFE020000FF00008
def bothW : Nat := 0xFFE020000FF0000C
def illW : Nat := 0x0440000000000000

/-! ### Single steps -/

/-- ADDI wraps and sign-extends; ADD.i8 keeps the byte's sign (R325, R328). -/
theorem test_add : (let t := ex (.addi hd0 (.s 2) (.s 2) 1) wa; (t.me.getS 2).v = 0) ∧
    (let t := ex (.addi hd0 (.s 20) (.s 20) 0x1FFFF) wa; (t.me.getS 20).v = 6) ∧
    (let t := ex (.add hd0 ⟨3, false⟩ (.s 4) (.s 9) (.s 20)) wa; (t.me.getS 4).v = 0xFFFFFFFFFFFFFF97) := by decide +kernel

/-- The example of chapter 16: s4 = 6 × 3 = 18, and 18 < 16 is false. -/
theorem test_example_scalar :
    let t := ex (.mulodd hdm ⟨0, false⟩ (.s 4) (.s 4) (.s 5)) (regsOf w0 [(4, 6), (5, 3), (9, 4), (6, 16)]);
    (t.me.getS 4).v = 18 ∧ t.me.hist.crumbs = [] ∧ ((ex (.cmp hd0 .lt 2 (.s 9) (.s 4) (.s 6)) t).me.getS 9).v = 0 := by
  decide +kernel

/-- Division by zero and of the most negative value (R328). -/
theorem test_div :
    let s := regsOf w0 [(4, 2 ^ 63), (5, 2 ^ 64 - 1)];
    ((ex (.div hd0 ⟨0, false⟩ (.s 6) (.s 4) (.s 5)) s).me.getS 6).v = 0x8000000000000000 ∧
    ((ex (.rem hd0 ⟨0, false⟩ (.s 6) (.s 4) (.s 5)) s).me.getS 6).v = 0 ∧
    ((ex (.div hd0 ⟨1, true⟩ (.s 6) (.s 4) .z) s).me.getS 6).v = 0xFFFFFFFF := by decide +kernel

/-- The compare of chapter 17: bit 3 of v20 is set in lanes 0 and 3 only. -/
theorem test_example_vcmp :
    let s := vecOf (vecOf w0 5 ([1, 9, 2 ^ 32 - 4, 7].getD · 0)) 6
        ([5, 2, 2 ^ 32 - 4, 8].getD · 0);
    let t := ex (.vcmp hd0 .lt 3 (.v 20) (.v 5) (.reg (.v 6))) s;
    (upto 0 32).map (fun l => (t.me.getV 20 l).v) = (upto 0 32).map fun l => if l = 0 ∨ l = 3 then 8 else 0 := by
  decide +kernel

/-- The conversion of chapter 17: 4.25, 768, 2,000 and NaN into MK8, with SAT set and NVI clear. -/
theorem test_example_cvt :
    let s := vecOf (vecOf (vecOf w0 3 (fun l => if l < 4 then 1 else 0)) 21 (fun l => if l < 4 then 0xAABBCC00 else 0)) 7
        ([0x40880000, 0x44400000, 0x44FA0000, 0x7FC00000].getD · 0);
    let t := ex (.cvt (hd1 0 (.v 3)) .rne .mk8 .f32 0 0 (.v 21) (.v 7)) s;
    (upto 0 5).map (fun l => (t.me.getV 21 l).v) = [0xAABBCC30, 0xAABBCC07, 0xAABBCC03, 0xAABBCC80, 0] ∧ t.me.fpflags = 2 := by
  decide +kernel

/-- Rounding: 1 + 2^-24 is a tie to even, and up it is the next number; -1.5 rounds to -2 (R234, R236). -/
theorem test_rounding :
    let s := vecOf (vecOf w0 1 (fun _ => 0x3F800000)) 2 (fun l => if l = 0 then 0x33800000 else 0xBFC00000);
    ((ex (.fadd hd0 .rne (.v 4) (.v 1) (.reg (.v 2))) s).me.getV 4 0).v = 0x3F800000 ∧
    ((ex (.fadd hd0 .rup (.v 4) (.v 1) (.reg (.v 2))) s).me.getV 4 0).v = 0x3F800001 ∧
    ((ex (.frint hd0 .rne (.v 4) (.v 2)) s).me.getV 4 1).v = 0xC0000000 := by decide +kernel

/-- A reduction over two active lanes of the exact values 3 and 6 (R247, R373), and a shuffle by 1 (R372). -/
theorem test_lanes :
    let s := vecOf wv 6 (fun l => if l = 1 ∨ l = 2 then 1 else 0);
    ((ex (.lred (hd1 0 (.v 6)) .add .i32 .rne (.s 10) (.v 1)) s).me.getS 10).v = 9 ∧
    ((ex (.lshuf hd0 1 (.v 7) (.v 1)) s).me.getV 7 4).v = 15 := by decide +kernel

/-- A store is little-endian, and a load extends by UN (R2, R377). -/
theorem test_memory :
    let s := regsOf w0 [(9, 0x10100), (10, 0x80FF)];
    let t := ex (.st hd0 1 (.s 10) (.imm (.s 9) 4)) s;
    t.mem.bytes (.dev 0x230104) 2 = [0xFF, 0x80] ∧
    ((ex (.ld hd0 1 false (.s 11) (.imm (.s 9) 4)) t).me.getS 11).v = 0xFFFFFFFFFFFF80FF ∧
    ((ex (.ld hd0 1 true (.s 11) (.imm (.s 9) 4)) t).me.getS 11).v = 0x80FF := by decide +kernel

/-- An access off its size parks with ALIGN, and a step on an unassigned word with ILLEGAL (R377, R301). -/
theorem test_traps : ((ex (.ld hd0 2 false (.s 11) (.imm (.s 9) 2)) (regsOf w0 [(9, 0x10100)])).me.status = .parked) ∧
    ((match step (code w0 1 illW) with | .next t => ((t.part 0).parks.map (·.code)) | _ => []) = [1]) := by decide +kernel


/-! ### Witnesses: states and operands that meet the hypotheses of the statements, clause by clause -/

theorem witness_DecodeEncode : let i := Instr.addi hd0 (.s 8) (.s 8) 3;
    i.wf = true ∧ encode i = some 0x0040000441100003 := by decide

theorem witness_DecodedIsWellFormed : decode 0x0040000441100003 = some (.addi hd0 (.s 8) (.s 8) 3) ∧
    (let w : Word := 0x022 * 2 ^ 53; 0x022 ≤ (w.extractLsb' 53 10).toNat ∧ (w.extractLsb' 53 10).toNat < 0x080) ∧
    (let w : Word := 0x07F * 2 ^ 53; 0x022 ≤ (w.extractLsb' 53 10).toNat ∧ (w.extractLsb' 53 10).toNat < 0x080) ∧
    isHeader 0xFFE0606860200008 = true := by decide

theorem witness_StepRunsDecoded : let s := w0; let u := (s.issuing s.me).fetching.fetching;
    s.agenda = [] ∧ issuePick s = some s.me ∧ atBlockEnd u.me = false ∧ breakDue u = false ∧
    fwdDue u = false ∧ fetchAt u u.me.at_.pc = .inr (w64 nopW) ∧ decode (w64 nopW) = some (.nop hd0) := by decide +kernel

/-- A block that ends: the next word is no header, is a bad one, or is one without JOIN before a NOP; and an unassigned
word inside a block. -/
theorem witness_StepEntersOrParks :
    (∀ hd ∈ [nopW, hdrW + 1], let s := atWord (code w0 2 hd) 2; let v := (s.issuing s.me).fetching;
      s.agenda = [] ∧ issuePick s = some s.me ∧ v.me.isControl = false ∧ atBlockEnd v.me = true ∧
      fetchAt v v.me.at_.pc = .inr (w64 hd) ∧ (isHeader (w64 hd) = false ∨ headerBad (w64 hd) = true)) ∧
    (let s := atWord (code (code w0 2 hdrW) 3 nopW) 2; let v := (s.issuing s.me).fetching;
      s.agenda = [] ∧ issuePick s = some s.me ∧ v.me.isControl = false ∧ atBlockEnd v.me = true ∧
      fetchAt v v.me.at_.pc = .inr (w64 hdrW) ∧ isHeader (w64 hdrW) = true ∧ headerBad (w64 hdrW) = false ∧
      hdrJoin (w64 hdrW) = false ∧ v.me.at_.hdr ≠ 0 ∧
      let u := (v.modMe fun g => { g with at_ := { pc := v.me.at_.pc + 8, hva := v.me.at_.pc, hdr := w64 hdrW, fresh := true } }).fetching;
      breakDue u = false ∧ fetchAt u u.me.at_.pc = .inr (w64 nopW) ∧ decode (w64 nopW) = some (.nop hd0)) ∧
    (let s := code w0 1 illW; let u := (s.issuing s.me).fetching.fetching;
      s.agenda = [] ∧ issuePick s = some s.me ∧ u.me.isControl = false ∧ atBlockEnd u.me = false ∧
      breakDue u = false ∧ fetchAt u u.me.at_.pc = .inr (w64 illW) ∧ decode (w64 illW) = none) := by decide +kernel

theorem witness_StepKeepsMemOk : State.reset.memOk ∧ goes (step State.reset) = true :=
  ⟨by unfold State.memOk; decide +kernel, by decide +kernel⟩

theorem witness_ReadAfterWrite : ∀ l' ∈ [Loc.dev 7, .dev 16, .host 8], ∀ i < 8, l' ≠ (Loc.dev 8).plus i := by decide

theorem witness_RoleTrap : (let s := w0;
      rolesOf (.mwait hd0 .z) = some [.matrix] ∧ Role.vector ∉ [Role.matrix] ∧ s.me.role = .vector ∧ s.me.isControl = false) ∧
    rolesOf (.wdogKick hd0 .z) = some [.control] ∧ rolesOf (.ld hd0 0 false .z (.imm .z 0)) = some [.vector, .control] ∧
    (withRole w0 .matrix).me.role ∉ [Role.vector, .control] ∧
    ∀ s ∈ [{ w0 with me := bootGroup 0 128 5 }, { w0 with me := bootGroup 2 128 5, zal := { w0.zal with windowOpen := true } }],
      s.me.role ∉ [Role.matrix] ∧ s.me.isControl = true := by decide +kernel

theorem witness_VectorChecks : let r : VRow := ⟨hd0, .v 64, .v 1, .reg (.v 2), false, false, fun x y _ => x &&& y⟩;
    (let s := quota wv 64;
      s.me.role = .vector ∧ underQuota s (r.h.gr :: r.reads ++ [r.d]) = false) ∧
    (let s := busy wv;
      s.me.role = .vector ∧ underQuota s (r.h.gr :: r.reads ++ [r.d]) = true ∧
      unguarded s (r.h.gr :: r.reads ++ [r.d]) = false ∧ hazardOpen s = false) ∧
    (∀ s ∈ [small wv, proofing (small wv)], s.me.role = .vector ∧ r.inv = false ∧
      underQuota s (r.h.gr :: r.reads ++ [r.d]) = true ∧ s.me.sb = [] ∧ unawaited s (r.h.gr :: r.reads ++ [r.d]) (r.h.gr :: r.reads) = true ∧
      s.me.free < crumbsBytes (crumbV s r.d (lanesOn s r.h)) + 16 ∧ crumbV s r.d (lanesOn s r.h) ≠ []) ∧
    (small wv).me.marks.proof = false ∧ (proofing (small wv)).me.marks.proof = true := by decide +kernel

/-- The row of the witness above is that of VAND v64, v1, v2. -/
theorem witness_vand_row : vecRow (.vand hd0 (.v 64) (.v 1) (.reg (.v 2))) =
    some ⟨hd0, .v 64, .v 1, .reg (.v 2), false, false, fun x y _ => x &&& y⟩ := rfl

theorem witness_ScalarResults : Calm wv = true ∧ ∀ i ∈ [Instr.add hd0 ⟨0, false⟩ (.s 9) (.s 9) (.s 20),
      .sub (hd1 1 (.s 20)) ⟨1, true⟩ .z (.s 9) .ones, .mulodd (hd2 1 (.s 20)) ⟨0, false⟩ (.s 2) (.s 2) (.s 20),
      .bins hd0 63 0 (.s 9) (.s 20), .clz hd0 ⟨3, true⟩ (.s 127) .z],
    (match scalarRow (fun q => (srcS wv q).v) i with
      | some r =>
        let vs := r.reads.map (srcS wv) ++ [srcS wv r.h.gr];
        let cs := if r.inv && !mustPush wv r.h r.d r.reads then [] else crumbS wv r.d (vs.any (·.p));
        Ready wv [.vector, .matrix, .copy, .control] (r.h.gr :: r.reads ++ [r.d]) (r.h.gr :: r.reads) cs
      | none => false) = true := by decide +kernel

theorem witness_ScalarOthers : (let s := wv; let h := hd0; let d := Reg.s 9; let a := Reg.s 20; let b := Reg.s 2;
    Calm s = true ∧
    (let cs := crumbBit s d 31 ([srcS s a, srcS s b, srcS s d, srcS s h.gr].any (·.p));
      Ready s [.vector, .matrix, .copy, .control] [h.gr, a, b, d, d] [h.gr, a, b, d] cs = true) ∧
    (let cs := crumbS s d ([srcS s a, srcS s b, srcS s h.gr].any (·.p));
      Ready s [.vector, .matrix, .copy, .control] [h.gr, a, b, d] [h.gr, a, b] cs = true) ∧
    (let vs := [srcS s d, srcS s b, srcS s h.gr];
      let cs := crumbBit s d (((srcS s b).v.toNat + 63) % 64) (vs.any (·.p));
      d ≠ b ∧ Ready s [.vector, .matrix, .copy, .control] [h.gr, d, b, d] [h.gr, d, b] cs = true) ∧
    Ready s [.vector, .matrix, .copy, .control] [h.gr, .s 0, .s 127, .s 0, .s 127] [h.gr, .s 0, .s 127] [] = true ∧
    guardS s h = true ∧
    Ready s [.vector, .matrix, .copy, .control] [.z, d, d] [.z, d] (crumbS s d false) = true) := by decide +kernel

theorem witness_ScalarFrame : wv.me.isControl = false ∧
    (scalarRow (fun q => (srcS wv q).v) (.mov hd0 ⟨0, false⟩ (.s 4) (.s 9))).map (·.d) = some (.s 4) ∧ goes (exec (.mov hd0 ⟨0, false⟩ (.s 4) (.s 9)) wv) = true ∧
    goes (exec (.cmp hd0 .lt 2 (.s 9) (.s 4) (.s 6)) wv) = true ∧ goes (exec (.setk false (.s 9) .lo 1) wv) = true := by
  decide +kernel

theorem witness_UndoRestores : (let s := wv; let i := Instr.addi hd0 (.s 2) (.s 2) 1;
    (scalarRow (fun q => (srcS s q).v) i).isSome = true ∧ i.wf = true ∧ Reversible s = true ∧ goes (exec i s) = true ∧
    (ex i s).me.hist.ic = s.me.hist.ic + 1) ∧
    (let i := Instr.cmp hd0 .lt 2 (.s 9) (.s 4) (.s 6); i.wf = true ∧ (ex i wv).me.hist.ic = wv.me.hist.ic + 1) := by
  decide +kernel

theorem witness_VectorIntegers : Calm wv = true ∧ ∀ i ∈ [Instr.vadd hd0 (.v 1) (.v 1) (.reg (.v 2)),
      .vand (hd1 0 (.v 1)) (.v 767) (.v 1) (.cross (.v 2) 0x21), .vmad hd0 (.v 2) .lid (.reg (.s 20)), .vclz hd0 .z (.v 1)],
    (match vecRow i with
      | some r =>
        let cs := if r.inv && vInvNow wv r.h r.a r.b r.d then [] else crumbV wv r.d (lanesOn wv r.h);
        Ready wv [.vector, .control] (r.h.gr :: r.reads ++ [r.d]) (r.h.gr :: r.reads) cs
      | none => false) = true := by decide +kernel

theorem witness_VectorFloats : Calm wv = true ∧ ∀ i ∈ [Instr.fadd hd0 .rup (.v 1) (.v 1) (.reg (.v 2)),
      .ffma (hd1 0 (.v 1)) .rne (.v 767) (.v 1) (.cross (.v 2) 1), .fexp2 hd0 .rne .z (.v 1)],
    (match fpRow i with
      | some r => Ready wv [.vector, .control] (r.h.gr :: r.reads ++ [r.d]) (r.h.gr :: r.reads)
          (crumbV wv r.d (lanesOn wv r.h))
      | none => false) = true := by decide +kernel

theorem witness_FormatsRoundTrip : 2 ^ 32 - 2 ^ 23 < 2 * fp32.top ∧ fp32.dec (2 ^ 32 - 2 ^ 23) ≠ .nan ∧
    0x80 < 2 * e5m2.top ∧ e5m2.dec 0x80 ≠ .nan := by decide +kernel

theorem witness_VectorSelects : (let s := wv; let h := hd1 0 (.v 1); let d := Reg.v 5; let a := Reg.v 1; let b := BOp.reg (.v 2);
    Calm s = true ∧
    (let cs := crumbLaneBit s h d 31 fun l => [srcL s a l, srcB s b l, srcL s h.gr l];
      Ready s [.vector, .control] [h.gr, a, b.r, d, d] [h.gr, a, b.r, d] cs = true) ∧
    Ready s [.vector, .control] [h.gr, a, b.r, d] [h.gr, a, b.r] (crumbV s d (upto 0 32)) = true ∧
    Ready s [.vector, .control] [h.gr, .v 0, .v 767, .v 0, .v 767] [h.gr, .v 0, .v 767] [] = true ∧
    (let q := Reg.s 9; q.isScalar = true ∧
      Ready s [.vector, .control] [h.gr, q, d] [h.gr, q] (crumbV s d (lanesOn s h)) = true)) := by decide +kernel

theorem witness_Conversions : (let s := wv; let h := hd1 0 (.v 1); let d := Reg.v 5; let a := Reg.v 1;
    Calm s = true ∧ Ty.f32.partOk 0 = true ∧ Ty.mk8.partOk 3 = true ∧
    Ready s [.vector, .control] (h.gr :: [a] ++ [d] ++ [d]) (h.gr :: [a] ++ [d]) (crumbV s d (lanesOn s h)) = true ∧
    Ty.bf16.partOk 1 = true ∧ Ty.i32.partOk 0 = true ∧
    Ready s [.vector, .control] (h.gr :: [a] ++ [] ++ [d]) (h.gr :: [a] ++ []) (crumbV s d (lanesOn s h)) = true ∧
    guardL s h 1 = true ∧ guardL s h 2 = false) := by decide +kernel

theorem witness_LaneInstructions : (let s := wv; let h := hd1 0 (.v 1); let a := Reg.v 1;
    Calm s = true ∧
    (let d := Reg.v 5; let cs := crumbV s d (lanesOn s h);
      Ready s [.vector, .control] (h.gr :: [a, .v 2] ++ [d]) (h.gr :: [a, .v 2]) cs = true ∧
      Ready s [.vector, .control] (h.gr :: [a] ++ [d]) (h.gr :: [a]) cs = true ∧
      Ready s [.vector, .control] (h.gr :: [a, .s 20] ++ [d]) (h.gr :: [a, .s 20]) cs = true ∧
      Ready s [.vector, .control] [h.gr, a, d] [h.gr, a] cs = true ∧ guardL s h (2 ^ 1 - 1) = true ∧
      guardL s h (2 ^ 2 + 2 ^ 1 - 1) = true ∧ d.isVZ = true ∧ (Reg.s 9).isScalar = true ∧
      Ready s [.vector, .control] [h.gr, .s 9, d, d] [h.gr, .s 9, d]
        (crumbLaneBit s h d 31 fun l => [srcL s (.s 9) l, srcL s h.gr l]) = true) ∧
    (let d := Reg.s 9; d.isV = false ∧ d.isSZ = true ∧ d.isS = true ∧
      Ready s [.vector, .control] [h.gr, a, d] [h.gr, a] (crumbS s d false) = true)) := by decide +kernel

theorem witness_VectorFrame : wv.me.isControl = false ∧
    (vecRow (.vand hd0 (.v 64) (.v 1) (.reg (.v 2)))).isSome = true ∧
    goes (exec (.vand hd0 (.v 64) (.v 1) (.reg (.v 2))) wv) = true ∧
    (fpRow (.fmax hd0 (.v 64) (.v 1) (.reg (.v 2)))).isSome = true ∧
    goes (exec (.fmax hd0 (.v 64) (.v 1) (.reg (.v 2))) wv) = true := by decide +kernel


/-- Registers with targets, and blocks there: a JOIN header, one without JOIN, one with ENTRY, a word that is no header. -/
def wt : State := regsOf (code (code (code (code wv 8 bothW) 9 nopW) 10 hdrW) 11 joinW)
  [(21, 0x10040), (22, 0x10041), (23, 0x10048), (24, 1), (25, 3)]

theorem witness_Transfers : let s := wt; let h := hd0;
    Able s h [.vector, .matrix, .copy, .control] [] [] [] = true ∧ s.me.isControl = false ∧
    (let va := s.me.at_.pc + (7 : BitVec 27).signExtend 64 * 8;
      fetchAt s va = .inr (w64 bothW) ∧ isHeader (w64 bothW) = true ∧ headerBad (w64 bothW) = false ∧
      hdrJoin (w64 bothW) = true ∧ hdrEntry (w64 bothW) = true) ∧
    fetchAt s (s.me.at_.pc + (8 : BitVec 27).signExtend 64 * 8) = .inr (w64 nopW) ∧ isHeader (w64 nopW) = false ∧
    fetchAt s (s.me.at_.pc + (9 : BitVec 27).signExtend 64 * 8) = .inr (w64 hdrW) ∧ hdrJoin (w64 hdrW) = false ∧
    fetchAt s (s.me.at_.pc + (10 : BitVec 27).signExtend 64 * 8) = .inr (w64 joinW) ∧ hdrEntry (w64 joinW) = false ∧
    (∀ d ∈ [Reg.z, .s 9], d.isSZ = true ∧ unguarded s [d] = true ∧ roomFor s (crumbS s d false) = true) ∧
    (∀ a ∈ [Reg.s 21, .s 22], a.isScalar = true ∧ Able s h [.vector, .matrix, .copy, .control] [a] [] [] = true) ∧
    (srcS s (.s 22)).v.toNat % 8 ≠ 0 ∧ (srcS s (.s 21)).v.toNat % 8 = 0 ∧
    fetchAt s (srcS s (.s 21)).v = .inr (w64 bothW) ∧
    (∀ d ∈ [Reg.s 24, .s 25], d.isSZ = true ∧ Able s h [.vector, .matrix, .copy, .control] [d] [d] [] = true ∧ h.gr ≠ d) ∧
    (srcS s (.s 24)).v = 1 ∧ (srcS s (.s 25)).v ≠ 1 := by decide +kernel

theorem witness_Transfers_guarded : let s := wt; let h := hd2 0 (.s 3);
    Ready s [.vector, .matrix, .copy, .control] [h.gr] [h.gr] [] = true ∧ Calm s = true ∧ s.me.isControl = false ∧
    (srcS s h.gr).p = false ∧ guardS s h = false ∧
    let u := poisoned s 3;
    Ready u [.vector, .matrix, .copy, .control] [h.gr] [h.gr] [] = true ∧ Calm u = true ∧ u.me.isControl = false ∧
    (srcS u h.gr).p = true ∧ frameOf u (.br h 7) = none := by decide +kernel

theorem witness_ControlSimple : (∀ s ∈ [wv, owing wv 1, busy wv], let h := hd0;
      Ready s [.vector, .matrix, .copy, .control] [h.gr] [h.gr] [] = true ∧ Calm s = true ∧ guardS s h = true ∧
      s.me.isControl = false) ∧
    wv.owing = false ∧ wv.me.sb = [] ∧ queuedMine wv = false ∧ (owing wv 1).owing = true ∧ (busy wv).me.sb ≠ [] ∧
    (let h := hd2 0 (.s 20); guardS wv h = false ∧ Ready wv [.vector, .matrix, .copy, .control] [h.gr] [h.gr] [] = true) := by
  decide +kernel

/-- A group with five instructions behind it, of which the last overwrote s9, at a horizon of 2. -/
def wh : State := { wv with me := { wv.me with
  hist := { wv.me.hist with ic := 5, hz := 2, crumbs := [mkCrumb 1 4 (argReg (.s 9)) [3]] }
  at_ := { wv.me.at_ with pc := 0x10010, hdr := 0xFFE0600000F00004 } } }
/-- As `wh`, with MOV s9, s20 as the instruction before its pc. -/
def wr : State := code (code (regsOf wh [(21, 5), (22, 1), (23, 6), (24, 4)]) 0 0xFFE0600000F00004) 1 0x03C0000449280000

theorem witness_Reversal : let s := wr; let h := hd0;
    s.me.isControl = false ∧ (∀ a ∈ [Reg.s 21, .s 22, .s 23, .s 24], a.isScalar = true ∧
      Able s h [.vector, .matrix, .copy, .control] [a] [] [] = true) ∧
    (srcS s (.s 21)).v = s.me.hist.ic ∧ s.me.hist.hz.toNat ≤ (srcS s (.s 21)).v.toNat ∧
    (srcS s (.s 22)).v.toNat < s.me.hist.hz.toNat ∧ s.me.hist.ic.toNat < (srcS s (.s 23)).v.toNat ∧
    (let v := (srcS s (.s 24)).v;
      s.me.hist.hz.toNat ≤ v.toNat ∧ v.toNat < s.me.hist.ic.toNat ∧
      (let u := (reverseTo s v (s.me.at_.pc - 8)).1;
        u.me.isControl = false ∧ reverseTo s v (s.me.at_.pc - 8) = (u, none))) := by decide +kernel

/-- A poison-origin entry and a flag; the control core. -/
def wp : State := { wv with me := { wv.me with pot := [(2, { oic := 7, valid := true, multi := false, cause := 1, va := 0x1234 })], fpflags := 2 } }

theorem witness_RegistersAndQuotas : (let s := wp; let h := hd0; let d := Reg.s 4;
      d.isSZ = true ∧ (Reg.s 9).isScalar = true ∧ s.me.isControl = false ∧ s.me.status = .run ∧
      Able s h [.vector, .matrix, .copy, .control] [.z] [d] [] = true ∧ roomFor s (crumbS s d false) = true ∧
      Able s h [.vector, .matrix, .copy] [.s 20] [d] [] = true ∧ isService s s.me = false ∧
      (Xsr.mk 0x045 6 3).readable = true ∧ (Xsr.mk 0x045 6 3).isDebug = true ∧ bits (srcS s (.s 20)).v 63 40 = 0) ∧
    (let s := c0; roomFor s (crumbS s (.s 4) false) = true ∧ s.me.isControl = true ∧
      Able s hd0 [.control] [.z] [.s 4] [] = true) ∧
    (let s := served wp; s.me.isControl = false ∧ isService s s.me = true ∧ bit s.myPart.policy.mask 0 = false ∧
      Able s hd0 [.vector, .matrix, .copy] [.s 20] [.s 4] [] = true ∧ roomFor s (crumbS s (.s 4) false) = true) ∧
    (let s := debugged (served wp); Able s hd0 [.vector, .matrix, .copy, .control] [.s 9] [] [] = true ∧
      isService s s.me = true ∧ bit s.myPart.policy.mask 0 = true) ∧
    (let s := served wp; Able s hd0 [.vector, .matrix, .copy, .control] [.z] [] [] = true ∧ (srcS s .z).v = 0 ∧
      (groupsOf s s.me.gang).all (·.role == .vector) = true ∧ s.myPart.service = some s.me.gang) := by decide +kernel

theorem witness_RegistersAndQuotas_quota : (∀ s ∈ [wv, quota wv 64],
      Able s hd0 [.vector, .matrix, .copy, .control] [.s 20] [.s 4] [] = true) ∧
    (let s := quota wv 64; let n := ((srcS s (.s 20)).v.toNat + 7) / 8 * 8;
      s.me.regs.quota + n ≤ 768 ∧ n ≤ corePool s s.me.seat.core ∧ olderGrow s s.me s.me.growRank = false) ∧
    (let s := quota (regsOf wv [(20, 56)]) 64; (srcS s (.s 20)).v.toNat / 8 * 8 + 8 ≤ s.me.regs.quota ∧
      Able s hd0 [.vector, .matrix, .copy, .control] [.s 20] [.s 4] [] = true) ∧
    768 < wv.me.regs.quota + ((srcS wv (.s 20)).v.toNat + 7) / 8 * 8 ∧ wv.me.isControl = false := by decide +kernel

theorem witness_ServiceSlots : let d := Reg.s 20; let a := Reg.s 9; let b := Reg.s 2;
    d.isSZ = true ∧ a.isScalar = true ∧ b.isScalar = true ∧
    (∀ s ∈ [wv, served wv, owing (served wv) 2], Able s hd0 [.vector] [a, b] [d] [] = true) ∧
    isService wv wv.me = false ∧ isService (served wv) wv.me = true ∧ (owing (served wv) 2).owing = true ∧
    (let s := served wv; let slot := ((srcS s a).v.extractLsb' 0 16).toNat;
      s.owing = false ∧ ((s.part s.myP).parks.any fun y => y.slot == slot && y.due.isNone) = false) := by decide +kernel

/-- A parked group. -/
def park0 : State := ex (.trap hd0 5) wh

theorem witness_HandlerActions : let s := park0; let g := s.me;
    ((s.part 0).parks.find? fun y => y.slot == 1 && y.due.isNone).isSome = true ∧
    ((s.part 0).parks.map fun x => (x.slot, x.who, x.code)) = [(1, .group g.key, 13)] ∧ s.group? g.key = some g ∧
    g.status = .parked ∧ g.marks.proof = false ∧ (0 : Word).toNat < g.hist.hz.toNat ∧
    g.hist.ic.toNat < (7 : Word).toNat ∧ workLeft s g = false ∧
    (let u := withMe s fun g => { g with acks := 1 }; workLeft u u.me = true ∧ u.group? u.me.key = some u.me ∧
      u.me.status = .parked ∧ u.me.marks.proof = false) := by decide +kernel

/-- The service gang with the page of VA 0x10000 to move to frame 0x400000; and with a cached leaf. -/
def wm : State := served (regsOf wv [(9, 0x10000), (20, 0x400000), (2, 0x10100)])

theorem witness_MigrateAndPurge : let s := wm; let d := Reg.s 2; let a := Reg.s 9; let b := Reg.s 20;
    d.isScalar = true ∧ a.isScalar = true ∧ b.isScalar = true ∧ Able s hd0 [.vector] [a, b, d] [] [] = true ∧
    isService s s.me = true ∧ s.owing = false ∧ AtRest s = true ∧ s.me.revoking = none ∧
    (withMe s fun g => { g with revoking := some (bits (srcS s b).v 63 52, (srcS s a).v.toNat / 65536) }).migrations = [] ∧
    (match migrateLeaf s (srcS s d).v.toNat (srcS s a).v.toNat (srcS s b).v with
      | .inr l => l.word == 0xF800000000230000
      | .inl _ => false) = true ∧
    (s.migrations.filter fun x => homeDie x.new == homeDie (bits (srcS s b).v 51 16 * 65536)).length < 64 ∧
    (srcS s a).v.toNat < 2 ^ 56 ∧ bits (srcS s b).v 51 40 = 0 ∧ bits (srcS s b).v 63 52 = 0 ∧
    (ex (.ld hd0 0 false (.s 30) (.imm (.s 2) 0)) s).cached ≠ [] := by decide +kernel

/-- A control core with both slots verified, the module quiesced, and a reply waiting. -/
def cw : State := regsOf { c0 with mem := c0.mem.setSched 0x80 [1, 2, 3] } [(9, 0x80), (20, 1), (2, 1000)]
def cv : State := { cw with
  zal := { (cw.zal.setVerified true true).setVerified false true with replies := [(cw.me.key, [5, 6, 7])] }
  quiesced := true }

theorem witness_Firmware : (∀ s ∈ [cw, cv], ∀ a ∈ [Reg.z, .s 9, .s 20, .s 2], Able s hd0 [.control] [a] [.s 4] [] = true) ∧
    (let s := cw; let at_ := (srcS s (.s 9)).v.toNat;
      at_ % 128 = 0 ∧ ctlOk s.me.key at_ 128 false = true ∧ mailboxBusy s s.me.key = false) ∧
    (let s := cv; let at_ := (srcS s (.s 9)).v.toNat;
      s.zal.replies.find? (·.1 == s.me.key) = some (s.me.key, [5, 6, 7]) ∧ at_ % 128 = 0 ∧ at_ + 128 ≤ 0xE00000) ∧
    (srcS cw .z).v.toNat = 0 ∧ (srcS cw (.s 2)).v.toNat = 1000 ∧
    (srcS cw (.s 20)).v.toNat = 1 ∧ cw.zal.verified true = false ∧
    (let s := { cv with quiesced := false }; s.zal.verified true = true ∧ s.quiesced = false) ∧
    cv.zal.verified false = true ∧ cv.quiesced = true ∧ false = cv.zal.active ∧ (srcS cv .z).v.toNat < 2 ∧
    cv.zal.verified true = true ∧ true ≠ cv.zal.active ∧ (srcS cv (.s 20)).v = 1 := by decide +kernel


/-- Registers that address the code page and local memory, and operand slot 0 on the code page. -/
def l0 : State :=
  let s := regsOf w0 [(3, 1), (9, 0x10100), (20, 0x10103), (2, 0x90000), (21, 0x40), (22, 0x10)];
  { s with launches := s.launches.map fun l => { l with tasks := l.tasks.map fun t =>
    { t with slots := [{ base := 0x10000, len := 0x10000, write := true, read := true, extents := [(0x230000, 0x10000)],
                         pages := [(0, 0x10000, 0xF800000000230000)] }] } } }
/-- As `l0`, with lanes 3 and 5 alone active, and lane offsets in v1 and v5. -/
def l2 : State := putV (putV (putV l0 (.v 6) [(3, { v := 16 }), (5, { v := 16 })]) (.v 1) [(3, { v := 12 }), (5, { v := 20 })])
  (.v 5) [(3, { v := 24 }), (5, { v := 40 })]
def h2 : Hd := hd1 4 (.v 6)

theorem witness_ScalarLoads : let s := l0; let h := hd0;
    h.scalar = true ∧ Settled s = true ∧
    (∀ d ∈ [Reg.z, .s 4], d.isSZ = true ∧ roomFor s (crumbS s d false) = true ∧
      ∀ m ∈ [Addr.imm (.s 9) 8, .ext 0 (.s 22), .imm (.s 2) 0, .imm (.s 20) 0], m.wfScalar = true ∧
        Able s h [.vector] (Addr.regs m) [d] [] = true) ∧
    (∀ m ∈ [Addr.imm (.s 9) 8, .ext 0 (.s 22)], let a := accAt s m 8 0 .read 0;
      a.va % 8 = 0 ∧ resolves a = true ∧ a.look.loadTrap s 8 = false) ∧
    (let a := accAt s (.imm (.s 2) 0) 8 0 .read 0; a.va % 8 = 0 ∧ resolves a = false) ∧
    (accAt s (.imm (.s 20) 0) 8 0 .read 0).va % 8 ≠ 0 ∧
    (let m := Addr.imm (.s 21) 8; let a := addrOf s m 0 0;
      Able s h [.vector] [.s 21] [.s 4] [] = true ∧ (s.myGang.on (localCore a)).lpoison = [] ∧ a % 8 = 0 ∧
      localDenied s a 8 = false) := by decide +kernel

theorem witness_ScalarLoads_control : let s := regsOf cw [(9, 0xDFFFF0)]; let m := Addr.imm (.s 9) 8;
    hd0.scalar = true ∧ (Reg.s 4).isSZ = true ∧ m.wfScalar = true ∧ roomFor s (crumbS s (.s 4) false) = true ∧
    Able s hd0 [.control] [.s 9] [.s 4] [] = true ∧ addrOf s m 0 0 % 8 = 0 ∧ addrOf s m 0 0 + 8 ≤ 0xE00000 := by
  decide +kernel

theorem witness_VectorLoads : let s := l2; let h := h2; let r : Fin 768 := 5;
    (∀ m ∈ [Addr.imm (.s 9) 8, .lane (.s 9) (.v 1), .imm (.s 21) 8, .lane (.s 21) (.v 1)],
      LanesAble s h [.vector] (Addr.regs m) [.v r] (crumbV s (.v r) (lanesOn s h)) = true) ∧ Settled s = true ∧
    (∀ l ∈ lanesOn s h, let a := accAt s (.imm (.s 9) 8) 4 4 .read l;
      a.va % 4 = 0 ∧ resolves a = true ∧ a.look.loadTrap s 4 = false) ∧
    (∀ l ∈ lanesOn s h, let a := accAt s (.lane (.s 9) (.v 1)) 2 0 .read l;
      a.va % 2 = 0 ∧ resolves a = true ∧ a.look.loadTrap s 2 = false) ∧
    (∀ l ∈ lanesOn s h, let a := addrOf s (.imm (.s 21) 8) l 4;
      a % 4 = 0 ∧ localDenied s a 4 = false ∧ (s.myGang.on (localCore a)).lpoison = []) ∧
    (∀ l ∈ lanesOn s h, let a := addrOf s (.lane (.s 21) (.v 1)) l 0;
      a % 1 = 0 ∧ localDenied s a 1 = false ∧ (s.myGang.on (localCore a)).lpoison = []) ∧
    s.me.sb.length < 8 ∧ lanesOn s h ≠ [] := by decide +kernel

theorem witness_VectorLoads_pair : let s := l2; let h := h2; let a := Reg.s 9; let b := Reg.v 5;
    LanesAble s h [.vector] [a, b] [.v 766, .v 767] [] = true ∧ Settled s = true ∧
    (∀ l ∈ lanesOn s h, let x := accAt s (.lane a b) 8 0 .read l;
      x.va % 8 = 0 ∧ resolves x = true ∧ x.look.loadTrap s 8 = false) ∧
    s.me.sb.length < 8 ∧ lanesOn s h ≠ [] := by decide +kernel

theorem witness_Stores : let s := l0; let h := hd0; let d := Reg.s 3;
    AtRest s = true ∧ h.scalar = true ∧ d.isScalar = true ∧ s.me.acks < 224 ∧ (s.gang? s.me.gang).isSome = true ∧
    (let m := Addr.imm (.s 9) 8; let a := accAt s m 8 0 .write 0;
      m.wfScalar = true ∧ Able s h [.vector] (Addr.regs m ++ [d]) [] [] = true ∧
      roomFor s (crumbMem (s.begin true true false [a]) .mem [a]) = true ∧ a.va % 8 = 0 ∧ a.look.storeDenied s 8 = none) ∧
    (let m := Addr.imm (.s 21) 8; let a := addrOf s m 0 0;
      m.wfImm = true ∧ Able s h [.vector] (Addr.regs m ++ [d]) [] [] = true ∧
      roomFor s (crumbMem s .lmem [mkAcc s .lmem m 8 0 .write 0]) = true ∧ a % 8 = 0 ∧ localDenied s a 8 = false) := by
  decide +kernel

theorem witness_Stores_lanes : let s := l2; let h := h2;
    lanesOn s h = [3, 5] ∧ s.me.acks < 224 ∧
    (∀ x ∈ [(Addr.imm (.s 9) 8, 4, 4), (.lane (.s 9) (.v 1), 1, 0)], let m := x.1; let n := x.2.1;
      let acc := accAt s m n x.2.2 .write;
      LanesAble s h [.vector] (Addr.regs m ++ [.v 2]) []
        (crumbMem (s.begin true true false ((lanesOn s h).map acc)) .mem ((lanesOn s h).map acc)) = true ∧
      (∀ l ∈ lanesOn s h, (acc l).va % n = 0 ∧ (acc l).look.storeDenied s n = none) ∧
      (∀ x ∈ lanesOn s h, ∀ y ∈ lanesOn s h, x ≠ y → ∀ k < n, ∀ j < n, (placeOf (acc x)).plus k ≠ (placeOf (acc y)).plus j)) ∧
    (let m := Addr.imm (.s 21) 8; m.wfLocal = true ∧
      LanesAble s h [.vector] (Addr.regs m ++ [.v 2]) []
        (crumbMem s .lmem ((lanesOn s h).map (mkAcc s .lmem m 4 4 .write))) = true ∧
      ∀ l ∈ lanesOn s h, addrOf s m l 4 % 4 = 0 ∧ localDenied s (addrOf s m l 4) 4 = false) := by decide +kernel

theorem witness_Atomics : let s := regsOf l0 [(10, 3), (11, 0x20), (30, 2 ^ 63 + 1), (31, 0x200)]; let h := hd0;
    let a := Reg.s 9; let d := Reg.s 10; let b := Reg.s 30;
    h.scalar = true ∧ a.isScalar = true ∧ Settled s = true ∧ s.owing = false ∧ s.me.sb.length < 8 ∧ s.me.free ≥ 4096 ∧
    (∀ n ∈ [4, 8, 16], let va := (srcS s a).v.toNat;
      va % n = 0 ∧ (Acc.mk 0 va n (look s va .write)).look.atomicDenied s n = none) ∧
    d.isSZ = true ∧ d.isS = true ∧ d.isPair = true ∧ b.isScalar = true ∧ b.isPair = true ∧
    Able s h [.vector] [a, b] [d] [] = true ∧ Able s h [.vector] [a, b] [.z] [] = true ∧
    Able s h [.vector] [a, b, Reg.next b] [d, Reg.next d] [] = true ∧
    Able s h [.vector] [a, b, Reg.next b] [.z, Reg.next .z] [] = true ∧
    Able s h [.vector] [a, b, d] [d] [] = true ∧
    Able s h [.vector] [a, b, Reg.next b, d, Reg.next d] [d, Reg.next d] [] = true := by decide +kernel

theorem witness_ExchangesAndReductions : let s := l2; let h := h2; let m := Addr.imm (.s 9) 8;
    Settled s = true ∧ s.owing = false ∧ s.me.free ≥ 4096 ∧ m.wfScalar = true ∧ hd0.scalar = true ∧
    Able s hd0 [.vector] (Addr.regs m ++ [.s 3]) [.s 3] [] = true ∧
    (let a := accAt s m 8 0 .write 0; a.va % 8 = 0 ∧ a.look.atomicDenied s 8 = none) ∧
    LanesAble s h [.vector] (Addr.regs m ++ [.v 2]) [.v 2] [] = true ∧ lanesOn s h = [3, 5] ∧
    (let acc := accAt s m 4 4 .write;
      (∀ l ∈ lanesOn s h, (acc l).va % 4 = 0 ∧ (acc l).look.atomicDenied s 4 = none) ∧
      (∀ x ∈ lanesOn s h, ∀ y ∈ lanesOn s h, x ≠ y → ∀ k < 4, ∀ j < 4, (placeOf (acc x)).plus k ≠ (placeOf (acc y)).plus j)) := by
  decide +kernel

theorem witness_ExchangesAndReductions_red : AOp.add.redOk = true ∧
    (∀ q ∈ [(1 : Fin 768), 6], let s := l2; let h := h2; let acc := accAt s (.lane (.s 9) (.v q)) 4 0 .write;
      LanesAble s h [.vector] [.s 9, .v q, .v 2] [] [] = true ∧ lanesOn s h = [3, 5] ∧
      ∀ l ∈ lanesOn s h, (acc l).va % 4 = 0 ∧ (acc l).look.atomicDenied s 4 = none) ∧
    (let acc := accAt l2 (.lane (.s 9) (.v 1)) 4 0 .write;
      ∀ k < 4, ∀ i < 4, (placeOf (acc 3)).plus k ≠ (placeOf (acc 5)).plus i) ∧
    (let acc := accAt l2 (.lane (.s 9) (.v 6)) 4 0 .write; placeOf (acc 3) = placeOf (acc 5)) := by decide +kernel

theorem witness_ExchangesAndReductions_mc : let s := regsOf l2 [(124, 0x10100), (125, 0x10200), (126, 0x10304), (127, 0x10400)];
    let h := h2; let base := fun i => if hi : 124 + i < 128 then Reg.s ⟨124 + i, hi⟩ else Reg.s 124;
    let acc := fun i l => accAt s (.imm (base i) 8) 4 4 .write l;
    124 + 3 ≤ 127 ∧ lanesOn s h = [3, 5] ∧ LanesAble s h [.vector] ((upto 0 4).map base ++ [.v 2]) [] [] = true ∧
    (∀ i ≤ 3, ∀ l ∈ lanesOn s h, (acc i l).va % 4 = 0 ∧ (acc i l).look.storeDenied s 4 = none) ∧
    (∀ i ≤ 3, ∀ i' ≤ 3, ∀ x ∈ lanesOn s h, ∀ y ∈ lanesOn s h, (i, x) ≠ (i', y) → ∀ k < 4, ∀ k' < 4,
      (placeOf (acc i x)).plus k ≠ (placeOf (acc i' y)).plus k') := by decide +kernel

/-- A send descriptor at VA 0x10200, a receive descriptor at 0x10280 with a ring of 4 at 0x10800 and one message in it;
unordered, ordered, and with its receive side on a peer. -/
def f0 : State := setw (setw (setw (setw (regsOf wv [(9, 0x10200), (10, 0x10280)]) 0x230200 0x10280) 0x230280 (2 * 2 ^ 56 + 0x10800))
  0x230290 1) 0x230298 0
def f1 : State := setw (setw (setw f0 0x230200 (0x10280 + 2 ^ 62)) 0x230280 (2 * 2 ^ 56 + 0x10800 + 2 ^ 62)) 0x230208 0
def f2 : State := let s := setw (setw f0 0x221010 (0xF800000000000000 + 3 * 2 ^ 50)) 0x230200 0x20000;
  { s with mem := s.mem.setBytes (.peer 0) (leBytes 8 (2 * 2 ^ 56)) }

theorem witness_Flows : let h := hd0;
    (Reg.s 9).isScalar = true ∧ (Reg.v 2).isVZ = true ∧ lanesOn f0 h ≠ [] ∧
    (∀ s ∈ [f0, f1], Settled s = true ∧ s.owing = false ∧ s.flying = none ∧ LanesAble s h [.vector] [.s 9, .v 2] [] [] = true ∧
      flowTarget s (addrOf s (.imm (.s 9) 0) 0 0) = .inr (.dev 0x230200, .dev 0x230280, some (.dev 0x230880)) ∧
      rxFull s (.dev 0x230280) = false ∧ bits (s.wordAt (.dev 0x230200) 1) 31 0 = rxNext s (.dev 0x230280)) ∧
    apart 0x230200 64 0x230280 64 = true ∧ apart 0x230200 64 0x230880 128 = true ∧ apart 0x230280 64 0x230880 128 = true ∧
    rxOrd f0 (.dev 0x230280) = false ∧ rxOrd f1 (.dev 0x230280) = true ∧
    (let s := f0; LanesAble s h [.vector] [.s 10] [.v 2] [] = true ∧
      descriptor s (addrOf s (.imm (.s 10) 0) 0 0) false = .inr (.dev 0x230280) ∧ rxLogn s (.dev 0x230280) ≠ 0 ∧
      look s (ringEntry s (.dev 0x230280) (rxCons s (.dev 0x230280))) .read = .ok (.dev 0x230800) 0xF800000000230000 ∧
      rxProd s (.dev 0x230280) ≠ rxCons s (.dev 0x230280)) := by decide +kernel

theorem witness_Flows_peer : let s := f2; let h := hd0;
    Settled s = true ∧ LanesAble s h [.vector] [.s 9, .v 2] [] [] = true ∧
      flowTarget s (addrOf s (.imm (.s 9) 0) 0 0) = .inr (.dev 0x230200, .peer 0, none) ∧ rxFull s (.peer 0) = false ∧
      s.owing = false ∧ portDead s (.peer 0) = false ∧ s.flying = none ∧
      (∀ b ∈ [0, 1], let m : Message := { flow := 3 * 2 ^ 50, seq := 0, data := [], ordered := false, sender := some s.me.key, placed := decide (b = 1) };
        ({ s with messages := [m] }).flying = some m) ∧
      portDead (s.setPort 0 { state := 4 }) (.peer 0) = true ∧
      flowTarget (s.setPort 0 { state := 4 }) (addrOf s (.imm (.s 9) 0) 0 0) = .inr (.dev 0x230200, .peer 0, none) := by
  decide +kernel

theorem witness_LoadFrame : l2.me.isControl = false ∧ l2.migrations = [] ∧ l2.mem.faulty = [] ∧ l2.coh.contended = [] ∧
    ∀ i ∈ [Instr.ld hd0 0 false (.s 30) (.imm (.s 2) 0), .ldl hd0 0 false (.s 30) (.imm (.s 21) 0),
        .vld h2 0 false (.v 767) (.imm (.s 9) 8), .vldl h2 0 false (.v 2) (.imm (.s 21) 8),
        .ldd h2 0 false (.v 2) (.imm (.s 9) 8)], i.wf = true ∧ goes (exec i l2) = true := by decide +kernel


theorem witness_FencesAndWaits : let s := regsOf w0 [(9, 5)]; let a := Reg.s 9; let h := hd0;
    a.isScalar = true ∧ (s.gang? s.me.gang).isSome = true ∧ Able s h [.vector, .control] [] [] [] = true ∧
    s.owing = false ∧ Able (owing s 1) h [.vector, .control] [] [] [] = true ∧ (owing s 1).owing = true ∧
    ((owing s 1).gang? (owing s 1).me.gang).isSome = true ∧
    (∀ u ∈ [s, busy s], Ready u [.vector] [h.gr] [h.gr] [] = true ∧ Calm u = true ∧ guardS u h = true ∧
      (u.gang? u.me.gang).isSome = true) ∧ s.me.sb = [] ∧ (busy s).me.sb ≠ [] ∧
    underQuota s [.v 767] = true ∧ unguarded s [.v 767] = true ∧ underQuota (busy s) [.v 1] = true ∧
    unguarded (busy s) [.v 1] = false ∧
    Able s h [.vector, .copy] [a] [] [] = true ∧ Able s h [.vector, .copy] [.z] [] [] = true ∧
    (let here := Tab.get 0 (s.myGang.on (s.myGang.coreIx s.me.gid)).wp 3;
      (srcS s .z).v.toNat + 0 ≤ here ∧ here < (srcS s a).v.toNat + 0) ∧
    s.myGang.stage + (srcS s a).v.toNat + 0x1FFFF < 2 ^ 32 ∧ Able s h [.vector] [] [] [] = true ∧
    (0 : Fin 8).val ≤ nodePoints s.myLaunch.img s.myGang.task.node := by decide +kernel

/-- Barrier 2 with one arrival of two and records of phases 1 and 2, or of the current phase; a gang without barriers. -/
def b0 : State := onGang (regsOf w0 [(9, 2), (20, 1)]) fun g =>
  g.setBar 2 { c := 2, arrived := 1, phase := 3, err := true, flags := [true, false, true] }
def b1 : State := { b0 with me := { b0.me with bars := [(2, [1, 2])] } }
def b2 : State := { b1 with me := { b1.me with bars := [(2, [3])] } }
def b3 : State := onGang w0 fun g => { g with desc := g.desc.set 0 (w64 (2 ^ 56 + 16 * 2 ^ 49 + 8 * 2 ^ 30)) }

theorem witness_Barriers : let h := hd0; let a := Reg.s 9; let k : Fin 16 := 2;
    a.isScalar = true ∧ (Reg.s 4).isSZ = true ∧
    (∀ s ∈ [w0, b1, b2, b3], (s.gang? s.me.gang).isSome = true) ∧
    (∀ s ∈ [b1, b2], Able s h [.vector, .matrix, .copy] [a] [] [] = true ∧ s.myGang.barBit k.val = true ∧
      Able s h [.vector, .matrix, .copy] [] [] [] = true ∧ Able s h [.vector, .matrix, .copy] [] [] [.s 4] = true) ∧
    0 < (srcS b1 a).v.toNat ∧ (srcS b1 a).v.toNat ≤ 65535 ∧
    (b1.myGang.bar 2).arrived < (srcS b1 a).v.toNat ∧ (srcS b1 (.s 20)).v.toNat ≤ (b1.myGang.bar 2).arrived ∧
    (b1.myGang.bar 2).c ≤ (b1.myGang.bar 2).arrived + 1 ∧
    (let s := onGang b1 fun g => g.setBar 2 { c := 3, arrived := 1, phase := 3 };
      (s.myGang.bar 2).arrived + 1 < (s.myGang.bar 2).c) ∧
    Tab.get [] b1.me.bars 2 ≠ [] ∧ (∀ p ∈ Tab.get [] b1.me.bars 2, p < (b1.myGang.bar 2).phase) ∧
    (b2.myGang.bar 2).phase ∈ Tab.get [] b2.me.bars 2 ∧ Tab.get [] w0.me.bars 15 = [] ∧ w0.myGang.barBit 15 = true ∧
    (let s := b3; Able s h [.vector, .matrix, .copy] [] [] [] = true ∧ s.myGang.barBit k.val = false ∧
      s.me.isControl = false) := by decide +kernel

/-- Ring 1 with four slots of 128 bytes at local 0x100. -/
def ringed (q : Ring) : State := onGang (regsOf w0 [(9, 0x100), (20, 0x900)]) fun g =>
  { g.setRing 1 { q with decl := w64 (4 * 2 ^ 57 + 16 * 2 ^ 47 + 0x100) } with
    desc := g.desc.set 0 (w64 (2 ^ 56 + 16 * 2 ^ 49 + 8 * 2 ^ 30 + 2 * 2 ^ 22)) }

theorem witness_Rings : let h := hd0; let a := Reg.s 9; let d := Reg.s 4; let mesh : List Role := [.vector, .matrix, .copy];
    a.isScalar = true ∧ d.isSZ = true ∧
    (∀ s ∈ [ringed {}, ringed { phase := 2, head := 1, tail := 0, claimed := [0] }, ringed { phase := 3, head := 0, tail := 3, taken := [0, 1] }],
      (s.gang? s.me.gang).isSome = true ∧ s.myGang.ringBit 1 = true ∧ Able s h mesh [] [d] [] = true ∧
      Able s h mesh [a] [] [] = true ∧ Able s h mesh [] [] [d] = true ∧
      (s.myGang.ring 1).slotOf (srcS s a).v.toNat = some 0) ∧
    (let q := (ringed {}).myGang.ring 1; q.phase.getLsbD q.tail = false ∧ q.tail ∉ q.claimed ∧ q.tail ∉ q.taken ∧ q.turnOf (.group w0.me.key) = true ∧
      ({ q with waiting := [.group 9] }).turnOf (.group w0.me.key) = false ∧
      q.phase.getLsbD q.head = false) ∧
    (let q := (ringed { phase := 2, head := 1, tail := 0, claimed := [0] }).myGang.ring 1;
      q.tail ∈ q.claimed ∧ q.phase.getLsbD q.head = true ∧ q.head ∉ q.taken ∧ 0 ∈ q.claimed) ∧
    (let q := (ringed { phase := 3, head := 0, tail := 3, taken := [0, 1] }).myGang.ring 1; q.head ∈ q.taken ∧ 0 ∈ q.taken) := by decide +kernel

/-- A descriptor of a tensor of 64 × 64 BF16 elements in v1, and a keep register's words in v2. -/
def t1 : State :=
  let words : Nat → List Nat → State → State := fun r ws s => putV s (.v ⟨r % 768, Nat.mod_lt _ (by decide)⟩)
    ((upto 0 (2 * ws.length)).map fun l => (l, { v := w32 (ws.getD (l / 2) 0 / 2 ^ (32 * (l % 2))) }));
  words 2 [2 ^ 58 + 2 ^ 49, 0x10000, 0x20000, 0] (words 1 [0x10000, 2 ^ 63 + 2 * 2 ^ 56 + 7 * 2 ^ 44, 64 + 64 * 2 ^ 32,
    1 + 2 ^ 32, 0x80, 0x2000, 0x2000, 0x10000] (regsOf w0 [(9, 5), (10, 1), (11, 2 ^ 47 + 0xFF * 2 ^ 48 + 2 ^ 24 + 0x800)]))
/-- The tensor bound, with no sweep at work. -/
def t2 : State := { ex (.tcBind hd0 (.v 1) (.s 9)) t1 with sweeps := [] }

theorem witness_Tiles : let h := hd0; let a := Reg.s 9; let b := Reg.s 10; let d := Reg.s 11;
    a.isScalar = true ∧ b.isScalar = true ∧
    (∀ l < 32, (srcL t1 (.v 1) l).p = false ∧ (srcL t1 (.v 2) l).p = false) ∧
    (let s := t1; let id := (srcS s a).v.toNat; AtRest s = true ∧ Able s h [.vector] [a] [] [.v 1] = true ∧ s.owing = false ∧ 0 < id ∧ id < 65536 ∧
      isClassId id = false ∧ bindBad s s.myP id (laneWords s (.v 1) 8) = false ∧ tValid (descWords s s.myP id) = false ∧
      Able s h [.vector] [] [] [.v 2] = true ∧ keepBad s.myPart 7 (laneWords s (.v 2) 4) = false) ∧
    (let s := t2; let id := (srcS s a).v.toNat; AtRest s = true ∧ Able s h [.vector] [a] [] [.v 1] = true ∧ s.owing = false ∧
      bindBad s s.myP id (laneWords s (.v 1) 8) = false ∧ tValid (descWords s s.myP id) = true ∧
      sweeping s s.myP id = false ∧ Able s h [.vector] [a] [] [] = true ∧ idBad s id = false ∧ isClassId id = false ∧
      (Reg.s 4).isSZ = true ∧ Able s h [.vector] [a, b] [] [.s 4] = true ∧ roomFor s (crumbBit s (.s 4) 31 false) = true ∧
      Able s h [.vector] [a, b] [] [] = true ∧ d.isScalar = true ∧ Able s h [.vector] [a, b, d] [] [] = true ∧
      subBad s (srcS s d).v = false ∧ (s.gang? s.me.gang).isSome = true) := by decide +kernel

/-- Content-named region 1 at VA 0x30000 with test naming; and with one line in it, named by s20, s30 and a root cell. -/
def n0 : State := let s := vecOf (regsOf w0 [(9, 0x30010), (10, 0x10100), (11, 1)]) 1 (fun l => 3 * l);
  let s := s.modPart 0 fun p => { p with cfg := Tab.set 0 p.cfg 2 (w64 (3 * 2 ^ 62 + 8 * 2 ^ 22 + 1)), policy := { p.policy with mask := 32 } };
  setw { s with gangs := s.gangs.map fun g => { g with policy := 32 } } 0x221018 0xFA00000000240000
def n1 : State := let s := ex (.cnPut hdm false 1 (.s 20) (.v 1)) n0; { s with mem := { s.mem with past := [] } }
def n3 : State := let s := { n1 with mem := n1.mem.setBytes (.dev 0x240010) (leBytes 16 (nameIn n1 (.s 20))) };
  putS (putS s (.s 30) (srcS s (.s 20))) (.s 31) (srcS s (.s 21))

theorem witness_ContentNames : let h := hd0; let i : Fin 128 := 20; let d := Reg.s 21;
    h.scalar = true ∧ (Reg.s i).isPair = true ∧ Reg.next (.s i) = d ∧
    (∀ s ∈ [n0, n1], Settled s = true ∧ cnTrap s 1 = none ∧
      (match cnReg? s s.myP 1 with
        | some x => decide (x.n ≠ 0) && Able s h [.vector] [] [.s i, d] [.v 1] && roomFor s (crumbName s (.s i) true) &&
          (putWalk s x (cnHash s x (lineIn s (.v 1))) (lineIn s (.v 1)) (upto 0 256) none).isSome
        | none => false) = true) ∧
    (∀ l < 32, (srcL n0 (.v 1) l).p = false) ∧
    (let s := n1; Able s h [.vector] [.s i, d] [] [] = true ∧
      LanesAble s h [.vector] [.s i, d] [.v 2] (crumbV s (.v 2) (lanesOn s h)) = true ∧ lanesOn s h ≠ [] ∧
      (match cnReg? s s.myP 1 with
        | some x => (match cnFind s x (nameIn s (.s i)) with
            | some (m, e) => m == cnSlotOf x (nameIn s (.s i)) && e.state == 1 && decide (e.count < 0xFFFFFFFF)
            | none => false) && (cnLine s x (nameIn s (.s i))).isSome
        | none => false) = true) := by decide +kernel

theorem witness_RootCells : let h := hd0; let i : Fin 128 := 20; let k : Fin 128 := 30; let d := Reg.s 21; let e := Reg.s 31;
    let a := Reg.s 9; let s := n3; let va := (srcS s a).v.toNat;
    h.scalar = true ∧ a.isScalar = true ∧ (Reg.s i).isPair = true ∧ Reg.next (.s i) = d ∧ (Reg.s k).isPair = true ∧
    Reg.next (.s k) = e ∧ Settled s = true ∧ cnTrap s 1 = none ∧
    look s va .read = .ok (.dev 0x240010) 0xFA00000000240000 ∧ cellTrap s va .read = none ∧
    Able s h [.vector] [a] [.s i, d] [] = true ∧ roomFor s (crumbName s (.s i) false) = true ∧
    roomFor s (crumbName s (.s i) true) = true ∧
    (match cnReg? s s.myP 1 with
      | some x => decide (x.n ≠ 0) && decide (0x240010 + 16 ≤ x.base ∨ x.base + x.len ≤ 0x240010) &&
        (match cnFind s x (ofLe (s.mem.bytes (.dev 0x240010) 16)) with
          | some (m, c) => m == cnSlotOf x (ofLe (s.mem.bytes (.dev 0x240010) 16)) && c.state == 1 && decide (c.count < 0xFFFFFFFF)
          | none => false) && cnLive s x (nameIn s (.s k))
      | none => false) = true ∧
    look s va .write = .ok (.dev 0x240010) 0xFA00000000240000 ∧ cellTrap s va .write = none ∧
    Able s h [.vector] [a, .s i, d, .s k, e] [.s i, d] [] = true ∧ s.owing = false := by decide +kernel

theorem witness_RootCells_out : let s := regsOf n1 [(9, 0x10100)]; let h := hd0; let a := Reg.s 9; let c := Reg.s 11;
    a.isScalar = true ∧ c.isScalar = true ∧ Settled s = true ∧ (cnReg? s s.myP 1).isSome = true ∧ cnTrap s 1 = none ∧
    Able s h [.vector, .copy] [.s 20, .s 21, a, c] [] [] = true ∧ s.myGang.barBit 15 = true ∧
    (s.gang? s.me.gang).isSome = true ∧ (srcS s a).v.toNat % 128 = 0 ∧ 0 < (srcS s c).v.toNat ∧
    (srcS s c).v.toNat ≤ 2 ^ 24 ∧ engineDenied s (srcS s a).v.toNat (128 * (srcS s c).v.toNat) = none := by decide +kernel


/-- A gang with 17 granules on its core, FP32 window handles in s11, records in s9, and a loop record in s12. -/
def m0 : State :=
  let s := onGang (regsOf w0 [(9, 2 ^ 60), (10, 0), (11, 256 * 2 ^ 22 + 16 * 2 ^ 14),
      (12, 2 * 2 ^ 56 + 8 * 2 ^ 44 + 16 * 2 ^ 35 + 2 ^ 27), (14, 2), (13, 16 * 2 ^ 22 + 8 * 2 ^ 14), (15, 2 ^ 32), (16, 20)]) fun g =>
    { g with desc := g.desc.set 0 (w64 (2 ^ 56 + 16 * 2 ^ 49 + 200 * 2 ^ 30 + 0xFFFF * 2 ^ 6)) }
  (s.modMyCore fun c => { c with granules := 17, acc := [(3, 0x3F800000), (130, 0x40000000)] }).modCore s.me.seat.core
    fun c => { c with free := 15 }
def mm : State := withRole m0 .matrix
/-- One instruction in the queue, 32 of them, and a halted queue. -/
def mE : MEntry := { i := .mma hd0 false 0 0 (.s 11) (.s 9) (.s 10), a := w64 (2 ^ 60), d := w64 (256 * 2 ^ 22 + 16 * 2 ^ 14), gang := 1, gid := 0, key := 132, core := 0, ic := 0 }
def mq (es : List MEntry) : State := mm.modCore 0 fun c => { c with queue := es, entered := es.length }
def mh : State := mm.modCore 0 fun c => { c with halted := true, disc := 3, code := 1, errOp := 5, errGid := 3, errIc := 77 }

theorem witness_MatrixQueue : let h := hd0; let a := (srcS mm (.s 9)).v; let b := (srcS mm (.s 10)).v; let hd := (srcS mm (.s 11)).v;
    let l := (srcS mm (.s 12)).v; let okRange := fun (la n : Nat) => localDenied mm la n = false ∧ la % 128 = 0;
    (∀ s ∈ [mm, mq (List.replicate 32 mE), mh], (s.gang? s.me.gang).isSome = true ∧
      Able s h [.matrix] [.s 10, .s 9, .z] [] [] = true ∧ Able s h [.matrix] [.s 9, .s 10, .s 11] [] [] = true ∧
      Able s h [.matrix] [.s 12, .s 9, .s 11] [] [] = true) ∧
    (Reg.s 9).isScalar = true ∧ (Reg.s 10).isScalar = true ∧ (Reg.s 11).isScalar = true ∧
    okRange b.toNat (64 * (0 + 1) * 128 * recEsz a) ∧ localTainted mm b.toNat (64 * (0 + 1) * 128 * recEsz a) = false ∧
    (match mm.win? hd with
      | some w => decide (16 ≤ w.rows) && decide (8 * (15 + 1) ≤ w.cols ∨ 8 * (1 + 1) ≤ w.cols) && decide (256 ≤ w.rows) &&
        decide (8 ≤ w.cols) && decide (loopOff l (loopCount l - 1) + 16 ≤ w.rows) && decide (loopN l ≤ w.cols)
      | none => false) = true ∧
    okRange b.toNat (16 * (64 * (0 + 1)) * recEsz a) ∧ loopCount l ≠ 0 ∧ bits l 26 24 = 0 ∧
    (∀ p < loopCount l, okRange (loopA l p) (16 * loopK l * recEsz a)) ∧ okRange b.toNat (4096 * recEsz a) ∧
    ((mm.core 0).halted = false ∧ (mm.core 0).queue.length < 32) ∧
    ((mq (List.replicate 32 mE)).core 0).halted = false ∧ 32 ≤ ((mq (List.replicate 32 mE)).core 0).queue.length ∧
    (mh.core 0).halted = true := by decide +kernel

theorem witness_Granules : let s := mm; let h := hd0; let d := Reg.s 4;
    d.isSZ = true ∧ (s.gang? s.me.gang).isSome = true ∧ Able s h [.matrix] [.s 13, .s 15] [d] [] = true ∧
    (srcS s (.s 13)).v &&& ~~~placementMask ≠ 0 ∧
    (let a := (srcS s .z).v; let b := (srcS s (.s 13)).v;
      Able s h [.matrix] [.z, .s 13] [d] [] = true ∧ a &&& ~~~placementMask = 0 ∧ b &&& ~~~sizeMask = 0 ∧
      (s.win? (a ||| b ||| 0)).isSome = true) ∧
    (∀ r ∈ [Reg.s 14, .s 16], Able s h [.matrix] [r, d] [d] [] = true ∧ Able s h [.matrix] [r] [] [] = true) ∧
    (let n := (srcS s (.s 14)).v.toNat; n ≤ (s.core 0).free ∧ s.myCore.granules + n ≤ 32 ∧ n ≤ s.myCore.granules) ∧
    (let n := (srcS s (.s 16)).v.toNat; n ≠ 0 ∧ (s.core 0).free < n) ∧ (s.core 0).queue = [] ∧
    (let s := mq [mE]; (s.gang? s.me.gang).isSome = true ∧ Able s h [.matrix] [.s 14] [] [] = true ∧ (s.core 0).queue ≠ []) := by
  decide +kernel

/-- A window of 2 rows and 3 columns in s11, an address in s13, a local one in s14 and an element in s15. -/
def mv : State := regsOf m0 [(11, 2 * 2 ^ 22 + 3 * 2 ^ 14 + 2 ^ 39 + 2 ^ 32), (13, 0x10100), (14, 0x80), (15, 2)]

theorem witness_Moves : let h := hd0; let ra := Reg.s 11;
    (∀ s ∈ [mv, withRole mv .matrix], (s.gang? s.me.gang).isSome = true ∧ (s.win? (srcS s ra).v).isSome = true) ∧
    h.scalar = true ∧ mv.me.role = .vector ∧
    (let s := mv; Able s h [.vector] [ra] [] [] = true ∧ Settled s = true ∧
      Able s h [.vector] [ra, .s 14] [] [] = true ∧ Able s h [.vector] [ra, .s 13] [] [] = true ∧
      (match s.win? (srcS s ra).v with
        | some w => let b := (srcS s (.s 14)).v.toNat; let va := (srcS s (.s 13)).v.toNat;
          !localDenied s b (4 * w.size) && b % 128 == 0 && va % 128 == 0 && decide (4 * w.size ≤ 128) &&
          (engineDenied s va (4 * w.size)).isNone && (engineDenied s va (2 * w.size)).isNone && !w.ek &&
          (upto 0 w.size).all fun e => decide ((w.pos e).1 / 16 ∉ s.myCore.accInvalid)
        | none => false) = true ∧
      lanesOn s h ≠ [] ∧ LanesAble s h [.vector] [ra, .s 15] [.v 2] [] = true ∧
      LanesAble s h [.vector] [ra, .s 15, .v 2] [] [] = true ∧ LanesAble s h [.vector] [ra, .v 2] [] [] = true) ∧
    (let s := withRole mv .matrix; (s.core s.me.seat.core).halted = false ∧ (s.core s.me.seat.core).queue.length < 32 ∧
      Able s h [.matrix] [ra] [] [] = true ∧ lanesOn s h ≠ [] ∧ LanesAble s h [.matrix] [ra, .s 15] [.v 2] [] = true) := by
  decide +kernel

theorem witness_MatrixWaits : let d := Reg.s 4; d.isSZ = true ∧
    (∀ s ∈ [mm, mh, mq [mE]], Able s hd0 [.matrix] [] [d] [] = true) ∧
    (let q := mm.core mm.me.seat.core; mm.me.mtarget.getD q.entered ≤ q.left ∧ q.queue = []) ∧
    (let q := mh.core mh.me.seat.core; mh.me.mtarget.getD q.entered ≤ q.left ∧ q.halted = true) ∧
    (let s := mq [mE]; (s.core 0).left < s.me.mtarget.getD (s.core 0).entered) := by decide +kernel

/-- The queue with an MB.LD at its head, with an MMA whose bank holds its record, and with an MMA of an ill-formed record. -/
def mLoad : MEntry := { i := .mbLd hd0 true 0 (.s 10) (.s 9), a := 0, b := w64 (2 ^ 60), gang := 1, gid := 0, key := 132, core := 0, ic := 0 }
def mBad : MEntry := { mE with a := w64 (7 * 2 ^ 60) }

/-- The one instruction of a queue is its next, whatever the free value says. -/
theorem nextEntry_single (s : State) (e : MEntry) : nextEntry s [e] = some e := by
  simp [nextEntry, firstBeside]

theorem witness_MatrixSteps : (∀ e ∈ [mLoad, mE, mBad], let s := mq [e];
      s.me.seat.core = 0 ∧ (s.gang? s.me.gang).isSome = true ∧ (∀ g ∈ s.rest, g.key ≠ s.me.key) ∧ e.key = s.me.key ∧
      (s.core 0).queue = [e]) ∧
    recBad mLoad.b (64 * (0 + 1)) = false ∧ recSf mLoad.b = 0 ∧
    (let s := mq [mE]; let e := mE; recBad e.a 64 = false ∧ recSf e.a = 0 ∧ (s.core 0).mb0.record = none ∧
      (s.core 0).mb0.invalid = false ∧ localTainted s e.b.toNat (16 * 64 * recEsz e.a) = false ∧ e.step < 64 / recBl e.a ∧
      (match s.win? e.d with
        | some w => w.ek == (recEf e.a == 3) && decide (16 ≤ w.rows) && decide (8 ≤ w.cols)
        | none => false) = true) ∧
    ((mq [mBad]).win? mBad.d).isSome = true ∧ mBad.step = 0 ∧ recBad mBad.a (64 * (0 + 1)) = true := by decide +kernel


/-- A powered module with its islands on and two ports, and a configured stack table, counters and ports. -/
def pw (s : State) : State :=
  { s with module := { s.module with powered := true, visible := true, up := true, islands := (upto 0 24).map fun i => (i, { on := true, mhz := 1000 }) } }
def ported (p : Port) : State := { pw w0 with ports := [(15, p), (2, { state := 2, rxNext := 3 })] }
def counted (s : State) (c r n : Nat) : State := { s with module := { s.module with counters := s.module.counters ++ [(c, r, n)] } }
def stacked (s : State) (f : Nat → Stack) : State := { s with hbm := (upto 0 12).map fun i => (i, f i) }

theorem witness_Power : State.reset.module.powered = false ∧
    (∀ st ∈ [0, 1], let s := ported { state := st }; s.module.up = true ∧ islandOn s 7 = true ∧ (s.port 15).state ≤ 1 ∧
      (s.port 15).failedLanes = []) ∧
    (pw w0).module.powered = true ∧ ((upto 0 16).any fun p => ((pw w0).part p).valid) = true ∧
    (let s := pw State.reset; s.module.powered = true ∧ ((upto 0 16).any fun p => (s.part p).valid) = false ∧
      islandOn s 23 = true ∧ islandOn s 0 = true ∧ quadrantBusy s 20 = false ∧ s.module.pwrOffReq = false ∧
      (∀ j < 24, islandRank 20 < islandRank j → islandOn s j = false) ∧
      (∃ j < 24, islandRank 7 < islandRank j ∧ islandOn s j = true) ∧
      (∀ j < 24, islandRank j < islandRank 23 → islandOn s j = true)) ∧
    (∃ j < 24, islandRank j < islandRank 23 ∧ islandOn State.reset j = false) := by decide +kernel

theorem witness_Links : (let s := ported { state := 2, rxNext := 4, buffer := [3, 4, 5] }; let p := s.port 15;
      p.state = 2 ∧ islandOn s 7 = true ∧ (4 : Nat) = p.rxNext ∧ 3 ≠ p.rxNext ∧ 8 ∉ p.carry ∧ 7 ∈ p.carry ∧
      windowCount s 0 (16 * 15 + 7) + 1 ≠ threshold s 0) ∧
    (∀ q ∈ [({ state := 2, asked := [4] } : Port), { state := 3, moving := some 3 }, { state := 2, spareOk := true }, { state := 2 }],
      let s := counted (ported q) 0 (16 * 15 + 7) 31;
      0 < threshold s 0 ∧ windowCount s 0 (16 * 15 + 7) + 1 = threshold s 0 ∧ (s.port 15).moving ≠ some 7 ∧
      7 ∉ (s.port 15).deferred ∧ (s.port 15).lanes4 = false ∧ (s.port 15).spareIn = false) ∧
    ({ state := 2, asked := [4] } : Port).replaying = true ∧ ({ state := 2 } : Port).replaying = false := by decide +kernel

theorem witness_Links_repair :
    (let p := (ported { state := 2, served := some 4 }).port 15; p.replaying = true ∧ p.deferred = []) ∧
    (∀ ok ∈ [0, 1], let p := (ported { state := 2, deferred := [3, 5], asked := [4], spareOk := decide (ok = 1) }).port 15;
      p.state = 2 ∧ p.deferred = [3, 5] ∧ 3 ∉ [5] ∧ p.replaying = true ∧ p.lanes4 = false ∧ p.spareOk = decide (ok = 1) ∧ p.spareIn = false) ∧
    (let p := (ported { state := 2, lanes4 := true, carry := [0, 1, 2, 3], failedLanes := [4, 5, 6], deferred := [7, 8] }).port 15;
      p.state = 2 ∧ p.deferred = [7, 8] ∧ 7 ∉ [8] ∧ p.lanes4 = true ∧
      ∀ l < 9, l ∈ p.carry ∨ l ∈ p.failedLanes ∨ l ∈ p.deferred) ∧
    (let p := (ported { state := 3, moving := some 3 }).port 15; p.state = 3 ∧ p.deferred = [] ∧ p.moving = some 3 ∧ p.lanes4 = false) ∧
    (let p := (ported { state := 3, moving := some 3, deferred := [4], asked := [1], lanes4 := true, carry := [0, 1, 2, 3] }).port 15;
      p.state = 3 ∧ p.replaying = true ∧ p.lanes4 = true ∧ p.freeLane = some 5) ∧
    (let p := (ported { state := 1, failedLanes := [1] }).port 15; p.state = 1 ∧ p.failedLanes ≠ [] ∧ p.lanes4 = false) ∧
    (let s := counted w0 1 3 31; windowCount s 1 3 < threshold s 1 ∧ threshold s 1 ≤ windowCount s 1 3 + 1) ∧
    ¬(threshold w0 1 ≤ windowCount w0 1 3 + 1) := by decide +kernel

theorem witness_MemoryErrors : (let s := counted (stacked (pw w0) fun _ => {}) 4 (0x230100 / 128) 1; let k := s.stack (stackOf 0x230100);
      0x230100 < devTop ∧ islandOn s 1 = true ∧ windowCount s 4 (0x230100 / 128) < threshold s 4 ∧
      windowCount s 4 (0x230100 / 128) + 1 = threshold s 4 ∧ k.spares ≠ 0 ∧
      windowCount s 4 1 + 1 ≠ threshold s 4 ∧ devTop - 1 < devTop) ∧
    (let s := stacked (pw w0) fun _ => { rowSpares := [(0, 3), (1, 1)] }; let k := s.stack 11;
      let u := { s with module := { s.module with due := [(3, rowRes 11 0 9), (2, laneRes 11 2047)] } };
      islandOn u 1 = true ∧ repairDue u 3 (rowRes 11 0 9) = true ∧ (k.rowSpares.filter (·.1 == 0)).length < 4 ∧
      repairDue u 2 (laneRes 11 2047) = true) ∧
    (let s := stacked (pw w0) fun i => { wm := 128 * i, running := true }; let k := s.stack 2; k.running = true ∧
      k.wm + 128 < 60 * 2 ^ 30 ∧ ∀ d ∈ s.mem.faulty, d.line ≠ stackPa 2 k.wm / 128) ∧
    (let s := stacked (pw w0) fun i => { wm := 60 * 2 ^ 30 - 128, running := decide (i ∈ [0, 2]), done := decide (i ∉ [0, 2]) };
      (s.stack 2).running = true ∧ 60 * 2 ^ 30 ≤ (s.stack 2).wm + 128 ∧ s.mem.faulty = [] ∧ (s.stack 0).done = false) ∧
    (let s := stacked (pw w0) fun i => { wm := 60 * 2 ^ 30 - 128, running := decide (i = 2), done := decide (i ≠ 2) };
      (s.stack 2).running = true ∧ 60 * 2 ^ 30 ≤ (s.stack 2).wm + 128 ∧ (∀ m < 12, m ≠ (2 : Fin 12).val → (s.stack m).done = true) ∧
      s.module.scrubLate = false ∧ s.module.powered = true ∧ (s.stack 11).done = true ∧ s.module.modKeys.cur = 0) ∧
    (let s := stacked (pw w0) fun _ => {}; s.module.powered = true ∧ ∀ n < 12, (s.stack n).running = false ∧ (s.stack n).done = false) ∧
    ∀ c ∈ [0, 1], ({ mem := { cur := c } } : Keys).mem.cur = c := by
  decide +kernel

/-- A line under the watermark whose entry is neither its tag nor 0, and one whose entry is 0. -/
def passing : State := stacked (pw w0) fun _ => { running := true }
def disturbed (e : Nat) : State :=
  { passing with mem := { passing.mem with faulty := [{ line := stackPa 2 0 / 128, cipher := [7], entry := e }] } }

theorem witness_MemoryErrors_scrub : let line := stackPa 2 0 / 128; let bad := if tagOf (disturbed 0) line [7] = 1 then 2 else 1;
    ∀ e ∈ [0, bad], ∃ d : Disturbed, (disturbed e).mem.faulty.find? (·.line == line) = some d ∧ d.entry = e ∧
      d.entry ≠ tagOf (disturbed e) line d.cipher := by
  intro line bad e he
  refine ⟨⟨line, [7], e⟩, by simp [disturbed, line], rfl, ?_⟩
  have same : tagOf (disturbed e) line [7] = tagOf (disturbed 0) line [7] := by
    unfold tagOf disturbed
    simp only [lineKey_withMem]
  show e ≠ tagOf (disturbed e) line [7]
  rw [same]
  have pos : 1 ≤ tagOf (disturbed 0) line [7] := Nat.le_max_left ..
  simp only [List.mem_cons, List.not_mem_nil, or_false] at he
  rcases he with rfl | rfl
  · omega
  · show (if tagOf (disturbed 0) line [7] = 1 then 2 else 1) ≠ _
    split <;> omega

/-- Failed requests and contended lines; a page that migrates, with three lines or all of them moved; a sweep at work; an
operand that says it is reused. -/
def hc : State := { w0 with coh := { w0.coh with
  failures := [(1, 2, 4), (3, 2, 2)]
  persistent := [(5, 2)]
  contended := [{ line := 0x240000 / 128, dies := [
    { die := 0, writes := [1], held := [⟨1, 8, .group 5, 1⟩] },
    { die := 1, reads := [1], writes := [1, 3], held := [⟨1, 7, .group 6, 2⟩, ⟨3, 7, .group 6, 3⟩] }] }] } }
/-- A contended line that two dies read and one of them wrote elsewhere; a line that a merge has returned just now. -/
def peaceful : State := { hc with coh := { hc.coh with
  contended := [{ line := 0x240000 / 128, dies := [{ die := 0, reads := [1] }, { die := 1, reads := [1], writes := [3], held := [⟨3, 7, .group 6, 3⟩] }] }]
  quiet := [(7, 0)] } }
def mig (v : List Nat) : State := { w0 with
  migrations := [{ part := 0, asid := 0, va := 0x10000, old := 0x230000, new := 0x300000, leafPa := 0x221008, valid := v }]
  sweeps := [⟨0, 2, true⟩] }
def hot (n : Nat) : State := { w0 with launches := w0.launches.map fun l => { l with tasks := l.tasks.map fun t =>
  { t with slots := [{ reuse := 1, base := 5, len := 7 }, { reuse := 2 }], reported := [(0, n)] } } }

theorem witness_Homes : failuresOf hc.coh 1 2 = 4 ∧ (∀ x ∈ hc.coh.persistent, x.1 ≠ 1) ∧ failuresOf hc.coh 3 2 < 4 ∧
    (∀ x ∈ hc.coh.persistent, x.1 ≠ 3) ∧ (hc.coh.persistent.find? fun x => x.2 == 2) = some (5, 2) ∧
    128 * 7 < devTop ∧ (∀ c ∈ hc.coh.contended, c.line ≠ 7) ∧ (∀ q ∈ hc.coh.quiet, q.1 ≠ 7) ∧ (7, 0) ∈ peaceful.coh.quiet := by
  decide +kernel

theorem witness_Homes_contended :
    (∀ s ∈ [hc, peaceful], ∀ c ∈ s.coh.contended, ∀ d < 4, ∀ h ∈ (c.of d).held, h.off < 128) ∧
    (peaceful.coh.contended.map (·.conflict)) = [false] ∧ (hc.coh.contended.map (·.conflict)) = [true] ∧
    (∀ c ∈ hc.coh.contended, 0x240001 / 128 = c.line ∧ 0x240080 / 128 ≠ c.line ∧
      (∀ d < 4, ∀ h ∈ (c.of d).held, h.off ≠ 0x240002 % 128) ∧
      ∀ h ∈ [(⟨1, 7, .group 6, 2⟩ : HeldByte), ⟨3, 7, .group 6, 3⟩], h ∈ (c.of 1).held ∧
        (∀ x ∈ (c.of 1).held, x.off = h.off → x = h) ∧ ∀ e < 4, 1 < e → ∀ x ∈ (c.of e).held, x.off ≠ h.off) := by
  decide +kernel

theorem witness_Homes_migration : AtRest { mig [0, 1, 3] with migrations := [] } = true ∧
    (∀ m ∈ (mig [0, 1, 3]).migrations, m.old + 65536 ≤ devTop ∧ apart m.old 65536 m.new 65536 = true ∧
      apart m.leafPa 8 m.new 65536 = true ∧ (511 : Nat) ∉ m.valid ∧ 2 ∉ m.valid ∧ m.valid.length < 511 ∧
      (mig [0, 1, 3]).mem.poisoned (m.old + 128 * 511) = false ∧ ∀ i < 2, i ∈ m.valid) ∧
    (∀ m ∈ (mig (upto 0 512)).migrations, m.valid = upto 0 512) ∧ sweeping (mig []) 0 2 = true ∧
    (∀ n ∈ [0, 1, 64], ((hot n).gang? 1).map (fun g => (g.life, ((hot n).task g.task).slots.drop 0, Tab.get 0 ((hot n).task g.task).reported 0)) =
      some (.live, [{ reuse := 1, base := 5, len := 7 }, { reuse := 2 }], n)) ∧
    contradicts 1 12 97 = true ∧ contradicts 1 12 96 = false := by decide +kernel

/-- Whether the tables have been enabled is a free value: of the two clauses the one that it decides is met. -/
theorem witness_Homes_tables :
    (let s := w0.modPart 0 fun p => { p with policy := { p.policy with mask := 2 } };
      ownerOf s (65536 * 35) = some 0 ∧ tableOn s (some 0) = Config.tablesEnabled s.tick ∧ isRemote 2 0x13 = true ∧
      isRemote 2 3 = true ∧ homeDie (65536 * 35) = 2 / 3 ∧ s.blockCounts = [] ∧ isRemote 2 0 = false ∧ isRemote 2 0x25 = false) := by
  refine ⟨by decide +kernel, ?_, by decide, by decide, by decide +kernel, by decide +kernel, by decide, by decide⟩
  simp only [tableOn, show bit (((w0.modPart 0 fun p => { p with policy := { p.policy with mask := 2 } }).part 0).policy.mask) 1 = true by
    decide +kernel, Bool.or_true, Bool.true_and]

/-- A region with a pending name: the one line of `n1` dropped. -/
theorem witness_Homes_reclaim : let s := ex (.cnDrop hd0 1 (.s 20)) n1;
    (match cnReg? s 0 1 with
      | some x => let m := cnSlotOf x (nameIn s (.s 20)); let e := cnEntry s x m;
        decide (m < x.n) && e.state == 2 && !e.node && !dropHeld { s with me := { s.me with drops := [] } } 0 x.ix m
      | none => false) = true ∧ s.mem.poison = [] ∧ AtRest s = true := by decide +kernel


/-- The module up, with the PF and VF 0 reaching their windows, and an image of one node with handle 3 resident. -/
def hw : State := pw w0
def putAt (l : List Byte) (o n v : Nat) : List Byte := l.take o ++ leBytes n v ++ l.drop (o + n)
def img0 : List Byte := [(0, 8, 0x4C51473101 * 2 ^ 24 + 1), (8, 8, 512), (48, 1, 255), (320, 8, 2 ^ 56 + 12 * 2 ^ 49), (336, 8, 2 ^ 14 + 8),
  (384, 8, 2 ^ 48 + 1), (400, 8, 10 * 2 ^ 43)].foldl (fun l x => putAt l x.1 x.2.1 x.2.2) (List.replicate 512 0)
def graphed : State := hw.modPart 0 fun p => { p with graphs := [{ handle := 3, img := img0 }] }
/-- A trigger packet for a handle with N patches, and a trigger in the FIFO. -/
def packet (n handle : Nat) : List Byte := leBytes 8 (7 * 2 ^ 48 + n * 2 ^ 19 + handle) ++ leBytes 8 (2 ^ 56 + 77) ++ List.replicate 16 0
def triggered : State := { ex (.trigger 0 0x100 false (packet 1 3)) graphed with launches := [] }
/-- An upload: not begun, with a chunk that is being taken in, complete, and part of an image. -/
def ctl1 (len : Nat) : Word := w64 (3 * 2 ^ 48 + 2 ^ 47 + len)
def uploading (c : Option Nat) (imglen : Nat) (bs : List Byte) : State :=
  hw.modFn 0 fun x => { x with gupState := 1, chunk := c, upload := some { handle := 3, part := 0, imglen, bytes := bs } }

theorem witness_HostWindow : reaches graphed 0 = true ∧ reaches graphed 1 = true ∧ drives graphed 0 = true ∧
    drives graphed 1 = false ∧ triggerCause graphed 0 0x100 false (packet 1 4) = 3 ∧ triggerCause graphed 0 0x100 false (packet 1 3) = 0 ∧
    (32 ≤ (packet 3 3).length ∧ bits (w64 (leAt (packet 3 3) 0 8)) 23 19 ≤ 3) ∧
    (let s := triggered; (s.part 0).fifo.length = 1 ∧ s.quiesced = false ∧
      (s.launches.filter (·.part == 0)).length < 256 ∧ s.launches = []) ∧
    (let s := hw; bit (ctl1 64) 47 = true ∧ (s.fn 0).gupState ≠ 1 ∧ bits (ctl1 64) 31 0 ≠ 0 ∧ bit (ctl1 0) 47 = true ∧
      bits (ctl1 0) 31 0 = 0) ∧
    ((uploading (some 0) 64 []).fn 0).gupState = 1 ∧ ((uploading none 64 []).fn 0).chunk = none ∧
    ((uploading none 64 []).fn 0).upload.isSome = true ∧
    (let x := (uploading (some 0) 64 [1]).fn 0; x.chunk = some 0 ∧ (x.upload.map fun u => decide (u.bytes.length < u.imglen)) = some true) ∧
    (let s := uploading (some 0) 512 img0; let x := s.fn 0;
      x.chunk = some 0 ∧ (x.upload.map fun u => u.bytes.length == u.imglen) = some true ∧ (s.part 0).valid = true ∧
      driverOf s 0 = some 0 ∧ imgNodes img0 ≠ 0 ∧ imageCause s 0 128 3 img0 = 0) := by decide +kernel

/-- A park queue entry of each type; and a parked group with its slot. -/
def entry (t : Nat) (h : Bool) : Entry := { toHost := h, slot := 1, fn := some 0, words := [w64 (t * 2 ^ 56), 1, 2, 3, 4, 5, 6, 7] }
def queued (es : List Entry) : State := hw.modPart 0 fun p => { p with entries := es }

theorem witness_HostWindow_queues :
    (∀ p < 16, (hw.part p).heldRecs = [] ∧ (hw.part p).ovf = none) ∧ (64 : Word).toNat % 4096 ≠ 0 ∧
    (64 : Word).toNat = 2 ^ 6 ∧ (6 : Nat) ≤ 16 ∧ (∀ k, 6 ≤ k → k ≤ 16 → (65 : Word).toNat ≠ 2 ^ k) ∧ fqCmdBad 0 = true ∧
    driverOf hw (actsFor hw 0) = some 0 ∧ (∀ y ∈ (hw.part 0).parks, y.slot ≠ 1) ∧
    (let s := (queued [entry 1 true, entry 2 true]).modFn 0 fun x => { x with fqBase := 0x1000, fqSize := 64, fqProd := 70, fqCons := 8 };
      let x := s.fn 0; driverOf s 0 = some 0 ∧ (s.part 0).entries = [entry 1 true, entry 2 true] ∧ x.fqSize ≠ 0 ∧
      (w64 x.fqProd - w64 x.fqCons).toNat < x.fqSize ∧ (s.part 0).heldRecs = []) ∧
    (let s := queued [entry 1 true]; (s.fn 0).fqSize = 0 ∧ bits (wordAt (entry 1 true).words 0) 63 56 = 1 ∧
      (s.part 0).heldRecs.length < 256 ∧ driverOf s 0 = some 0 ∧ bits (wordAt (entry 2 true).words 0) 63 56 = 2) ∧
    (let s := queued [entry 2 false]; (s.part 0).entries = [entry 2 false] ∧ s.migrations = [] ∧ parkQueueAt s 0 = none) ∧
    parkQueueAt (setw (setw (served (queued [entry 2 false])) 0x230000 0) 0x230008 0) 0 = some (.dev 0x230000, .dev 0x230040) ∧
    apart 0x230000 8 0x230040 (8 * (entry 2 false).words.length) = true := by
  refine ⟨by decide +kernel, by decide, by decide, by decide, ?_, by decide +kernel, by decide +kernel, by decide +kernel,
    by decide +kernel, by decide +kernel, by decide +kernel, by decide +kernel, by decide⟩
  intro k h6 h16
  interval_cases k <;> decide

/-- Both image slots written; a partition in RUN with a blob staged, one locked, one that is not configured. -/
def zw : State := { hw with zal := { hw.zal with slotA := some [1], slotB := some [2] } }
def running : State := zw.modPart 0 fun p => { p with tdi := .run, tenantKey := some 4, nonce := some 9 }
def lockedW : State := zw.modPart 0 fun p => { p with tdi := .locked }
def unconf : State := zw.modPart 0 fun p => { p with cfg := Tab.set 0 p.cfg 0 0x2200 }
/-- A staging command of 8 × 16 bytes, and one whose length is odd. -/
def fw (n : Nat) : State := { zw with zal := { zw.zal with fwCmd := some (w64 (2 ^ 60 + 8 * 2 ^ 32 + n)), fwState := 1, fwData := [(0, 5), (3, 7)] } }
/-- A control core at its word, at a word it may not fetch, and the same in a first window after a switch. -/
def ct : State := { c0 with zal := { c0.zal with slotA := some [1], slotB := some [2] } }
def stray : State := { ct with me := { ct.me with at_ := { ct.me.at_ with pc := 0 } } }

theorem witness_ControlWindow :
    (let s := running; reaches s 1 = true ∧ (s.fn 1).dpState ≠ 1) ∧
    ((running.modFn 1 fun x => { x with dpState := 1 }).fn 1).dpState = 1 ∧
    policyCause (running.part 0) 0 (staged ((running.fn 1).dpBlob) 128) = 2 ∧
    reaches zw 0 = true ∧ (zw.part 15).tdi = .unlocked ∧ (7 : Fin 8) ≠ 0 ∧
    ((zw.part 0).valid = true ∨ (zw.part 0).preparing.isSome = true) ∧
    (let s := unconf; let v : Word := 0x8000000000002200;
      (s.part 0).tdi = .unlocked ∧ (s.part 0).valid = false ∧ bit v 63 = true ∧
      cfgOk s 0 ((v &&& 0x80000000000FFFFF) :: (upto 1 7).map (s.part 0).reg) = true) ∧
    (zw.part 0).tdi = .unlocked ∧ (zw.part 0).valid = true ∧
    (lockedW.part 0).tdi = .locked ∧
    ((unconf.modPart 0 fun p => { p with preparing := some 0x8000000000002200 }).part 0).preparing = some 0x8000000000002200 ∧
    bits (w64 (3 * 2 ^ 60)) 63 60 = 3 ∧ zw.zal.fwState ≠ 1 ∧ (fw 16).zal.fwState = 1 ∧
    (fw 17).zal.fwCmd.isSome = true ∧ fwRefused (fw 17).zal (w64 (2 ^ 60 + 8 * 2 ^ 32 + 17)) ≠ 0 ∧
    fwRefused (fw 16).zal (w64 (2 ^ 60 + 8 * 2 ^ 32 + 16)) = 0 ∧ bits (w64 (2 ^ 60 + 8 * 2 ^ 32 + 16)) 63 60 = 1 := by decide +kernel

theorem witness_ControlWindow_cores :
    (∀ s ∈ [ct, stray], s.me.key = (0 : Fin 4).val ∧ s.me.isControl = true ∧ s.me.status = .run ∧ ∀ g ∈ s.rest, g.key ≠ 0) ∧
    fallIn ct = .inr ct ∧ fetchTraps stray = true ∧ stray.zal.windowOpen = false ∧
    (let s := { stray with zal := { stray.zal with windowOpen := true, prev := true } }; fetchTraps s = true ∧ s.zal.windowOpen = true) ∧
    watchdogRuns ct = true ∧ ct.zal.windowOpen = false ∧
    (let s := { ct with zal := { ct.zal with windowOpen := true } }; watchdogRuns s = true) ∧
    (let s := { zw with zal := { zw.zal with requests := [(3, [2, 31])] } };
      s.zal.requests = [((3 : Fin 4).val, [2, 31])] ∧ bits (wordAt [2, 31] 0) 7 0 = 2 ∧ (measurement s 31).isSome = true) ∧
    measurement zw 32 = none ∧ bits (wordAt [0, 77] 0) 7 0 = 0 := by decide +kernel

/-- A partition with an owner's key, no launch and fresh storage keys; and the same locked. -/
def owned : State := { (hw.modPart 0 fun p => { p with keys := some {}, tenantKey := some 5 }) with launches := [] }
def lockedO : State := owned.modPart 0 fun p => { p with tdi := .locked, nonce := some 9 }
def spdm (n : Nat) : State := { zw with zal := { zw.zal with spdm := n, sessions := [1, 2], pendingSessions := [0], streams := [(3, 1), (4, 2)] } }

theorem witness_Ownership : hostUp State.reset = false ∧
    (∀ s ∈ [owned, lockedO, spdm 1, spdm 2, spdm 3, running], hostUp s = true) ∧ owned.zal.sessions = [] ∧
    ({ owned with zal := (spdm 3).zal }).zal.sessions ≠ [] ∧ (running.part 0).tdi = .run ∧
    (lockedO.part 0).tdi ≠ .unlocked ∧ (unconf.part 0).valid = false ∧ (zw.part 0).tenantKey = none ∧
    (let s := owned; (s.part 0).tdi = .unlocked ∧ (s.part 0).keys = some {} ∧ (s.part 0).valid = true ∧
      (s.part 0).tenantKey.isSome = true ∧ lockBusy s 0 = false) ∧
    (let s := graphed.modPart 0 fun p => { p with tenantKey := some 5 }; (s.part 0).tdi = .unlocked ∧ (s.part 0).valid = true ∧
      (s.part 0).tenantKey.isSome = true ∧ lockBusy s 0 = true) ∧
    (let s := lockedO; (s.part 0).tdi ≠ .unlocked ∧ (s.part 0).tdi = .locked ∧ (s.part 0).keys = some {} ∧
      (s.part 0).nonce = some 9 ∧ (s.part 0).nonce ≠ some 8) ∧
    (spdm 1).zal.spdm = 1 ∧ (spdm 2).zal.spdm = 2 ∧ (spdm 3).zal.spdm = 3 ∧
    (measurement (spdm 3) 4).isSome = true ∧ freeSession (spdm 3).zal < 4 ∧
    freeSession { (spdm 3).zal with sessions := [0, 1, 2, 3], pendingSessions := [] } = 4 ∧
    0 ∈ (spdm 3).zal.pendingSessions ∧ 2 ∈ (spdm 3).zal.sessions ∧ 15 < 16 ∧ 0 ∉ (spdm 3).zal.sessions := by decide +kernel


/-- A launch of the graph of one node, its task queued; with the operand list walked; and with an operand list that lies
outside every mapped page. -/
def q0 : State :=
  let s := graphed.modPart 0 fun p => { p with nextLaunch := 1 };
  { ex (.triggerDequeue 0) { ex (.trigger 0 0x100 false (packet 0 3)) s with launches := [] } with gangs := [], rest := [] }
def tid : TaskId := (q0.launches.flatMap (·.tasks)).head?.elim default (·.id)
def tasks (s : State) (f : Task → Task) : State := { s with launches := s.launches.map fun l => { l with tasks := l.tasks.map f } }
def q1 : State := tasks q0 fun t => { t with walked := true }
def qh : State := { q0 with launches := q0.launches.map fun l =>
  { l with img := putAt (putAt (putAt (putAt l.img 400 8 0x9990000) 408 8 65536) 392 8 (400 * 2 ^ 32)) 400 8 (10 * 2 ^ 43 + 2 ^ 51) } }

theorem witness_Dispatching : (q0.task? tid).isSome = true ∧ (q0.task tid).life = .queued ∧ (q0.task tid).walked = false ∧
    walkTask q0 tid = .slots [] ∧ (match walkTask qh tid with | .hold _ _ => true | _ => false) = true ∧
    (let s := tasks q0 fun t => { t with proofing := true, life := .running };
      (s.task? tid).isSome = true ∧ (s.task tid).proofing = true ∧ (s.task tid).life = .running ∧
      (∀ y ∈ (s.task tid).sources, (s.task y).life = .complete) ∧ (s.task tid).touched = false ∧ (s.task tid).conflict = false) ∧
    (let s := tasks q0 fun t => { t with proofing := true, life := .running, touched := true }; (s.task tid).touched = true) ∧
    q1.quiesced = false ∧ { q1 with quiesced := true }.quiesced = true ∧ badReplay q1 = none := by decide +kernel

/-- Two nodes, of which the second waits on an optional edge from early point 1 of the first. -/
def img1 : List Byte :=
  let node : Nat → List (Nat × Nat × Nat) := fun o => [(o, 8, 2 ^ 56 + 12 * 2 ^ 49), (o + 16, 8, 2 ^ 14 + 8), (o + 64, 8, 2 ^ 48 + 1), (o + 80, 8, 10 * 2 ^ 43)];
  ([(0, 8, 0x4C51473101 * 2 ^ 24 + 2), (8, 8, 512), (48, 1, 255)] ++ node 320 ++ node 448 ++
    [(600, 8, 2 ^ 48 + 2 ^ 43 + 2 ^ 42), (392, 8, 600), (400, 8, 2 ^ 56 + 2 ^ 48 + 10 * 2 ^ 43)]).foldl
    (fun (l : List Byte) (x : Nat × Nat × Nat) => putAt l x.1 x.2.1 x.2.2) (List.replicate 768 0)
def edged : State :=
  let s := hw.modPart 0 fun p => { p with graphs := [{ handle := 3, img := img1 }], nextLaunch := 1 };
  tasks (ex (.triggerDequeue 0) { ex (.trigger 0 0x100 false (packet 0 3)) s with launches := [] })
    fun t => if t.id.node = 0 then { t with fired := [1] } else t
def tid1 : TaskId := { tid with node := 1 }

theorem witness_Dispatching_proofing : let s := edged; let x := s.task tid1;
    (s.task? tid1).isSome = true ∧ x.life = .waiting ∧ (s.launch tid1.part tid1.launch).det = false ∧
    unmetEdges (s.launch tid1.part tid1.launch) x ≠ [] ∧
    (∀ y ∈ unmetEdges (s.launch tid1.part tid1.launch) x, edgeOpt y.2 = true ∧ edgePoint y.2 ≠ 0 ∧ edgePoint y.2 ∈ y.1.fired) := by
  decide +kernel

/-- The queued task with the credit of one core. -/
def q2 : State := q1.modPart 0 fun p => { p with credit := 1 }

/-- A history region is found wherever firmware starts to look: the range's own start is among the places. -/
theorem region_found (s : State) (p log : Nat) (h : (let size := 2 ^ log; let b := s.part p; let a := roundUp b.firstOrdinary.1 size;
    decide (b.firstOrdinary.1 ≤ a ∧ a + size ≤ b.firstOrdinary.1 + b.firstOrdinary.2 - 2 ^ 26) &&
      (takenBlocks s p ++ []).all fun x => decide (a + size ≤ x.1 ∨ x.1 + x.2 ≤ a)) = true) :
    (pickRegions s p log 1 []).isSome = true := by
  have hs : (pickRegion s p log []).isSome = true :=
    List.find?_isSome.mpr ⟨_, List.mem_cons_of_mem _ (List.mem_cons_self ..), h⟩
  obtain ⟨a, ha⟩ := Option.isSome_iff_exists.mp hs
  simp [pickRegions, ha]

theorem witness_Dispatching_place : let s := q2; let t := s.task tid;
    let busy := (upto 0 16).filter (queuesBusy s);
    badReplay s = none ∧
    (∀ q < 16, (s.part q).reserved = none ∧ (q ∉ busy → (s.part q).credit = 0)) ∧ (∀ g ∈ s.gangs, g.uid ≠ s.nextGang) ∧
    (s.launch t.id.part t.id.launch).record = false ∧ pickPlace s busy = some (0, .task t, 0, 0) ∧
    (placeAt s t.id t.placed 0 0).isSome = true ∧
    sortBy Waiter.order (waiters s 0) = [.task t] ∧ waiters s 15 = [] := by
  have hf : (fits q2 (protoGang q2 (q2.task tid).id (q2.task tid).placed 0 0)
    (gangPlan (protoGang q2 (q2.task tid).id (q2.task tid).placed 0 0))) = true := by decide +kernel
  have hn : (gangPlan (protoGang q2 (q2.task tid).id (q2.task tid).placed 0 0)).length = 1 := by decide +kernel
  have hr := region_found q2 (q2.task tid).id.part (protoGang q2 (q2.task tid).id (q2.task tid).placed 0 0).hlog (by decide +kernel)
  have hp : (Waiter.plan q2 (.task (q2.task tid))).length = 1 := by decide +kernel
  have hfree : (Waiter.task (q2.task tid)).free q2 [] = some (0, 0) := by
    unfold Waiter.free
    simp only [Waiter.roomy, hp, Waiter.gangAt, hr, Bool.not_true, Bool.false_eq_true, if_false]
    decide +kernel
  have hw : waiters q2 0 = [.task (q2.task tid)] := by decide +kernel
  have hres : (q2.part 0).reserved = none := by decide +kernel
  have hcost : (Waiter.task (q2.task tid)).cost q2 ≤ (q2.part 0).credit := by decide +kernel
  have hnext : nextGangOf q2 0 = some (.task (q2.task tid), 0, 0) := by
    simp only [nextGangOf, hw, List.findSome?_cons, spanFor, hres, hfree, Option.map_some]
  have hb : (upto 0 16).filter (queuesBusy q2) = [0] := by decide +kernel
  refine ⟨by decide +kernel, by decide +kernel, by decide +kernel, by decide +kernel, ?_, ?_, ?_, by decide +kernel⟩
  · simp only [hb, pickPlace, List.findSome?_cons, hnext, hcost, if_true]
  · simp only [placeAt, hf, hn, Bool.not_true, Bool.false_eq_true, if_false, Option.isSome_map, hr]
  · rw [hw]; rfl

/-- A task of priority 7 that waits while the cores of the one quadrant that is on hold another gang. -/
def crowd (g : Group) : State :=
  let s : State := { q1 with gangs := w0.gangs, launches := w0.launches ++ q1.launches, me := g };
  let s : State := { s with module := { s.module with islands := (upto 0 8).map fun i => (i, { on := true }) } };
  tasks s fun t => if t.id = tid then { t with prio := 7 } else t

/-- A waiting gang with no span that takes it is due to pre-empt, wherever its regions would lie. -/
theorem preempt_due (s : State) (p : Nat) (w : Waiter) (hw : w ∈ (allWaiting s p).map Waiter.task) (hp : 7 ≤ w.prio s)
    (hf : ((w.spans s).all fun o => !fits s (w.gangAt s o.1 o.2) (w.plan s)) = true) : preemptDue s p = true := by
  have hn : w.free s [] = none := by
    unfold Waiter.free
    refine ite_eq_left_iff.mpr fun _ => List.find?_eq_none.mpr fun o ho => ?_
    simp only [Bool.not_eq_true', List.all_eq_true] at hf
    simp [hf o ho]
  exact List.any_eq_true.mpr ⟨w, List.mem_append_right _ hw, by simp [hp, hn]⟩

theorem witness_Dispatching_preempt :
    (let s := crowd w0.me;
      preemptDue s 0 = true ∧ (match victim s 0 with | some g => drained s g && rollsBack s g | none => false) = true) ∧
    (let s := crowd { w0.me with hist := { w0.me.hist with ic := 9000 }, status := .parked };
      preemptDue s 0 = true ∧ (match victim s 0 with
        | some g => drained s g && !rollsBack s g && (groupsOf s g.uid).all (spillReady s)
        | none => false) = true) := by
  refine ⟨⟨preempt_due _ 0 (.task ((crowd w0.me).task tid)) (by decide +kernel) (by decide +kernel) (by decide +kernel), by decide +kernel⟩, ?_⟩
  exact ⟨preempt_due _ 0 (.task ((crowd w0.me).task tid)) (by decide +kernel) (by decide +kernel) (by decide +kernel), by decide +kernel⟩

/-- A saved gang with room to resume, and a launch whose tasks have all ended. -/
def savedS : State := { (hw.modPart 0 fun p => { p with credit := 1 }) with
  gangs := hw.gangs.map fun g => { g with life := .saved }
  me := { hw.me with status := .saved, seat := { hw.me.seat with active := false } } }
def ended : State := { tasks hw fun t => { t with life := .complete } with gangs := hw.gangs.map fun g => { g with life := .ended } }

theorem witness_Dispatching_resume : (let s := savedS;
      let busy := (upto 0 16).filter (queuesBusy s);
      s.quiesced = false ∧ s.me.status = .saved ∧ (∀ q < 16, (s.part q).reserved = none ∧ (q ∉ busy → (s.part q).credit = 0)) ∧
      (match savedGangs s 0 with
        | [g] => s.gang? g.uid == some g && groupsOf s g.uid == [s.me] && g.life == .saved &&
          pickPlace s busy == some (0, .gang g, 0, 0)
        | _ => false) = true ∧
      (∀ k ∈ (s.part 0).parks, k.due = none ∧ k.who ≠ .group s.me.key)) ∧
    (ended.launches.map fun l => (l.part, l.num, launchDone ended l)) = [(0, 0, true)] := by decide +kernel

/-- A deterministic launch whose one group waits at its boundary, with step boundaries every `step` quanta and a buffer. -/
def det (step : Nat) (b : List BufByte) : State := { w0 with
  launches := w0.launches.map fun l =>
    let img := putAt (putAt (List.replicate 320 0) 16 8 0x5000) 24 8 (step * 2 ^ 16);
    { l with det := true, seq := 7, tasks := [], img, ds := { k := 3, buffer := b } }
  me := { w0.me with status := .wait .boundary, qi := 5 } }
def late : BufByte := { pa := 0x230123, va := 0x10123, tid := 0, ic := 0, v := 77 }
/-- The launch held at a step boundary, with the host's decision word in memory. -/
def decided (n : Nat) : State := { det 2 [] with
  launches := (det 2 []).launches.map fun l =>
    { l with ds := { k := 4, held := some { bytes := [(0x230123, none, 77)], lines := [], results := [] } } }
  gangs := []
  mem := w0.mem.setBytes (.host (0x5000 + 128)) (leBytes 8 (7 * 2 ^ 48 + 4 * 2 ^ 16 + n)) }

theorem witness_Boundaries :
    (∀ s ∈ [det 0 [late], det 2 [late], { det 0 [late] with me := w0.me }, decided 0], (s.launch? 0 0).map (·.det) = some true) ∧
    (let s := { det 0 [late] with me := w0.me }; (s.launch 0 0).ds.held = none ∧ (s.launch 0 0).ds.placing = false ∧
      boundaryReached s 0 0 = false) ∧
    (∀ s ∈ [det 0 [late], det 2 [late]], let l := s.launch 0 0; l.ds.held = none ∧ l.ds.placing = false ∧
      boundaryReached s 0 0 = true ∧ launchDone s l = false ∧ (∀ g ∈ launchGangs s 0 0, g.outs = []) ∧ s.migrations = []) ∧
    (let step := bits (imgW ((det 2 [late]).launch 0 0).img 24) 31 16; step ≠ 0 ∧ (((det 2 [late]).launch 0 0).ds.k + 1) % step = 0) ∧
    (let s := det 0 [late]; let l := s.launch 0 0; bits (imgW l.img 24) 31 16 = 0 ∧ l.ds.buffer = [late] ∧ late.p = false ∧
      l.ds.serial = [] ∧ l.ds.fired = [] ∧ l.tasks = [] ∧ (∀ g ∈ launchGangs s 0 0, g.csCount = 0 ∧ g.subs = []) ∧
      s.me ∈ launchGroups s 0 0 ∧ s.me.status = .wait .boundary) ∧
    (∀ n < 3, let s := decided n; let l := s.launch 0 0; let w := s.wordAt (.host ((imgW l.img 16).toNat + 128)) 0;
      l.ds.held = some { bytes := [(0x230123, none, 77)], lines := [], results := [] } ∧ bits w 63 48 = l.seq ∧
      bits w 47 16 = l.ds.k % 2 ^ 32 ∧ bits w 15 2 = 0 ∧ bits w 1 0 = n ∧ l.tasks = [] ∧ l.ds.fired = [] ∧ launchGangs s 0 0 = []) ∧
    (let s := decided 0; let u := { s with mem := w0.mem };
      bits (u.wordAt (.host ((imgW (u.launch 0 0).img 16).toNat + 128)) 0) 63 48 ≠ (u.launch 0 0).seq) := by decide +kernel

/-- A full issue partition: eight active groups, of which group 135 waits at a barrier, and group 145 that waits to enter. -/
def seated (g : Group) (slot : Nat) (act : Bool) (since : Nat) : Group := { g with seat := { g.seat with slot, active := act, since, age := since } }
def other (k : Nat) : Group := { w0.me with key := k, gid := k % 128 - 4, regs := { quota := 64 } }
def full : State := { w0 with
  me := seated w0.me 0 true 5
  rest := ((upto 133 7).map fun k =>
    { seated (other k) (k - 132) true (k - 100) with status := if k = 135 then .wait (.barrier 0 1) else .run }) ++ [seated (other 145) 9 false 7] }
def roomy : State := { w0 with rest := [seated (other 145) 9 false 7] }

theorem witness_GroupSteps_swap : (∀ s ∈ [full, roomy], (∀ g ∈ s.rest, g.key ≠ s.me.key) ∧ s.me.isControl = false ∧
      (match s.group? 145 with | some n => readyLongest s n && pendingReady n | none => false) = true) ∧
    (match roomy.group? 145 with | some n => activeRoom roomy n | none => false) = true ∧
    (match full.group? 145, full.group? 135 with
      | some n, some x => !activeRoom full n && decide (x ∈ inPartition full n) && x.seat.active && x.key == 135 &&
          x.status == .wait (.barrier 0 1) && longWait (.barrier 0 1)
      | _, _ => false) = true ∧
    (match full.group? 145 with
      | some n => (match sortBy (·.seat.since) ((inPartition full n).filter (·.seat.active)) with
          | o :: _ => o.key != 145 && full.group? o.key == some o && o.status == .run && !o.seat.marked
          | [] => false)
      | none => false) = true ∧
    (let s := withMe full fun g => { g with status := .wait .acks };
      (match s.group? 145 with
        | some n => (match sortBy (·.seat.since) ((inPartition s n).filter (·.seat.active)) with
            | o :: _ => o.key != 145 && s.group? o.key == some o && o.status == .wait .acks
            | [] => false)
        | none => false) = true) := by decide +kernel

/-- REG.GROW s9, s20 at the pc; its group swapped out with 64 registers, and with more than its core has. -/
def grow : State := regsOf (State.reset.withFetchWord 64 (0x08C * 2 ^ 53 + 0x089 * 2 ^ 27 + 0x094 * 2 ^ 17)) [(20, 8)]
def swapped (s : State) (n : Nat) : State := withMe s fun g =>
  { g with status := .swapped n, baseQuota := 64, regs := { g.regs with quota := 0 }, growNeed := 8, growRank := 1 }

theorem witness_GroupSteps : w0.me.isControl = false ∧ w0.rest = [] ∧ issuePick full = some full.me ∧
    issuePick (withMe w0 fun g => { g with status := .parked }) = none ∧
    waitDone (withMe w0 fun g => { g with status := .wait .acks }) .acks = true ∧
    waitDone (withMe w0 fun g => { g with status := .wait (.barrier 0 5) }) (.barrier 0 5) = false ∧
    (let s := withMe w0 fun g => { g with status := .wait (.grow 20), growNeed := 12288, growRank := 1 };
      let gs := (onCore s s.me.seat.core).filter (·.status != .parked);
      gs ≠ [] ∧ gs.all growWaits = true ∧ oldestMet s gs s.me.seat.core = false ∧ youngestGrow gs = some s.me) ∧
    (let s := swapped grow 8; s.me.status = .swapped 8 ∧ s.me.baseQuota + 8 ≤ corePool s s.me.seat.core ∧
      olderGrow s s.me s.me.growRank = false ∧ s.myLaunch.det = false ∧
      (match fetchAt s s.me.at_.pc with | .inr w => decode w == some (.regGrow hd0 (.s 9) (.s 20)) | .inl _ => false) = true) ∧
    (let s := swapped grow 99999; s.me.status = .swapped 99999 ∧ corePool s s.me.seat.core < s.me.baseQuota + 99999) ∧
    (let s := swapped { grow with launches := grow.launches.map fun l => { l with det := true } } 8; s.myLaunch.det = true ∧
      s.me.baseQuota + 8 ≤ corePool s s.me.seat.core ∧ olderGrow s s.me s.me.growRank = false) ∧
    (let s := { debugged (w0.modPart 0 fun p => { p with brk := [(2, w64 (2 ^ 63 + 0x10008))] }) with
                gangs := w0.gangs.map fun g => { g with policy := 1 } };
      s.me.status = .run ∧ fallIn s = .inr s ∧ breakDue s = true) ∧
    fallIn w0 = .inr w0 ∧ breakDue w0 = false ∧
    (let s := { (owing w0 1) with unacked := [{ key := 9 }, { key := 132 }] }; (s.unacked.any (·.key == s.me.key)) = true) ∧
    (let s := withMe w0 fun g => { g with hostLoad := some { ds := [.s 9], ic := 5, accs := [(0, 0x1234)] } };
      s.me.hostLoad = some { ds := [.s 9], ic := 5, accs := [(0, 0x1234)] } ∧ s.me.sb = [] ∧
      (Tab.get ({} : Origin) s.me.pot 0).valid = false) := by decide +kernel

theorem witness_GroupSteps_delivery :
    (let b : SbSlot := { slot := 3, regs := [.s 9], res := { scalars := [(9, { v := 77 })], lanes := [] }, ic := 0 };
      (withMe w0 fun g => { g with sb := [b] }).me.sb = [b] ∧ b.res = { scalars := [(9, { v := 77 })], lanes := [] }) ∧
    (let b : SbSlot := { slot := 3, regs := [.v 1], res := { scalars := [], lanes := [(33, { v := 77 })] }, ic := 0 };
      (withMe w0 fun g => { g with sb := [b] }).me.sb = [b] ∧ b.res = { scalars := [], lanes := [(33, { v := 77 })] }) := by
  decide +kernel

/-- A flow's descriptors in memory with the module up. -/
def f3 : State := pw f0

/-- A gang with one copy entry that loads 2 KiB of tensor 5 into local memory; with the stream's channel failed; with
subscriptions. -/
def cp : State :=
  let tens : List Word := [0x10000, w64 (2 ^ 63 + 2 * 2 ^ 56 + 7 * 2 ^ 44), w64 (64 + 64 * 2 ^ 32), w64 (1 + 2 ^ 32), 0x80, 0x2000, 0x2000, 0x10000];
  let img := [(64, 8, 5 * 2 ^ 48 + 2 * 2 ^ 38 + 2 ^ 35 + 2 ^ 27 + 2 ^ 14 * 3), (88, 8, 2 ^ 56 + 2048)].foldl
    (fun (l : List Byte) (x : Nat × Nat × Nat) => putAt l x.1 x.2.1 x.2.2) (List.replicate 128 0);
  { w0 with
    mem := w0.mem.setBytes (.dev (0x1000000 + 64 * 5)) (wordsBytes tens)
    gangs := w0.gangs.map fun g =>
      { g with desc := [w64 (2 ^ 56 + 16 * 2 ^ 49 + 64 * 2 ^ 30 + 0xFFFF * 2 ^ 6), w64 0x10000, 0, 0, w64 (64 * 2 ^ 32), w64 0x10400, 1, 0] }
    launches := w0.launches.map fun l => { l with img } }

theorem witness_CopiesAndMessages : (let s := cp; (∀ g ∈ s.rest, g.key ≠ s.me.key) ∧ s.myLaunch.det = false ∧
      (∀ a ∈ s.gangs, a.subs = []) ∧
      (match s.gang? s.me.gang with
        | some g => groupsOf s g.uid == [s.me] && g.life == .live && !g.copyHalted &&
          (match (headReleases s g).find? (·.2.1 == 0) with
            | some (_, k, j) => let w := copyWords s g k;
              k == 0 && j == 0 && !ceRing w && ceLoad w && !(Tab.get {} g.copies k).failed && !ceIll s w j &&
              (Tab.get ({} : CopyState) g.copies k).run.isNone && engineTurn s g true && decide (0 < ceLen w) &&
              (pullLines s w ((ceLines s w j).take (unitLines w))).2.2 == 0
            | none => false)
        | none => false) = true) ∧
    (let s := onGang cp fun g => { g with copies := [(0, { failed := true })] };
      (match s.gang? s.me.gang with
        | some g => !g.copyHalted && ((headReleases s g).find? (·.2.1 == 0)).isSome && (Tab.get {} g.copies 0).failed &&
            (Tab.get ({} : CopyState) g.copies 0).run.isNone && engineTurn s g true
        | none => false) = true) := by decide +kernel

/-- A release with one byte left of the unit in hand; and a gang whose turn it is not, since another one's comes first. -/
theorem witness_CopiesAndMessages_run :
    (let s := onGang cp fun g => { g with copies := [(0, { run := some { done := 2047, rest := [5] } })] };
      (match s.gang? s.me.gang with
        | some g => (match (headReleases s g).find? (·.2.1 == 0) with
            | some (_, k, j) => let w := copyWords s g k;
              k == 0 && j == 0 && ((Tab.get ({} : CopyState) g.copies k).run.map fun r => (r.status, r.done, r.rest)) == some (0, 2047, [5]) &&
              decide (2047 < ceLen w)
            | none => false)
        | none => false) = true) ∧
    (let s := { cp with gangs := cp.gangs ++ cp.gangs.map (fun (g : Gang) => { g with uid := 2 }), served := Tab.set 0 cp.served 0 1 };
      (match s.gang? s.me.gang with
        | some g => (Tab.get ({} : CopyState) g.copies 0).run.isNone && !engineTurn s g true
        | none => false) = true) := by decide +kernel

theorem witness_CopiesAndMessages_others :
    (let s := onGang cp fun g => { g with subs := [{ tensor := 5, coord := 0, chan := 2, addr := 0 }] };
      (match s.gang? s.me.gang with
        | some g => (match g.subs.drop 0 with
            | x :: _ => !(g.subs.take 0).any (·.sameWay x) && x.ring.isNone && decide (x.chan ∉ (g.on x.core).dead)
            | [] => false)
        | none => false) = true) ∧
    devTop ≤ devTop + 5 ∧ 0x230280 < devTop ∧ f3.messages = [] ∧ f3.migrations = [] ∧ (List.replicate 128 (7 : Byte)).length = 128 ∧
    (0x230280, 3 % 2 ^ 32) ∉ f3.delivered ∧
    (let s := setw { f3 with delivered := [(0x230280, 3)] } 0x230280 (2 ^ 63 + 2 * 2 ^ 56 + 0x10800);
      (0x230280, 3 % 2 ^ 32) ∈ s.delivered ∧ bit (s.wordAt (.dev 0x230280) 0) 63 = true) ∧
    rxOrd f3 (.dev 0x230280) = false ∧ apart 0x230280 64 0x230880 128 = true := by
  decide +kernel

/-- A state with its ASID table laid so that ASID `a` finds the entry of ASID 0: the ASID of a peer's message is a free
value (log entry 20), so the witness holds for each. -/
def shifted (s : State) (a : Nat) : State := { s with parts := [(0, { s.part 0 with asidtBase := 0x100000 - 8 * a })] }

/-- Nothing migrates, is disturbed or is contended: every line is at home as it lies. -/
def Quiet (s : State) : Prop := s.migrations = [] ∧ s.mem.faulty = [] ∧ s.coh.contended = []

theorem quiet_home (s : State) (q : Quiet s) (l : Loc) : homeLine s l = s := by
  obtain ⟨hm, hf, hc⟩ := q
  cases l with
  | dev pa => simp only [homeLine, settleLine, checkLine, mergeLine, hm, hf, hc, List.find?_nil]
  | _ => rfl

theorem shifted_inCn (s : State) (h : s.parts = [(0, s.part 0)]) (a pa n : Nat) : inCn (shifted s a) pa n = inCn s pa n := by
  unfold inCn
  rw [h]
  rfl

theorem shifted_homeWord (s : State) (q : Quiet s) (a pa : Nat) : (shifted s a).homeWord pa = s.homeWord pa := by
  unfold State.homeWord
  rw [quiet_home s q, quiet_home (shifted s a) q]
  rfl

theorem shifted_homePoisoned (s : State) (q : Quiet s) (a pa : Nat) : (shifted s a).homePoisoned pa = s.homePoisoned pa := by
  unfold State.homePoisoned
  rw [quiet_home s q, quiet_home (shifted s a) q]
  rfl

theorem shifted_walkFrom (s : State) (h : s.parts = [(0, s.part 0)]) (q : Quiet s) (a va : Nat) (held : List Cached)
    (ls : List (Nat × Nat × Nat)) : ∀ t, walkFrom (shifted s a) held va t ls = walkFrom s held va t ls := by
  induction ls with
  | nil => intro t; rfl
  | cons x xs ih =>
    intro t
    simp only [walkFrom, shifted_inCn s h, shifted_homeWord s q, shifted_homePoisoned s q, ih]
    rfl

theorem shifted_look (s : State) (h : s.parts = [(0, s.part 0)]) (q : Quiet s) (hb : (s.part 0).asidtBase = 0x100000) (hc : s.cached = [])
    (a va : Nat) (ha : a < 4096) : lookIn (shifted s a) 0 a va .write = lookIn s 0 0 va .write := by
  have e : ((shifted s a).part 0).asidtBase + 8 * a = (s.part 0).asidtBase + 8 * 0 := by
    rw [hb]; show (0x100000 - 8 * a) + 8 * a = _; omega
  have w : walkWith (shifted s a) [] 0 a va = walkWith s [] 0 0 va := by
    unfold walkWith
    rw [e]
    simp only [shifted_inCn s h, shifted_walkFrom s h q, shifted_homeWord s q, shifted_homePoisoned s q]
    rfl
  unfold lookIn leafOf
  rw [show (shifted s a).cached = s.cached from rfl, hc, List.filter_nil, List.filter_nil, w]

theorem shifted_owner (s : State) (h : s.parts = [(0, s.part 0)]) (a pa : Nat) : ownerOf (shifted s a) pa = ownerOf s pa := by
  have e : ∀ p, ((shifted s a).part p).valid = (s.part p).valid ∧ ∀ i, ((shifted s a).part p).range i = (s.part p).range i := by
    intro p
    have q : s.part p = Tab.get {} [(0, s.part 0)] p := by conv_lhs => unfold State.part; rw [h]
    rw [q]
    cases p <;> exact ⟨rfl, fun _ => rfl⟩
  unfold ownerOf
  simp only [e]

theorem shifted_word (s : State) (q : Quiet s) (a : Nat) (l : Loc) (n : Nat) :
    (shifted s a).wordAt l n = s.wordAt l n := by
  unfold State.wordAt State.read
  rw [quiet_home s q, quiet_home (shifted s a) q]
  rfl

theorem shifted_arrival (s : State) (h : s.parts = [(0, s.part 0)]) (q : Quiet s) (hb : (s.part 0).asidtBase = 0x100000)
    (hc : s.cached = []) (flow e : Nat) (w : Word) (ho : ownerOf s flow = some 0)
    (hr : ¬(rxLogn s (.dev flow) = 0 ∨ rxFull s (.dev flow) = true ∨ s.homePoisoned flow = true ∨ inCn s flow 64 = true))
    (hl : lookIn s 0 0 (ringEntry s (.dev flow) (rxProd s (.dev flow))) .write = .ok (.dev e) w) :
    arrivalEntry (shifted s (Config.flowAsid flow % 4096)) flow = some (.dev e) := by
  have l := shifted_look s h q hb hc (Config.flowAsid flow % 4096) (ringEntry s (.dev flow) (rxProd s (.dev flow))) (by omega)
  rw [hl] at l
  simp only [ringEntry, rxRing, rxLogn, rxProd, rxFull, rxCons] at hr l
  simp only [arrivalEntry, shifted_owner s h, ho, ringEntry, rxRing, rxLogn, rxProd, rxFull, rxCons, shifted_word s q,
    shifted_homePoisoned s q, shifted_inCn s h, l]
  exact if_neg hr

/-- A peer's message finds the ring entry, whichever ASID its ring's address is translated under. -/
theorem witness_CopiesAndMessages_peer : arrivalEntry (shifted f3 (Config.flowAsid 0x230280 % 4096)) 0x230280 = some (.dev 0x230880) := by
  have d : f3.parts = [(0, f3.part 0)] ∧ (f3.part 0).asidtBase = 0x100000 ∧ f3.cached = [] ∧ ownerOf f3 0x230280 = some 0 ∧
      ¬(rxLogn f3 (.dev 0x230280) = 0 ∨ rxFull f3 (.dev 0x230280) = true ∨ f3.homePoisoned 0x230280 = true ∨ inCn f3 0x230280 64 = true) ∧
      lookIn f3 0 0 (ringEntry f3 (.dev 0x230280) (rxProd f3 (.dev 0x230280))) .write =
        .ok (.dev 0x230880) (w64 0xF800000000230000) := by decide +kernel
  have q : Quiet f3 := by unfold Quiet; decide +kernel
  exact shifted_arrival f3 d.1 q d.2.1 d.2.2.1 _ _ _ d.2.2.2.1 d.2.2.2.2.1 d.2.2.2.2.2

/-- The other hypotheses of the same clause are those of the unshifted state, shown in `witness_CopiesAndMessages_others`. -/
theorem shifted_same (s : State) (q : Quiet s) (a : Nat) (l : Loc) : (shifted s a).messages = s.messages ∧
    (shifted s a).migrations = s.migrations ∧ (shifted s a).delivered = s.delivered ∧ rxOrd (shifted s a) l = rxOrd s l :=
  ⟨rfl, rfl, rfl, by simp only [rxOrd, shifted_word s q]⟩

theorem witness_CopiesAndMessages_out : let name := nameIn n1 (.s 20);
    let o : CopyOut := { region := 1, root := name, leaves := 1, dest := 0x10200, bar := 2, gid := 0, ic := 0 };
    let s := onGang n1 fun g => { g with outs := [o] };
    Settled s = true ∧ o.gid = s.me.gid ∧ s.me.isControl = false ∧ o.leaves = 1 ∧ (allOuts s).drop 0 = [(1, o)] ∧
    (match cnReg? s 0 1 with | some r => (cnLine s r name).isSome | none => false) = true ∧
    look s o.dest .write = .ok (.dev 0x230200) 0xF800000000230000 := by decide +kernel

/-- Two quiet states with the same tables, caches and bytes of storage translate alike. -/
theorem look_same (s t : State) (qs : Quiet s) (qt : Quiet t) (hp : t.parts = s.parts) (hc : t.cached = s.cached)
    (hk : t.tick = s.tick) (hd : t.mem.dev = s.mem.dev) (hq : t.mem.poison = s.mem.poison) (h1 : t.myP = s.myP)
    (h2 : t.myAsid = s.myAsid) (va : Nat) (n : Need) : look t va n = look s va n := by
  have cn : ∀ pa k, inCn t pa k = inCn s pa k := fun pa k => by unfold inCn; rw [hp]
  have word : ∀ pa, t.homeWord pa = s.homeWord pa := fun pa => by
    unfold State.homeWord State.devWord
    rw [quiet_home s qs, quiet_home t qt]
    simp only [Mem.byte, Mem.bytes, Loc.plus, hd]
  have bad : ∀ pa, t.homePoisoned pa = s.homePoisoned pa := fun pa => by
    unfold State.homePoisoned
    rw [quiet_home s qs, quiet_home t qt]
    simp only [Mem.poisoned, hq]
  have from_ : ∀ held va ls tb, walkFrom t held va tb ls = walkFrom s held va tb ls := by
    intro held va ls
    induction ls with
    | nil => intro tb; rfl
    | cons x xs ih => intro tb; simp only [walkFrom, cn, word, bad, ih, hk]
  have pt : ∀ p, t.part p = s.part p := fun p => by unfold State.part; rw [hp]
  unfold look lookIn leafOf walkWith
  simp only [h1, h2, hc, hk, pt, cn, word, bad, from_]

theorem witness_UndoRestores_local : let s := l0; let i := Instr.stl hd0 3 (.s 9) (.imm (.s 21) 0); let t := ex i s;
    i.wf = true ∧ Reversible s = true ∧ AtRest s = true ∧ s.inDet = false ∧ goes (exec i s) = true ∧
    t.me.hist.ic = s.me.hist.ic + 1 ∧ ∀ va, look t va .write = look s va .write := by
  have q : Quiet l0 ∧ Quiet (ex (.stl hd0 3 (.s 9) (.imm (.s 21) 0)) l0) := by unfold Quiet; decide +kernel
  have d : let t := ex (.stl hd0 3 (.s 9) (.imm (.s 21) 0)) l0; t.parts = l0.parts ∧ t.cached = l0.cached ∧ t.tick = l0.tick ∧
      t.mem.dev = l0.mem.dev ∧ t.mem.poison = l0.mem.poison ∧ t.myP = l0.myP ∧ t.myAsid = l0.myAsid := by decide +kernel
  exact ⟨by decide +kernel, by decide +kernel, by decide +kernel, by decide +kernel, by decide +kernel, by decide +kernel,
    fun va => look_same _ _ q.1 q.2 d.1 d.2.1 d.2.2.1 d.2.2.2.1 d.2.2.2.2.1 d.2.2.2.2.2.1 d.2.2.2.2.2.2 va _⟩

theorem witness_UndoRestores_lanes : ∀ i ∈ [Instr.vadd hd0 (.v 1) (.v 1) (.reg (.v 2)), .fadd hd0 .rne (.v 4) (.v 1) (.reg (.v 2)),
      .vswap hd0 (.v 1) (.v 2), .lbits hd0 4 (.s 20) (.v 2), .lred hd0 .add .i32 .rne (.s 20) (.v 1)],
    i.wf = true ∧ Reversible wv = true ∧ goes (exec i wv) = true ∧ (ex i wv).me.hist.ic = wv.me.hist.ic + 1 := by decide +kernel

theorem witness_UndoRestores_others : (∀ i ∈ [Instr.sbWait hd0 .z, .fence hd0 .ar .grp, .tcKeep hd0 1 (.v 1)],
      i.wf = true ∧ Reversible w0 = true ∧ AtRest w0 = true ∧ w0.inDet = false ∧ goes (exec i w0) = true ∧
      (ex i w0).me.hist.ic = w0.me.hist.ic + 1) ∧
    (∀ i ∈ [Instr.cnRef hd0 1 (.s 20), .cnDrop hd0 1 (.s 20)], i.wf = true ∧ Reversible n1 = true ∧ AtRest n1 = true ∧
      n1.inDet = false ∧ goes (exec i n1) = true ∧ (ex i n1).me.hist.ic = n1.me.hist.ic + 1 ∧ (cnReg? n1 n1.myP 1).isSome = true) := by
  decide +kernel

/-- A group of another core that has published at .dev, and a read of a later write of its. -/
def published : State := { w0 with
  rels := [{ by_ := { key := 133, gang := 1, core := 1, mesh := true }, scope := 4, num := 5, view := { known := [(.group 133, 5)] } }]
  me := { w0.me with view := { reads := [(0x230000, .group 133, 7)] } } }

theorem witness_FencesAndWaits_acquire : let s := published; Able s hd0 [.vector, .control] [] [] [] = true ∧ s.owing = false ∧
    (s.gang? s.me.gang).isSome = true ∧
    (∀ r ∈ s.rels, r.by_.reach s.me.party ≤ r.scope ∧ r.by_.reach s.me.party ≤ scopeNum .dev ∧
      ∃ x ∈ s.me.view.reads, x.2.1 = .group r.by_.key ∧ r.num < x.2.2) ∧
    (let here := Tab.get 0 (s.myGang.on (s.myGang.coreIx s.me.gid)).wp 3; 0 ≤ here) := by decide +kernel

/-- A second line in the region, named by s30; the root cell names the first. -/
def n4 : State :=
  let s := ex (.cnPut hdm false 1 (.s 30) (.v 3)) (vecOf n1 3 fun l => 5 * l);
  { s with mem := { s.mem.setBytes (.dev 0x240010) (leBytes 16 (nameIn s (.s 20))) with past := [] } }

theorem witness_RootCells_counts : let s := n4; let a := Reg.s 9; let va := (srcS s a).v.toNat; let old := nameIn s (.s 20);
    let new := nameIn s (.s 30); let cell := ofLe (s.mem.bytes (.dev 0x240010) 16);
    Settled s = true ∧ cnTrap s 1 = none ∧ look s va .write = .ok (.dev 0x240010) 0xFA00000000240000 ∧ cellTrap s va .write = none ∧
    Able s hd0 [.vector] [a, .s 20, .s 21, .s 30, .s 31] [.s 20, .s 21] [] = true ∧ s.owing = false ∧ cell = old ∧ new ≠ cell ∧
    new ≠ 0 ∧ cell ≠ 0 ∧
    (match cnReg? s s.myP 1 with
      | some x => decide (x.n ≠ 0) && decide (0x240010 + 16 ≤ x.base ∨ x.base + x.len ≤ 0x240010) && cnLive s x new &&
        (match cnFind s x new, cnFind s x cell with
          | some (m, c), some (m', c') => m == cnSlotOf x new && m' == cnSlotOf x cell && c'.state == 1 &&
              decide (c.count < 0xFFFFFFFF) && decide (c'.count < 0xFFFFFFFF)
          | _, _ => false)
      | none => false) = true := by decide +kernel

/-- VERIFY and COMMIT_SVN with their commands taken; and the module's islands off. -/
def fwOp (n : Nat) : State := { zw with zal := { zw.zal with fwCmd := some (w64 (n * 2 ^ 60)), fwState := 1 } }
def dark : State := { zw with module := { zw.module with islands := [] } }

theorem witness_ControlWindow_firmware : hostUp zw = true ∧ hostUp dark = false ∧ islandOn dark 0 = false ∧ islandOn dark 7 = false ∧
    (∀ n ∈ [2, 3], let s := fwOp n; s.zal.fwCmd = some (w64 (n * 2 ^ 60)) ∧ islandOn s 0 = true ∧
      fwRefused s.zal (w64 (n * 2 ^ 60)) = 0 ∧ bits (w64 (n * 2 ^ 60)) 63 60 = n) ∧
    (∀ s ∈ [ct, stray], islandOn s 0 = true) ∧ (∀ q ∈ [fw 16, fw 17], islandOn q 0 = true) := by decide +kernel

/-- Two bytes of one address in the buffer, of which the second has the higher index; and two atomics of two groups. -/
def written : List BufByte := [{ late with tid := 2, v := 5 }, { late with tid := 9, v := 6 }, { late with pa := 0x230124 }]
def queuedAmo (inst gid key : Nat) : Serial :=
  { inst, gid, key, ic := 3, i := .amo hd0 .add .rlx .dev 0 (.s 10) (.s 9) (.s 2), b := { v := 5 }, lanes := [(0, 0x10120, 0x230120, 5)] }
def atomics : State := { det 0 [] with
  launches := (det 0 []).launches.map fun l => { l with ds := { l.ds with serial := [queuedAmo 0 7 132, queuedAmo 0 1 999] } } }

theorem witness_Boundaries_merge : (let s := det 0 written; let l := s.launch 0 0; AtRest s = true ∧ (∀ g ∈ s.groups, growWaits g = false) ∧
      boundaryReached s 0 0 = true ∧ launchDone s l = false ∧ l.ds.buffer = written ∧ ∀ b ∈ written, b.p = false) ∧
    (match written with
      | [c, b, d] => c.pa == b.pa && decide (c.tid < b.tid) && d.pa != b.pa
      | _ => false) = true ∧
    (let s := atomics; let l := s.launch 0 0; let q := queuedAmo 0 1 999; let r := queuedAmo 0 7 132; AtRest s = true ∧
      (∀ g ∈ s.groups, growWaits g = false) ∧ boundaryReached s 0 0 = true ∧ launchDone s l = false ∧ l.ds.buffer = [] ∧
      l.ds.serial = [r, q] ∧ q.inst * 128 + q.gid < r.inst * 128 + r.gid ∧ s.mem.poisoned 0x230120 = false ∧
      0x230120 % 128 + 8 ≤ 128 ∧ r.key = s.me.key) := by decide +kernel

theorem witness_GroupSteps_det : let s := { w0 with launches := w0.launches.map fun l => { l with det := true } };
    (∃ g ∈ onCore s s.me.seat.core, ofDet s g = true) ∧ (∀ g ∈ onCore w0 w0.me.seat.core, ofDet w0 g = false) ∧ s.me.seat.core < 256 := by
  decide +kernel

/-- Two subscriptions of one tile, for two cores; a message to a peer whose earlier ones are placed. -/
theorem witness_CopiesAndMessages_multicast : (let x : Subscription := { tensor := 5, coord := 0, chan := 1, core := 1, addr := 0 };
      let y : Subscription := { tensor := 5, coord := 0, chan := 2, addr := 0 };
      let s := onGang cp fun g => { g with subs := [x, y] };
      x.sameWay y = false ∧ x.ring = none ∧ y.ring = none ∧
      (match s.gang? s.me.gang with
        | some g => g.subs == [x, y] && decide (x.chan ∉ (g.on x.core).dead) && decide (y.chan ∉ (g.on y.core).dead) &&
          s.gangs.all fun a => a == g || a.subs.isEmpty
        | none => false) = true) ∧
    AtRest cp = true ∧ islandOn f3 7 = true ∧
    (let m : Message := { flow := devTop + 5, seq := 2, data := [], ordered := false };
      let s := { f3 with messages := [m] }; outOfTurn s m = false) := by decide +kernel

end Sys2Proof.Tests
end

section
/-! What the module's memories read after a write, and little-endian bytes (R2). -/

namespace Sys2Proof.Machine

/-! ### Reading back -/

/-- A run of bytes one place on does not come back to where it started: no address wraps. -/
theorem Loc.ne_plus_one_plus (l : Loc) (i : Nat) : l ≠ (l.plus 1).plus i := by
  cases l <;> simp [Loc.plus] <;> omega

@[simp] theorem Mem.byte_setByte_same (m : Mem) (l : Loc) (b : Byte) : (m.setByte l b).byte l = b := by
  simp [Mem.byte_setByte]

/-- The first byte of a write survives the rest of the write. -/
theorem Mem.byte_setBytes_first (m : Mem) (l : Loc) (b : Byte) (t : List Byte) :
    (m.setBytes l (b :: t)).byte l = b := by
  rw [Mem.setBytes, Mem.byte_setBytes_other t _ _ _ fun i _ => l.ne_plus_one_plus i, Mem.byte_setByte_same]

theorem Mem.bytes_setBytes_same (bs : List Byte) :
    ∀ (m : Mem) (l : Loc), (m.setBytes l bs).bytes l bs.length = bs := by
  induction bs with
  | nil => exact fun _ _ => rfl
  | cons b t ih =>
    intro m l
    have hfirst : (m.setBytes l (b :: t)).byte l = b := Mem.byte_setBytes_first m l b t
    have hrest : (m.setBytes l (b :: t)).bytes (l.plus 1) t.length = t := ih (m.setByte l b) (l.plus 1)
    rw [List.length_cons, Mem.bytes, hfirst, hrest]

/-! ### Little-endian bytes -/

/-- `n` bytes hold a number modulo 256 ^ n. -/
theorem ofLe_leBytes (n : Nat) : ∀ w : Nat, ofLe (leBytes n w) = w % 256 ^ n := by
  induction n with
  | zero => intro w; simp [leBytes, ofLe, Nat.mod_one]
  | succ n ih =>
    intro w
    have hsplit : w % 256 ^ (n + 1) = w % 256 + 256 * (w / 256 % 256 ^ n) := by
      rw [Nat.pow_succ', Nat.mod_mul]
    rw [leBytes, ofLe, ih, BitVec.toNat_ofNat, hsplit]

/-- The bytes of a word read as the word. -/
theorem ofLe_leBytes_word (w : Word) : ofLe (leBytes 8 w.toNat) = w.toNat := by
  rw [ofLe_leBytes]
  exact Nat.mod_eq_of_lt w.isLt

/-- Byte `i` holds the bits from 8 i on. -/
theorem getElem?_leBytes (n : Nat) :
    ∀ (w i : Nat), i < n → (leBytes n w)[i]? = some (BitVec.ofNat 8 (w >>> (8 * i))) := by
  induction n with
  | zero => intro w i hi; omega
  | succ n ih =>
    intro w i hi
    cases i with
    | zero => rfl
    | succ i =>
      have hshift : (w / 256) >>> (8 * i) = w >>> (8 * (i + 1)) := by
        rw [show 8 * (i + 1) = 8 + 8 * i by omega, Nat.shiftRight_add, Nat.shiftRight_eq_div_pow w 8]
      rw [leBytes, List.getElem?_cons_succ, ih (w / 256) i (by omega), hshift]

end Sys2Proof.Machine

open Sys2Proof.Machine in
/-- Settles O10, by induction on the bytes written: no byte of a write lies where an earlier one does. -/
theorem readAfterWrite : Obligations.ReadAfterWrite := by
  unfold Obligations.ReadAfterWrite
  intro m l bs
  refine ⟨Mem.bytes_setBytes_same bs m l, fun l' h => Mem.byte_setBytes_other bs m l l' h, fun w => ?_⟩
  exact ⟨ofLe_leBytes_word w, fun i hi => getElem?_leBytes 8 w.toNat i hi⟩

end

section
/-! What raises ROLE (R99): that every instruction with a list of roles is issued under that list, with nothing that R302
puts before the check of the role; and what taking a trap does, to a group of the mesh (R111) and to the control cores
(R352). -/

namespace Sys2Proof.Machine

open Sys2Proof.Terms

/-! ### Issued under a list of roles -/

/-- An outcome that comes from issuing an instruction which the roles `rs` allow, where a group of the mesh meets neither FRAME
nor ILLEGAL, the two checks that come before ROLE (R302). -/
def IssuedFor (rs : List Role) (s : State) (o : Host.Outcome State Fault Refusal) : Prop :=
  ∃ f p eff, o = issue f p eff s ∧ f.roles = rs ∧ p.frame = none ∧ (s.me.isControl = false → p.illegal = false)

section
variable {h : Hd} {d a : Reg} {b : BOp} {s : State}

theorem vecDo_issuedFor {inv readsD : Bool} {f : Lane → Lane → Lane → Lane} :
    IssuedFor rolesVecCtl s (vecDo h d a b inv readsD f s) := ⟨_, _, _, rfl, rfl, rfl, fun _ => rfl⟩

theorem vecBitDo_issuedFor {n : Nat} {f : Lane → Lane → Bool} :
    IssuedFor rolesVecCtl s (vecBitDo h n d a b f s) := ⟨_, _, _, rfl, rfl, rfl, fun _ => rfl⟩

theorem permDo_issuedFor {rs : List Reg} {src : Nat → Nat} {extra : Nat → List LVal} :
    IssuedFor rolesVecCtl s (permDo h d a rs src extra s) := ⟨_, _, _, rfl, rfl, rfl, fun _ => rfl⟩

theorem rmwDo_issuedFor {x : Rmw} {i : Instr} : IssuedFor rolesVector s (rmwDo x i s) :=
  ⟨_, _, _, rfl, rfl, rfl, fun _ => rfl⟩

theorem syncDo_issuedFor {x : Sync} {eff : State → State} : IssuedFor x.roles s (syncDo x eff s) :=
  ⟨_, _, _, rfl, rfl, rfl, fun _ => rfl⟩

/-- A plain access refuses an address form on a control core alone (R446). -/
theorem plainDo_issuedFor {x : Plain} :
    IssuedFor (if x.loc || x.split || (x.wr && x.rd) then rolesVector else rolesVecCtl) s (plainDo x s) :=
  ⟨_, _, _, rfl, rfl, rfl, fun hmesh => by simp [hmesh]⟩

end

/-- Every instruction that has a list of roles is issued under that list. -/
theorem exec_issuedFor {i : Instr} {rs : List Role} (s : State) (hroles : rolesOf i = some rs) :
    IssuedFor rs s (exec i s) := by
  cases i with cases hroles
  | vadd | vsub | vaddi | vmul | vmulh | vmulodd | vmad | vand | vor | vxor | vandn | vnot | vneg | vshl | vshr | vsar
  | vrol | vmin | vmax | vabs | vmov | vclz | vpopc | vbflip | vbext | vbins => exact vecDo_issuedFor
  | fadd | fsub | fmul | ffma | fmin | fmax | fexp2 | flog2 | frcp | frsq | fsqrt | fdiv | frint | fscale
  | hadd2 | hmul2 | hfma2 | hmax2 => exact vecDo_issuedFor
  | vcmp | fcmp => exact vecBitDo_issuedFor
  | lperm | lshuf | lrot | lbcast => exact permDo_issuedFor
  | ld | st | vld | vst | xchg | vxchg | ldl | stl | vldl | vstl | ldd | gath => exact plainDo_issuedFor
  | amo | cas => exact rmwDo_issuedFor
  | fence | wpWait | barInit | barArv | barWait | ringPutClaim | ringPut | ringGet | ringGetDone | ringPeek | stageAdv
  | earlyTrig | detSync => exact syncDo_issuedFor
  | tcBind | tcProbe | tcPf | tcSub | tcInv | tcKeep => exact syncDo_issuedFor
  | cnPut | cnRef | cnDrop | cnRoot | cnSwap | cnOut => exact syncDo_issuedFor
  | svcResume | svcResumeC | svcResumeP | svcKill | svcCommit | svcMigrate | svcPurge => exact syncDo_issuedFor
  | qctlRd | qctlQ | qctlR | mboxSendVerify | mboxSendMeas | mboxRecv | wdogKick | slotSel => exact syncDo_issuedFor
  | mbLd | mma | mloop | mmaBd | accAlloc | accGrow | accFree | mwait | mstat | accZero | accLd | accSt =>
    exact syncDo_issuedFor
  | vsel | vswap | vbcast | cvt | lred | lscan | lbits | lspread | red | stMc | flowPut | flowGet | sbWait | cnGet
  | accRd | accWr | accRscl =>
    exact ⟨_, _, _, rfl, rfl, rfl, fun _ => rfl⟩

/-- Where no FRAME comes first, a role that is not allowed stops an instruction with a trap: with ROLE, but that an illegal
field comes before it (R99, R302). -/
theorem stopOf_of_role_not_mem {f : Info} {p : Pre} {s : State} (hframe : p.frame = none) (hrole : s.me.role ∉ f.roles) :
    ∃ e, stopOf f p s = some (.inl e) ∧ (p.illegal = false → e = { code := 2, addr := s.me.at_.pc.toNat }) := by
  have hany : f.roles.any (· == s.me.role) = false :=
    List.any_eq_false.mpr fun r hr heq => hrole (eq_of_beq heq ▸ hr)
  cases hillegal : p.illegal with
  | true => exact ⟨{ code := 1, addr := s.me.at_.pc.toNat }, by simp [stopOf, hframe, hillegal], by simp⟩
  | false => exact ⟨{ code := 2, addr := s.me.at_.pc.toNat }, by simp [stopOf, hframe, hillegal, hany], fun _ => rfl⟩

/-- An instruction outside the group's role traps, and in the mesh with ROLE. -/
theorem IssuedFor.traps {rs : List Role} {s : State} {o : Host.Outcome State Fault Refusal} (ho : IssuedFor rs s o)
    (hrole : s.me.role ∉ rs) :
    ∃ e, o = .next (trapMe s e) ∧ (s.me.isControl = false → e.code = 2 ∧ e.cause = 0) := by
  obtain ⟨f, p, eff, rfl, rfl, hframe, hlegal⟩ := ho
  obtain ⟨e, hstop, he⟩ := stopOf_of_role_not_mem hframe hrole
  refine ⟨_, by rw [issue, hstop], fun hmesh => ?_⟩
  rw [he (hlegal hmesh)]
  exact ⟨rfl, rfl⟩

/-! ### A group of the mesh parks (R110, R111) -/

/-- A filed record is its partition's last. -/
theorem fileRecord_parks (s : State) (p : Nat) (who : Parked) (own : Bool) (ws : List Word) :
    ∃ n, ((fileRecord s p who own ws).part p).parks = (s.part p).parks ++ [{ slot := n, who, words := ws }] := by
  simp [fileRecord, State.part]

/-- Words 1 and 2 of a park record (R110): the trap's code and cause, and ic. -/
theorem wordAt_recordWords_zero (s : State) (g : Group) (e : Trap) :
    wordAt (recordWords s g e) 0 = w64 (e.code * 2 ^ 56 + e.cause * 2 ^ 52) := rfl
theorem wordAt_recordWords_one (s : State) (g : Group) (e : Trap) : wordAt (recordWords s g e) 1 = g.hist.ic := rfl

/-- A group as it parks: it leaves the active set (R101, R111). -/
def Group.parked (g : Group) : Group :=
  { g with status := .parked, marks := { g.marks with step := false, revd := false },
           seat := { g.seat with active := false } }

@[simp] theorem Group.parked_status (g : Group) : g.parked.status = .parked := rfl
@[simp] theorem Group.parked_regs (g : Group) : g.parked.regs = g.regs := rfl
@[simp] theorem Group.parked_hist (g : Group) : g.parked.hist = g.hist := rfl
@[simp] theorem Group.parked_at_ (g : Group) : g.parked.at_ = g.at_ := rfl

section
variable {s : State} (hmesh : s.me.isControl = false) (e : Trap)
include hmesh

/-- A trap of a group of the mesh parks it and files its record. -/
theorem trapMe_mesh :
    trapMe s e = fileRecord (dropClaims (s.modMe Group.parked) s.me) s.myP (.group s.me.key) (isService s s.me)
      (recordWords s s.me e) := by
  have hme : s.group? s.me.key = some s.me := by simp [State.group?, State.groups]
  simp only [trapMe, hmesh, parkGroup, hme, State.modGroup_self]
  rfl

/-- What such a trap leaves of the group, the memories, the gangs and the cores. -/
theorem trapMe_mesh_frame :
    (trapMe s e).me = s.me.parked ∧ (trapMe s e).mem = s.mem ∧ (trapMe s e).gangs = (dropClaims s s.me).gangs ∧
      (trapMe s e).cores = s.cores := by
  rw [trapMe_mesh hmesh]
  exact ⟨rfl, rfl, rfl, rfl⟩

/-- The trap's record is the last one parked in the group's partition. -/
theorem trapMe_mesh_parks :
    ∃ n, ((trapMe s e).part s.myP).parks =
      (s.part s.myP).parks ++ [{ slot := n, who := .group s.me.key, words := recordWords s s.me e }] := by
  rw [trapMe_mesh hmesh]
  exact fileRecord_parks _ _ _ _ _

end

/-! ### The control cores restart (R352, R446) -/

@[simp] theorem Mem.setSched_dev (bs : List Byte) : ∀ (m : Mem) (a : Nat), (m.setSched a bs).dev = m.dev := by
  induction bs with
  | nil => exact fun _ _ => rfl
  | cons b t ih => exact fun m a => ih _ (a + 1)

/-- The scheduler memory alone takes the watchdog's record. -/
theorem restartCores_dev (s : State) (slot : Bool) (cause : Nat) : (restartCores s slot cause).mem.dev = s.mem.dev := by
  simp only [restartCores, startCores, State.modGroups]
  split
  · exact Mem.setSched_dev _ _ _
  · rfl

/-- Every control core that `startCores` leaves has just been started. -/
theorem eq_bootGroup_of_mem_startCores {s : State} {entry : Nat} {cause : Word} {g : Group}
    (hg : g ∈ (startCores s entry cause).groups) (hctl : g.isControl = true) : ∃ c, g = bootGroup c entry cause := by
  have hboot : ∀ x : Group, g = (if x.isControl then bootGroup x.key entry cause else x) →
      ∃ c, g = bootGroup c entry cause := by
    intro x hx
    split at hx
    · exact ⟨x.key, hx⟩
    · next hno => exact absurd (hx ▸ hctl) hno
  simp only [startCores, State.groups, State.modGroups, List.mem_cons, List.mem_append, List.mem_map] at hg
  rcases hg with hme | ⟨x, -, hrest⟩ | ⟨c, -, hnew⟩
  · exact hboot s.me hme
  · exact hboot x hrest.symm
  · exact ⟨c, hnew.symm⟩

/-- What a restart writes of Zalius: neither slot's image. -/
theorem restartCores_zal (s : State) (slot : Bool) (cause : Nat) :
    let z := (restartCores s slot cause).zal
    z.active = slot ∧ z.requests = [] ∧ z.replies = [] ∧ z.slot slot = s.zal.slot slot := by
  simp only [restartCores, startCores, State.modGroups]
  split
  · exact ⟨rfl, rfl, rfl, rfl⟩
  · split <;> exact ⟨rfl, rfl, rfl, rfl⟩

theorem restartCores_restarted (s : State) (slot : Bool) (cause : Nat) : restarted (restartCores s slot cause) slot := by
  obtain ⟨hactive, hrequests, hreplies, himage⟩ := restartCores_zal s slot cause
  refine ⟨hactive, hrequests, hreplies, fun g hg hctl => ?_⟩
  obtain ⟨c, rfl⟩ := eq_bootGroup_of_mem_startCores hg hctl
  rw [himage]
  exact ⟨rfl, rfl, rfl, rfl, rfl⟩

/-- A trap of a control core restarts the cores, in the previous slot while the window of a slot switch is open. -/
theorem trapMe_control {s : State} (hctl : s.me.isControl = true) (e : Trap) :
    ∃ cause, trapMe s e = restartCores s (if s.zal.windowOpen then s.zal.prev else s.zal.active) cause := by
  rw [trapMe, if_pos hctl, watchdogTrap]
  split
  · exact ⟨2, rfl⟩
  · exact ⟨4, rfl⟩

end Sys2Proof.Machine

open Sys2Proof Sys2Proof.Machine in
/-- Settles O11: every instruction with a list of roles is issued under it, so that a group with another role traps before the
instruction's effect; the rest is what the trap does. -/
theorem roleTrap : Obligations.RoleTrap := by
  unfold Obligations.RoleTrap
  intro i s rs hroles hrole
  obtain ⟨e, hexec, hcodes⟩ := (exec_issuedFor s hroles).traps hrole
  refine ⟨fun hmesh => ⟨_, hexec, ?_⟩, fun hctl => ⟨_, hexec, ?_⟩⟩
  · obtain ⟨hcode, hcause⟩ := hcodes hmesh
    obtain ⟨hme, hmem, hgangs, hcores⟩ := trapMe_mesh_frame hmesh e
    obtain ⟨n, hparks⟩ := trapMe_mesh_parks hmesh e
    have hword : wordAt (recordWords s s.me e) 0 = w64 (2 * 2 ^ 56) := by
      simp [wordAt_recordWords_zero, hcode, hcause]
    simp only [hme, Group.parked_status, Group.parked_regs, Group.parked_hist, Group.parked_at_, true_and]
    exact ⟨hmem, hgangs, hcores, _, hparks, rfl, hword, wordAt_recordWords_one s s.me e⟩
  · obtain ⟨cause, hrestart⟩ := trapMe_control hctl e
    rw [hrestart]
    exact ⟨restartCores_dev s _ cause, restartCores_restarted s _ cause⟩

end

section
/-! Integers of W bits (R325): the model's arithmetic on numbers, and the same results as bit vectors of W bits, which the
results of class 0 are stated in (R328, R329, R332, R333). -/

namespace Sys2Proof.Machine

open Sys2Proof.Terms

/-! ### Numbers and bit vectors -/

theorem sext_eq_toInt (w n : Nat) : sext w n = (BitVec.ofNat w n).toInt := by
  have hhalf : n % 2 ^ w < 2 ^ (w - 1) ↔ 2 * (n % 2 ^ w) < 2 ^ w := by
    cases w with
    | zero => simp [Nat.mod_one]
    | succ w => rw [Nat.add_sub_cancel, Nat.pow_succ']; omega
  rw [BitVec.toInt_eq_toNat_cond, BitVec.toNat_ofNat, sext]
  simp only [hhalf]
  norm_cast

theorem ofNat_wrap (w : Nat) (i : Int) : BitVec.ofNat w (wrap w i) = BitVec.ofInt w i := by
  apply BitVec.eq_of_toNat_eq
  have hlt : (i % 2 ^ w).toNat < 2 ^ w := by
    have := Int.emod_lt_of_pos i (b := 2 ^ w) (by positivity)
    have := Int.emod_nonneg i (b := 2 ^ w) (by positivity)
    zify
    omega
  rw [BitVec.toNat_ofNat, BitVec.toNat_ofInt, wrap, Nat.mod_eq_of_lt hlt]
  norm_cast

theorem bitAt_eq_shiftLeft (n : Nat) : bitAt n = 1#64 <<< n := by
  rw [bitAt, w64, ← Nat.one_shiftLeft]
  exact BitVec.eq_of_toNat_eq (by simp)

theorem w64_mul_two_pow (n k : Nat) : w64 (n * 2 ^ k) = BitVec.ofNat 64 n <<< k :=
  BitVec.eq_of_toNat_eq (by simp [w64, Nat.shiftLeft_eq])

/-- The upper half of a product of 2W bits is its quotient by 2 ^ W. -/
theorem extractLsb'_ofInt_upper (w : Nat) (z : Int) :
    (BitVec.ofInt (2 * w) z).extractLsb' w w = BitVec.ofInt w (z / 2 ^ w) := by
  have hpos : (0 : Int) < 2 ^ w := by positivity
  have hupper : z / 2 ^ w % 2 ^ w = z % (2 ^ w * 2 ^ w) / 2 ^ w % 2 ^ w := by
    conv_lhs => rw [← Int.emod_add_mul_ediv z (2 ^ w * 2 ^ w)]
    rw [Int.mul_assoc, Int.add_mul_ediv_left _ _ hpos.ne', Int.add_mul_emod_self_left]
  have hnonneg : 0 ≤ z % (2 ^ w * 2 ^ w) := Int.emod_nonneg _ (by positivity)
  have hnonneg' : 0 ≤ z / 2 ^ w % 2 ^ w := Int.emod_nonneg _ hpos.ne'
  apply BitVec.eq_of_toNat_eq
  rw [BitVec.extractLsb'_toNat, Nat.shiftRight_eq_div_pow, BitVec.toNat_ofInt, BitVec.toNat_ofInt]
  zify
  rw [two_mul, pow_add, Int.toNat_of_nonneg hnonneg, Int.toNat_of_nonneg hnonneg', hupper]

/-! ### Rotations -/

theorem ofNat_rotl {w : Nat} (a n : Nat) : BitVec.ofNat w (rotl w a n) = (BitVec.ofNat w a).rotateLeft n := by
  rcases Nat.eq_zero_or_pos w with rfl | hpos
  · exact Subsingleton.elim _ _
  let x := a % 2 ^ w
  let k := n % w
  have hk : k < w := Nat.mod_lt n hpos
  have hpow : 2 ^ w = 2 ^ k * 2 ^ (w - k) := by rw [← pow_add, Nat.add_sub_of_le hk.le]
  have hlow : 2 ^ k * x % 2 ^ w = 2 ^ k * (x % 2 ^ (w - k)) := by rw [hpow, Nat.mul_mod_mul_left]
  have hhigh : x / 2 ^ (w - k) < 2 ^ k :=
    Nat.div_lt_of_lt_mul (by rw [mul_comm, ← hpow]; exact Nat.mod_lt _ (by positivity))
  have hor : 2 ^ k * x % 2 ^ w + x / 2 ^ (w - k) = 2 ^ k * x % 2 ^ w ||| x / 2 ^ (w - k) := by
    rw [hlow, Nat.two_pow_add_eq_or_of_lt hhigh]
  have hlt : 2 ^ k * x % 2 ^ w + x / 2 ^ (w - k) < 2 ^ w :=
    hor ▸ Nat.or_lt_two_pow (Nat.mod_lt _ (by positivity)) ((Nat.div_le_self _ _).trans_lt (Nat.mod_lt _ (by positivity)))
  apply BitVec.eq_of_toNat_eq
  rw [BitVec.toNat_ofNat, BitVec.toNat_rotateLeft, Nat.shiftLeft_eq, Nat.shiftRight_eq_div_pow, BitVec.toNat_ofNat]
  change (x * 2 ^ k + x / 2 ^ (w - k)) % 2 ^ w % 2 ^ w = x * 2 ^ k % 2 ^ w ||| x / 2 ^ (w - k)
  rw [Nat.mod_mod, mul_comm x, ← hor, ← Nat.mod_add_mod, Nat.mod_eq_of_lt hlt]

theorem rotateLeft_sub_eq_rotateRight {w r : Nat} (x : BitVec w) (hr : r < w) :
    x.rotateLeft (w - r) = x.rotateRight r := by
  rw [BitVec.rotateLeft_def, BitVec.rotateRight_def, Nat.mod_eq_of_lt hr]
  rcases Nat.eq_zero_or_pos r with rfl | hpos
  · ext i
    simp
  · rw [Nat.mod_eq_of_lt (by omega : w - r < w), Nat.sub_sub_self hr.le, BitVec.or_comm]

/-! ### Counts of bits (R329) -/

theorem clzN_toNat {w : Nat} (v : BitVec w) (n : Nat) : clzN v.toNat n = zerosIn v (List.range n).reverse := by
  induction n with
  | zero => rfl
  | succ n ih =>
    rw [clzN, ih, BitVec.testBit_toNat, List.range_succ, List.reverse_append]
    cases hbit : v.getLsbD n <;> simp [zerosIn, hbit, Nat.add_comm]

/-- Bit `k` of a number is the parity of what is left above the bits below it. -/
theorem getLsbD_iff_div_mod {w : Nat} (v : BitVec w) (k : Nat) : v.getLsbD k = true ↔ v.toNat / 2 ^ k % 2 = 1 := by
  rw [← BitVec.testBit_toNat, Nat.testBit_eq_decide_div_mod_eq, decide_eq_true_iff]

theorem ctzN_toNat_from {w : Nat} (v : BitVec w) (n : Nat) :
    ∀ k, ctzN (v.toNat / 2 ^ k) n = zerosIn v (List.range' k n) := by
  induction n with
  | zero => exact fun _ => rfl
  | succ n ih =>
    intro k
    rw [ctzN, Nat.div_div_eq_div_mul, ← Nat.pow_succ, ih, List.range'_succ]
    cases hbit : v.getLsbD k <;> simp [zerosIn, hbit, ← getLsbD_iff_div_mod, Nat.add_comm]

theorem popN_toNat_from {w : Nat} (v : BitVec w) (n : Nat) :
    ∀ k, popN (v.toNat / 2 ^ k) n = ((List.range' k n).filter v.getLsbD).length := by
  induction n with
  | zero => exact fun _ => rfl
  | succ n ih =>
    intro k
    rw [popN, Nat.div_div_eq_div_mul, ← Nat.pow_succ, ih, List.range'_succ]
    have hparity := getLsbD_iff_div_mod v k
    cases hbit : v.getLsbD k
    · have : v.toNat / 2 ^ k % 2 = 0 := by simp [hbit] at hparity; omega
      simp [hbit, this]
    · simp [hbit, hparity.mp hbit, Nat.add_comm]

theorem ctzN_toNat {w : Nat} (v : BitVec w) (n : Nat) : ctzN v.toNat n = zerosIn v (List.range n) := by
  simpa [List.range_eq_range'] using ctzN_toNat_from v n 0

theorem popN_toNat {w : Nat} (v : BitVec w) (n : Nat) : popN v.toNat n = ((List.range n).filter v.getLsbD).length := by
  simpa [List.range_eq_range'] using popN_toNat_from v n 0

end Sys2Proof.Machine

namespace Sys2Proof.ITy

open Sys2Proof.Machine Sys2Proof.Terms

/-! ### The types of class 0 (R325) -/

theorem w_pos (t : ITy) : 0 < t.w := by
  have hle : ∀ n : Fin 4, 2 ^ n.val ≤ 64 := by decide
  exact Nat.div_pos (hle t.wid) (by positivity)

theorem w_le (t : ITy) : t.w ≤ 64 := Nat.div_le_self _ _

section
variable (t : ITy) (a b : Word)

@[simp] theorem nat_eq_toNat_low : t.nat a = (low t a).toNat := (BitVec.toNat_setWidth _ _).symm

theorem int_eq_low : t.int a = if t.un then ((low t a).toNat : Int) else (low t a).toInt := by
  rw [ITy.int, nat_eq_toNat_low, sext_eq_toInt, BitVec.ofNat_toNat, low]

@[simp] theorem ext_eq_wide (r : Nat) : t.ext r = wide t (BitVec.ofNat t.w r) := by
  rw [ITy.ext, wide, sext_eq_toInt, ← BitVec.ofNat_toNat, BitVec.toNat_ofNat]
  rfl

@[simp] theorem res_eq_wide (i : Int) : t.res i = wide t (BitVec.ofInt t.w i) := by
  rw [ITy.res, ext_eq_wide, ofNat_wrap]

@[simp] theorem ofInt_int : BitVec.ofInt t.w (t.int a) = low t a := by
  rw [int_eq_low]
  split <;> simp

theorem ofNat_toNat_eq_low : BitVec.ofNat t.w a.toNat = low t a := BitVec.ofNat_toNat _ _

/-! ### Results of W bits (R328, R329) -/

theorem ext_word (v : Word) : t.ext v.toNat = wide t (low t v) := by
  rw [ext_eq_wide, ofNat_toNat_eq_low]

theorem ext_and : t.ext (a &&& b).toNat = wide t (low t a &&& low t b) := by
  rw [ext_word, low, BitVec.setWidth_and]
  rfl

theorem ext_or : t.ext (a ||| b).toNat = wide t (low t a ||| low t b) := by
  rw [ext_word, low, BitVec.setWidth_or]
  rfl

theorem ext_xor : t.ext (a ^^^ b).toNat = wide t (low t a ^^^ low t b) := by
  rw [ext_word, low, BitVec.setWidth_xor]
  rfl

theorem ext_not : t.ext (~~~a).toNat = wide t (~~~low t a) := by
  rw [ext_word, low, BitVec.setWidth_not t.w_le]
  rfl

theorem ext_andn : t.ext (a &&& ~~~b).toNat = wide t (low t a &&& ~~~low t b) := by
  rw [ext_and, low, low, BitVec.setWidth_not t.w_le]
  rfl

theorem ext_nat : t.ext (t.nat a) = wide t (low t a) := by
  rw [ext_eq_wide, nat_eq_toNat_low, BitVec.ofNat_toNat, BitVec.setWidth_eq]

theorem res_int : t.res (t.int a) = wide t (low t a) := by
  rw [res_eq_wide, ofInt_int]

theorem res_add : t.res (t.int a + t.int b) = wide t (low t a + low t b) := by
  rw [res_eq_wide, BitVec.ofInt_add, ofInt_int, ofInt_int]

theorem res_sub : t.res (t.int a - t.int b) = wide t (low t a - low t b) := by
  rw [res_eq_wide, Int.sub_eq_add_neg, BitVec.ofInt_add, BitVec.ofInt_neg, ofInt_int, ofInt_int, BitVec.sub_eq_add_neg]

theorem res_neg : t.res (-t.int a) = wide t (-low t a) := by
  rw [res_eq_wide, BitVec.ofInt_neg, ofInt_int]

theorem res_mul : t.res (t.int a * t.int b) = wide t (low t a * low t b) := by
  rw [res_eq_wide, BitVec.ofInt_mul, ofInt_int, ofInt_int]

theorem mulh_eq : t.mulh a b = wide t (highW t (low t a) (low t b)) := by
  rw [ITy.mulh, res_eq_wide, ← extractLsb'_ofInt_upper, BitVec.ofInt_mul, int_eq_low, int_eq_low, highW]
  split
  · simp only [BitVec.ofInt_natCast, BitVec.ofNat_toNat]
  · rfl

theorem int_eq_zero_iff : t.int b = 0 ↔ low t b = 0 := by
  rw [int_eq_low]
  split
  · exact Int.natCast_eq_zero.trans (BitVec.toNat_eq (y := 0)).symm
  · rw [← BitVec.toInt_inj, BitVec.ofNat_eq_ofNat, BitVec.toInt_zero]

/-- Away from a zero divisor the quotient is rounded toward zero, and wraps where it does not fit. -/
theorem quot_eq : t.quot a b = wide t (quotW t (low t a) (low t b)) := by
  rw [ITy.quot, quotW]
  simp only [int_eq_zero_iff, res_eq_wide]
  split
  · rw [BitVec.ofInt_neg, BitVec.ofInt_ofNat, BitVec.neg_one_eq_allOnes]
  · rw [int_eq_low, int_eq_low]
    split
    · rw [← Int.ofNat_tdiv, BitVec.ofInt_natCast, BitVec.udiv_def]
    · have hwrap : BitVec.ofInt t.w ((low t a).toInt.tdiv (low t b).toInt) = (low t a).sdiv (low t b) :=
        BitVec.eq_of_toInt_eq (by rw [BitVec.toInt_ofInt, BitVec.toInt_sdiv])
      rw [hwrap]

theorem rem_eq : t.rem a b = wide t (remW t (low t a) (low t b)) := by
  rw [ITy.rem, remW]
  simp only [int_eq_zero_iff, res_eq_wide, ofInt_int]
  split
  · rfl
  · rw [int_eq_low, int_eq_low]
    split
    · rw [← Int.ofNat_tmod, BitVec.ofInt_natCast, BitVec.umod_def]
    · rw [← BitVec.toInt_srem, BitVec.ofInt_toInt]

theorem shl_eq : t.shl a b = wide t (low t a <<< (b.toNat % t.w)) := by
  rw [ITy.shl, ext_eq_wide, nat_eq_toNat_low, ← Nat.shiftLeft_eq]
  rfl

theorem shr_eq : t.shr a b = wide t (low t a >>> (b.toNat % t.w)) := by
  rw [ITy.shr, ext_eq_wide, nat_eq_toNat_low, ← Nat.shiftRight_eq_div_pow, ← BitVec.toNat_ushiftRight, BitVec.ofNat_toNat,
    BitVec.setWidth_eq]

theorem sar_eq : t.sar a b = wide t ((low t a).sshiftRight (b.toNat % t.w)) := by
  rw [ITy.sar, res_eq_wide, sext_eq_toInt, ofNat_toNat_eq_low, BitVec.sshiftRight, Int.shiftRight_eq_div_pow]
  norm_cast

theorem rol_eq : t.rol a b = wide t ((low t a).rotateLeft (b.toNat % t.w)) := by
  rw [ITy.rol, ext_eq_wide, ofNat_rotl, ofNat_toNat_eq_low, BitVec.rotateLeft_mod_eq_rotateLeft]

theorem ror_eq : t.ror a b = wide t ((low t a).rotateRight (b.toNat % t.w)) := by
  rw [ITy.ror, ext_eq_wide, ofNat_rotl, ofNat_toNat_eq_low, rotateLeft_sub_eq_rotateRight _ (Nat.mod_lt _ t.w_pos)]

theorem int_le_int_iff : t.int a ≤ t.int b ↔ below t (low t a) (low t b) = true := by
  rw [int_eq_low, int_eq_low, below]
  split
  · simp [BitVec.ule]
  · simp [BitVec.sle]

theorem min_eq : t.min a b = wide t (if below t (low t a) (low t b) then low t a else low t b) := by
  simp only [ITy.min, int_le_int_iff, res_int, apply_ite (wide t)]

theorem max_eq : t.max a b = wide t (if below t (low t a) (low t b) then low t b else low t a) := by
  simp only [ITy.max, int_le_int_iff, res_int, apply_ite (wide t)]

theorem ext_clz : t.ext (clzN (t.nat a) t.w) = wide t (BitVec.ofNat t.w (zerosIn (low t a) (List.range t.w).reverse)) := by
  rw [ext_eq_wide, nat_eq_toNat_low, clzN_toNat]

theorem ext_ctz : t.ext (ctzN (t.nat a) t.w) = wide t (BitVec.ofNat t.w (zerosIn (low t a) (List.range t.w))) := by
  rw [ext_eq_wide, nat_eq_toNat_low, ctzN_toNat]

theorem ext_popc :
    t.ext (popN (t.nat a) t.w) = wide t (BitVec.ofNat t.w ((List.range t.w).filter (low t a).getLsbD).length) := by
  rw [ext_eq_wide, nat_eq_toNat_low, popN_toNat]

end

end Sys2Proof.ITy

namespace Sys2Proof

open Sys2Proof.Machine Sys2Proof.Terms

/-! ### Fields (R333) -/

theorem bext_eq (a : Word) (pos lenm : Nat) (un : Bool) :
    bext a pos lenm un =
      if un then (a.extractLsb' pos (lenm + 1)).setWidth 64 else (a.extractLsb' pos (lenm + 1)).signExtend 64 := by
  have hfield : a.extractLsb' pos (lenm + 1) = BitVec.ofNat (lenm + 1) (a.toNat / 2 ^ pos % 2 ^ (lenm + 1)) := by
    rw [← Nat.shiftRight_eq_div_pow, ← BitVec.extractLsb'_toNat, BitVec.ofNat_toNat, BitVec.setWidth_eq]
  rw [bext, hfield, sext_eq_toInt, ← BitVec.ofNat_toNat (m := 64), BitVec.toNat_ofNat, Nat.mod_mod]
  rfl

theorem w64_mask_eq (pos n : Nat) : w64 ((2 ^ n - 1) * 2 ^ pos) = maskAt pos n := by
  rw [w64_mul_two_pow, maskAt, ← BitVec.toNat_allOnes, BitVec.ofNat_toNat]

theorem bins_eq (d a : Word) (pos lenm : Nat) :
    bins d a pos lenm = (d &&& ~~~maskAt pos (lenm + 1)) ||| ((a <<< pos) &&& maskAt pos (lenm + 1)) := by
  rw [bins, w64_mask_eq, w64_mul_two_pow, BitVec.ofNat_toNat, BitVec.setWidth_eq]

end Sys2Proof
end

section
/-! The scalar results of class 0 (R322, R323, R328, R329): every row completes with its result in D. -/

namespace Sys2Proof.Machine

open Sys2Proof.Terms

/-! ### What a ready instruction does in a calm state -/

/-- An instruction that is no horizon, finds nothing of its own, meets no check of R302 and writes registers alone completes:
its effect, and the group settled. -/
theorem issue_of_ready {f : Info} {cs : List Crumb} {eff : State → State} {s : State} (hnames : f.names = [])
    (hquota : f.quota = []) (hplain : f.horizon = false)
    (hready : Ready s f.roles (f.h.gr :: f.reads ++ f.writes) (f.h.gr :: f.reads) cs = true) (hcalm : Calm s = true)
    (hwrites : ∀ t, ∃ r, eff t = t.modMe fun g => { g with regs := r }) :
    issue f { crumbs := cs } eff s =
      .next ((eff (s.modMe (·.advance cs))).modMe (·.settle f.h.mark (awaitedOf s f.writes))) := by
  simp only [Calm, Bool.and_eq_true, Bool.not_eq_true'] at hcalm
  obtain ⟨⟨hstep, hproof⟩, hdet⟩ := hcalm
  obtain ⟨r, hr⟩ := hwrites (s.modMe (·.advance cs))
  rw [← List.append_nil (f.h.gr :: f.reads ++ f.writes), ← hnames] at hready
  rw [issue_of_none (stopOf_none hquota hready (.inl hproof) rfl rfl rfl rfl (.inl hdet) rfl) (holds_free hdet),
    complete_plain hplain hdet (by rw [hr]; rfl) (by rw [hr]; exact hstep)]

/-- What settles a group leaves its registers alone, so that it does not matter whether D is written before or after. -/
theorem putS_modMe_settle (s : State) (d : Reg) (v : SVal) (mark : Bool) (new : List Awaited) :
    (putS s d v).modMe (·.settle mark new) = putS (s.modMe (·.settle mark new)) d v := by
  cases d <;> rfl

/-! ### The instructions of one scalar result -/

/-- The operands of a scalar instruction in the order of R323: what it reads, and its guard. -/
def operandsS (s : State) (h : Hd) (reads : List Reg) : List SVal := reads.map (srcS s) ++ [srcS s h.gr]

/-- The crumb of a scalar instruction: none when its pattern is invertible and holds no poison (R121). -/
def resultCrumbs (s : State) (h : Hd) (d : Reg) (reads : List Reg) (inv : Bool) : List Crumb :=
  if inv && !mustPush s h d reads then [] else crumbS s d ((operandsS s h reads).any (·.p))

/-- A ready scalar instruction completes, with its result in D when the guard passes (R322). -/
theorem scalarDo_of_ready {h : Hd} {d : Reg} {reads : List Reg} {inv : Bool} {v : Word} {s : State}
    (hready : Ready s rolesAll (h.gr :: reads ++ [d]) (h.gr :: reads) (resultCrumbs s h d reads inv) = true)
    (hcalm : Calm s = true) :
    scalarDo h d reads inv v s =
      .next (if guardS s h then putS (s.stepped h.mark (resultCrumbs s h d reads inv) [d]) d (withPoison v (operandsS s h reads))
        else s.stepped h.mark (resultCrumbs s h d reads inv) [d]) := by
  have hwrites : ∀ t, ∃ r, (if guardS s h then putS t d (withPoison v (operandsS s h reads)) else t) =
      t.modMe fun g => { g with regs := r } := by
    intro t
    split
    · obtain ⟨r, hr⟩ := putS_eq t d (withPoison v (operandsS s h reads))
      exact ⟨{ t.me.regs with s := r }, hr⟩
    · exact ⟨t.me.regs, rfl⟩
  refine (issue_of_ready rfl rfl rfl hready hcalm hwrites).trans ?_
  split
  · rw [putS_modMe_settle]
    rfl
  · rfl

theorem updAB_eq_updatesEither (d a b : Reg) : updAB d a b = updatesEither d a b :=
  (Bool.and_or_distrib_right _ _ _).symm

/-- Every row of class 0 is issued as a scalar instruction with the row's operands, pattern and result. -/
theorem exec_scalarRow {i : Instr} {s : State} {r : Row} (hrow : scalarRow (fun q => (srcS s q).v) i = some r) :
    exec i s = scalarDo r.h r.d r.reads r.inv r.val s := by
  cases i with cases hrow
  | add h t d a b => exact congrArg₂ (scalarDo h d [a, b] · · s) (by rw [updAB_eq_updatesEither]) (t.res_add _ _)
  | xor h t d a b => exact congrArg₂ (scalarDo h d [a, b] · · s) (by rw [updAB_eq_updatesEither]) (t.ext_xor _ _)
  | sub h t d a b => exact congrArg (scalarDo h d [a, b] _ · s) (t.res_sub _ _)
  | addi | mulodd => rfl
  | mul h t d a b => exact congrArg (scalarDo h d [a, b] _ · s) (t.res_mul _ _)
  | mulh h t d a b => exact congrArg (scalarDo h d [a, b] _ · s) (t.mulh_eq _ _)
  | div h t d a b => exact congrArg (scalarDo h d [a, b] _ · s) (t.quot_eq _ _)
  | rem h t d a b => exact congrArg (scalarDo h d [a, b] _ · s) (t.rem_eq _ _)
  | and h t d a b => exact congrArg (scalarDo h d [a, b] _ · s) (t.ext_and _ _)
  | or h t d a b => exact congrArg (scalarDo h d [a, b] _ · s) (t.ext_or _ _)
  | andn h t d a b => exact congrArg (scalarDo h d [a, b] _ · s) (t.ext_andn _ _)
  | not h t d a => exact congrArg (scalarDo h d [a] _ · s) (t.ext_not _)
  | neg h t d a => exact congrArg (scalarDo h d [a] _ · s) (t.res_neg _)
  | shl h t d a b => exact congrArg (scalarDo h d [a, b] _ · s) (t.shl_eq _ _)
  | shr h t d a b => exact congrArg (scalarDo h d [a, b] _ · s) (t.shr_eq _ _)
  | sar h t d a b => exact congrArg (scalarDo h d [a, b] _ · s) (t.sar_eq _ _)
  | rol h t d a b => exact congrArg (scalarDo h d [a, b] _ · s) (t.rol_eq _ _)
  | ror h t d a b => exact congrArg (scalarDo h d [a, b] _ · s) (t.ror_eq _ _)
  | clz h t d a => exact congrArg (scalarDo h d [a] _ · s) (t.ext_clz _)
  | ctz h t d a => exact congrArg (scalarDo h d [a] _ · s) (t.ext_ctz _)
  | popc h t d a => exact congrArg (scalarDo h d [a] _ · s) (t.ext_popc _)
  | min h t d a b => exact congrArg (scalarDo h d [a, b] _ · s) (t.min_eq _ _)
  | max h t d a b => exact congrArg (scalarDo h d [a, b] _ · s) (t.max_eq _ _)
  | mov h t d a => exact congrArg (scalarDo h d [a] _ · s) (t.ext_nat _)
  | bflip h n d a b => exact congrArg (scalarDo h d [a, b] _ · s) (by rw [bitAt_eq_shiftLeft, bitIndex])
  | bext h pos lenm un d a => exact congrArg (scalarDo h d [a] _ · s) (bext_eq _ _ _ _)
  | bins h pos lenm d a => exact congrArg (scalarDo h d [a, d] _ · s) (bins_eq _ _ _ _)

end Sys2Proof.Machine

open Sys2Proof.Machine in
/-- Settles O13: every row is issued as a scalar instruction with the row's result, and one that is ready completes. -/
theorem scalarResults : Obligations.ScalarResults := by
  unfold Obligations.ScalarResults
  intro i s r hrow vs cs hready hcalm
  rw [exec_scalarRow hrow]
  exact scalarDo_of_ready hready hcalm

end
